-- ==== Sys2Proof/Word.lean ====
section
/-!
DEFINITION. The word types of the machine (spec/00_scope.md R1, spec/02_numbers.md R23): bytes, 32-bit words, 64-bit words and
lane masks. Arithmetic on them is that of `BitVec`; bit-field helpers stand in Sys2Proof/Machine/Bits.lean.
-/
namespace Sys2Proof

/-- One byte of memory (R1). -/
abbrev Byte := BitVec 8

/-- A 32-bit lane value (R73, R102). -/
abbrev Word := BitVec 32

/-- A 64-bit uniform value (R116). -/
abbrev Dword := BitVec 64

/-- A lane mask of an issue group: bit l for lane l, 128 lanes at most (R72, R83). -/
abbrev Mask := BitVec 128

/-- One 9-bit operand name (R53). -/
abbrev Name := BitVec 9

end Sys2Proof
end

