-- ==== Sys2Proof/Syntax.lean ====
section
/-!
DEFINITION. The syntax of the machine: the fields of a LIS-3 instruction (spec/03_encoding.md R45), operand names (R53), the data that
outside agents bring in their events, and `Instr`, one constructor per row of spec/opcode_table.json. A LIS-3 instruction carries its
fields as fetched, because the device itself hands an instruction it does not execute to the emulation handler field by field
(spec/19_traps.md R449, R452); what a name or a modifier means is read from them by `Operand.ofName` and by each meaning.
-/
namespace Sys2Proof

/-- The fields of a LIS-3 instruction apart from OPC, which the constructor of `Instr` stands for (R45). `ext` holds bits 127:64: the
trailing immediate, address word or descriptor word, with bits 127:96 zero in the 96-bit form and all zero in the 64-bit form. -/
structure Fields where
  len : BitVec 2
  role : BitVec 3
  preg : BitVec 3
  pneg : BitVec 1
  lr : BitVec 3
  mod : BitVec 7
  dst : Name
  s0 : Name
  s1 : Name
  s2 : Name
  ext : Dword
  opc : BitVec 9
deriving DecidableEq, Repr

/-- What a 9-bit operand name denotes on a wave or the matrix sequencer (R53 to R55). -/
inductive Operand where
  /-- v0 to v255 -/
  | v (n : Nat)
  /-- k0 to k63; on an access processor its a registers -/
  | k (n : Nat)
  /-- q0 to q15 -/
  | q (n : Nat)
  /-- p0 to p7 -/
  | p (n : Nat)
  /-- a special value, numbered from name 344 (R55) -/
  | special (n : Nat)
  /-- an inline constant, numbered from name 352 (R54) -/
  | const (n : Nat)
  /-- the reserved names 384 to 509 -/
  | reserved
  /-- IMM, name 510 -/
  | imm
  /-- NONE, name 511 -/
  | none
deriving DecidableEq, Repr

/-- What an access by a peer device asks (spec/22_system.md R500, R502): a load of some bytes, a store, the step of an atomic operation of a type
with its operand (R188, R207), or a compare-and-swap of 64 or 32 bits (R189). -/
inductive PeerOp where
  | load (n : Nat)
  | store (bytes : List Byte)
  | atomic (op : BitVec 3) (type : BitVec 4) (operand : Dword)
  | cas (wide : Bool) (compare new : Dword)
deriving DecidableEq, Repr

/-- A peer's access to this device: the partition it names and the offset in that partition's intermediate space (R502). -/
structure PeerAccess where
  partNo : BitVec 3
  poff : BitVec 40
  op : PeerOp
deriving DecidableEq, Repr

/-- One rank's part of an `XRED` (R506): its operation, its lane values, its active lanes, and whether the rank can be reached. -/
structure XContribution where
  rank : Nat
  op : BitVec 3
  values : List Word
  active : BitVec 32
  reachable : Bool
deriving DecidableEq, Repr

/-- A translation that the host's ATS reply grants (R225): the frame's address within the host port's space, and its permissions. -/
structure HostPage where
  pa : BitVec 52
  r : Bool
  w : Bool
  x : Bool := false
deriving DecidableEq, Repr

/-- The boot flash image (R19, R507): its header, which carries a version and the stages' digests, the header's signature, and the stages. -/
structure FlashImage where
  header : List Byte
  signature : List Byte
  stages : List (List Byte)
deriving DecidableEq, Repr

/-- A context that the runtime sets up in a partition (R192, R200, R214, R217, R225, R443): its identifier, its fixed addresses and
the first values of its registers. -/
structure ContextGrant where
  id : BitVec 16
  priv : Bool
  capblk : Dword
  vwbase : Dword
  winbase : Dword
  s1root : Dword
  hwbase : Dword
  hwlimit : Dword
  hwoff : Dword
  svmbase : Dword
  svmlimit : Dword
deriving DecidableEq, Repr

/-- What firmware grants a partition at its creation (R12, R13, R218, R467, R500, R506). -/
structure Grants where
  num : BitVec 3
  /-- cluster groups, bit g for group g -/
  groups : BitVec 16
  /-- HBM eighths, bit 8s + e -/
  hbm : BitVec 64
  links : BitVec 32
  taps : Nat
  vsplit : Nat
  prbase : Dword
  prlim : Dword
  s2root : Dword
  tapbase : Dword
  /-- where firmware writes the 512-byte capability block (R14) -/
  capPa : Dword
  /-- routes: device, partition and the granted links that reach them -/
  routes : List (Nat × Nat × BitVec 32)
  /-- XRED groups: number, rank count, own rank -/
  xgroups : List (Nat × Nat × Nat)
  devId : BitVec 7
  contexts : List ContextGrant
deriving DecidableEq, Repr

/-- Where a tensor copy stops at a fault (R265): the copy, and the elements beyond the fault point that the engine has written before it stops. -/
structure CopyStop where
  id : Nat
  ahead : List Nat := []
deriving DecidableEq, Repr

/-- A steal that the queue engine serves (R409): the core that asked for it, and the sub-queue and records that a policy other than the default
picks. -/
structure StealRequest where
  core : Nat
  policy : Option (Nat × List Nat) := none
deriving DecidableEq, Repr

/-- What a preemption by firmware names on a core (R426, R431): the slot whose bind record it sets PRE in, and where the save goes. -/
structure PreemptPlace where
  slot : BitVec 5
  area : BitVec 48 := 0#48
deriving DecidableEq, Repr

/-- The instructions of LIS-3, the instructions of the shuttle, and the steps that agents other than an instruction take: one
constructor per row of spec/opcode_table.json, in its order but for those without fields, which stand last. -/
inductive Instr where
  /-- NOP (R86). -/
  | nop (f : Fields)
  /-- BR (R88). -/
  | br (f : Fields)
  /-- BRU (R88). -/
  | bru (f : Fields)
  /-- BRD (R89). -/
  | brd (f : Fields)
  /-- JOIN (R90). -/
  | join (f : Fields)
  /-- CALL (R91). -/
  | call (f : Fields)
  /-- CALLX (R93). -/
  | callx (f : Fields)
  /-- RET (R94). -/
  | ret (f : Fields)
  /-- EXIT (R95). -/
  | exit (f : Fields)
  /-- YIELD (R96). -/
  | yield (f : Fields)
  /-- SLEEP (R97). -/
  | sleep (f : Fields)
  /-- MSKRD (R98). -/
  | mskrd (f : Fields)
  /-- MSKWR (R98). -/
  | mskwr (f : Fields)
  /-- REGROUP (R99). -/
  | regroup (f : Fields)
  /-- SRD (R100). -/
  | srd (f : Fields)
  /-- SWR (R101). -/
  | swr (f : Fields)
  /-- MCWIN_WRITE (R269). -/
  | mcwinWrite (n : BitVec 2) (v : Dword)
  /-- TBMASK_WRITE (R401). -/
  | tbmaskWrite (n : BitVec 1) (v : Dword)
  /-- BTEXP_WRITE (R404). -/
  | btexpWrite (n : BitVec 3) (v : Dword)
  /-- IADD (R143). -/
  | iadd (f : Fields)
  /-- IADDI (R143). -/
  | iaddi (f : Fields)
  /-- ISUB (R143). -/
  | isub (f : Fields)
  /-- IMUL (R144). -/
  | imul (f : Fields)
  /-- IMULH (R144). -/
  | imulh (f : Fields)
  /-- IMAD (R145). -/
  | imad (f : Fields)
  /-- IMADW (R145). -/
  | imadw (f : Fields)
  /-- ADDC (R146). -/
  | addc (f : Fields)
  /-- SUBB (R146). -/
  | subb (f : Fields)
  /-- IABS (R147). -/
  | iabs (f : Fields)
  /-- INEG (R147). -/
  | ineg (f : Fields)
  /-- IMIN (R148). -/
  | imin (f : Fields)
  /-- IMAX (R148). -/
  | imax (f : Fields)
  /-- ICMP (R149). -/
  | icmp (f : Fields)
  /-- SHL (R150). -/
  | shl (f : Fields)
  /-- SHR (R150). -/
  | shr (f : Fields)
  /-- SAR (R150). -/
  | sar (f : Fields)
  /-- ROT (R150). -/
  | rot (f : Fields)
  /-- AND (R151). -/
  | and (f : Fields)
  /-- OR (R151). -/
  | or (f : Fields)
  /-- XOR (R151). -/
  | xor (f : Fields)
  /-- ANDN (R151). -/
  | andn (f : Fields)
  /-- NOT (R151). -/
  | not (f : Fields)
  /-- BFX (R152). -/
  | bfx (f : Fields)
  /-- BFI (R152). -/
  | bfi (f : Fields)
  /-- BREV (R153). -/
  | brev (f : Fields)
  /-- POPC (R153). -/
  | popc (f : Fields)
  /-- CLZ (R153). -/
  | clz (f : Fields)
  /-- CTZ (R153). -/
  | ctz (f : Fields)
  /-- LEA (R154). -/
  | lea (f : Fields)
  /-- IDIV (R155). -/
  | idiv (f : Fields)
  /-- IREM (R155). -/
  | irem (f : Fields)
  /-- FADD (R158). -/
  | fadd (f : Fields)
  /-- FSUB (R158). -/
  | fsub (f : Fields)
  /-- FMUL (R158). -/
  | fmul (f : Fields)
  /-- FFMA (R158). -/
  | ffma (f : Fields)
  /-- FMIN (R159). -/
  | fmin (f : Fields)
  /-- FMAX (R159). -/
  | fmax (f : Fields)
  /-- FCMP (R160). -/
  | fcmp (f : Fields)
  /-- FCLASS (R161). -/
  | fclass (f : Fields)
  /-- FRCP (R162). -/
  | frcp (f : Fields)
  /-- FRSQ (R162). -/
  | frsq (f : Fields)
  /-- FSQRT (R162). -/
  | fsqrt (f : Fields)
  /-- FEXP2 (R162). -/
  | fexp2 (f : Fields)
  /-- FLOG2 (R162). -/
  | flog2 (f : Fields)
  /-- FSIN (R162). -/
  | fsin (f : Fields)
  /-- FCOS (R162). -/
  | fcos (f : Fields)
  /-- FTANH (R162). -/
  | ftanh (f : Fields)
  /-- FDIVS (R163). -/
  | fdivs (f : Fields)
  /-- FRND (R164). -/
  | frnd (f : Fields)
  /-- DOT4 (R165). -/
  | dot4 (f : Fields)
  /-- DOT2 (R165). -/
  | dot2 (f : Fields)
  /-- MOV (R123). -/
  | mov (f : Fields)
  /-- MOVI (R124). -/
  | movi (f : Fields)
  /-- MOVHI (R125). -/
  | movhi (f : Fields)
  /-- ADDPC (R125). -/
  | addpc (f : Fields)
  /-- BCAST (R126). -/
  | bcast (f : Fields)
  /-- SHFL (R127). -/
  | shfl (f : Fields)
  /-- SHFLX (R127). -/
  | shflx (f : Fields)
  /-- SHFLUP (R127). -/
  | shflup (f : Fields)
  /-- SHFLDN (R127). -/
  | shfldn (f : Fields)
  /-- VOTE (R128). -/
  | vote (f : Fields)
  /-- PFXSUM (R129). -/
  | pfxsum (f : Fields)
  /-- LRED (R130). -/
  | lred (f : Fields)
  /-- SAMPLE (R131). -/
  | sample (f : Fields)
  /-- SEL (R132). -/
  | sel (f : Fields)
  /-- FIRSTL (R133). -/
  | firstl (f : Fields)
  /-- KILL (R134). -/
  | kill (f : Fields)
  /-- PLOP (R135). -/
  | plop (f : Fields)
  /-- CVT (R167). -/
  | cvt (f : Fields)
  /-- CVTSC (R169). -/
  | cvtsc (f : Fields)
  /-- PACK (R170). -/
  | pack (f : Fields)
  /-- UNPACK (R170). -/
  | unpack (f : Fields)
  /-- LDS (R183). -/
  | lds (f : Fields)
  /-- STS (R183). -/
  | sts (f : Fields)
  /-- LDS_TAKE (R184). -/
  | ldsTake (f : Fields)
  /-- LDS_WAIT (R184). -/
  | ldsWait (f : Fields)
  /-- STS_FILL (R185). -/
  | stsFill (f : Fields)
  /-- SEMPTY (R187). -/
  | sempty (f : Fields)
  /-- ATOMS (R188). -/
  | atoms (f : Fields)
  /-- CASS (R189). -/
  | cass (f : Fields)
  /-- LD (R206). -/
  | ld (f : Fields)
  /-- LD_I12 (R206). -/
  | ldI12 (f : Fields)
  /-- ST (R206). -/
  | st (f : Fields)
  /-- ST_I12 (R206). -/
  | stI12 (f : Fields)
  /-- ATOM (R207). -/
  | atom (f : Fields)
  /-- CAS (R207). -/
  | cas (f : Fields)
  /-- RED (R207). -/
  | red (f : Fields)
  /-- FENCE (R208). -/
  | fence (f : Fields)
  /-- PREF (R209). -/
  | pref (f : Fields)
  /-- CCTL (R210). -/
  | cctl (f : Fields)
  /-- EVLOAD (R211). -/
  | evload (f : Fields)
  /-- EVSTEP (R211). -/
  | evstep (f : Fields)
  /-- WINBIND (R212). -/
  | winbind (f : Fields)
  /-- WINFREE (R212). -/
  | winfree (f : Fields)
  /-- ADDRQ (R229). -/
  | addrq (f : Fields)
  /-- PGMAP (R230). -/
  | pgmap (f : Fields)
  /-- PGPOOL (R231). -/
  | pgpool (f : Fields)
  /-- TLBINV (R232). -/
  | tlbinv (f : Fields)
  /-- CPY (R274). -/
  | cpy (f : Fields)
  /-- TCOPY (R276). -/
  | tcopy (f : Fields)
  /-- TCOPY_MC (R276). -/
  | tcopyMc (f : Fields)
  /-- CPWAIT (R277). -/
  | cpwait (f : Fields)
  /-- CPANY (R277). -/
  | cpany (f : Fields)
  /-- CPFIRST (R277). -/
  | cpfirst (f : Fields)
  /-- CPTEST (R277). -/
  | cptest (f : Fields)
  /-- CPSTAT (R278). -/
  | cpstat (f : Fields)
  /-- COPY_COMPLETE (R256). -/
  | copyComplete (id : Nat)
  /-- COPY_SUSPEND (R265). -/
  | copySuspend (id : CopyStop)
  /-- MMA (R311). -/
  | mma (f : Fields)
  /-- MMA_Q (R312). -/
  | mmaQ (f : Fields)
  /-- WBLOAD (R323). -/
  | wbload (f : Fields)
  /-- WBFREE (R323). -/
  | wbfree (f : Fields)
  /-- ACCZERO (R324). -/
  | acczero (f : Fields)
  /-- ACCLD (R325). -/
  | accld (f : Fields)
  /-- ACCST (R325). -/
  | accst (f : Fields)
  /-- ACCRD (R326). -/
  | accrd (f : Fields)
  /-- ACCWR (R326). -/
  | accwr (f : Fields)
  /-- ACCADD (R327). -/
  | accadd (f : Fields)
  /-- MXCLASS (R328). -/
  | mxclass (f : Fields)
  /-- MXWAIT (R329). -/
  | mxwait (f : Fields)
  /-- WB_PANEL_LOADED (R323). -/
  | wbPanelLoaded (h : BitVec 4)
  /-- WB_SPACE_RETURN (R323). -/
  | wbSpaceReturn (h : BitVec 4)
  /-- LBLLD (R348). -/
  | lblld (f : Fields)
  /-- RELLD (R349). -/
  | relld (f : Fields)
  /-- RELTEST (R350). -/
  | reltest (f : Fields)
  /-- SELV (R351). -/
  | selv (f : Fields)
  /-- TREELD (R352). -/
  | treeld (f : Fields)
  /-- LBLST (R353). -/
  | lblst (f : Fields)
  /-- TAP (R472). -/
  | tap (f : Fields)
  /-- STEER (R475). -/
  | steer (f : Fields)
  /-- TAPSTAT (R481). -/
  | tapstat (f : Fields)
  /-- TAPCLR (R482). -/
  | tapclr (f : Fields)
  /-- BAR (R414). -/
  | bar (f : Fields)
  /-- BARARR (R414). -/
  | bararr (f : Fields)
  /-- BARWAIT (R415). -/
  | barwait (f : Fields)
  /-- BARGEN (R415). -/
  | bargen (f : Fields)
  /-- SLATH_PHASE_COMPLETE (R404). -/
  | slathPhaseComplete (n : BitVec 3)
  /-- TQENQ (R416). -/
  | tqenq (f : Fields)
  /-- TQDEQ (R417). -/
  | tqdeq (f : Fields)
  /-- TASKEND (R418). -/
  | taskend (f : Fields)
  /-- DCINIT (R419). -/
  | dcinit (f : Fields)
  /-- DCDEC (R419). -/
  | dcdec (f : Fields)
  /-- QUEUE_ENGINE_STEAL (R409). -/
  | queueEngineSteal (q : BitVec 4) (requester : StealRequest)
  /-- LEASE_EXPIRY (R411). -/
  | leaseExpiry (ticket : Word)
  /-- LAUNCH (R420). -/
  | launch (f : Fields)
  /-- CROSS (R387). -/
  | cross (f : Fields)
  /-- LAP (R396). -/
  | lap (f : Fields)
  /-- DRIFT (R397). -/
  | drift (f : Fields)
  /-- PRKEND (R398). -/
  | prkend (f : Fields)
  /-- AFETCH (R292). -/
  | afetch (f : Fields)
  /-- APUSH (R293). -/
  | apush (f : Fields)
  /-- AOVL (R295). -/
  | aovl (f : Fields)
  /-- ALOOP (R296). -/
  | aloop (f : Fields)
  /-- ASTOP (R297). -/
  | astop (f : Fields)
  /-- QSTAT (R298). -/
  | qstat (f : Fields)
  /-- WINREAD (R299). -/
  | winread (f : Fields)
  /-- ASYNC (R300). -/
  | async (f : Fields)
  /-- STREAM_ENTRY_PUSH (R286). -/
  | streamEntryPush (id : Nat)
  /-- SHSTART (R376). -/
  | shstart (f : Fields)
  /-- SHWAIT (R377). -/
  | shwait (f : Fields)
  /-- CFIX (R378). -/
  | cfix (f : Fields)
  /-- HLD (R371). -/
  | hld (d a : BitVec 5) (w : BitVec 2) (i : BitVec 14)
  /-- HLDV (R362). -/
  | hldv (d a b : BitVec 5)
  /-- HADD_REG (R371). -/
  | haddReg (d a b : BitVec 5)
  /-- HADD_IMM (R371). -/
  | haddImm (d a : BitVec 5) (i : BitVec 15)
  /-- HSUB_REG (R371). -/
  | hsubReg (d a b : BitVec 5)
  /-- HSUB_IMM (R371). -/
  | hsubImm (d a : BitVec 5) (i : BitVec 15)
  /-- HSHL_REG (R371). -/
  | hshlReg (d a b : BitVec 5)
  /-- HSHL_IMM (R371). -/
  | hshlImm (d a : BitVec 5) (i : BitVec 15)
  /-- HAND_REG (R371). -/
  | handReg (d a b : BitVec 5)
  /-- HAND_IMM (R371). -/
  | handImm (d a : BitVec 5) (i : BitVec 15)
  /-- HCMP_REG (R371). -/
  | hcmpReg (d a : BitVec 5) (c : BitVec 3) (b : BitVec 5)
  /-- HCMP_IMM (R371). -/
  | hcmpImm (d a : BitVec 5) (c : BitVec 3) (i : BitVec 12)
  /-- HBR (R371). -/
  | hbr (a : BitVec 5) (d : BitVec 20)
  /-- HBR_Z (R371). -/
  | hbrZ (a : BitVec 5) (d : BitVec 20)
  /-- HJMP (R371). -/
  | hjmp (d : BitVec 26)
  /-- HLOOP (R371). -/
  | hloop (a : BitVec 5) (d : BitVec 20)
  /-- HPREF (R365). -/
  | hpref (n a : BitVec 5) (d : BitVec 14)
  /-- HROW (R360). -/
  | hrow (a : BitVec 5)
  /-- HTILE (R359). -/
  | htile (a b : BitVec 5)
  /-- HSCALE (R363). -/
  | hscale (d : BitVec 5)
  /-- HEMPTY (R360). -/
  | hempty (a : BitVec 5)
  /-- HMOV (R371). -/
  | hmov (d : BitVec 5) (i : BitVec 20)
  /-- HMOV_H (R371). -/
  | hmovH (d : BitVec 5) (i : BitVec 20)
  /-- XSEND (R504). -/
  | xsend (f : Fields)
  /-- XRECV (R505). -/
  | xrecv (f : Fields)
  /-- XRED (R506). -/
  | xred (f : Fields)
  /-- FABRIC_MESSAGE_ARRIVAL (R504). -/
  | fabricMessageArrival (chan : BitVec 4) (dev : BitVec 7) (srcPart : BitVec 3) (bytes : List Byte)
  /-- XRED_COMPLETE (R506). -/
  | xredComplete (group : BitVec 4) (ranks : List XContribution)
  /-- FABRIC_ACCESS (R502). -/
  | fabricAccess (a : PeerAccess)
  /-- FABRIC_REPLAY (R500). -/
  | fabricReplay (link : BitVec 5) (failed : Bool)
  /-- PRDONE (R439). -/
  | prdone (f : Fields)
  /-- CTXSAVE (R440). -/
  | ctxsave (f : Fields)
  /-- TRAP (R459). -/
  | trap (f : Fields)
  /-- ERET (R460). -/
  | eret (f : Fields)
  /-- OWR (R461). -/
  | owr (f : Fields)
  /-- OWW (R461). -/
  | oww (f : Fields)
  /-- EMUSET (R462). -/
  | emuset (f : Fields)
  /-- CTXREST (R464). -/
  | ctxrest (f : Fields)
  /-- BKPT (R465). -/
  | bkpt (f : Fields)
  /-- ICACHE_FILL (R383). -/
  | icacheFill (va : Dword)
  /-- LAUNCH_PACKET (R422), with the context of the partition that the launch runs in, which the packet does not name. -/
  | launchPacket (port : BitVec 1) (partNo : BitVec 3) (ctx : BitVec 16) (packet : List Byte)
  /-- LAUNCH_READY (R424). -/
  | launchReady (id : Nat)
  /-- LAUNCH_COMPLETE (R425). -/
  | launchComplete (id : Nat)
  /-- BIND_RECORD (R427), with the backing stores that the device operating system has allocated, none where it could not (R492). -/
  | bindRecord (core : BitVec 9) (slot : BitVec 5) (rec : BitVec 256) (stores : List Dword)
  /-- PREEMPT_REQUEST (R431). -/
  | preemptRequest (core : BitVec 9) (slot : PreemptPlace)
  /-- HSEMTK_READ (R499). -/
  | hsemtkRead (port : BitVec 1)
  /-- HSEMST_RELEASE (R499). -/
  | hsemstRelease (port : BitVec 1)
  /-- HOST_LINK_DOWN (R499). -/
  | hostLinkDown (port : BitVec 1)
  /-- PARTITION_CREATE (R12). -/
  | partitionCreate (port : BitVec 1) (g : Grants)
  /-- PARTITION_DESTROY (R499). -/
  | partitionDestroy (port : BitVec 1) (partNo : BitVec 3)
  /-- FIRMWARE_UPDATE (R499). -/
  | firmwareUpdate (port : BitVec 1) (image : FlashImage)
  /-- MODULE_RESET (R507). -/
  | moduleReset (port : BitVec 1)
  /-- ATTESTATION_REPORT (R508). -/
  | attestationReport (nonce : BitVec 256)
  /-- FLR (R497). -/
  | flr (port : BitVec 1) (vf : BitVec 4)
  /-- ATS_INVALIDATION (R225). -/
  | atsInvalidation (va : Dword) (pages : Nat)
  /-- PRI_RESPONSE (R225). -/
  | priResponse (va : Dword) (reply : Option HostPage)
  /-- UNDEFINED_INSTRUCTION (R63). -/
  | undefinedInstruction (f : Fields)
  /-- SHUTTLE_UNDEFINED_WORD (R374). -/
  | shuttleUndefinedWord (w : Word)
  /-- HOST_BAR_ACCESS (R498). -/
  | hostBarAccess (partNo : BitVec 3) (ipa : Dword) (store : Option (List Byte))
  /-- COPY_QUEUE_ROOM (R257). -/
  | copyQueueRoom
  /-- MX_QUEUE_ROOM (R305). -/
  | mxQueueRoom
  /-- MX_KSTEP (R314). -/
  | mxKstep
  /-- MX_QUEUED_OP (R314). -/
  | mxQueuedOp
  /-- HEMIT (R364). -/
  | hemit
  /-- HTILE_OPEN (R359). -/
  | htileOpen
  /-- HVROW (R360). -/
  | hvrow
  /-- HPRUNE (R363). -/
  | hprune
  /-- HEND (R371). -/
  | hend
  /-- SLEEP_EXPIRY (R97). -/
  | sleepExpiry
  /-- DRIFT_WAKE (R386). -/
  | driftWake
  /-- QUEUE_WAKE (R57). -/
  | queueWake
  /-- CROSS_WAKE (R387). -/
  | crossWake
  /-- TEAM_END (R80). -/
  | teamEnd
  /-- QUANTUM_EXPIRY (R430). -/
  | quantumExpiry
  /-- PRE_DELIVERY (R431). -/
  | preDelivery
  /-- PREEMPT_END (R432). -/
  | preemptEnd
  /-- PREEMPT_TIMEOUT (R433). -/
  | preemptTimeout
  /-- PATROL_SCRUB (R509). -/
  | patrolScrub
  /-- POWER_CLAMP_WITHHOLD (R11). -/
  | powerClampWithhold
deriving DecidableEq, Repr

end Sys2Proof
end

