-- ==== Sys2Proof/Machine/Bits.lean ====
section
/-!
DEFINITION. Bit fields, lane masks, byte order and keyed lists: the helpers that every other definition of the machine reads its words
with (spec/00_scope.md R1, R5).
-/
namespace Sys2Proof.Machine

/-- Field `hi:lo` of a word as a number (R1). -/
def fld {w : Nat} (x : BitVec w) (hi lo : Nat) : Nat := (x.toNat >>> lo) % 2 ^ (hi + 1 - lo)

/-- Bit `b` of a word (R1). -/
def bit {w : Nat} (x : BitVec w) (b : Nat) : Bool := x.getLsbD b

/-- A word with field `hi:lo` replaced by `v`. -/
def setFld {w : Nat} (x : BitVec w) (hi lo : Nat) (v : Nat) : BitVec w :=
  let m := (2 ^ (hi + 1 - lo) - 1) <<< lo
  BitVec.ofNat w ((x.toNat &&& ((2 ^ w - 1) - m)) ||| ((v % 2 ^ (hi + 1 - lo)) <<< lo))

/-- A truth value as 1 or 0. -/
def bnat (b : Bool) : Nat := if b then 1 else 0

/-- The `n` low bytes of a number, least significant first (R1). -/
def leBytes : Nat → Nat → List Byte
  | 0, _ => []
  | n + 1, x => BitVec.ofNat 8 x :: leBytes n (x >>> 8)

/-- The number that bytes spell, least significant first (R1). -/
def ofLeBytes : List Byte → Nat
  | [] => 0
  | b :: bs => b.toNat + (ofLeBytes bs) * 256

/-- The 32-bit words that bytes spell. -/
def wordsOfBytes (n : Nat) (bs : List Byte) : List Word :=
  (List.range n).map fun i => BitVec.ofNat 32 (ofLeBytes ((bs.drop (4 * i)).take 4))

/-- The bytes of a list of 32-bit words. -/
def bytesOfWords (ws : List Word) : List Byte := (ws.map fun w => leBytes 4 w.toNat).flatten

/-- The lanes below `n` of a mask, ascending (R5). -/
def lanesOf (n : Nat) (m : Mask) : List Nat := (List.range n).filter fun l => m.getLsbD l

/-- The mask of the lanes below `n` that satisfy `p`. -/
def maskOf (n : Nat) (p : Nat → Bool) : Mask :=
  (List.range n).foldl (fun m l => if p l then m ||| (1#128 <<< l) else m) 0#128

/-- The mask of the lanes below `n`. -/
def allLanes (n : Nat) : Mask := BitVec.ofNat 128 (2 ^ n - 1)

/-- The lowest lane of a mask; 0 for the empty mask. -/
def lowestLane (m : Mask) : Nat := ((List.range 128).find? fun l => m.getLsbD l).getD 0

/-- The highest lane of a mask; 0 for the empty mask. -/
def highestLane (m : Mask) : Nat := ((List.range 128).reverse.find? fun l => m.getLsbD l).getD 0

/-- How many lanes a mask holds. -/
def countLanes (m : Mask) : Nat := (lanesOf 128 m).length

/-- The set bits of a number below `n`, ascending. -/
def bitsBelow (n x : Nat) : List Nat := (List.range n).filter fun i => x.testBit i

/-- A keyed list with the value at `k` replaced, or added in ascending order of keys. -/
def insertKey {α : Type} (k : Nat) (v : α) : List (Nat × α) → List (Nat × α)
  | [] => [(k, v)]
  | (j, w) :: r => if k < j then (k, v) :: (j, w) :: r else if k = j then (k, v) :: r else (j, w) :: insertKey k v r

/-- A keyed list without the key `k`. -/
def eraseKey {α : Type} (k : Nat) (l : List (Nat × α)) : List (Nat × α) := l.filter fun e => e.1 != k

/-- The value at key `k` of a keyed list. -/
def lookupKey {α : Type} (k : Nat) : List (Nat × α) → Option α
  | [] => none
  | (j, w) :: r => if k = j then some w else lookupKey k r

/-- The list with its i-th item changed by `f`; a list without that item is unchanged. -/
def modifyAt {α : Type} (f : α → α) : Nat → List α → List α
  | _, [] => []
  | 0, a :: r => f a :: r
  | i + 1, a :: r => a :: modifyAt f i r

/-- The operand that a 9-bit name denotes on a wave or the sequencer (R53). -/
def operandOf (n : Name) : Operand :=
  let x := n.toNat
  if x < 256 then .v x
  else if x < 320 then .k (x - 256)
  else if x < 336 then .q (x - 320)
  else if x < 344 then .p (x - 336)
  else if x < 352 then .special (x - 344)
  else if x < 384 then .const (x - 352)
  else if x < 510 then .reserved
  else if x = 510 then .imm
  else .none

/-- The operand that a 9-bit name denotes on an access processor: names 0 to 63 are its a registers, held here as its k registers, and
names 64 to 255 are a registers that do not exist; names 256 to 319 are undefined (R281). -/
def operandOfAp (n : Name) : Operand :=
  let x := n.toNat
  if x < 256 then .k x else if x < 320 then .reserved else operandOf n

/-- IMM20 of the I20 format, bits 63:44 (R51). -/
def imm20 (f : Fields) : BitVec 20 := BitVec.ofNat 20 (f.s2.toNat * 2 ^ 11 + f.s1.toNat * 4 + f.s0.toNat / 128)

/-- IMM12 of the I12 format, bits 57:46 (R52). -/
def imm12 (f : Fields) : BitVec 12 := BitVec.ofNat 12 ((f.s2.toNat % 8) * 512 + f.s1.toNat)

/-- X6 of the I12 format, bits 63:58 (R52). -/
def x6 (f : Fields) : Nat := f.s2.toNat / 8

/-- DISP24 of `CALL`, bits 63:40 (R92). -/
def disp24 (f : Fields) : BitVec 24 := BitVec.ofNat 24 (f.s2.toNat * 2 ^ 15 + f.s1.toNat * 64 + f.s0.toNat / 8)

/-- Bits 63:0 of an instruction (R45). -/
def rawWord (f : Fields) : Dword :=
  f.s2 ++ f.s1 ++ f.s0 ++ f.dst ++ f.mod ++ f.lr ++ f.pneg ++ f.preg ++ f.role ++ f.opc ++ f.len

/-- The fields of the first 64 bits of an instruction, with its trailing bits (R45). -/
def fieldsOf (w ext : Dword) : Fields :=
  { len := w.extractLsb' 0 2, opc := w.extractLsb' 2 9, role := w.extractLsb' 11 3, preg := w.extractLsb' 14 3, pneg := w.extractLsb' 17 1
    lr := w.extractLsb' 18 3, mod := w.extractLsb' 21 7, dst := w.extractLsb' 28 9, s0 := w.extractLsb' 37 9, s1 := w.extractLsb' 46 9
    s2 := w.extractLsb' 55 9, ext := ext }

/-- The length of an instruction in bytes by its LEN field; LEN 0b11 is reserved and counts as 8 (R45). -/
def lenBytes (f : Fields) : Nat :=
  match f.len.toNat with
  | 1 => 12
  | 2 => 16
  | _ => 8

/-- A number rounded up to a multiple. -/
def roundUp (x n : Nat) : Nat := (x + n - 1) / n * n

end Sys2Proof.Machine
end

