-- ==== Sys2Proof/Machine/Entry.lean ====
section
/-!
DEFINITION. What each LIS-3 opcode accepts (spec/03_encoding.md R46, R63 step 4, R64, and the encoding tables of every chapter): its OPC,
its lengths, its operand fields, its modifier, its reserved bits, and the units that implement it. `fateOf` decides the first cause of
R63 step 4 under which an instruction goes to the emulation handler.
-/
namespace Sys2Proof.Machine

/-- The causes of an emulation trap in the order of R63 step 4, with the later causes of R451 after them. -/
inductive EmuCause where
  | undef | disabled | len | name | imm | dst | mod | rsv | fw | priv | sreg | width
deriving DecidableEq, Repr

/-- The CAUSE code of an emulation trap (R451). -/
def EmuCause.code : EmuCause → Nat
  | .undef => 1 | .disabled => 2 | .len => 3 | .name => 4 | .imm => 5 | .dst => 6 | .mod => 7 | .rsv => 8 | .fw => 9
  | .priv => 10 | .sreg => 11 | .width => 12

/-- In which lanes a field's vector source is read: as R59 and R60 say; in the lowest active lane alone; in every active lane though the
instruction executes once; in every live lane, active or not (R121); or in lanes 0 to 15 (R350). -/
inductive ReadSet where
  | usual | once | active | live | low
deriving DecidableEq, Repr

/-- One operand field of an entry: what it accepts other than IMM, whether it accepts IMM where the trailing word is an immediate, how
many registers a vector name covers, whether the field holds raw bits instead of a name (R64), and in which lanes it is read. -/
structure FieldSpec where
  ok : Fields → Operand → Bool
  imm : Bool := true
  span : Fields → Nat := fun _ => 1
  raw : Fields → Bool := fun _ => false
  reads : Fields → ReadSet := fun _ => .usual

/-- The entry of an opcode. -/
structure Entry where
  opc : Nat
  lens : List Nat
  dst : FieldSpec
  s0 : FieldSpec
  s1 : FieldSpec
  s2 : FieldSpec
  mod : Fields → Bool
  /-- reserved bits outside MOD and unaccepted codes in trailing words, given the number of declared roles -/
  rsv : Nat → Fields → Bool := fun _ _ => true
  /-- carries the lookahead field (R47) -/
  star : Bool := false
  /-- the lengths whose trailing word is an immediate (R58) -/
  immLens : List Nat := [1, 2]
  /-- requires PREG = 7 and PNEG = 0 -/
  p7 : Fields → Bool := fun _ => false
  /-- implemented by waves, access processors, the sequencer -/
  wave : Bool := true
  ap : Bool := false
  apPriv : Bool := false
  mx : Bool := false
  /-- DST names a source: a store's data or a destination address (R46) -/
  dstSrc : Bool := false
  /-- DST names a queue without pushing (R291) -/
  noPush : Bool := false
  /-- a retiring instruction (R266) -/
  retiring : Bool := false
  /-- the meaning checks its own operands' bounds, because each member uses some of them only (R394) -/
  ownBounds : Bool := false
  /-- the meaning maps DST itself, because it may write no lane of it (R105) -/
  ownDst : Bool := false
  /-- its last reads take effect as it completes, because it may sleep with its operands read and trap afterwards (R108) -/
  late : Bool := false
  /-- codes of MOD that DST, as the member reads it, rules out (R100) -/
  modDst : Fields → Operand → Bool := fun _ _ => true

/-- A field read in the lowest active lane alone, and one read in every active or every live lane. -/
def FieldSpec.once (s : FieldSpec) : FieldSpec := { s with reads := fun _ => .once }
def FieldSpec.inActive (s : FieldSpec) : FieldSpec := { s with reads := fun _ => .active }
def FieldSpec.inLive (s : FieldSpec) : FieldSpec := { s with reads := fun _ => .live }

/-- The vector, uniform, queue, predicate, special, constant and NONE operands: every source (R53). -/
def anySrc : FieldSpec := { ok := fun _ o => o != .reserved }

/-- NONE alone: the field must hold 511. -/
def noField : FieldSpec := { ok := fun _ o => o == .none, imm := false }

/-- Raw bits, never read as a name (R64). -/
def rawField : FieldSpec := { ok := fun _ _ => true, raw := fun _ => true }

/-- The condition operands of R87. -/
def condSrc : FieldSpec :=
  { ok := fun _ o => match o with | .reserved => false | .q _ => false | _ => true, imm := false }

def isVec : Operand → Bool
  | .v _ => true
  | _ => false

def isUni : Operand → Bool
  | .k _ => true
  | _ => false

def isPred : Operand → Bool
  | .p _ => true
  | _ => false

def isQueue : Operand → Bool
  | .q _ => true
  | _ => false

/-- A vector register whose number is a multiple of `m`. -/
def isVecOf (m : Nat) : Operand → Bool
  | .v n => n % m == 0
  | _ => false

/-- A source of `w` bits by the instruction's type: a pair where it is 64 (R103, R137). -/
def wideSrc (w : Fields → Nat) : FieldSpec :=
  { ok := fun f o => match o with | .reserved => false | .v n => w f == 32 || n % 2 == 0 | _ => true
    span := fun f => w f / 32 }

/-- A 64-bit source: an even pair, a k register, a constant, a special value, NONE or an immediate. -/
def src64 : FieldSpec := wideSrc fun _ => 64

/-- A 64-bit address: a k register, an even vector pair, or an immediate where one trails (R204, R228, R375, R458). -/
def addrSrc : FieldSpec :=
  { ok := fun _ o => match o with | .v n => n % 2 == 0 | .k _ => true | _ => false
    span := fun _ => 2 }

/-- A 64-bit address, or NONE (R438). -/
def addrOrNone : FieldSpec := { addrSrc with ok := fun f o => o == .none || addrSrc.ok f o }

/-- A scratchpad base or index: a vector register, a k register or NONE (R181). -/
def spadSrc : FieldSpec :=
  { ok := fun _ o => match o with | .v _ => true | .k _ => true | .none => true | _ => false, imm := false }

/-- A vector register. -/
def vecSrc : FieldSpec := { ok := fun _ o => isVec o, imm := false }

/-- A destination among v, k, q, p and NONE as chosen, one register wide. -/
def dstOf (v k q p none : Bool) : FieldSpec :=
  { ok := fun _ o => match o with
      | .v _ => v | .k _ => k | .q _ => q | .p _ => p | .none => none | _ => false
    imm := false }

/-- The destination of an integer result of `w` bits: a pair and no queue where it is 64 (R137). -/
def intDst (w : Fields → Nat) : FieldSpec :=
  { ok := fun f o => match o with
      | .v n => w f == 32 || n % 2 == 0 | .k _ => true | .q _ => w f == 32 | .p _ => true | .none => true | _ => false
    imm := false
    span := fun f => w f / 32 }

/-- A pair, a k register or NONE. -/
def pairDst (none : Bool) : FieldSpec :=
  { ok := fun _ o => match o with | .v n => n % 2 == 0 | .k _ => true | .none => none | _ => false
    imm := false
    span := fun _ => 2 }

def modBits (f : Fields) (hi lo : Nat) : Nat := fld f.mod hi lo

/-- The type code in MOD[3:0] (R70). -/
def tyCode (f : Fields) : Nat := modBits f 3 0

/-- The width of an integer type code: 64 for the codes 1, 5 and 9 (R70). -/
def tyWidth (c : Nat) : Nat := if c == 1 || c == 5 || c == 9 then 64 else 32

def wOfTy (f : Fields) : Nat := tyWidth (tyCode f)

/-- The integer types of 32 and 64 bits: untyped, signed, unsigned (R141). -/
def tB : List Nat := [0, 1]
def tS : List Nat := [4, 5]
def tN : List Nat := [8, 9]
def tSN : List Nat := tS ++ tN
def tSNB : List Nat := tB ++ tSN

/-- The common entry of the arithmetic opcodes: every length, any source, implemented by every member. -/
def intEntry (opc : Nat) (types : List Nat) (top : Fields → Bool) : Entry :=
  { opc := opc, lens := [0, 1, 2], dst := intDst wOfTy, s0 := wideSrc wOfTy, s1 := wideSrc wOfTy, s2 := noField
    mod := fun f => types.contains (tyCode f) && top f, ap := true, mx := true }

def topZero (f : Fields) : Bool := modBits f 6 4 == 0

/-- MOD[4] is SAT and is accepted with signed and unsigned types only (R141). -/
def topSat (f : Fields) : Bool := modBits f 6 5 == 0 && (modBits f 4 4 == 0 || tyCode f ≥ 2)

/-- A 32-bit result of a type of any width. That q is accepted for it at W = 64 is the model's choice (log 87). -/
def dst32 : FieldSpec := intDst fun _ => 32

/-- A control entry without operands. -/
def plainEntry (opc : Nat) (lens : List Nat) : Entry :=
  { opc := opc, lens := lens, dst := noField, s0 := noField, s1 := noField, s2 := noField, mod := fun f => f.mod == 0#7 }

/-- An entry whose modifier is wholly zero. -/
def zeroMod (f : Fields) : Bool := f.mod == 0#7

/-- An entry whose modifier is the lookahead field alone. -/
def laOnly (f : Fields) : Bool := modBits f 2 0 == 0

/-! ## Control (spec/04_waves.md R86) -/

def eNop : Entry := { plainEntry 0x001 [0, 1, 2] with ap := true, mx := true }
def eBr : Entry := { plainEntry 0x002 [1] with s0 := condSrc, immLens := [], ap := true, mx := true }
def eBru : Entry := { eBr with opc := 0x003 }
def eBrd : Entry := { plainEntry 0x004 [2] with s0 := condSrc, immLens := [], p7 := fun _ => true }
def eJoin : Entry := { plainEntry 0x005 [0] with p7 := fun _ => true }
def eCall : Entry :=
  { plainEntry 0x006 [0] with
    dst := rawField, s0 := rawField, s1 := rawField, s2 := rawField, ap := true, mx := true
    rsv := fun _ f => f.dst == 0#9 && f.s0.toNat % 8 == 0 }
def eCallx : Entry :=
  { plainEntry 0x007 [0] with
    s0 := { ok := fun _ o => match o with | .k _ => true | .v n => n % 2 == 0 | _ => false, imm := false, span := fun _ => 2 }
    mod := fun f => modBits f 6 1 == 0
    p7 := fun f => modBits f 0 0 == 1 }
def eRet : Entry := { plainEntry 0x008 [0] with ap := true, mx := true, retiring := true }
def eExit : Entry := { plainEntry 0x009 [0] with ap := true, mx := true, retiring := true }
def eYield : Entry := { plainEntry 0x00A [0] with ap := true, mx := true }
def eSleep : Entry := { plainEntry 0x00B [0, 1] with s0 := anySrc.once, mod := laOnly, star := true, ap := true, mx := true, late := true }
def eMskrd : Entry := { plainEntry 0x00C [0] with dst := dstOf true true false false false, mod := fun f => modBits f 6 1 == 0 }
def eMskwr : Entry := { plainEntry 0x00D [0] with s0 := anySrc.once, mod := fun f => modBits f 6 1 == 0 }
/-- A vector register that bounds a range and is not read itself (R99). -/
def rangeEnd : FieldSpec := { vecSrc with span := fun _ => 0 }
def eRegroup : Entry :=
  { plainEntry 0x00E [0, 1] with
    dst := dstOf false true false false false, s0 := rangeEnd, s1 := rangeEnd, s2 := anySrc, p7 := fun _ => true, retiring := true
    late := true }

/-- The special registers of 32 bits: `sr.rsctr`, `sr.lorig` and `sr.lapit0` to `sr.lapit3` (R28, R99, R379). -/
def narrowSr (n : Nat) : Bool := n == 0x021 || n == 0x017 || (0x101 ≤ n && n ≤ 0x104)

def eSrd : Entry :=
  { plainEntry 0x00F [0] with
    dst := dstOf true true false false false, s1 := rawField, ap := true, mx := true
    mod := fun f => modBits f 6 1 == 0 && !(modBits f 0 0 == 1 && narrowSr f.s1.toNat)
    modDst := fun f o => !(modBits f 0 0 == 1 && isUni o) }
/-- The registers that a vector source of `SWR` takes: the pair for a 64-bit register, where HI = 0 and the number is even, else one (R100;
log 44). -/
def swrSpan (f : Fields) : Nat := if modBits f 0 0 == 0 && !narrowSr f.s1.toNat && isVecOf 2 (operandOf f.s0) then 2 else 1
def eSwr : Entry :=
  { plainEntry 0x010 [0, 1] with
    s0 := { anySrc with span := swrSpan, reads := fun f => if f.s1.toNat == 0x021 then .usual else .once }, s1 := rawField, ap := true, mx := true
    mod := fun f => modBits f 6 1 == 0 && !(modBits f 0 0 == 1 && narrowSr f.s1.toNat) }

/-! ## Integer (spec/06_arithmetic.md R141) -/

def eIadd : Entry := intEntry 0x040 tSNB topSat
def eIaddi : Entry :=
  { intEntry 0x041 tSNB topSat with lens := [0], s1 := rawField, s2 := rawField, rsv := fun _ f => x6 f == 0 }
def eIsub : Entry := intEntry 0x042 tSNB topSat
def eImul : Entry := intEntry 0x043 tSNB topZero
def eImulh : Entry := intEntry 0x044 tSN topZero
def eImad : Entry := { intEntry 0x045 tSNB topZero with s2 := wideSrc wOfTy }
/-- `IMADW`: its destination and S2 are pairs or k registers (R145). -/
def eImadw : Entry := { intEntry 0x046 [4, 8] topZero with dst := pairDst false, s2 := { addrSrc with imm := false } }
def eAddc : Entry := { intEntry 0x047 tSNB (fun _ => true) with s2 := condSrc }
def eSubb : Entry := { eAddc with opc := 0x048 }
def eIabs : Entry := { intEntry 0x049 tS topSat with s1 := noField }
def eIneg : Entry := { intEntry 0x04A (tS ++ tB) topSat with s1 := noField }
def eImin : Entry := intEntry 0x04B tSN topZero
def eImax : Entry := intEntry 0x04C tSN topZero
def eIcmp : Entry :=
  { intEntry 0x04D tSNB (fun f => modBits f 6 4 ≤ 5 && (modBits f 6 4 ≤ 1 || tyCode f ≥ 2)) with dst := dst32 }
def shiftEntry (opc : Nat) : Entry := { intEntry opc tSNB topZero with s1 := anySrc }
def eShl : Entry := shiftEntry 0x04E
def eShr : Entry := shiftEntry 0x04F
def eSar : Entry := shiftEntry 0x050
def eRot : Entry := shiftEntry 0x051
def eAnd : Entry := intEntry 0x052 tSNB topZero
def eOr : Entry := intEntry 0x053 tSNB topZero
def eXor : Entry := intEntry 0x054 tSNB topZero
def eAndn : Entry := intEntry 0x055 tSNB topZero
def eNot : Entry := { intEntry 0x056 tSNB topZero with s1 := noField }
def eBfx : Entry := { intEntry 0x057 tSNB topZero with s1 := anySrc, s2 := anySrc }
def eBfi : Entry := { intEntry 0x058 tSNB topZero with s2 := anySrc }
def eBrev : Entry := { intEntry 0x059 tSNB topZero with s1 := noField }
def countEntry (opc : Nat) : Entry := { intEntry opc tSNB topZero with s1 := noField, dst := dst32 }
def ePopc : Entry := countEntry 0x05A
def eClz : Entry := countEntry 0x05B
def eCtz : Entry := countEntry 0x05C
def eLea : Entry :=
  { intEntry 0x05D [4, 8] (fun f => modBits f 6 4 ≤ 4) with
    dst := pairDst false, s0 := addrSrc, s1 := anySrc, s2 := anySrc }

/-- The width of the type of `IDIV` and `IREM`, MOD[2:0] (R155). -/
def divWidth (f : Fields) : Nat := if modBits f 2 0 ≥ 2 then 64 else 32
def divEntry (opc : Nat) : Entry :=
  { intEntry opc [] topZero with
    dst := intDst divWidth, s0 := wideSrc divWidth, s1 := wideSrc divWidth, mod := fun f => modBits f 2 0 ≤ 3, star := true }
def eIdiv : Entry := divEntry 0x05E
def eIrem : Entry := divEntry 0x05F

/-! ## Floating point and conversion (R156) -/

/-- The floating type in MOD[5:4] (R156). -/
def ftHi (f : Fields) : Nat := modBits f 5 4
def fDst : FieldSpec := dstOf true true true true true

def floatEntry (opc : Nat) (lens : List Nat) (m : Fields → Bool) : Entry :=
  { opc := opc, lens := lens, dst := fDst, s0 := anySrc, s1 := anySrc, s2 := noField, mod := m }

def modFt (f : Fields) : Bool := ftHi f ≤ 2
def modFtRnd (f : Fields) : Bool := ftHi f ≤ 2 && modBits f 2 0 ≤ 3

/-- A p destination only under `.f32` (R160, R161). -/
def f32PredDst : FieldSpec :=
  { ok := fun f o => match o with | .p _ => ftHi f == 0 | .v _ => true | .k _ => true | .q _ => true | .none => true | _ => false
    imm := false }

def eFadd : Entry := floatEntry 0x080 [0, 1, 2] modFtRnd
def eFsub : Entry := floatEntry 0x081 [0, 1, 2] modFtRnd
def eFmul : Entry := floatEntry 0x082 [0, 1, 2] modFtRnd
def eFfma : Entry := { floatEntry 0x083 [0, 1, 2] modFtRnd with s2 := anySrc }
def eFmin : Entry := floatEntry 0x084 [0, 1, 2] fun f => modFt f && modBits f 2 0 == 0
def eFmax : Entry := floatEntry 0x085 [0, 1, 2] fun f => modFt f && modBits f 2 0 == 0
def eFcmp : Entry := { floatEntry 0x086 [0, 1, 2] (fun f => modFt f && modBits f 6 6 == 0) with dst := f32PredDst }
def eFclass : Entry :=
  { floatEntry 0x087 [0, 1] (fun f => modFt f && modBits f 6 6 == 0 && modBits f 3 0 == 0) with dst := f32PredDst }
def sfuEntry (opc : Nat) : Entry :=
  { floatEntry opc [0, 1] (fun f => modBits f 1 0 ≤ 2) with s1 := noField, star := true }
def eFrcp : Entry := sfuEntry 0x088
def eFrsq : Entry := sfuEntry 0x089
def eFsqrt : Entry := sfuEntry 0x08A
def eFexp2 : Entry := sfuEntry 0x08B
def eFlog2 : Entry := sfuEntry 0x08C
def eFsin : Entry := sfuEntry 0x08D
def eFcos : Entry := sfuEntry 0x08E
def eFtanh : Entry := sfuEntry 0x08F
def eFdivs : Entry := { floatEntry 0x090 [0, 1] (fun f => modBits f 1 0 ≤ 2) with star := true }
def eFrnd : Entry := { floatEntry 0x091 [0, 1] (fun f => modFtRnd f && modBits f 6 6 == 0) with s1 := noField }
def eDot4 : Entry :=
  { floatEntry 0x092 [0, 1, 2] (fun f => modBits f 6 4 == 0 && modBits f 2 0 != 3 && !(modBits f 3 3 == 1 && modBits f 2 0 ≥ 4))
    with s2 := anySrc }
def eDot2 : Entry :=
  { floatEntry 0x093 [0, 1, 2]
      (fun f => modBits f 6 4 == 0 && modBits f 2 0 != 3 && modBits f 2 0 ≤ 5 && !(modBits f 3 3 == 1 && modBits f 2 0 ≥ 4))
    with s2 := anySrc }

/-- A type code that `CVT` converts: not untyped and not C4 (R166). -/
def cvtTy (c : Nat) : Bool := 2 ≤ c && c ≤ 14
def isIntTy (c : Nat) : Bool := c ≤ 9
/-- The control word of `CVT` in the S1 field (R168). -/
def cvtS (f : Fields) : Nat := f.s1.toNat % 16
def cvtSb (f : Fields) : Bool := f.s1.getLsbD 4
def cvtFtz (f : Fields) : Bool := f.s1.getLsbD 5
/-- `CVT`. That a 64-bit destination may be NONE and not p or q, and a 64-bit source a constant, a special value, IMM or NONE, is the model's
choice (log 107). -/
def eCvt : Entry :=
  { floatEntry 0x0D8 [0, 1, 2] (fun f => cvtTy (tyCode f) && modBits f 6 4 ≤ 4) with
    dst := { ok := fun f o => match o with
               | .v n => wOfTy f == 32 || n % 2 == 0 | .k _ => true | .q _ => wOfTy f == 32 | .p _ => wOfTy f == 32 | .none => true
               | _ => false
             imm := false, span := fun f => wOfTy f / 32 }
    s0 := wideSrc fun f => tyWidth (cvtS f)
    s1 := rawField
    rsv := fun _ f => f.s1.toNat < 64 && cvtTy (cvtS f) &&
      (!cvtSb f || tyCode f == 13 || (isIntTy (tyCode f) && isIntTy (cvtS f))) }
/-- `CVTSC`. That the reserved RND codes 5 to 7 are undefined under `.c4` too, which ignores RND, is the model's choice (log 87). -/
def eCvtsc : Entry :=
  { floatEntry 0x0D9 [0] (fun f => 13 ≤ tyCode f && modBits f 6 4 ≤ 4) with dst := dstOf true false true true true, s1 := anySrc.once }

/-- The number of registers that `PACK` reads: 32 over the element width (R170). -/
def packCount (f : Fields) : Nat := 2 ^ (modBits f 1 0 + 1)
def ePack : Entry :=
  { floatEntry 0x0DA [0] (fun f => modBits f 6 2 == 0 && modBits f 1 0 ≤ 2) with
    s0 := { ok := fun _ o => isVec o, imm := false, span := packCount }, s1 := noField }
def eUnpack : Entry := { floatEntry 0x0DB [0, 1] (fun f => modBits f 6 3 == 0 && modBits f 1 0 ≤ 2) with s1 := anySrc.once }

/-! ## Lane crossbar (spec/05_registers.md R122) -/

def xbarEntry (opc : Nat) (lens : List Nat) (d : FieldSpec) : Entry :=
  { opc := opc, lens := lens, dst := d, s0 := anySrc, s1 := noField, s2 := noField, mod := zeroMod }

def vDst : FieldSpec := dstOf true false false false true
def vkDst : FieldSpec := dstOf true true false false true

def eMov : Entry :=
  { xbarEntry 0x0C0 [0, 1, 2] (dstOf true true true true true) with ap := true, mx := true }
def eMovi : Entry := { xbarEntry 0x0C1 [0, 1] vDst with s0 := anySrc.once, s1 := anySrc.once }
def eMovhi : Entry :=
  { xbarEntry 0x0C2 [0] (dstOf true true true false true) with
    s0 := rawField, s1 := rawField, s2 := rawField, rsv := fun _ f => f.s0.toNat % 128 == 0, ap := true, mx := true }
def eAddpc : Entry := { eMovhi with opc := 0x0C3, mod := fun f => modBits f 6 1 == 0 }
/-- BCAST reads S0 in every hardware wave with a live lane (log 41). -/
def eBcast : Entry := { xbarEntry 0x0C4 [0, 1] vkDst with s0 := anySrc.inLive, s1 := anySrc.once }
def eShfl : Entry := { xbarEntry 0x0C5 [0] vDst with s0 := anySrc.inLive, s1 := anySrc }
def eShflx : Entry := { xbarEntry 0x0C6 [0, 1] vDst with s0 := anySrc.inLive, s1 := anySrc.once }
def eShflup : Entry := { eShflx with opc := 0x0C7 }
def eShfldn : Entry := { eShflx with opc := 0x0C8 }
def eVote : Entry :=
  { xbarEntry 0x0C9 [0] (dstOf true true false true true) with
    s0 := condSrc.inActive
    mod := fun f => modBits f 6 4 == 0 &&
      (if modBits f 1 0 == 2 then !isPred (operandOf f.dst) && (!isUni (operandOf f.dst) || modBits f 3 3 == 0)
       else modBits f 3 2 == 0) }
def redTy (f : Fields) : Bool := tyCode f == 10 || tyCode f == 4 || tyCode f == 8
def ePfxsum : Entry := { xbarEntry 0x0CA [0] vDst with mod := fun f => modBits f 6 5 == 0 && redTy f }
def eLred : Entry := { xbarEntry 0x0CB [0] vkDst with mod := fun f => modBits f 6 6 == 0 && modBits f 5 4 ≤ 2 && redTy f, s0 := anySrc.inActive }
def eSample : Entry := { xbarEntry 0x0CC [0, 1] vkDst with s0 := anySrc.inActive, s1 := anySrc.once }
def eSel : Entry := { xbarEntry 0x0CD [0, 1, 2] vkDst with s1 := anySrc, s2 := condSrc, ap := true, mx := true }
def eFirstl : Entry := { xbarEntry 0x0CE [0] vkDst with
    s0 := condSrc.inActive, mod := fun f => modBits f 6 1 == 0 }
def eKill : Entry := { xbarEntry 0x0CF [0] vkDst with s0 := condSrc.inActive, retiring := true, ownDst := true }
def ePlop : Entry :=
  { xbarEntry 0x0D0 [0] (dstOf true false false true true) with
    s0 := condSrc, s1 := condSrc, mod := topZero, ap := true, mx := true }

/-! ## Scratchpad (spec/07_scratchpad.md R180) -/

/-- The width code in MOD[2:0] (R180). -/
def wCode (f : Fields) : Nat := modBits f 2 0
/-- The registers that an access of width code `w` moves. -/
def wSpan (w : Nat) : Nat := if w == 1 then 2 else if w == 2 then 4 else 1
/-- The bytes of an access of width code `w`. -/
def wBytes (w : Nat) : Nat :=
  match w with
  | 0 => 4 | 1 => 8 | 2 => 16 | 3 => 1 | 4 => 1 | _ => 2

/-- A register that holds an access of width code `w`: aligned vector registers, or a k register of at most 64 bits. -/
def memReg (w : Fields → Nat) (none : Bool) : FieldSpec :=
  { ok := fun f o => match o with
      | .v n => n % wSpan (w f) == 0 | .k _ => w f != 2 | .none => none | _ => false
    imm := false, span := fun f => wSpan (w f) }

/-- The data of a store: a register, an inline constant or NONE (R183). -/
def storeData (w : Fields → Nat) : FieldSpec :=
  { ok := fun f o => match o with
      | .v n => n % wSpan (w f) == 0 | .k _ => w f != 2 | .const _ => true | .none => true | _ => false
    imm := false, span := fun f => wSpan (w f) }

/-- Fields of the trailing address word (R180, R204). -/
def awDisp (f : Fields) : BitVec 20 := BitVec.ofNat 20 (fld f.ext 19 0)
def awType (f : Fields) : Nat := fld f.ext 23 20
def awScale (f : Fields) : Nat := fld f.ext 26 24
def awScope (f : Fields) : Nat := fld f.ext 29 27
def awOrd (f : Fields) : Nat := fld f.ext 31 30

/-- The address word of a scratchpad access without a type: reserved bits zero, scale at most 16 (R180). -/
def spadAw (f : Fields) : Bool := f.len != 1#2 || (fld f.ext 31 27 == 0 && awScale f ≤ 4 && awType f == 0)

/-- The types that the atomic operation `op` accepts (R188). -/
def atomTypes (op : Nat) : List Nat :=
  match op with
  | 0 => [4, 8, 0, 5, 9, 1, 10]
  | 1 => [4, 8, 5, 9]
  | 2 => [4, 8, 5, 9]
  | 3 => [0, 1]
  | 4 => [0, 1]
  | 5 => [0, 1]
  | 6 => [0, 1, 10]
  | _ => []

def spadEntry (opc : Nat) (ws : Nat) : Entry :=
  { opc := opc, lens := [0, 1], dst := memReg wCode false, s0 := spadSrc, s1 := spadSrc, s2 := noField
    mod := fun f => wCode f ≤ ws && modBits f 6 3 == 0, rsv := fun _ f => spadAw f, immLens := [], mx := true }
def eLds : Entry := { spadEntry 0x100 6 with mod := fun f => wCode f ≤ 6, star := true }
def eSts : Entry := { spadEntry 0x101 6 with dst := storeData wCode, dstSrc := true }
def eLdsTake : Entry := { spadEntry 0x102 2 with mod := fun f => wCode f ≤ 2, star := true }
def eLdsWait : Entry := { eLdsTake with opc := 0x103 }
def eStsFill : Entry := { spadEntry 0x104 2 with dst := storeData wCode, dstSrc := true }
def eSempty : Entry := { spadEntry 0x105 0 with dst := noField, s0 := spadSrc.once, s1 := { anySrc.once with imm := false } }
def atomWidthCode (f : Fields) : Nat := if tyWidth (awType f) == 64 then 1 else 0
def atomSrc : FieldSpec := { wideSrc (fun f => tyWidth (awType f)) with imm := false }
def eAtoms : Entry :=
  { spadEntry 0x106 7 with
    lens := [1], dst := memReg atomWidthCode true, s2 := atomSrc, star := true, mx := false
    mod := fun f => modBits f 2 0 ≤ 6
    rsv := fun _ f => fld f.ext 31 27 == 0 && awScale f ≤ 4 && (atomTypes (modBits f 2 0)).contains (awType f) }
def casSrc : FieldSpec := { wideSrc (fun f => 32 * (wCode f + 1)) with imm := false }
def eCass : Entry :=
  { spadEntry 0x107 1 with
    lens := [1], dst := memReg wCode true, s1 := casSrc, s2 := casSrc, star := true, mx := false
    mod := fun f => wCode f ≤ 1
    rsv := fun _ f => fld f.ext 31 27 == 0 && awScale f == 0 && awType f == 0 }

/-! ## Memory (spec/08_memory.md R204) -/

def noImm (s : FieldSpec) : FieldSpec := { s with imm := false }

/-- An ordering and scope that a form accepts: scope zero when there is no ordering (R204). -/
def ordScope (accepted : List Nat) (ord scope : Nat) : Bool := accepted.contains ord && scope ≤ 5 && (ord != 0 || scope == 0)

def addrWord (ords : List Nat) (f : Fields) : Bool :=
  f.len != 1#2 || (ordScope ords (awOrd f) (awScope f) && awScale f ≤ 4 && awType f == 0)

/-- The common entry of the memory instructions. That the data of `ST` is v, k or NONE, and no queue or predicate, is the model's choice
(log 107). -/
def memEntry (opc : Nat) (lens : List Nat) (d : FieldSpec) : Entry :=
  { opc := opc, lens := lens, dst := d, s0 := noImm addrSrc, s1 := spadSrc, s2 := noField
    mod := fun f => wCode f ≤ 6 && modBits f 6 3 == 0, immLens := [], ap := true }
def eLd : Entry :=
  { memEntry 0x108 [0, 1] (memReg wCode false) with
    mod := fun f => wCode f ≤ 6, rsv := fun _ f => addrWord [0, 1] f, star := true }
def eLdI12 : Entry :=
  { memEntry 0x109 [0] (memReg wCode false) with
    s1 := rawField, s2 := rawField, mod := fun f => wCode f ≤ 6, star := true
    rsv := fun _ f => x6 f / 8 % 2 == 0 && ordScope [0, 1] (x6 f / 16) (x6 f % 8) }
def eSt : Entry :=
  { memEntry 0x10A [0, 1] (memReg wCode true) with rsv := fun _ f => addrWord [0, 2] f, dstSrc := true }
def eStI12 : Entry :=
  { memEntry 0x10B [0] (memReg wCode true) with
    s1 := rawField, s2 := rawField, dstSrc := true
    rsv := fun _ f => x6 f / 8 % 2 == 0 && ordScope [0, 2] (x6 f / 16) (x6 f % 8) }
def atomWord (f : Fields) : Bool :=
  ordScope [0, 1, 2, 3] (awOrd f) (awScope f) && awScale f ≤ 4 && (atomTypes (modBits f 2 0)).contains (awType f)
def eAtom : Entry :=
  { memEntry 0x10C [1] (memReg atomWidthCode true) with
    s2 := atomSrc, mod := fun f => modBits f 2 0 ≤ 6, rsv := fun _ f => atomWord f, star := true }
def eCas : Entry :=
  { memEntry 0x10D [1] (memReg wCode true) with
    s1 := casSrc, s2 := casSrc, mod := fun f => wCode f ≤ 1, star := true
    rsv := fun _ f => ordScope [0, 1, 2, 3] (awOrd f) (awScope f) && awScale f == 0 && awType f == 0 }
/-- The operand of `RED`, which stands in DST: a register, or pair, a queue or NONE (R53, R204). That it may be a queue, which pops after S2, and
no predicate, is the model's choice (log 107). -/
def redData : FieldSpec :=
  { ok := fun f o => match o with
      | .v n => n % (tyWidth (awType f) / 32) == 0 | .k _ => true | .q _ => true | .none => true | _ => false
    imm := false, span := fun f => tyWidth (awType f) / 32 }
def eRed : Entry :=
  { memEntry 0x10E [1] redData with mod := fun f => modBits f 2 0 ≤ 6 && modBits f 6 3 == 0, rsv := fun _ f => atomWord f, dstSrc := true }
def eFence : Entry :=
  { plainEntry 0x10F [0] with mod := fun f => modBits f 6 5 == 0 && modBits f 4 3 != 0 && modBits f 2 0 ≤ 5, ap := true }
def ePref : Entry :=
  { memEntry 0x110 [0, 1] noField with mod := fun f => modBits f 6 2 == 0 && modBits f 1 0 ≤ 1, rsv := fun _ f => addrWord [0] f }
/-- `CCTL`. That `.L1ALL`, which ignores its operands, may not name NONE as its base is the model's choice (log 107). -/
def eCctl : Entry :=
  { plainEntry 0x111 [0] with s0 := addrSrc.once, s1 := anySrc.once, mod := fun f => modBits f 6 3 == 0 && modBits f 2 0 ≤ 6 }
def eEvload : Entry := { plainEntry 0x112 [0] with s0 := addrSrc.once, s1 := anySrc.once }
def kDst : FieldSpec := dstOf false true false false true
def eEvstep : Entry := { plainEntry 0x113 [0, 1] with dst := kDst, s0 := anySrc.once }
def eWinbind : Entry := { plainEntry 0x114 [0] with dst := kDst, s0 := anySrc.once, s1 := addrSrc.once }
def eWinfree : Entry := { plainEntry 0x115 [0] with s0 := anySrc.once }

/-! ## Translation (spec/09_translation.md R228) -/

def eAddrq : Entry :=
  { plainEntry 0x118 [0] with dst := pairDst false, s0 := addrSrc, mod := fun f => modBits f 2 0 ≤ 3, star := true }
def ePgmap : Entry := { plainEntry 0x1C8 [0] with dst := vkDst, s0 := addrSrc, s1 := anySrc.once, apPriv := true }
def ePgpool : Entry :=
  { plainEntry 0x1C9 [0] with dst := kDst, s0 := src64.once, mod := fun f => modBits f 6 2 == 0 && modBits f 1 0 ≤ 2, apPriv := true }
def eTlbinv : Entry :=
  { plainEntry 0x1CA [0] with
    s0 := addrSrc.once, s1 := anySrc.once, mod := fun f => modBits f 6 3 == 0 && modBits f 2 0 ≤ 3, apPriv := true }

/-! ## Copies (spec/11_copy.md R273) -/

/-- A copy address: a k register, or in memory an even vector pair and in scratchpad a vector register (R273). -/
def copyAddr (spad : Fields → Bool) : FieldSpec :=
  { ok := fun f o => match o with | .v n => spad f || n % 2 == 0 | .k _ => true | _ => false
    imm := false, span := fun f => if spad f then 1 else 2, reads := fun _ => .once }

/-- An address in memory, or a scratchpad offset of 32 bits in any source (R321, R347). -/
def placeSrc (spad : Fields → Bool) : FieldSpec :=
  { ok := fun f o => if spad f then o != .reserved else addrSrc.ok f o
    imm := false, span := fun f => if spad f then 1 else 2, reads := fun _ => .once }
/-- DIR of `CPY`: source and destination in scratchpad (R274). -/
def cpySrcSpad (f : Fields) : Bool := modBits f 3 2 == 1 || modBits f 3 2 == 3
def cpyDstSpad (f : Fields) : Bool := modBits f 3 2 == 0 || modBits f 3 2 == 3
def eCpy : Entry :=
  { plainEntry 0x120 [0, 1] with
    dst := { copyAddr cpyDstSpad with reads := fun _ => .usual }, s0 := { copyAddr cpySrcSpad with reads := fun _ => .usual }
    s1 := anySrc.once, dstSrc := true
    mod := fun f => modBits f 6 4 == 0 && modBits f 1 0 ≤ 2 }
def tcSrcSpad (f : Fields) : Bool := bit f.ext 9
def tcDstSpad (f : Fields) : Bool := bit f.ext 10
def eTcopy : Entry :=
  { plainEntry 0x121 [2] with
    dst := copyAddr tcDstSpad, s0 := copyAddr tcSrcSpad, s1 := (noImm addrSrc).once, dstSrc := true, immLens := []
    rsv := fun _ f => fld f.ext 63 40 == 0 && fld f.ext 8 6 == 0 && (!bit f.ext 12 || bit f.ext 11) }
def eTcopyMc : Entry :=
  { eTcopy with
    opc := 0x122
    rsv := fun _ f => fld f.ext 8 6 == 0 && fld f.ext 55 40 != 0 && !bit f.ext 11 && !bit f.ext 12 }
def waitEntry (opc : Nat) (d : FieldSpec) : Entry := { plainEntry opc [0, 1, 2] with dst := d, s0 := src64.once, mx := true }
def eCpwait : Entry := waitEntry 0x123 noField
def eCpany : Entry := waitEntry 0x124 kDst
def eCpfirst : Entry := waitEntry 0x125 (dstOf true true false false false)
def eCptest : Entry := waitEntry 0x126 (dstOf true true false true false)
def eCpstat : Entry := { plainEntry 0x127 [0, 1] with dst := dstOf true true false false false, s0 := anySrc.once, mx := true }

/-! ## Matrix (spec/13_matrix.md R321, R322, R325) -/

def mmaBwb (f : Fields) : Bool := bit f.ext 24
def mmaRsv (f : Fields) : Bool := fld f.ext 14 0 == 0 && (mmaBwb f || fld f.ext 38 25 == 0)
def fwSrc : FieldSpec := { ok := fun _ o => isVec o || isUni o, imm := false }
/-- A scratchpad offset of 32 bits in any source (R321, R347). -/
def offSrc : FieldSpec := (noImm anySrc).once
def eMma : Entry :=
  { plainEntry 0x140 [2] with
    s0 := fwSrc, s1 := offSrc, mod := laOnly, star := true, immLens := [], mx := true
    s2 := { ok := fun f o => if mmaBwb f then o == .none else offSrc.ok f o, imm := false, reads := fun _ => .once }
    rsv := fun _ f => mmaRsv f }
def eMmaQ : Entry :=
  { plainEntry 0x141 [2] with
    s0 := fwSrc, s1 := vecSrc, s2 := { offSrc with reads := fun _ => .usual }, mod := laOnly, star := true, immLens := [], ownBounds := true
    rsv := fun _ f => mmaRsv f && fld f.ext 23 18 == 1 }
def eWbload : Entry :=
  { plainEntry 0x142 [0] with
    dst := { ok := fun f o => match o with | .k _ => modBits f 0 0 == 0 | .none => true | _ => false, imm := false }
    s0 := anySrc.once, s1 := addrSrc.once, mod := fun f => modBits f 6 1 == 0, mx := true }
def eWbfree : Entry := { plainEntry 0x143 [0] with s0 := anySrc.once, mx := true }
def eAcczero : Entry :=
  { plainEntry 0x144 [0] with s0 := anySrc.once, mod := fun f => modBits f 6 4 == 0 && modBits f 2 0 ≤ 4, mx := true }
def accSp (f : Fields) : Bool := bit f.ext 31
def eAccld : Entry :=
  { plainEntry 0x145 [2] with
    s0 := placeSrc accSp, s1 := (noImm addrSrc).once, immLens := [], mx := true
    s2 := { placeSrc accSp with ok := fun f o => o == .none || (placeSrc accSp).ok f o }
    rsv := fun _ f => fld f.ext 63 44 == 0 && fld f.ext 22 20 == 0 && fld f.ext 12 0 == 0 }
def eAccst : Entry :=
  { eAccld with opc := 0x146, rsv := fun _ f => fld f.ext 63 45 == 0 && fld f.ext 22 20 ≤ 3 && fld f.ext 12 0 == 0 }
/-- The form of `ACCRD` and `ACCWR`: data, row labels, column labels, row-rowAdmit map (R326). -/
def accForm (f : Fields) : Nat := modBits f 2 0
/-- The registers of `ACCRD` and `ACCWR`: v, with the map k; the reserved forms rule out neither (R326). -/
def accReg : FieldSpec :=
  { ok := fun f o => match o with | .v _ => accForm f != 3 | .k _ => 3 ≤ accForm f | _ => false, imm := false }
def eAccrd : Entry :=
  { plainEntry 0x147 [0, 1] with
    dst := accReg, s0 := anySrc.once, s1 := anySrc.once, s2 := anySrc.once, mod := fun f => accForm f ≤ 3, star := true, mx := true
    ownBounds := true }
def eAccwr : Entry :=
  { plainEntry 0x148 [0, 1] with
    dst := accReg, s0 := anySrc.once, s1 := anySrc.once, s2 := anySrc.once, mod := fun f => accForm f ≤ 3 && modBits f 6 3 == 0, mx := true
    dstSrc := true, ownBounds := true }
def eAccadd : Entry := { plainEntry 0x149 [0] with s0 := anySrc.once, s1 := anySrc.once, mod := fun f => modBits f 6 1 == 0, mx := true }
def eMxclass : Entry := { plainEntry 0x14A [0] with s0 := anySrc.once, mod := fun f => modBits f 6 1 == 0, mx := true }
def eMxwait : Entry := { plainEntry 0x14B [0, 1] with s0 := anySrc.once, mx := true }

/-! ## Labels (spec/14_labels.md R347) and taps (spec/20_picot.md R479) -/

def lblSp (f : Fields) : Bool := bit f.ext 15
def eLblld : Entry :=
  { plainEntry 0x150 [2] with s0 := placeSrc lblSp, immLens := [], mx := true, rsv := fun _ f => fld f.ext 63 19 == 0 }
def eLblst : Entry := { eLblld with opc := 0x155 }
def eRelld : Entry := { plainEntry 0x151 [0] with s0 := anySrc.once, s1 := addrSrc.once, mx := true }
def relSrc : FieldSpec :=
  { ok := fun f o => if modBits f 2 0 == 1 then isVec o else o != .reserved
    imm := false, reads := fun f => if modBits f 2 0 == 1 then .low else .usual }
def eReltest : Entry :=
  { plainEntry 0x152 [0] with
    dst := dstOf true true false true false, s0 := relSrc, s1 := relSrc, s2 := anySrc.once, mod := fun f => modBits f 2 0 ≤ 1, star := true
    mx := true }
def eSelv : Entry :=
  { plainEntry 0x153 [0] with
    dst := dstOf true false false false false, s0 := offSrc, s1 := anySrc.once, mod := fun f => modBits f 6 1 == 0, mx := true }
def eTreeld : Entry := { plainEntry 0x154 [0] with dst := vkDst, s0 := anySrc.once, s1 := addrSrc.once, s2 := anySrc.once, mx := true }

/-- COL0, NC, TCOL, SS, TILE and TAPN of a tap's descriptor word (R479). -/
def tapNc (f : Fields) : Nat := fld f.ext 20 14
def tapTcol (f : Fields) : Nat := fld f.ext 13 8
def tapRsv (f : Fields) : Bool := fld f.ext 63 36 == 0 && tapNc f != 0 && tapTcol f + tapNc f ≤ 64
def eTap : Entry :=
  { plainEntry 0x158 [2] with
    dst := kDst, s0 := (noImm anySrc).once, immLens := [], mx := true, rsv := fun _ f => tapRsv f, late := true }
def eSteer : Entry := { eTap with opc := 0x159, rsv := fun _ f => tapRsv f && !bit f.ext 7, late := false }
def eTapstat : Entry := { plainEntry 0x15A [0] with dst := pairDst false, s0 := anySrc, s1 := anySrc, s2 := anySrc, mx := true }
def eTapclr : Entry :=
  { plainEntry 0x15B [0] with s0 := anySrc.once, s1 := anySrc.once, mod := fun f => modBits f 6 2 == 0 && modBits f 1 0 ≤ 2, mx := true }

/-! ## Synchronisation and tasks (spec/17_sync.md R413) -/

def barMod (f : Fields) : Bool := modBits f 6 5 == 0 && (modBits f 4 4 == 0 || modBits f 3 0 < 8)
def eBar : Entry := { plainEntry 0x180 [0] with dst := kDst, mod := barMod, ap := true, mx := true }
def eBararr : Entry := { eBar with opc := 0x181 }
def eBarwait : Entry := { eBar with opc := 0x182, lens := [0, 1], dst := noField, s0 := anySrc.once, late := true }
def eBargen : Entry := { eBar with opc := 0x183, dst := dstOf true true false false false }
def eTqenq : Entry := { plainEntry 0x184 [0] with s0 := anySrc.once, s1 := addrSrc.once, late := true }
def eTqdeq : Entry :=
  { plainEntry 0x185 [0] with
    dst := dstOf true false false false false, s0 := anySrc.once, mod := fun f => modBits f 2 1 == 0, star := true, ownDst := true, late := true }
def eTaskend : Entry := { plainEntry 0x186 [0] with dst := kDst, s0 := anySrc.once, mod := fun f => modBits f 6 1 == 0 }
def eDcinit : Entry := { plainEntry 0x187 [0, 1] with s0 := anySrc.once, s1 := anySrc.once }
def eDcdec : Entry := { eDcinit with opc := 0x188, dst := kDst, ap := true, mx := true }
def eLaunch : Entry :=
  { plainEntry 0x189 [2] with dst := kDst, s0 := (noImm addrSrc).once, immLens := [], rsv := fun _ f => fld f.ext 63 3 == 0 }

/-! ## Prickings (spec/16_pricking.md R394) -/

def crossCh (f : Fields) : Nat := fld f.ext 8 6
def crossRr (f : Fields) : Nat := fld f.ext 5 3
def crossSr (f : Fields) : Nat := fld f.ext 2 0
def eCross : Entry :=
  { plainEntry 0x190 [1] with
    dst := vkDst, s0 := { noImm anySrc with reads := fun f => if modBits f 2 0 == 0 then .active else .once }, s1 := (noImm anySrc).once
    mod := fun f => modBits f 2 0 ≤ 2, star := true, immLens := []
    ap := true, mx := true, ownBounds := true, ownDst := true, late := true
    rsv := fun roles f => fld f.ext 31 9 == 0 && crossRr f < roles && crossSr f < roles }
def eLap : Entry :=
  { plainEntry 0x191 [2] with
    s0 := (noImm anySrc).once, mod := fun f => modBits f 6 2 == 0, immLens := [], p7 := fun _ => true, ap := true, mx := true }
def eDrift : Entry := { plainEntry 0x192 [0, 1] with dst := kDst, s0 := anySrc.once, ap := true, mx := true }
def ePrkend : Entry := { plainEntry 0x193 [0] with p7 := fun _ => true, ap := true, mx := true, retiring := true }

/-! ## Access processors (spec/12_access.md R291) -/

def apEntry (opc : Nat) (lens : List Nat) : Entry := { plainEntry opc lens with wave := false, ap := true }
def qDst : FieldSpec := dstOf false false true false false
def aDst : FieldSpec := dstOf false true false false false
/-- An a register, an inline constant or IMM (R291). That a wave names a k register where `QSTAT` takes an a register is the model's choice
(log 107). -/
def apSrc : FieldSpec := { ok := fun _ o => match o with | .k _ => true | .const _ => true | _ => false }
def eAfetch : Entry := { apEntry 0x198 [0, 1] with dst := qDst, s0 := apSrc, s1 := apSrc, s2 := apSrc, noPush := true }
def eApush : Entry := { apEntry 0x199 [0, 1] with dst := qDst, s0 := apSrc, s1 := apSrc, noPush := true }
def eAovl : Entry := { apEntry 0x19A [0, 1] with dst := aDst, s0 := apSrc, s1 := apSrc, mod := fun _ => true, star := true }
def eAloop : Entry := { apEntry 0x19B [1] with dst := aDst, immLens := [] }
def eAstop : Entry := { apEntry 0x19C [0, 1] with s0 := apSrc, mod := fun f => modBits f 6 1 == 0 }
def eQstat : Entry :=
  { apEntry 0x19D [0, 1] with dst := dstOf true true false false false, s0 := apSrc, wave := true }
def eWinread : Entry := { apEntry 0x19E [0, 1] with dst := aDst, s0 := apSrc, s1 := apSrc, mod := laOnly, star := true }
def eAsync : Entry := { apEntry 0x19F [0, 1] with s0 := apSrc }

/-! ## The shuttle from a wave (spec/15_shuttle.md R375) -/

def eShstart : Entry := { plainEntry 0x1A0 [0, 1, 2] with dst := kDst, s0 := addrSrc.once, s1 := addrSrc.once }
def eShwait : Entry := { plainEntry 0x1A1 [0, 1] with dst := vkDst, s0 := anySrc.once }
def eCfix : Entry :=
  { plainEntry 0x1A2 [0, 1] with
    dst := dstOf true false false false false, s0 := anySrc, s1 := anySrc.once, s2 := anySrc.once, mod := fun f => modBits f 2 0 ≤ 3, star := true }

/-! ## Fabric (spec/22_system.md R503) -/

def eXsend : Entry := { plainEntry 0x1A8 [0] with dst := kDst, s0 := anySrc.once, s1 := addrSrc.once, s2 := anySrc.once, late := true }
def eXrecv : Entry :=
  { plainEntry 0x1A9 [0] with dst := kDst, s0 := anySrc.once, s1 := addrSrc.once, s2 := anySrc.once, mod := laOnly, star := true }
def eXred : Entry :=
  { plainEntry 0x1AA [0] with
    dst := dstOf true false false false false, s0 := anySrc, s1 := anySrc.once, mod := fun f => modBits f 2 0 ≤ 5, star := true
    late := true }

/-! ## Scheduling, traps and context images (spec/18_scheduler.md R438, spec/19_traps.md R458) -/

def ePrdone : Entry := { plainEntry 0x1B0 [0] with s0 := addrOrNone.once, p7 := fun _ => true }
def eTrap : Entry := { plainEntry 0x1C0 [0, 1] with s0 := anySrc.once, ap := true, mx := true }
def eEret : Entry := { plainEntry 0x1C1 [0] with p7 := fun _ => true, ap := true, mx := true }
/-- S0 of `OWR` and `OWW`: raw bits with `.NAME`, NONE with the other selectors (R64, R458). -/
def selField : FieldSpec := { ok := fun _ o => o == .none, imm := false, raw := fun f => modBits f 2 0 == 4 }
def eOwr : Entry :=
  { plainEntry 0x1C2 [0] with
    dst := dstOf true true false true false, s0 := selField, s1 := anySrc.once, mod := fun f => modBits f 6 3 == 0 && modBits f 2 0 ≤ 4
    p7 := fun _ => true }
def eOww : Entry :=
  { plainEntry 0x1C3 [0] with
    dst := { anySrc with imm := false }, s0 := selField, s1 := anySrc.once, mod := fun f => modBits f 6 4 == 0 && modBits f 2 0 ≤ 4
    p7 := fun _ => true, dstSrc := true }
def eEmuset : Entry :=
  { plainEntry 0x1C4 [0, 1, 2] with dst := kDst, s0 := addrSrc.once, mod := fun f => modBits f 6 1 == 0 }
def eCtxrest : Entry := { plainEntry 0x1C5 [0] with dst := kDst, s0 := addrSrc.once, p7 := fun _ => true }
def eBkpt : Entry := { plainEntry 0x1C6 [0] with ap := true, mx := true }
def eCtxsave : Entry := { plainEntry 0x1C7 [0] with dst := kDst, s0 := addrSrc.once, p7 := fun _ => true }

/-- Whether a named operand field is acceptable, IMM apart (R63 step 4, NAME). -/
def FieldSpec.nameOk (s : FieldSpec) (read : Name → Operand) (f : Fields) (n : Name) : Bool :=
  s.raw f || read n == .imm || s.ok f (read n)

/-- Whether a field that names IMM may do so: the entry accepts it and the trailing word is an immediate (R58, R63 step 4, IMM). -/
def FieldSpec.immOk (s : FieldSpec) (e : Entry) (read : Name → Operand) (f : Fields) (n : Name) : Bool :=
  s.raw f || read n != .imm || (s.imm && e.immLens.contains f.len.toNat)

/-- The first cause of R63 step 4 under which the instruction goes to the emulation handler, given whether its opcode is disabled, how the
member reads names, and how many roles the kernel declares. -/
def fateOf (e : Entry) (disabled : Bool) (read : Name → Operand) (roles : Nat) (f : Fields) : Option EmuCause :=
  if disabled then some .disabled
  else if !e.lens.contains f.len.toNat then some .len
  else if !(e.s0.nameOk read f f.s0 && e.s1.nameOk read f f.s1 && e.s2.nameOk read f f.s2) then some .name
  else if !(e.s0.immOk e read f f.s0 && e.s1.immOk e read f f.s1 && e.s2.immOk e read f f.s2) ||
      (!e.dst.raw f && read f.dst == .imm && (!e.immLens.contains f.len.toNat || e.dstSrc && !e.dst.imm)) then some .imm
  else if !(e.dst.raw f || e.dst.ok f (read f.dst)) then some .dst
  else if !(e.mod f && e.modDst f (read f.dst)) then some .mod
  else if !(e.rsv roles f && (!e.p7 f || (f.preg == 7#3 && f.pneg == 0#1))) then some .rsv
  else none

/-- Entries of the opcode map, part 1. -/
def entryList1 : List Entry :=
  [eNop, eBr, eBru, eBrd, eJoin, eCall, eCallx, eRet, eExit, eYield, eSleep, eMskrd, eMskwr, eRegroup, eSrd, eSwr, eIadd,
   eIaddi, eIsub, eImul]

/-- Entries of the opcode map, part 2. -/
def entryList2 : List Entry :=
  [eImulh, eImad, eImadw, eAddc, eSubb, eIabs, eIneg, eImin, eImax, eIcmp, eShl, eShr, eSar, eRot, eAnd, eOr, eXor, eAndn,
   eNot, eBfx]

/-- Entries of the opcode map, part 3. -/
def entryList3 : List Entry :=
  [eBfi, eBrev, ePopc, eClz, eCtz, eLea, eIdiv, eIrem, eFadd, eFsub, eFmul, eFfma, eFmin, eFmax, eFcmp, eFclass, eFrcp,
   eFrsq, eFsqrt, eFexp2]

/-- Entries of the opcode map, part 4. -/
def entryList4 : List Entry :=
  [eFlog2, eFsin, eFcos, eFtanh, eFdivs, eFrnd, eDot4, eDot2, eCvt, eCvtsc, ePack, eUnpack, eMov, eMovi, eMovhi, eAddpc,
   eBcast, eShfl, eShflx, eShflup]

/-- Entries of the opcode map, part 5. -/
def entryList5 : List Entry :=
  [eShfldn, eVote, ePfxsum, eLred, eSample, eSel, eFirstl, eKill, ePlop, eLds, eSts, eLdsTake, eLdsWait, eStsFill, eSempty,
   eAtoms, eCass, eLd, eLdI12, eSt]

/-- Entries of the opcode map, part 6. -/
def entryList6 : List Entry :=
  [eStI12, eAtom, eCas, eRed, eFence, ePref, eCctl, eEvload, eEvstep, eWinbind, eWinfree, eAddrq, ePgmap, ePgpool, eTlbinv,
   eCpy, eTcopy, eTcopyMc, eCpwait, eCpany]

/-- Entries of the opcode map, part 7. -/
def entryList7 : List Entry :=
  [eCpfirst, eCptest, eCpstat, eMma, eMmaQ, eWbload, eWbfree, eAcczero, eAccld, eAccst, eAccrd, eAccwr, eAccadd, eMxclass,
   eMxwait, eLblld, eLblst, eRelld, eReltest, eSelv]

/-- Entries of the opcode map, part 8. -/
def entryList8 : List Entry :=
  [eTreeld, eTap, eSteer, eTapstat, eTapclr, eBar, eBararr, eBarwait, eBargen, eTqenq, eTqdeq, eTaskend, eDcinit, eDcdec,
   eLaunch, eCross, eLap, eDrift, ePrkend, eAfetch]

/-- Entries of the opcode map, part 9. -/
def entryList9 : List Entry :=
  [eApush, eAovl, eAloop, eAstop, eQstat, eWinread, eAsync, eShstart, eShwait, eCfix, eXsend, eXrecv, eXred, ePrdone,
   eTrap, eEret, eOwr, eOww, eEmuset, eCtxrest]

/-- Entries of the opcode map, part 10. -/
def entryList10 : List Entry :=
  [eBkpt, eCtxsave]

/-- Every entry of the opcode map (R65). -/
def entryList : List Entry :=
  entryList1 ++ entryList2 ++ entryList3 ++ entryList4 ++ entryList5 ++ entryList6 ++ entryList7 ++ entryList8 ++ entryList9 ++ entryList10

/-- The entry of an opcode (R65). -/
def entryOf (opc : Nat) : Option Entry := entryList.find? fun e => e.opc == opc

end Sys2Proof.Machine
end

