-- ==== Sys2Proof/WellFormed.lean ====
section
/-!
DEFINITION. Well-formed instructions (spec/03_encoding.md R45, R46, R63 step 4, R64, R370, R371): those whose fields their entry accepts.
A LIS-3 instruction that is not well formed goes to the emulation handler; a shuttle word that is not stops its context.
-/
namespace Sys2Proof

open Machine

/-- The entry of a LIS-3 instruction, with its fields. -/
def coreEntry : Instr → Option (Entry × Fields)
  | .nop f => some (eNop, f)
  | .br f => some (eBr, f)
  | .bru f => some (eBru, f)
  | .brd f => some (eBrd, f)
  | .join f => some (eJoin, f)
  | .call f => some (eCall, f)
  | .callx f => some (eCallx, f)
  | .ret f => some (eRet, f)
  | .exit f => some (eExit, f)
  | .yield f => some (eYield, f)
  | .sleep f => some (eSleep, f)
  | .mskrd f => some (eMskrd, f)
  | .mskwr f => some (eMskwr, f)
  | .regroup f => some (eRegroup, f)
  | .srd f => some (eSrd, f)
  | .swr f => some (eSwr, f)
  | .mcwinWrite _ _ => none
  | .tbmaskWrite _ _ => none
  | .btexpWrite _ _ => none
  | .iadd f => some (eIadd, f)
  | .iaddi f => some (eIaddi, f)
  | .isub f => some (eIsub, f)
  | .imul f => some (eImul, f)
  | .imulh f => some (eImulh, f)
  | .imad f => some (eImad, f)
  | .imadw f => some (eImadw, f)
  | .addc f => some (eAddc, f)
  | .subb f => some (eSubb, f)
  | .iabs f => some (eIabs, f)
  | .ineg f => some (eIneg, f)
  | .imin f => some (eImin, f)
  | .imax f => some (eImax, f)
  | .icmp f => some (eIcmp, f)
  | .shl f => some (eShl, f)
  | .shr f => some (eShr, f)
  | .sar f => some (eSar, f)
  | .rot f => some (eRot, f)
  | .and f => some (eAnd, f)
  | .or f => some (eOr, f)
  | .xor f => some (eXor, f)
  | .andn f => some (eAndn, f)
  | .not f => some (eNot, f)
  | .bfx f => some (eBfx, f)
  | .bfi f => some (eBfi, f)
  | .brev f => some (eBrev, f)
  | .popc f => some (ePopc, f)
  | .clz f => some (eClz, f)
  | .ctz f => some (eCtz, f)
  | .lea f => some (eLea, f)
  | .idiv f => some (eIdiv, f)
  | .irem f => some (eIrem, f)
  | .fadd f => some (eFadd, f)
  | .fsub f => some (eFsub, f)
  | .fmul f => some (eFmul, f)
  | .ffma f => some (eFfma, f)
  | .fmin f => some (eFmin, f)
  | .fmax f => some (eFmax, f)
  | .fcmp f => some (eFcmp, f)
  | .fclass f => some (eFclass, f)
  | .frcp f => some (eFrcp, f)
  | .frsq f => some (eFrsq, f)
  | .fsqrt f => some (eFsqrt, f)
  | .fexp2 f => some (eFexp2, f)
  | .flog2 f => some (eFlog2, f)
  | .fsin f => some (eFsin, f)
  | .fcos f => some (eFcos, f)
  | .ftanh f => some (eFtanh, f)
  | .fdivs f => some (eFdivs, f)
  | .frnd f => some (eFrnd, f)
  | .dot4 f => some (eDot4, f)
  | .dot2 f => some (eDot2, f)
  | .mov f => some (eMov, f)
  | .movi f => some (eMovi, f)
  | .movhi f => some (eMovhi, f)
  | .addpc f => some (eAddpc, f)
  | .bcast f => some (eBcast, f)
  | .shfl f => some (eShfl, f)
  | .shflx f => some (eShflx, f)
  | .shflup f => some (eShflup, f)
  | .shfldn f => some (eShfldn, f)
  | .vote f => some (eVote, f)
  | .pfxsum f => some (ePfxsum, f)
  | .lred f => some (eLred, f)
  | .sample f => some (eSample, f)
  | .sel f => some (eSel, f)
  | .firstl f => some (eFirstl, f)
  | .kill f => some (eKill, f)
  | .plop f => some (ePlop, f)
  | .cvt f => some (eCvt, f)
  | .cvtsc f => some (eCvtsc, f)
  | .pack f => some (ePack, f)
  | .unpack f => some (eUnpack, f)
  | .lds f => some (eLds, f)
  | .sts f => some (eSts, f)
  | .ldsTake f => some (eLdsTake, f)
  | .ldsWait f => some (eLdsWait, f)
  | .stsFill f => some (eStsFill, f)
  | .sempty f => some (eSempty, f)
  | .atoms f => some (eAtoms, f)
  | .cass f => some (eCass, f)
  | .ld f => some (eLd, f)
  | .ldI12 f => some (eLdI12, f)
  | .st f => some (eSt, f)
  | .stI12 f => some (eStI12, f)
  | .atom f => some (eAtom, f)
  | .cas f => some (eCas, f)
  | .red f => some (eRed, f)
  | .fence f => some (eFence, f)
  | .pref f => some (ePref, f)
  | .cctl f => some (eCctl, f)
  | .evload f => some (eEvload, f)
  | .evstep f => some (eEvstep, f)
  | .winbind f => some (eWinbind, f)
  | .winfree f => some (eWinfree, f)
  | .addrq f => some (eAddrq, f)
  | .pgmap f => some (ePgmap, f)
  | .pgpool f => some (ePgpool, f)
  | .tlbinv f => some (eTlbinv, f)
  | .cpy f => some (eCpy, f)
  | .tcopy f => some (eTcopy, f)
  | .tcopyMc f => some (eTcopyMc, f)
  | .cpwait f => some (eCpwait, f)
  | .cpany f => some (eCpany, f)
  | .cpfirst f => some (eCpfirst, f)
  | .cptest f => some (eCptest, f)
  | .cpstat f => some (eCpstat, f)
  | .copyQueueRoom => none
  | .copyComplete _ => none
  | .copySuspend _ => none
  | .mma f => some (eMma, f)
  | .mmaQ f => some (eMmaQ, f)
  | .wbload f => some (eWbload, f)
  | .wbfree f => some (eWbfree, f)
  | .acczero f => some (eAcczero, f)
  | .accld f => some (eAccld, f)
  | .accst f => some (eAccst, f)
  | .accrd f => some (eAccrd, f)
  | .accwr f => some (eAccwr, f)
  | .accadd f => some (eAccadd, f)
  | .mxclass f => some (eMxclass, f)
  | .mxwait f => some (eMxwait, f)
  | .mxQueueRoom => none
  | .mxKstep => none
  | .mxQueuedOp => none
  | .wbPanelLoaded _ => none
  | .wbSpaceReturn _ => none
  | .lblld f => some (eLblld, f)
  | .relld f => some (eRelld, f)
  | .reltest f => some (eReltest, f)
  | .selv f => some (eSelv, f)
  | .treeld f => some (eTreeld, f)
  | .lblst f => some (eLblst, f)
  | .tap f => some (eTap, f)
  | .steer f => some (eSteer, f)
  | .tapstat f => some (eTapstat, f)
  | .tapclr f => some (eTapclr, f)
  | .bar f => some (eBar, f)
  | .bararr f => some (eBararr, f)
  | .barwait f => some (eBarwait, f)
  | .bargen f => some (eBargen, f)
  | .slathPhaseComplete _ => none
  | .tqenq f => some (eTqenq, f)
  | .tqdeq f => some (eTqdeq, f)
  | .taskend f => some (eTaskend, f)
  | .dcinit f => some (eDcinit, f)
  | .dcdec f => some (eDcdec, f)
  | .queueEngineSteal _ _ => none
  | .leaseExpiry _ => none
  | .launch f => some (eLaunch, f)
  | .cross f => some (eCross, f)
  | .lap f => some (eLap, f)
  | .drift f => some (eDrift, f)
  | .prkend f => some (ePrkend, f)
  | .afetch f => some (eAfetch, f)
  | .apush f => some (eApush, f)
  | .aovl f => some (eAovl, f)
  | .aloop f => some (eAloop, f)
  | .astop f => some (eAstop, f)
  | .qstat f => some (eQstat, f)
  | .winread f => some (eWinread, f)
  | .async f => some (eAsync, f)
  | .streamEntryPush _ => none
  | .shstart f => some (eShstart, f)
  | .shwait f => some (eShwait, f)
  | .cfix f => some (eCfix, f)
  | .hld _ _ _ _ => none
  | .hldv _ _ _ => none
  | .haddReg _ _ _ => none
  | .haddImm _ _ _ => none
  | .hsubReg _ _ _ => none
  | .hsubImm _ _ _ => none
  | .hshlReg _ _ _ => none
  | .hshlImm _ _ _ => none
  | .handReg _ _ _ => none
  | .handImm _ _ _ => none
  | .hcmpReg _ _ _ _ => none
  | .hcmpImm _ _ _ _ => none
  | .hbr _ _ => none
  | .hbrZ _ _ => none
  | .hjmp _ => none
  | .hloop _ _ => none
  | .hpref _ _ _ => none
  | .hrow _ => none
  | .hemit => none
  | .htile _ _ => none
  | .htileOpen => none
  | .hvrow => none
  | .hscale _ => none
  | .hprune => none
  | .hempty _ => none
  | .hend => none
  | .hmov _ _ => none
  | .hmovH _ _ => none
  | .xsend f => some (eXsend, f)
  | .xrecv f => some (eXrecv, f)
  | .xred f => some (eXred, f)
  | .fabricMessageArrival _ _ _ _ => none
  | .xredComplete _ _ => none
  | .fabricAccess _ => none
  | .fabricReplay _ _ => none
  | .prdone f => some (ePrdone, f)
  | .ctxsave f => some (eCtxsave, f)
  | .trap f => some (eTrap, f)
  | .eret f => some (eEret, f)
  | .owr f => some (eOwr, f)
  | .oww f => some (eOww, f)
  | .emuset f => some (eEmuset, f)
  | .ctxrest f => some (eCtxrest, f)
  | .bkpt f => some (eBkpt, f)
  | .sleepExpiry => none
  | .driftWake => none
  | .queueWake => none
  | .crossWake => none
  | .teamEnd => none
  | .icacheFill _ => none
  | .launchPacket _ _ _ _ => none
  | .launchReady _ => none
  | .launchComplete _ => none
  | .bindRecord _ _ _ _ => none
  | .quantumExpiry => none
  | .preemptRequest _ _ => none
  | .preDelivery => none
  | .preemptEnd => none
  | .preemptTimeout => none
  | .hsemtkRead _ => none
  | .hsemstRelease _ => none
  | .hostLinkDown _ => none
  | .partitionCreate _ _ => none
  | .partitionDestroy _ _ => none
  | .firmwareUpdate _ _ => none
  | .moduleReset _ => none
  | .attestationReport _ => none
  | .flr _ _ => none
  | .atsInvalidation _ _ => none
  | .priResponse _ _ => none
  | .patrolScrub => none
  | .undefinedInstruction _ => none
  | .shuttleUndefinedWord _ => none
  | .hostBarAccess _ _ _ => none
  | .powerClampWithhold => none

/-- The trailing bits that the length does not hold are zero (R45). -/
def extFits (f : Fields) : Bool :=
  match f.len.toNat with
  | 0 => f.ext == 0#64
  | 1 => f.ext.toNat < 2 ^ 32
  | 2 => true
  | _ => false

/-- The fields can stand in an instruction of the entry's opcode (R45). -/
def fieldsFit (e : Entry) (f : Fields) : Bool := f.opc.toNat == e.opc && extFits f

/-- The condition code of a shuttle comparison is not reserved (R371). -/
def ccOk (c : BitVec 3) : Bool := c.toNat < 6

/-- Whether an instruction can be encoded so that decoding gives it back: its fields hold its opcode, its trailing bits fit its length
(R45), and a shuttle comparison has no reserved code (R371). -/
def Instr.encodable (i : Instr) : Bool :=
  match coreEntry i with
  | some (e, f) => fieldsFit e f
  | none =>
    match i with
    | .hcmpReg _ _ c _ => ccOk c
    | .hcmpImm _ _ c _ => ccOk c
    | .undefinedInstruction _ => false
    | .shuttleUndefinedWord _ => false
    | _ => true

/-- The first cause of R63 step 4 under which the instruction is not executed, on a member that reads names as a wave does, in a kernel of
`roles` roles. -/
def Instr.fate (roles : Nat) (i : Instr) : Option EmuCause :=
  match coreEntry i with
  | some (e, f) => fateOf e false operandOf roles f
  | none => none

/-- A well-formed instruction: it can be encoded, and R63 step 4 rejects nothing of it (R46). -/
def WellFormed (roles : Nat) (i : Instr) : Bool := i.encodable && (i.fate roles).isNone

end Sys2Proof
end

