-- ==== Sys2Proof/Decode.lean ====
section
/-!
DEFINITION. The decoder and the encoder (spec/03_encoding.md R45, R63, R65; spec/15_shuttle.md R370, R371, R374). The decoder is total: a
word whose OPC is undefined decodes to `.undefinedInstruction`, an undefined shuttle word to `.shuttleUndefinedWord`.
-/
namespace Sys2Proof

open Machine

/-- The opcode map, part 1 (R65). -/
def coreTable1 : List (Nat × (Fields → Instr)) :=
  [(eNop.opc, .nop), (eBr.opc, .br), (eBru.opc, .bru), (eBrd.opc, .brd), (eJoin.opc, .join), (eCall.opc, .call), (eCallx.opc,
   .callx), (eRet.opc, .ret), (eExit.opc, .exit), (eYield.opc, .yield), (eSleep.opc, .sleep), (eMskrd.opc, .mskrd), (eMskwr.opc,
   .mskwr), (eRegroup.opc, .regroup), (eSrd.opc, .srd), (eSwr.opc, .swr), (eIadd.opc, .iadd), (eIaddi.opc, .iaddi), (eIsub.opc,
   .isub), (eImul.opc, .imul), (eImulh.opc, .imulh), (eImad.opc, .imad), (eImadw.opc, .imadw), (eAddc.opc, .addc), (eSubb.opc,
   .subb), (eIabs.opc, .iabs)]

/-- The opcode map, part 2 (R65). -/
def coreTable2 : List (Nat × (Fields → Instr)) :=
  [(eIneg.opc, .ineg), (eImin.opc, .imin), (eImax.opc, .imax), (eIcmp.opc, .icmp), (eShl.opc, .shl), (eShr.opc, .shr), (eSar.opc,
   .sar), (eRot.opc, .rot), (eAnd.opc, .and), (eOr.opc, .or), (eXor.opc, .xor), (eAndn.opc, .andn), (eNot.opc, .not), (eBfx.opc,
   .bfx), (eBfi.opc, .bfi), (eBrev.opc, .brev), (ePopc.opc, .popc), (eClz.opc, .clz), (eCtz.opc, .ctz), (eLea.opc, .lea), (eIdiv.opc,
   .idiv), (eIrem.opc, .irem), (eFadd.opc, .fadd), (eFsub.opc, .fsub), (eFmul.opc, .fmul), (eFfma.opc, .ffma)]

/-- The opcode map, part 3 (R65). -/
def coreTable3 : List (Nat × (Fields → Instr)) :=
  [(eFmin.opc, .fmin), (eFmax.opc, .fmax), (eFcmp.opc, .fcmp), (eFclass.opc, .fclass), (eFrcp.opc, .frcp), (eFrsq.opc, .frsq),
   (eFsqrt.opc, .fsqrt), (eFexp2.opc, .fexp2), (eFlog2.opc, .flog2), (eFsin.opc, .fsin), (eFcos.opc, .fcos), (eFtanh.opc, .ftanh),
   (eFdivs.opc, .fdivs), (eFrnd.opc, .frnd), (eDot4.opc, .dot4), (eDot2.opc, .dot2), (eMov.opc, .mov), (eMovi.opc, .movi),
   (eMovhi.opc, .movhi), (eAddpc.opc, .addpc), (eBcast.opc, .bcast), (eShfl.opc, .shfl), (eShflx.opc, .shflx), (eShflup.opc,
   .shflup), (eShfldn.opc, .shfldn), (eVote.opc, .vote)]

/-- The opcode map, part 4 (R65). -/
def coreTable4 : List (Nat × (Fields → Instr)) :=
  [(ePfxsum.opc, .pfxsum), (eLred.opc, .lred), (eSample.opc, .sample), (eSel.opc, .sel), (eFirstl.opc, .firstl), (eKill.opc, .kill),
   (ePlop.opc, .plop), (eCvt.opc, .cvt), (eCvtsc.opc, .cvtsc), (ePack.opc, .pack), (eUnpack.opc, .unpack), (eLds.opc, .lds),
   (eSts.opc, .sts), (eLdsTake.opc, .ldsTake), (eLdsWait.opc, .ldsWait), (eStsFill.opc, .stsFill), (eSempty.opc, .sempty),
   (eAtoms.opc, .atoms), (eCass.opc, .cass), (eLd.opc, .ld), (eLdI12.opc, .ldI12), (eSt.opc, .st), (eStI12.opc, .stI12), (eAtom.opc,
   .atom), (eCas.opc, .cas), (eRed.opc, .red)]

/-- The opcode map, part 5 (R65). -/
def coreTable5 : List (Nat × (Fields → Instr)) :=
  [(eFence.opc, .fence), (ePref.opc, .pref), (eCctl.opc, .cctl), (eEvload.opc, .evload), (eEvstep.opc, .evstep), (eWinbind.opc,
   .winbind), (eWinfree.opc, .winfree), (eAddrq.opc, .addrq), (ePgmap.opc, .pgmap), (ePgpool.opc, .pgpool), (eTlbinv.opc, .tlbinv),
   (eCpy.opc, .cpy), (eTcopy.opc, .tcopy), (eTcopyMc.opc, .tcopyMc), (eCpwait.opc, .cpwait), (eCpany.opc, .cpany), (eCpfirst.opc,
   .cpfirst), (eCptest.opc, .cptest), (eCpstat.opc, .cpstat), (eMma.opc, .mma), (eMmaQ.opc, .mmaQ), (eWbload.opc, .wbload),
   (eWbfree.opc, .wbfree), (eAcczero.opc, .acczero), (eAccld.opc, .accld), (eAccst.opc, .accst)]

/-- The opcode map, part 6 (R65). -/
def coreTable6 : List (Nat × (Fields → Instr)) :=
  [(eAccrd.opc, .accrd), (eAccwr.opc, .accwr), (eAccadd.opc, .accadd), (eMxclass.opc, .mxclass), (eMxwait.opc, .mxwait), (eLblld.opc,
   .lblld), (eRelld.opc, .relld), (eReltest.opc, .reltest), (eSelv.opc, .selv), (eTreeld.opc, .treeld), (eLblst.opc, .lblst),
   (eTap.opc, .tap), (eSteer.opc, .steer), (eTapstat.opc, .tapstat), (eTapclr.opc, .tapclr), (eBar.opc, .bar), (eBararr.opc,
   .bararr), (eBarwait.opc, .barwait), (eBargen.opc, .bargen), (eTqenq.opc, .tqenq), (eTqdeq.opc, .tqdeq), (eTaskend.opc, .taskend),
   (eDcinit.opc, .dcinit), (eDcdec.opc, .dcdec), (eLaunch.opc, .launch), (eCross.opc, .cross)]

/-- The opcode map, part 7 (R65). -/
def coreTable7 : List (Nat × (Fields → Instr)) :=
  [(eLap.opc, .lap), (eDrift.opc, .drift), (ePrkend.opc, .prkend), (eAfetch.opc, .afetch), (eApush.opc, .apush), (eAovl.opc, .aovl),
   (eAloop.opc, .aloop), (eAstop.opc, .astop), (eQstat.opc, .qstat), (eWinread.opc, .winread), (eAsync.opc, .async), (eShstart.opc,
   .shstart), (eShwait.opc, .shwait), (eCfix.opc, .cfix), (eXsend.opc, .xsend), (eXrecv.opc, .xrecv), (eXred.opc, .xred),
   (ePrdone.opc, .prdone), (eCtxsave.opc, .ctxsave), (eTrap.opc, .trap), (eEret.opc, .eret), (eOwr.opc, .owr), (eOww.opc, .oww),
   (eEmuset.opc, .emuset), (eCtxrest.opc, .ctxrest), (eBkpt.opc, .bkpt)]

/-- The opcode map (R65). -/
def coreTable : List (Nat × (Fields → Instr)) :=
  coreTable1 ++ coreTable2 ++ coreTable3 ++ coreTable4 ++ coreTable5 ++ coreTable6 ++ coreTable7

/-- The instruction of an opcode with given fields: undefined where the map has no entry (R63). -/
def coreInstr (f : Fields) : Instr :=
  match coreTable.find? fun e => e.1 == f.opc.toNat with
  | some (_, c) => c f
  | none => .undefinedInstruction f

/-- The trailing bits that a length holds (R45). -/
def trailing (len : BitVec 2) (ext : Dword) : Dword :=
  match len.toNat with
  | 1 => (ext.setWidth 32).setWidth 64
  | 2 => ext
  | _ => 0#64

/-- The instruction of a first word and the 64 bits after it (R45, R63). LEN 0b11 is reserved, whatever the opcode. -/
def decodeWord (w ext : Dword) : Instr :=
  let f := fieldsOf w (trailing (w.extractLsb' 0 2) ext)
  if f.len == 3#2 then .undefinedInstruction f else coreInstr f

/-- The instruction that bytes in memory begin with, least significant byte first (R1); bytes beyond the list read as 0. None where there
are fewer than the 8 bytes of the first word. -/
def decode (bs : List Byte) : Option Instr :=
  if bs.length < 8 then none
  else some (decodeWord (BitVec.ofNat 64 (ofLeBytes (bs.take 8))) (BitVec.ofNat 64 (ofLeBytes ((bs.drop 8).take 8))))

/-- The instruction of a shuttle word (R370, R371): an undefined OP, a reserved field that is not zero or a reserved code makes the word
undefined (R374). -/
def decodeShuttle (w : Word) : Instr :=
  let rd := w.extractLsb' 21 5
  let ra := w.extractLsb' 16 5
  let bad : Instr := .shuttleUndefinedWord w
  let zero (n : Nat) : Bool := w.extractLsb' 0 n == 0#n
  let i := w.getLsbD 15
  let aForm (r : BitVec 5 → BitVec 5 → BitVec 5 → Instr) (k : BitVec 5 → BitVec 5 → BitVec 15 → Instr) : Instr :=
    if i then k rd ra (w.extractLsb' 0 15) else if zero 10 then r rd ra (w.extractLsb' 10 5) else bad
  match (w.extractLsb' 26 6).toNat with
  | 0x01 => .hld rd ra (w.extractLsb' 14 2) (w.extractLsb' 0 14)
  | 0x02 => if zero 11 then .hldv rd ra (w.extractLsb' 11 5) else bad
  | 0x03 => aForm .haddReg .haddImm
  | 0x04 => aForm .hsubReg .hsubImm
  | 0x05 => aForm .hshlReg .hshlImm
  | 0x06 => aForm .handReg .handImm
  | 0x07 =>
    let c := w.extractLsb' 13 3
    if !ccOk c then bad
    else if w.getLsbD 12 then .hcmpImm rd ra c (w.extractLsb' 0 12)
    else if zero 7 then .hcmpReg rd ra c (w.extractLsb' 7 5) else bad
  | 0x08 => if w.getLsbD 20 then .hbrZ rd (w.extractLsb' 0 20) else .hbr rd (w.extractLsb' 0 20)
  | 0x09 => .hjmp (w.extractLsb' 0 26)
  | 0x0A => if w.getLsbD 20 then bad else .hloop rd (w.extractLsb' 0 20)
  | 0x0B => if w.extractLsb' 14 2 == 0#2 then .hpref rd ra (w.extractLsb' 0 14) else bad
  | 0x0C => if rd == 0#5 && zero 16 then .hrow ra else bad
  | 0x0D => if zero 26 then .hemit else bad
  | 0x0E => if rd == 0#5 && zero 11 then .htile ra (w.extractLsb' 11 5) else bad
  | 0x0F => if zero 26 then .hvrow else bad
  | 0x10 => if zero 21 then .hscale rd else bad
  | 0x11 => if zero 26 then .hprune else bad
  | 0x12 => if rd == 0#5 && zero 16 then .hempty ra else bad
  | 0x13 => if zero 26 then .hend else bad
  | 0x14 => if w.getLsbD 20 then .hmovH rd (w.extractLsb' 0 20) else .hmov rd (w.extractLsb' 0 20)
  | _ => bad

/-- The instruction whose bits are `w`, numbered as spec/opcode_table.json numbers them: a shuttle word where the row has at most 32 bits,
else a LIS-3 instruction laid out in memory, with every bit above `nbits` zero. -/
def decodeTableWord (nbits w : Nat) : Option Instr :=
  if nbits ≤ 32 then some (decodeShuttle (BitVec.ofNat 32 w)) else decode (leBytes 16 (w % 2 ^ nbits))

/-- The bytes of a LIS-3 instruction as it stands in memory (R1, R45). -/
def encodeFields (f : Fields) : List Byte :=
  leBytes 8 (rawWord f).toNat ++
    (match f.len.toNat with | 1 => leBytes 4 f.ext.toNat | 2 => leBytes 8 f.ext.toNat | _ => [])

/-- The word of a shuttle instruction (R370, R371). -/
def encodeShuttle : Instr → Option Word
  | .hld d a w i => some (0x01#6 ++ d ++ a ++ w ++ i)
  | .hldv d a b => some (0x02#6 ++ d ++ a ++ b ++ 0#11)
  | .haddReg d a b => some (0x03#6 ++ d ++ a ++ 0#1 ++ b ++ 0#10)
  | .haddImm d a i => some (0x03#6 ++ d ++ a ++ 1#1 ++ i)
  | .hsubReg d a b => some (0x04#6 ++ d ++ a ++ 0#1 ++ b ++ 0#10)
  | .hsubImm d a i => some (0x04#6 ++ d ++ a ++ 1#1 ++ i)
  | .hshlReg d a b => some (0x05#6 ++ d ++ a ++ 0#1 ++ b ++ 0#10)
  | .hshlImm d a i => some (0x05#6 ++ d ++ a ++ 1#1 ++ i)
  | .handReg d a b => some (0x06#6 ++ d ++ a ++ 0#1 ++ b ++ 0#10)
  | .handImm d a i => some (0x06#6 ++ d ++ a ++ 1#1 ++ i)
  | .hcmpReg d a c b => some (0x07#6 ++ d ++ a ++ c ++ 0#1 ++ b ++ 0#7)
  | .hcmpImm d a c i => some (0x07#6 ++ d ++ a ++ c ++ 1#1 ++ i)
  | .hbr a d => some (0x08#6 ++ a ++ 0#1 ++ d)
  | .hbrZ a d => some (0x08#6 ++ a ++ 1#1 ++ d)
  | .hjmp d => some (0x09#6 ++ d)
  | .hloop a d => some (0x0A#6 ++ a ++ 0#1 ++ d)
  | .hpref n a d => some (0x0B#6 ++ n ++ a ++ 0#2 ++ d)
  | .hrow a => some (0x0C#6 ++ 0#5 ++ a ++ 0#16)
  | .hemit => some (0x0D#6 ++ 0#26)
  | .htile a b => some (0x0E#6 ++ 0#5 ++ a ++ b ++ 0#11)
  | .hvrow => some (0x0F#6 ++ 0#26)
  | .hscale d => some (0x10#6 ++ d ++ 0#21)
  | .hprune => some (0x11#6 ++ 0#26)
  | .hempty a => some (0x12#6 ++ 0#5 ++ a ++ 0#16)
  | .hend => some (0x13#6 ++ 0#26)
  | .hmov d i => some (0x14#6 ++ d ++ 0#1 ++ i)
  | .hmovH d i => some (0x14#6 ++ d ++ 1#1 ++ i)
  | .shuttleUndefinedWord w => some w
  | _ => none

/-- The bytes of an instruction as a member or a shuttle fetches it; the steps of other agents have none. -/
def encode (i : Instr) : List Byte :=
  match coreEntry i with
  | some (_, f) => encodeFields f
  | none =>
    match i with
    | .undefinedInstruction f => encodeFields f
    | i => match encodeShuttle i with | some w => leBytes 4 w.toNat | none => []

end Sys2Proof
end

