-- ==== Sys2Proof/Config.lean ====
section
/-!
DEFINITION. What an implementation fixes and spec/ leaves open: uninterpreted constants that no proof can evaluate (logs 4, 7, 8, 31, 75 and 110). A
free value is one of them applied to the counter `State.free` or to the operands it depends on.
-/
namespace Sys2Proof.Config

/-- The n-th value that the spec leaves undefined (R36, R192, R411). -/
opaque freeWord : Nat → Word

/-- Which leaf of a run that CONT misstates an access uses: by the cycle and the page (R219). -/
opaque freeLeaf : Nat → Nat → BitVec 4

/-- The C4 code that an implementation gives where the spec states none (R32, R140): of the codebook's bytes, the scale, and the FP32 bits. -/
opaque c4Open : List Byte → Nat → Nat → Nat

/-- What an implementation of a special function gives, within the bound that R162 sets: opcode and FP32 operand to FP32 result. -/
opaque special : Nat → Nat → Nat

/-- Whether a FALCON-1024 signature of a digest verifies under a public key (R507, R508). -/
opaque falconVerify : List Byte → List Byte → List Byte → Bool

/-- The signature of a message by the module's identity key (R508). -/
opaque falconSign : List Byte → List Byte

/-- SHAKE256 of a message, 64 bytes (R507). -/
opaque shake256 : List Byte → List Byte

/-- The security version and the stage digests that a flash image's header carries (R507). -/
opaque headerVersion : List Byte → Nat
opaque headerDigests : List Byte → List (List Byte)

/-- The KR ranges that the stages' management firmware locks at boot, base and limit in units of 256 KiB (R216), and the address windows that it may
write, base and limit in bytes (R436). -/
opaque firmwareKr : List (List Byte) → List (Nat × Nat)
opaque firmwareWindows : List (List Byte) → List (Nat × Nat)

end Sys2Proof.Config
end

