-- ==== Sys2Proof/Machine/State.lean ====
section
/-!
DEFINITION. The state of the machine as plain data, and the machine right after reset. Every piece of state that spec/ names stands here,
under the names of INVENTORY.md. The state is a focus: the member, team, core, cluster, context and partition whose turn it is stand in
named fields, and all others in lists beside them.
-/
namespace Sys2Proof.Machine

/-- What stops the machine. No rule of spec/ stops it: every misdeed of a program is a trap that a handler takes (spec/19_traps.md R442),
so no meaning answers with a fault. -/
inductive Fault where
  /-- Raised by nothing: no behaviour of spec/ stops the machine. Safe. -/
  | machineStop
deriving DecidableEq, Repr

/-- What the model turns away by name. -/
inductive Refusal where
  /-- The instruction has no meaning in the model yet; raised by the arms of `exec`. Safe. -/
  | notModelled (mnemonic : String)
deriving DecidableEq, Repr

/-! ## Members -/

/-- The three kinds of member (R81, R280, R306). -/
inductive Kind where
  | wave | ap | mx
deriving DecidableEq, Repr

/-- Where a member stands in its life (R80, R398, R431, R439). -/
inductive Status where
  /-- bound to no team -/
  | unbound
  /-- executes, or sleeps -/
  | running
  /-- stopped at an instruction boundary by a pre-emption -/
  | stopped
  /-- its last instruction has executed; it waits for what R257 names -/
  | retired
deriving DecidableEq, Repr

/-- What the trap of a `TAP` reports (R476): CAUSE and the two data words. -/
structure TapHit where
  cause : Nat
  data0 : Dword
  data1 : Dword
deriving DecidableEq, Repr

/-- Why a member sleeps (R84). A sleeping member's cursor stands at the instruction, which issues again when the sleep ends. -/
inductive Wait where
  /-- `SLEEP` until a cycle (R97) -/
  | sleep (c : Nat)
  /-- a `SLEEP` whose count ran out while it could not complete (R97) -/
  | slept
  /-- an empty or full data queue (R57) -/
  | queue
  /-- full or empty words (R186): the words of the set, whether they must be full, and the cycle in which the wait began -/
  | words (set : List Nat) (full : Bool) (since : Nat)
  /-- a full or empty channel (R387) -/
  | chan
  /-- the sent half of a `CROSS` of a member bound to both roles is done, the receive waits (R387) -/
  | crossSent
  /-- drift at a `LAP` (R386) -/
  | drift
  /-- arrived at a barrier in the phase of this generation, or waiting for a generation after it (R405, R406); route-tag barriers are
  numbered from 16 -/
  | barrier (n : Nat) (gen : BitVec 16)
  /-- woken from that sleep by a completion of the barrier (R402, R405) -/
  | barrierDone (gen : BitVec 16)
  /-- the first half-wave of a hardware wave in `BAR`, whose second has yet to arrive (R400) -/
  | half (n : Nat)
  /-- waiting to arrive in the next phase (R402) -/
  | arrive
  /-- copy tags (R277) -/
  | tags
  /-- room in the copy queue (R257) -/
  | copyRoom
  /-- room in the matrix operation queue (R305) -/
  | mxRoom
  /-- the same in a `TAP`, which PRE does not interrupt (R476) -/
  | tapRoom
  /-- matrix operations (R329) -/
  | mxDone
  /-- a `REGROUP` partner: the range's first and last register, the WAVEID named, and the registers read for the last time in some lanes (R99, R108) -/
  | regroup (a b partner : Nat) (last : List Nat) (act : Mask)
  /-- a `REGROUP` that the partner has decided, with its status (R99) -/
  | regrouped (status : Nat)
  /-- fetch streams (R292, R300) -/
  | streams
  /-- room in the sub-queue `home` of a queue for a record that has been read (R416) -/
  | taskRoom (queue home : Nat) (record : BitVec 512)
  /-- a ready record of a task queue, since a cycle (R409, R417) -/
  | tasks (queue since : Nat)
  /-- the shuttle context of a handle (R377) -/
  | shuttle (handle : Nat)
  /-- a shuttle context whose end another member has reported, with its status (R377) -/
  | shuttleDone (status : Dword)
  /-- the fabric (R504 to R506) -/
  | fabric
  /-- an `XSEND` whose message has been read, and one that a peer has accepted (R504) -/
  | sent
  | sentDone
  /-- an `XRED` whose contribution is given (R506) -/
  | xred
  /-- an `XRED` that has completed: the status it ends with, and the lanes' results (R506) -/
  | xredDone (status : Nat) (values : List Word)
  /-- a translation that the host has yet to give (R225) -/
  | pri (va : Nat)
  /-- a location that an engine operation owns and has yet to write (R245), or engine operations under a translation that goes (R232) -/
  | owned
  /-- an operation of the engine queue whose result the member awaits (R326, R476) -/
  | mxResult (op : Nat)
  /-- that operation is done: the words it read, and the rows it marked with their trap (R326, R476) -/
  | mxRead (ws : List Word) (tap : Option TapHit)
deriving DecidableEq, Repr

/-- A kind of reconvergence stack entry (R74). -/
inductive EntryKind where
  | a | j | p | c
deriving DecidableEq, Repr

/-- An entry of the reconvergence stack (R74). -/
structure StackEntry where
  mask : Mask
  kind : EntryKind
  addr : BitVec 48
deriving DecidableEq, Repr

/-- A mapped vector register of one hardware wave: its 32 lanes, its dead mask, whether it stands in the backing store, when it was last
read or written, the lanes whose parity a strike has upset, and whether a free physical register duplicates it (R105, R107, R109, R114). -/
structure VReg where
  vals : List Word
  dead : BitVec 32 := 0#32
  spilled : Bool := false
  stamp : Nat := 0
  bad : BitVec 32 := 0#32
  dup : Bool := false
deriving DecidableEq, Repr

/-- A register window: the mapped vector registers by key 4 × number + hardware wave of the group, the uniform registers (the a registers
of an access processor), the predicates p0 to p6, the register budget and the uniform count (R102, R116, R117, R281, R448), and the
uniform registers and the lanes of predicates whose parity a strike has upset (R114). -/
structure RegFile where
  vregs : List (Nat × VReg) := []
  kregs : List Dword := []
  preds : List Mask := []
  budget : Nat := 0
  unif : Nat := 0
  kbad : BitVec 64 := 0#64
  pbad : List Mask := []
deriving DecidableEq, Repr

/-- The vector, uniform and predicate registers of a set, by number. -/
structure RegSet where
  vs : List Nat := []
  ks : List Nat := []
  ps : List Nat := []
deriving DecidableEq, Repr

/-- An open lookahead window (R47): the instructions of it that are left, the registers that its long-latency instruction writes, and the registers
as that instruction found them. -/
structure LookWin where
  left : Nat := 0
  set : RegSet := {}
  old : RegFile := {}
deriving DecidableEq, Repr

/-- The open lookahead windows of a member, the oldest first (R47); and, while an instruction of one of them executes, the registers of their sets
that it writes too, with what they then hold. -/
structure Look where
  /-- the lanes that a sleeping instruction found active, where a window let it read its predicate either way -/
  act : Option Mask := none
  wins : List LookWin := []
  twice : RegSet := {}
  first : RegFile := {}
deriving DecidableEq, Repr

/-- The record of a translation fault in one lane (R223). -/
structure XlRec where
  va : Dword := 0#64
  ipa : Dword := 0#64
  info : Dword := 0#64
deriving DecidableEq, Repr

/-- The engine operation whose fault entered a frame (R460). -/
inductive EngineRef where
  | copy (id : Nat)
  | stream (id : Nat)
  | shuttle (id : Nat)
deriving DecidableEq, Repr

/-- An open handler frame and the state it interrupts (R448, R449, R460). `bank` holds the registers 0x140 to 0x15F. -/
structure Frame where
  sup : Bool
  cls : Nat
  rf : RegFile
  cursor : Dword
  exec : Mask
  mark : Nat
  wait : Option Wait
  bank : List Dword
  pcWritten : Bool := false
  xl : List XlRec := []
  engine : Option EngineRef := none
  /-- `Look.act` of the sleep that it interrupts -/
  seen : Option Mask := none
deriving DecidableEq, Repr

/-- A trap that waits for a later instruction of the member (R318, R337, R411). -/
structure HeldTrap where
  cls : Nat
  cause : Nat
  /-- the tiles of the operation, with 256 for a weight load; none where any instruction delivers it -/
  tiles : Option Nat := none
  /-- `sr.leaseinfo` or `sr.lblstat` when the trap is delivered -/
  data : Dword
deriving DecidableEq, Repr

/-- How far a member is in a pre-emption (R431, R439). -/
inductive PrePhase where
  | idle
  /-- PRE is due at the next boundary outside frames -/
  | pending
  /-- the handler runs -/
  | handling
  /-- `PRDONE` has set the resume point -/
  | done
deriving DecidableEq, Repr

/-- What the hardware holds of a member for a pre-emption (R431, R433, R439). -/
structure PreState where
  phase : PrePhase := .idle
  pc : Dword := 0#64
  exec : Mask := 0#128
  stack : List StackEntry := []
  wait : Option Wait := none
  /-- `Look.act` of the sleep that it interrupts -/
  seen : Option Mask := none
  since : Nat := 0
deriving DecidableEq, Repr

/-- A member: an issue group of waves, an access processor or the matrix sequencer (R73, R280, R306). -/
structure Member where
  id : Nat := 0
  kind : Kind := .wave
  status : Status := .unbound
  wait : Option Wait := none
  role : BitVec 3 := 0#3
  memNo : Nat := 0
  waveId : Nat := 0
  /-- wave slots of the group's hardware waves, 8 × issue slot + slot (R83, R426) -/
  slots : List Nat := []
  half : Nat := 0
  apNum : Nat := 0
  cursor : Dword := 0#64
  exec : Mask := 0#128
  live : Mask := 0#128
  stack : List StackEntry := []
  rf : RegFile := {}
  rskey : Dword := 0#64
  rsctr : List Word := []
  lorig : List Word := []
  regstat : Dword := 0#64
  /-- registers spilled, refilled and corrected, for each rename map of the group (R111, R119) -/
  spillcnt : List Dword := List.replicate 4 0#64
  refillcnt : List Dword := List.replicate 4 0#64
  rascnt : List Dword := List.replicate 4 0#64
  bsbase : Dword := 0#64
  frames : List Frame := []
  cpfault : Dword := 0#64
  qfault : Dword := 0#64
  ovlva : Dword := 0#64
  shfault : Dword := 0#64
  leaseinfo : Dword := 0#64
  rowadmit : Dword := 0#64
  xstat : Dword := 0#64
  lc : Dword := 0#64
  lapit : List Word := [0#32, 0#32, 0#32, 0#32]
  rspbase : Dword := 0#64
  held : List HeldTrap := []
  pre : PreState := {}
  /-- context registers that this member has written and not yet published (R226) -/
  ctxOv : List (Nat × Dword) := []
  /-- advances of `sr.mxskip`, or `sr.mxpre`, by operations of this member that no `MXWAIT` of it has covered, by the operations' tiles; and how
  many of either are certain to show, for one has (R517) -/
  advs : List (Nat × Bool) := []
  sureSkip : Dword := 0#64
  surePre : Dword := 0#64
  /-- residue mismatches in a row that the next arithmetic result meets (R115) -/
  datapath : Nat := 0
  look : Look := {}
  /-- the cycle from which the wave counts as ready, and that of its last issue (R96, R429) -/
  ready : Nat := 0
  issued : Nat := 0
  /-- counts the member's register accesses, for the choice of R109 -/
  clock : Nat := 0
deriving DecidableEq, Repr

/-! ## Queues, streams, copies -/

/-- A queue entry, or the fault marker of a stream (R284, R287). -/
inductive QEntry where
  | data (ws : List Word)
  | marker (stream : Nat)
deriving DecidableEq, Repr

/-- A fault of an engine access: second stage or not, with its record (R222, R223). -/
structure EngFault where
  walk : Bool
  xl : XlRec
deriving DecidableEq, Repr

/-- A fetch stream (R286): the access processor's member and number, the queue, the base and stride, the entries in all and pushed, and
the fault of its marker. -/
structure Stream where
  id : Nat
  owner : Nat
  ap : Nat
  queue : Nat
  base : Dword
  stride : Dword
  count : Nat
  priv : Bool := false
  pos : Nat := 0
  fault : Option EngFault := none
deriving DecidableEq, Repr

/-- Where one byte of a resolved access lies (R192, R201, R202, R214, R259). -/
inductive Loc where
  | pa (a : Nat)
  | vault (a : Nat)
  | spad (a : Nat)
  | fill (b : Byte)
  | drop
deriving DecidableEq, Repr

/-- What a copy moves (R258, R260, R264). A `CPY` holds, lane by lane in ascending order, the bytes it reads and writes; a `TCOPY` holds
its record, its descriptor word, its bases, the receiving windows of a multicast (team, scratchpad base) and the relation fields that
selvedges use. -/
inductive CopyOp where
  | lanes (l : List (List Loc × List Loc))
  | tensor (rec : BitVec 512) (desc : Dword) (dst src : Dword) (targets : List (Nat × Nat)) (rel : List Byte)
deriving DecidableEq, Repr

/-- The fault at which a copy is suspended: SIDE and ELEM of R267 with the record. -/
structure CopyFault where
  side : Nat
  elem : Nat
  fault : EngFault
deriving DecidableEq, Repr

/-- A copy that is outstanding (R256, R257, R265): the element it goes on from, and whether its labels have moved (R264). Once its last read has
returned it stands in the store queue, with the bytes that it has yet to write. `passBy` are the L1 lines of the places of a `CPY` that its
accesses pass the L1 by for, each with whether they pass the second level by too (R215, R254). -/
structure Copy where
  id : Nat
  tag : Nat
  issuer : Nat
  priv : Bool
  op : CopyOp
  pos : Nat := 0
  labelsDone : Bool := false
  fault : Option CopyFault := none
  stored : Bool := false
  out : List (List Loc × List Byte) := []
  passBy : List (Nat × Bool) := []
deriving DecidableEq, Repr

/-! ## Prickings and barriers -/

/-- An entry of a `CROSS` channel with its tag (R387): sender role, receiver role, kind class, words. -/
structure ChanEntry where
  srole : BitVec 3
  rrole : BitVec 3
  region : Bool
  words : List Word
deriving DecidableEq, Repr

/-- A barrier (R402, R403): the generation, the members that arrived in the phase, and those among them that retired since. `halves` are
half-waves that arrived while their hardware wave has not (R400). -/
structure Barrier where
  gen : BitVec 16 := 0#16
  arrived : List Nat := []
  halves : List Nat := []
deriving DecidableEq, Repr

/-- A route-tag barrier (R404): EXPECT, the generation, the members that arrived, and whether the phase is complete and on its way over
the slath. -/
structure RouteBarrier where
  expect : Nat := 0
  gen : BitVec 16 := 0#16
  arrived : List Nat := []
  halves : List Nat := []
deriving DecidableEq, Repr

/-! ## Matrix engine, labels, taps -/

/-- An accumulator tile (R303, R304): 4,096 FP32 words by 64 × row + column, 64 row labels, 64 column labels, the row-admit map and the
class (true for decode), and whether an uncorrectable error stands in its storage or its spill slot (R316). -/
structure Tile where
  data : List Word
  rowLbl : List Word
  colLbl : List Word
  rowAdmit : Dword
  decode : Bool
  bad : Bool := false
deriving DecidableEq, Repr

/-- A weight handle (R308, R309, R323): its number, the member that loaded it, the KiB that its panel takes, the record, the presence array,
where the panel lies, with the lines of it that its reads pass the caches by for, and its bytes once they have been read. A handle that `WBFREE` has freed stays until the operations that name it have
completed. A save keeps the record, and the panel is `stale` until its places have been found anew. -/
structure Weight where
  id : Nat
  handle : Nat
  issuer : Nat := 0
  kib : Nat
  record : BitVec 512
  presence : List Byte
  src : List Loc
  passBy : List (Nat × Bool) := []
  bytes : List Byte := []
  loaded : Bool := false
  freed : Bool := false
  stale : Bool := false
deriving DecidableEq, Repr

/-- A multiply-accumulate on some rows of a tile (R311, R312), as fixed at issue: the first row and the number of rows, the format word, the A
block's offset, or for `MMA.Q` the A bytes from registers, the B offset, or the weight and its first K-step, the K-steps in all and done, the
codebook table, the relation and the trees (R25, R345), the path once it is decided (0 before), and the label words once they are read (R341,
R344). -/
structure MmaPart where
  row : Nat
  rows : Nat
  fw : Word
  aOff : Nat
  aRegs : Option (List Byte) := none
  bOff : Nat
  weight : Option Nat := none
  steps : Nat
  done : Nat := 0
  table : List Byte := []
  rel : List Byte := []
  trees : List (List Byte) := []
  path : Nat := 0
  rowLbl : List Word := []
  colLbl : List Word := []
deriving DecidableEq, Repr

/-- An element that `ACCLD` or `ACCST` moves (R325): its place in the tile, none for padding, its bytes, none where it is not present, and
its nibble in them. -/
structure MxElem where
  idx : Option Nat
  locs : List Loc
  nib : Nat := 0
deriving DecidableEq, Repr

/-- What an `ACCLD` or `ACCST` moves (R325), as fixed at issue: the type, rounding, NOSAT, ITYPE and SAXIS, the scale bytes if any, the
codebook table, the value of elements and of labels that are not present, the axis of the labels, and the region with its origin. -/
structure MxMove where
  fmt : Nat
  rnd : Nat
  nosat : Bool
  itype : Bool
  saxis : Bool
  scaled : Bool
  table : List Byte
  fill : Nat
  lvoid : Word
  laxis : Bool
  trow : Nat
  tcol : Nat
  e0 : Nat
  e1 : Nat
  elems : List MxElem
  labels : List (Nat × List Loc)
  scales : List Loc
deriving DecidableEq, Repr

/-- What a queued matrix operation does (R305): a multiply-accumulate with the parts that are still to run, or a single-step operation. -/
inductive MxWork where
  | mma (tile : Nat) (lbla lblb : Nat) (lt : Bool) (parts : List MmaPart)
  | panel (weight : Nat)
  /-- an operation whose effect, if it has one, came as it issued: one of the two forms of `WBLOAD`, or another -/
  | plain (load : Bool)
  | accZero (mask : Nat) (int : Bool) (semi : Nat)
  | accLoad (tile : Nat) (mv : MxMove)
  | accStore (tile : Nat) (mv : MxMove)
  | accRead (tile form row n : Nat)
  /-- tile elements, or label words, with their new values -/
  | accWrite (tile form : Nat) (rows : List Nat) (ws : List (Nat × Word))
  | setAdmit (tile : Nat) (x : Dword)
  | accAdd (dst src : Nat) (int : Bool)
  | lblLoad (tile : Nat) (cols : Bool) (ws : List (Nat × List Loc))
  | lblStore (tile : Nat) (cols : Bool) (ws : List (Nat × List Loc))
  | tap (tile tapn tcol nc c0 : Nat) (desc : BitVec 512) (probe steer : Bool)
deriving DecidableEq, Repr

/-- A queued matrix operation of a core: its team, issuer and privilege, the tiles it names as a mask, whether it is of class decode, and the
memory that it owns, when it last ran a K-step (0: it has not begun), whether its tile's state stands in the spill slot, whether it has met an
invalid node under TRAPBAD, the L1 lines that its accesses pass by as in a `Copy`, and the label words that it has read before its first K-step,
rows by 0 to 63 and columns by 64 to 127 (R245, R254, R305, R314, R337, R344). -/
structure MxOp where
  id : Nat
  team : Nat
  issuer : Nat
  priv : Bool
  tiles : Nat
  decode : Bool
  work : MxWork
  own : List Loc := []
  last : Nat := 0
  spilled : Bool := false
  treeBad : Bool := false
  passBy : List (Nat × Bool) := []
  early : List (Nat × Word) := []
deriving DecidableEq, Repr

/-! ## Shuttle -/

/-- The state of a shuttle context (R355, R366). -/
inductive ShPhase where
  | running | ended | faulted
deriving DecidableEq, Repr

/-- A context of a shuttle (R354 to R368). The assembly buffer is `buf` (FP32 by 64 × row + column), with the rows that are pruned and
scaled as masks, the scales by 2 × row + block, and the carry entries of the `rows` rows advanced in the open tile. `fault` is a held
fault of an access, and `cause` the cause of a held fault. -/
structure ShCtx where
  id : Nat := 0
  handle : Nat := 0
  cluster : Nat := 0
  issuer : Nat := 0
  priv : Bool := false
  phase : ShPhase := .ended
  regs : List Dword := []
  cursor : Nat := 0
  prog : List Word := []
  record : BitVec 512 := 0#512
  buf : List Word := []
  pruned : Nat := 0
  scaled : Nat := 0
  scales : List Nat := []
  carry : List Word := []
  rows : Nat := 0
  lastReal : Nat := 0
  tileOff : Nat := 0
  carryOff : Nat := 0
  isOpen : Bool := false
  tiles : Nat := 0
  fault : Option EngFault := none
  cause : Nat := 0
  /-- how it ended: `HEND` reached, an open tile discarded by it, cancelled -/
  reached : Bool := false
  leftOpen : Bool := false
  cancelled : Bool := false
deriving DecidableEq, Repr

/-! ## Teams, cores, clusters -/

/-- What the team's kernel declares that execution depends on (R81, R380): kind, count, budget and share of each role. -/
structure RoleDef where
  kind : Kind
  count : Nat
  budget : Nat
  share : Nat
deriving DecidableEq, Repr

/-- A team (R78, R79, R173, R256, R269, R284, R379, R401). -/
structure Team where
  present : Bool := false
  id : Nat := 0
  teamId : Word := 0#32
  part : Nat := 0
  ctx : Nat := 0
  core : Nat := 0
  launch : Nat := 0
  roles : List RoleDef := []
  /-- the declared width in lanes: 16, 32, 64 or 128 -/
  width : Nat := 32
  grid : List Nat := [1, 1, 1]
  pos : List Nat := [0, 0, 0]
  entry : Dword := 0#64
  handler : Dword := 0#64
  share : Nat := 0
  spad : List (Nat × Word) := []
  full : List Nat := []
  qset : Bool := false
  queues : List (List QEntry) := []
  streams : List Stream := []
  chans : List (List ChanEntry) := []
  bars : List Barrier := []
  tbmask : List Dword := [0#64, 0#64]
  copies : List Copy := []
  abort : Dword := 0#64
  undeliv : List (BitVec 8) := []
  mcwin : List Dword := [0#64, 0#64, 0#64, 0#64]
  tiles : List Tile := []
  cbs : List (List Byte) := []
  rels : List (List Byte) := []
  trees : List (List Byte) := []
  wbs : List Weight := []
  sh : ShCtx := {}
  shs : List ShCtx := []
  drift : Nat := 0
  prkstat : Dword := 0#64
  mxstat : Dword := 0#64
  mxskip : Dword := 0#64
  mxpre : Dword := 0#64
  mxras : Dword := 0#64
  lblstat : Dword := 0#64
  tapstat : Dword := 0#64
  prestat : Dword := 0#64
  bindrec : BitVec 256 := 0#256
  preReq : Bool := false
  ranFrom : Nat := 0
  /-- whether firmware has been told that the quantum of this binding has passed (R430) -/
  told : Bool := false
  /-- where firmware has a save write the team's images (R426, R457), and the gather windows that a saved team's image holds (R212) -/
  area : Nat := 0
  wins : List (Nat × BitVec 512) := []
  /-- the matrix operations of a saved team (R319) -/
  savedOps : List MxOp := []
  /-- upsets in the words of the share, and whether each is correctable (R178) -/
  spadUpset : List (Nat × Bool) := []
deriving DecidableEq, Repr

/-- A line of an L1 data cache (R199): 2 × its number in the physical space, or 2 × its number in the vaults + 1; its 128 bytes; and those that
have been written and not yet written back. -/
structure L1Line where
  key : Nat
  data : List Byte
  dirty : BitVec 128 := 0#128
deriving DecidableEq, Repr

/-- A line of a partition's second-level cache (R194, R195): the index of its vault, its set, its way, its number in the physical space, its
reference bit and whether it is dirty. Its bytes are those of memory, for the cache is coherent for every agent. -/
structure L2Line where
  home : Nat
  set : Nat
  way : Nat
  line : Nat
  ref : Bool := true
  dirty : Bool := false
deriving DecidableEq, Repr

/-- A translation that a TLB holds (R219, R220): its partition and context, its first 256 KiB page and how many it covers (1, 16 for a contiguous
run, 32,768 for a block), the first-stage leaf with its level, the IPA of the first page, the second-stage leaf with its level (none below the
range limit), the PA of the first page, and the pages of the IPAs at which the walk read its first-stage entries. -/
structure TlbEntry where
  part : Nat
  ctx : Nat
  page : Nat
  span : Nat := 1
  leaf : Nat
  level : Nat
  ipa : Nat
  leaf2 : Option (Nat × Nat)
  pa : Nat
  tables : List Nat := []
deriving DecidableEq, Repr

/-- A first-level table entry that a die's walk cache holds (R213, R220): its die and partition, the context of a first-stage entry (none at the second
stage), its index in the table, the entry, and the page of the IPA at which a first-stage entry stands. -/
structure WalkEntry where
  die : Nat
  part : Nat
  ctx : Option Nat
  index : Nat
  entry : Nat
  page : Nat := 0
deriving DecidableEq, Repr

/-- A piece of tap memory that a core's tap port caches (R471): its 32-byte granule in the physical space, and its bytes. -/
structure TapGran where
  gran : Nat
  bytes : List Byte
deriving DecidableEq, Repr

/-- A core (R7, R102, R199, R213, R305, R426, R471). -/
structure Core where
  num : Nat := 0
  pool : List Nat := [512, 512, 512, 512]
  mxq : List MxOp := []
  /-- checksum mismatches that the next checked pass meets, one after another (R316) -/
  mxBad : Nat := 0
  clamp : Dword := 0#64
  l1 : List L1Line := []
  tlb : List TlbEntry := []
  tapc : List TapGran := []
  recs : List (Nat × BitVec 256) := []
deriving DecidableEq, Repr

/-- A cached code block: its physical address, its 32 bytes and its role mask (R62, R383). -/
structure IBlock where
  pa : Nat
  bytes : List Byte
  roles : BitVec 8
deriving DecidableEq, Repr

/-- A cluster (R7, R62, R220, R354): its instruction cache, its TLB, and the lines that the prefetch buffer of its shuttle holds, by their numbers in
the physical space; the buffer is coherent, so that their bytes are those of memory. -/
structure Cluster where
  num : Nat := 0
  icache : List IBlock := []
  tlb : List TlbEntry := []
  pref : List Nat := []
deriving DecidableEq, Repr

/-! ## Contexts and partitions -/

/-- A gather window that is bound, with its descriptor (R200). -/
abbrev Window := BitVec 512

/-- A context (R192, R200, R214, R226, R449). `regs` are `sr.hwbase`, `hwlimit`, `hwoff`, `s1root`, `svmbase` and `svmlimit`. -/
structure Ctx where
  id : Nat := 0
  part : Nat := 0
  alive : Bool := false
  priv : Bool := false
  capblk : Dword := 0#64
  vwbase : Dword := 0#64
  winbase : Dword := 0#64
  hwbase : Dword := 0#64
  hwlimit : Dword := 0#64
  hwoff : Dword := 0#64
  s1root : Dword := 0#64
  svmbase : Dword := 0#64
  svmlimit : Dword := 0#64
  wins : List (Nat × Window) := []
  emuVec : Dword := 0#64
  trapVec : Dword := 0#64
  /-- translations of host pages that ATS has given, by page number (R225) -/
  ats : List (Nat × HostPage) := []
  /-- pages for which a PRI request is out, and those whose request failed (R225) -/
  priOut : List Nat := []
  priFail : List Nat := []
deriving DecidableEq, Repr

/-- A task record: the record, its HOME sub-queue, whether it is ready, and its place in the order in which the partition's records became
ready (R408, R409). Records stand in a sub-queue in the order in which they came there, and records of one place became ready in that
order. -/
structure TaskRec where
  record : BitVec 512
  home : Nat
  ready : Bool
  order : Nat := 0
deriving DecidableEq, Repr

/-- A live lease (R411): the ticket, its queue, the task, the member that holds it, the core on which it took it, and the cycle at which it
ends. -/
structure Ticket where
  num : Word
  queue : Nat
  task : TaskRec
  holder : Nat
  core : Nat
  ends : Nat
deriving DecidableEq, Repr

/-- Where a launch stands (R424, R425). -/
inductive LaunchPhase where
  | held | ready | running | failed (status : Nat) | done
deriving DecidableEq, Repr

/-- A launch (R420, R422, R424): its record, its handles with their modes, the port of its function, its level, its cookie, the launches it is
ordered after, its place in the order in which launches became ready, teams started and ended, and the cycles of its first start and its last
end. -/
structure Launch where
  id : Nat
  record : BitVec 512
  handles : List (Nat × Nat) := []
  port : Nat
  device : Bool
  prio : Nat
  cookie : Word
  ctx : Nat
  after : List Nat := []
  released : Bool := true
  phase : LaunchPhase := .held
  order : Nat := 0
  started : Nat := 0
  ended : Nat := 0
  first : Nat := 0
  last : Nat := 0
deriving DecidableEq, Repr

/-- The command ring of a virtual function (R421, R422): its size as a power of two, its packets by slot with the context of each, how many
packets the command processor has taken, and the tail register. -/
structure CmdRing where
  bits : Nat := 16
  slots : List (Nat × Nat × List Byte) := []
  taken : Nat := 0
  tail : Nat := 0
deriving DecidableEq, Repr

/-- The completion ring of a virtual function (R421, R425): its entries by slot, and how many have been written. -/
structure DoneRing where
  bits : Nat := 16
  slots : List (Nat × BitVec 128) := []
  written : Nat := 0
deriving DecidableEq, Repr

/-- A notice that the hardware gives the firmware (R430, R433, R444). -/
inductive Notice where
  | quantum (team : Nat)
  | cut (team : Nat)
  | terminated (ctx : Nat)
deriving DecidableEq, Repr

/-- A message in a receive channel (R504): sending device and partition, and its bytes. -/
structure Message where
  dev : Nat
  part : Nat
  bytes : List Byte
deriving DecidableEq, Repr

/-- An XRED group (R506): its number, its ranks, this partition's rank, and the contribution waiting. -/
structure XGroup where
  num : Nat
  ranks : Nat
  rank : Nat
  mine : Option XContribution := none
  issuer : Nat := 0
deriving DecidableEq, Repr

/-- A message that has been read and that a peer has not accepted, with the member that sleeps in its `XSEND` (R504). -/
structure Outgoing where
  sender : Nat
  dev : Nat
  part : Nat
  chan : Nat
  bytes : List Byte
deriving DecidableEq, Repr

/-- A partition (R12 to R16, R196, R218, R226, R404, R407 to R411, R421 to R425, R502 to R506). -/
structure Partition where
  present : Bool := false
  num : Nat := 0
  caps : Dword := 0#64
  /-- granted clusters, ascending (R192) -/
  clusters : List Nat := []
  coreMask : List (Nat × BitVec 8) := []
  pregMin : List (Nat × Nat) := []
  emuOpc : List Nat := []
  shMask : Dword := 0#64
  hbm : BitVec 64 := 0#64
  links : BitVec 32 := 0#32
  taps : Nat := 0
  vsplit : Nat := 0
  homeport : Nat := 0
  prbase : Dword := 0#64
  prlim : Dword := 0#64
  s2root : Dword := 0#64
  tapbase : Dword := 0#64
  poolbase : Dword := 0#64
  poolcap : Dword := 0#64
  poolcnt : Dword := 0#64
  svvec : Dword := 0#64
  /-- the second-level cache -/
  l2 : List L2Line := []
  /-- the eviction schedule: its address and loading context, NSTEP, CURSOR, the flags (R196 to R198), and the current step's ranges in entry
  order, each with its class, its first physical line and the first line after it -/
  evAddr : Dword := 0#64
  evCtx : Nat := 0
  evstat : Dword := 0#64
  evStep : List (Nat × Nat × Nat) := []
  bts : List RouteBarrier := []
  /-- task queues: 16 queues of sub-queues, one for each granted cluster (R407) -/
  tqs : List (List (List TaskRec)) := []
  /-- counts the events that made records ready -/
  taskClock : Nat := 0
  /-- steal requests that the queue engine has yet to serve: queue and requesting cluster's index (R409) -/
  steals : List (Nat × Nat) := []
  tickets : List Ticket := []
  stale : List Word := []
  nextTicket : Nat := 0
  dcs : List (Nat × Word) := []
  /-- the command and completion rings of the functions on HP0 and HP1 -/
  cmds : List CmdRing := [{}, {}]
  dones : List DoneRing := [{}, {}]
  launches : List Launch := []
  /-- counts the launches that became ready -/
  readyClock : Nat := 0
  notices : List Notice := []
  /-- saved teams, by the address of their images (R426, R432, R433, R457) -/
  saved : List (Nat × Team × List Member) := []
  devId : Nat := 0
  routes : List (Nat × Nat × BitVec 32) := []
  xchans : List (List Message) := []
  groups : List XGroup := []
  outgoing : List Outgoing := []
deriving DecidableEq, Repr

/-! ## The module -/

/-- How far the boot has come (R507). -/
inductive BootPhase where
  | pending
  | running
  /-- verification failed: nothing starts, and BOOTSTAT reads this code -/
  | halted (code : Nat)
deriving DecidableEq, Repr

/-- An attestation report (R508): its bytes as signed. -/
abbrev AttReport := List Byte

/-- What belongs to the module (R19, R216, R499, R500, R507 to R509). -/
structure Mod where
  /-- the walk caches of the dies (R213, R220) -/
  walkc : List WalkEntry := []
  boot : BootPhase := .pending
  flash : Option FlashImage := none
  /-- fuses: least version, hash of the public key, faulty cores, faulty shuttles, disabled opcodes -/
  minVersion : Nat := 0
  keyHash : List Byte := []
  badCores : List Nat := []
  badShuttles : List Nat := []
  badOpcodes : List Nat := []
  next : Word := 0#32
  serving : Word := 0#32
  /-- tickets drawn and not yet released, with the port that drew them (R499) -/
  tickets : List (Word × Nat) := []
  hostUp : List Bool := [true, true]
  /-- completions of control operations: the port, and whether the status is NOTOWNER (R499) -/
  ctl : List (Nat × Bool) := []
  kr : List (Nat × Nat) := []
  /-- the windows that management firmware may write (R436) -/
  windows : List (Nat × Nat) := []
  /-- replays of the current flit for each link, and links that are down (R500) -/
  replays : List (Nat × Nat) := []
  linksDown : BitVec 32 := 0#32
  reports : List AttReport := []
  measured : List (List Byte) := []
  /-- the security version of the image that booted (R508) -/
  booted : Nat := 0
  /-- upsets in device memory by physical address, and in the vaults by byte as in `State.vault`, and whether each is correctable (R509) -/
  upsets : List (Nat × Bool) := []
  vupsets : List (Nat × Bool) := []
deriving DecidableEq, Repr

/-- Which agent takes a turn: a member, a shuttle context of a team, an agent that acts through an event (log 3), or a unit whose act no
instruction names: the copy engine as a copy's last read returns, the L1 of a core as it evicts a line, the second-level cache as some other
unit reads or writes a line, the TLB of a cluster as it keeps the translation of a page, the tap port of a core as it caches a granule, a cluster
as it evicts a block of code, and a matrix engine as it reads one label word of an operation. -/
inductive Turn where
  | member (id : Nat)
  | shuttle (team id : Nat)
  | event (i : Instr)
  | copyRead (team id : Nat)
  | l1Evict (core key : Nat)
  | l2Access (part line : Nat) (store : Bool)
  | tlbFill (team va : Nat) (core wide : Bool)
  | tlbDrop (team va : Nat) (core : Bool)
  | walkFill (team a : Nat) (second : Bool)
  | walkDrop (team a : Nat) (second : Bool)
  | tapFill (core gran : Nat)
  | peerAccept (part n : Nat)
  | blockEvict (cluster pa : Nat)
  | labelRead (core op word : Nat)
deriving DecidableEq, Repr

/-- The machine. -/
structure State where
  m : Member := {}
  peers : List Member := []
  team : Team := {}
  teams : List (Team × List Member) := []
  core : Core := {}
  cores : List Core := []
  cl : Cluster := {}
  cls : List Cluster := []
  ctx : Ctx := {}
  ctxs : List Ctx := []
  part : Partition := {}
  parts : List Partition := []
  mod : Mod := {}
  /-- the physical space (R191, R213) -/
  mem : List Host.Cell := []
  /-- the vaults: byte v × 2^25 + o is byte o of the vault of cluster v (R192) -/
  vault : List Host.Cell := []
  turns : List Turn := []
  cycle : Nat := 0
  free : Nat := 0
  nextId : Nat := 1
deriving DecidableEq, Repr

/-- The module right after a module reset, before the boot ROM has run (R499, R507; the values that spec/ does not give are those of
log 2). NEXT and SERVING are 0 (R499), `sr.clamp_cyc` of every core is 0 (R11); there is no partition, context or team. -/
def State.reset : State := {}

end Sys2Proof.Machine
end

