-- ==== Sys2Proof/Machine/Mem.lean ====
section
/-!
DEFINITION. Memory as a list of cells in one canonical form, and the byte operations on it (spec/00_scope.md R1, log 1). Every wider access
of the machine is made of these, so the byte order is decided here alone.
-/
namespace Sys2Proof.Machine

/-- What an address that no cell lists reads as (log 1). DESIGN CHOICE: spec/ gives memory no contents at power-on. -/
def memDefault : Byte := 0#8

/-- Addresses strictly rising above `lo`, and no cell equal to what an unlisted address reads as. -/
def cellsAbove : Option Nat → List Host.Cell → Bool
  | _, [] => true
  | lo, (a, b) :: r => (match lo with | some x => decide (x < a) | none => true) && b != memDefault && cellsAbove (some a) r

/-- The canonical form of memory: addresses strictly rising, no cell equal to the default. -/
def Memory.wf (m : List Host.Cell) : Bool := cellsAbove none m

/-- One byte of memory. -/
def readCell : List Host.Cell → Nat → Byte
  | [], _ => memDefault
  | (a, b) :: r, x => if x < a then memDefault else if x = a then b else readCell r x

/-- Memory with one byte written; writing the default removes the cell. -/
def writeCell : List Host.Cell → Nat → Byte → List Host.Cell
  | [], x, b => if b = memDefault then [] else [(x, b)]
  | (a, c) :: r, x, b =>
    if x < a then (if b = memDefault then (a, c) :: r else (x, b) :: (a, c) :: r)
    else if x = a then (if b = memDefault then r else (x, b) :: r)
    else (a, c) :: writeCell r x b

/-- `n` bytes from address `a`. -/
def readCells (m : List Host.Cell) (a n : Nat) : List Byte := (List.range n).map fun i => readCell m (a + i)

/-- The bytes written from address `a` on. -/
def writeCells : List Host.Cell → Nat → List Byte → List Host.Cell
  | m, _, [] => m
  | m, a, b :: bs => writeCells (writeCell m a b) (a + 1) bs

/-- Memory with the range of `n` bytes from `a` at the default. -/
def clearCells (m : List Host.Cell) (a n : Nat) : List Host.Cell := m.filter fun c => decide (c.1 < a) || decide (a + n ≤ c.1)

/-- The little-endian number in the `n` bytes from `a` (R1). -/
def readNat (m : List Host.Cell) (a n : Nat) : Nat := ofLeBytes (readCells m a n)

/-- Memory with the `n` low bytes of a number written from `a` on (R1). -/
def writeNat (m : List Host.Cell) (a n x : Nat) : List Host.Cell := writeCells m a (leBytes n x)

/-- A 32-bit word of the team's scratchpad share (R173); an unlisted word is 0, as granted. -/
def spadWord (t : Team) (i : Nat) : Word := (lookupKey i t.spad).getD 0#32

/-- The share with one word written (R173); writing 0 removes the entry. That a write leaves the mark of an uncorrectable error on the word is
the model's choice (log 90). -/
def setSpadWord (t : Team) (i : Nat) (w : Word) : Team :=
  if w = 0#32 then { t with spad := eraseKey i t.spad } else { t with spad := insertKey i w t.spad }

/-- One byte of the share (R1, R173). -/
def spadByte (t : Team) (a : Nat) : Byte := ((spadWord t (a / 4)).toNat >>> (8 * (a % 4)) : Nat)

/-- The share with one byte written (R1, R173). -/
def setSpadByte (t : Team) (a : Nat) (b : Byte) : Team :=
  setSpadWord t (a / 4) (setFld (spadWord t (a / 4)) (8 * (a % 4) + 7) (8 * (a % 4)) b.toNat)

/-- Whether a word of the share has an uncorrectable error (R178). -/
def spadHurt (t : Team) (w : Nat) : Bool := t.spadUpset.contains (w, false)

/-- The words of the share that a read has corrected (R178). -/
def mendWords (t : Team) (ws : List Nat) : Team := { t with spadUpset := t.spadUpset.filter fun e => !(e.2 && ws.contains e.1) }

/-- Whether a word of the share is full (R175). -/
def wordFull (t : Team) (i : Nat) : Bool := t.full.contains i

/-- The share with a word full (R175). The set is kept in ascending order. -/
def setFull (t : Team) (i : Nat) : Team :=
  if t.full.contains i then t
  else { t with full := t.full.filter (· < i) ++ [i] ++ t.full.filter (i < ·) }

/-- The share with a word empty (R175). -/
def setEmpty (t : Team) (i : Nat) : Team := { t with full := t.full.filter (· != i) }

/-- `n` bytes of the share. -/
def spadBytes (t : Team) (a n : Nat) : List Byte := (List.range n).map fun i => spadByte t (a + i)

/-- The share with bytes written, full bits unchanged. -/
def setSpadBytes : Team → Nat → List Byte → Team
  | t, _, [] => t
  | t, a, b :: bs => setSpadBytes (setSpadByte t a b) (a + 1) bs

/-- The share with bytes written by an engine: each word that a byte lands in is set full (R175, R259). -/
def fillSpadBytes : Team → Nat → List Byte → Team
  | t, _, [] => t
  | t, a, b :: bs => fillSpadBytes (setFull (setSpadByte t a b) (a / 4)) (a + 1) bs

/-! ## The L1 data caches (R199) -/

/-- The bytes of a line of either cache (R190). -/
def lineBytes : Nat := 128

/-- The line of an L1 that may hold a place, by its key, and the byte in it (R199). -/
def lineOf : Loc → Option (Nat × Nat)
  | .pa a => some (2 * (a / 128), a % 128)
  | .vault a => some (2 * (a / 128) + 1, a % 128)
  | _ => none

/-- The places of a line by its key. -/
def lineLocs (key : Nat) : List Loc :=
  (List.range 128).map fun i => if key % 2 = 0 then .pa (key / 2 * 128 + i) else .vault (key / 2 * 128 + i)

/-- A core's L1 line of a key. -/
def l1Find (c : Core) (key : Nat) : Option L1Line := c.l1.find? fun ln => ln.key == key

/-- A byte of a line written by the core (R199). -/
def L1Line.put (ln : L1Line) (i : Nat) (b : Byte) : L1Line := { ln with data := ln.data.set i b, dirty := ln.dirty ||| (1#128 <<< i) }

/-- One byte where it lies, apart from what an L1 holds of it. -/
def homeByte (s : State) : Loc → Byte
  | .pa a => readCell s.mem a
  | .vault a => readCell s.vault a
  | .spad a => spadByte s.team a
  | .fill b => b
  | .drop => 0#8

/-- One byte written where it lies; the full bits of scratchpad do not change (R175). -/
def setHome (s : State) (l : Loc) (b : Byte) : State :=
  match l with
  | .pa a => { s with mem := writeCell s.mem a b }
  | .vault a => { s with vault := writeCell s.vault a b }
  | .spad a => { s with team := setSpadByte s.team a b }
  | .fill _ => s
  | .drop => s

/-- A line of a key in a core's L1, with the byte in it, where the core holds it. -/
def l1At (c : Core) (l : Loc) : Option (L1Line × Nat) :=
  match lineOf l with
  | some (key, i) => (l1Find c key).map fun ln => (ln, i)
  | none => none

/-- One byte at a resolved place, as the core in focus sees it (R199). -/
def readLoc (s : State) (l : Loc) : Byte :=
  match l1At s.core l with
  | some (ln, i) => ln.data.getD i 0#8
  | none => homeByte s l

/-- Whether a place lies beyond the module, in host-port or fabric space: what is written there is posted at once, so that writes leave in the order
in which they execute (R498). -/
def postedAt : Loc → Bool
  | .pa a => decide (2 ^ 51 ≤ a)
  | _ => false

/-- One byte written at a resolved place by a member (R175, R199): into the line of its core's L1 that holds it, else where it lies. A byte beyond
the module goes there too, and stays clean in the line. -/
def writeLoc (s : State) (l : Loc) (b : Byte) : State :=
  match l1At s.core l with
  | some (ln, i) =>
    let put (x : L1Line) : L1Line := if postedAt l then { x with data := x.data.set i b } else x.put i b
    let s := { s with core := { s.core with l1 := s.core.l1.map fun x => if x.key == ln.key then put x else x } }
    if postedAt l then setHome s l b else s
  | none => setHome s l b

/-- A core's L1 after other agents have written `n` bytes from `a` in a space (0 physical, 1 vaults) whose bytes are now those of `cells`: what
the core holds of them is as they are (R244, R245). -/
def recallLine (space : Nat) (cells : List Host.Cell) (a n : Nat) (c : Core) : Core :=
  { c with l1 := c.l1.map fun ln =>
      let base := ln.key / 2 * 128
      let inside (i : Nat) : Bool := ln.key % 2 == space && a ≤ base + i && base + i < a + n
      { ln with
        data := ln.data.zipIdx.map fun e => if inside e.2 then readCell cells (base + e.2) else e.1
        dirty := (List.range 128).foldl (fun d i => if inside i then d &&& ~~~(1#128 <<< i) else d) ln.dirty } }

/-- The L1 caches of all cores after other agents have written bytes (R244, R245). -/
def recallLines (s : State) (space a n : Nat) : State :=
  let cells := if space = 0 then s.mem else s.vault
  { s with core := recallLine space cells a n s.core, cores := s.cores.map (recallLine space cells a n) }

/-- Bytes written to the physical space by a unit other than a member. -/
def storeMem (s : State) (a : Nat) (bs : List Byte) : State := recallLines { s with mem := writeCells s.mem a bs } 0 a bs.length

/-- A range of the physical space set to zero by such a unit. -/
def clearMem (s : State) (a n : Nat) : State := recallLines { s with mem := clearCells s.mem a n } 0 a n

/-- One byte written at a resolved place by an engine (R175, R244, R259): a scratchpad word is set full. -/
def engineWriteLoc (s : State) (l : Loc) (b : Byte) : State :=
  match l with
  | .spad a => { s with team := fillSpadBytes s.team a [b] }
  | .pa a => storeMem s a [b]
  | .vault a => recallLines (setHome s (.vault a) b) 1 a 1
  | _ => s

/-- The bytes at resolved places. -/
def readLocs (s : State) (ls : List Loc) : List Byte := ls.map (readLoc s)

/-- Bytes written at resolved places by a member. -/
def writeLocs : State → List Loc → List Byte → State
  | s, l :: ls, b :: bs => writeLocs (writeLoc s l b) ls bs
  | s, _, _ => s

/-- Bytes written at resolved places by an engine, the second-level cache apart. -/
def engineBytes : State → List Loc → List Byte → State
  | s, l :: ls, b :: bs => engineBytes (engineWriteLoc s l b) ls bs
  | s, _, _ => s

end Sys2Proof.Machine
end

