-- ==== Sys2Proof/Machine/Caches.lean ====
section
/-!
DEFINITION. The second-level cache and the moves between it and the L1 caches (spec/08_memory.md R190, R194 to R199, R209, R210): homes, victims,
the eviction schedule's classes, and write-back. A second-level line holds no bytes of its own, for it is coherent for every agent (R194).
-/
namespace Sys2Proof.Machine

/-! ## The second-level cache -/

/-- The sets of a way, and the ways of each vault that are cache (R190, R194). -/
def l2Sets : Nat := 32768
def l2Ways (p : Partition) : Nat := 8 - p.vsplit

/-- The index of the vault in which a physical line has its home, and its set there (R194). -/
def l2Home (p : Partition) (line : Nat) : Nat :=
  let pa := line * 128
  (fld (BitVec.ofNat 52 pa) 29 22 ^^^ fld (BitVec.ofNat 52 pa) 37 30) % max 1 p.clusters.length
def l2SetOf (line : Nat) : Nat := line % l2Sets

/-- The class of a line under the current step of the schedule (R196, R197): 1 KEEP, 2 DEAD, 3 STREAM, 0 none; the highest-numbered entry
decides, and without a schedule no line has a class. -/
def evClass (p : Partition) (line : Nat) : Nat :=
  if fld p.evstat 47 32 = 0 then 0
  else p.evStep.foldl (fun c e => if e.1 != 0 && e.2.1 ≤ line && line < e.2.2 then e.1 else c) 0

/-- The order in which a miss takes its victim by class (R197): DEAD, none, KEEP. A line of a STREAM range that the cache still holds stands with
those of no range (log 93). -/
def evRank (c : Nat) : Nat :=
  match c with
  | 2 => 0
  | 1 => 2
  | _ => 1

/-- The not-recently-used choice among some lines (R195): the lowest way whose reference bit is 0, or the lowest way with every bit of them
cleared first. -/
def lowestWay (ls : List L2Line) : Option L2Line :=
  ls.foldl (fun best x => match best with | some b => if x.way < b.way then some x else best | none => some x) none

/-- The ways of a set that hold a line. -/
def l2SetLines (p : Partition) (home set : Nat) : List L2Line := p.l2.filter fun x => x.home == home && x.set == set

/-- The cache after an access to a line that it holds (R195). -/
def l2Hit (p : Partition) (line : Nat) (store : Bool) : Partition :=
  { p with l2 := p.l2.map fun x => if x.line == line then { x with ref := true, dirty := x.dirty || store } else x }

/-- The cache with a line put into a way of its set. -/
def l2Put (p : Partition) (home set way line : Nat) (store : Bool) : Partition :=
  { p with l2 := p.l2.filter (fun x => !(x.home == home && x.set == set && x.way == way)) ++
      [{ home := home, set := set, way := way, line := line, dirty := store }] }

/-- The victims that a full set offers first: those of the first class in the order of R197 that has any. -/
def l2Victims (p : Partition) (ls : List L2Line) : List L2Line :=
  let of (r : Nat) : List L2Line := ls.filter fun x => evRank (evClass p x.line) == r
  if !(of 0).isEmpty then of 0 else if !(of 1).isEmpty then of 1 else of 2

/-- A miss in a full set (R195, R197): the victim's way takes the line, after the victim, where dirty, has been written back. -/
def l2Replace (p : Partition) (home set line : Nat) (store : Bool) : Partition :=
  let vs := l2Victims p (l2SetLines p home set)
  match lowestWay (vs.filter fun x => !x.ref) with
  | some v => l2Put p home set v.way line store
  | none =>
    match lowestWay vs with
    | some v =>
      let p := { p with l2 := p.l2.map fun x => if vs.any fun y => y == x then { x with ref := false } else x }
      l2Put p home set v.way line store
    | none => p

/-- The first sets of the highest way that hold no lines: those of the queue store, with the spill regions above them (R315, R407). -/
def storeSets : Nat := 16384

/-- The ways of a set that may hold lines. -/
def freeWays (p : Partition) (set : Nat) : List Nat := (List.range (l2Ways p)).filter fun w => w + 1 != l2Ways p || set < storeSets

/-- An access of any agent to a line of the partition's device memory (R194, R195, R197): a hit, a miss that allocates, or one in a STREAM range,
which does not. -/
def l2Access (p : Partition) (line : Nat) (store : Bool) : Partition :=
  if l2Ways p = 0 || 2 ^ 51 ≤ line * 128 then p
  else if p.l2.any fun x => x.line == line then l2Hit p line store
  else if evClass p line = 3 then p
  else
    let home := l2Home p line
    let set := l2SetOf line
    let ls := l2SetLines p home set
    match (freeWays p set).find? fun w => !ls.any fun x => x.way == w with
    | some w => l2Put p home set w line store
    | none => l2Replace p home set line store

/-- The same for the line of an L1 key; vault space has no second level. -/
def l2Key (s : State) (key : Nat) (store : Bool) : State :=
  if key % 2 = 0 then { s with part := { s.part with l2 := (l2Access s.part (key / 2) store).l2 } } else s

/-- The physical lines of some places, each once. -/
def pLines (ls : List Loc) : List Nat := (ls.filterMap fun l => match l with | .pa a => some (a / 128) | _ => none).eraseDups

/-- An access of places that no L1 serves, as the second-level cache sees it. -/
def l2Locs (s : State) (ls : List Loc) (store : Bool) : State :=
  { s with part := { s.part with l2 := ((pLines ls).foldl (fun p n => l2Access p n store) s.part).l2 } }

/-! ## Between the levels -/

/-- The lines an L1 holds at most (R190). -/
def l1Lines : Nat := 1024

/-- A line of the L1 of the core in focus written back: its dirty bytes leave for their home (R199). -/
def writeBack (s : State) (ln : L1Line) : State :=
  if ln.dirty == 0#128 then s
  else
    let s := (((lineLocs ln.key).zip ln.data).zipIdx).foldl (fun s e => if ln.dirty.getLsbD e.2 then setHome s e.1.1 e.1.2 else s) s
    let s := l2Key s ln.key true
    { s with core := { s.core with l1 := s.core.l1.map fun x => if x.key == ln.key then { x with dirty := 0#128 } else x } }

/-- The L1 without the line of a key. -/
def dropLine (s : State) (key : Nat) : State := { s with core := { s.core with l1 := s.core.l1.filter fun x => x.key != key } }

/-- Every dirty line of the core's L1 written back, as a release of scope `.CL` or wider does (R199, R208). -/
def l1Clean (s : State) : State := s.core.l1.foldl writeBack s

/-- What is done to the L1 of core `n`, wherever it stands. -/
def atCore (g : State → State) (s : State) (n : Nat) : State :=
  if s.core.num == n then g s
  else
    match s.cores.find? fun c => c.num == n with
    | none => s
    | some c =>
      let t := g { s with core := c }
      { t with core := s.core, cores := s.cores.map fun k => if k.num == n then t.core else k }

/-- The same for core `n`. -/
def cleanCore (s : State) (n : Nat) : State := atCore l1Clean s n

/-- The lines of the physical space from byte `lo` up to `hi` that the L1 holds written back. -/
def cleanIn (lo hi : Nat) (s : State) : State :=
  (s.core.l1.filter fun ln => ln.key % 2 == 0 && decide (ln.key / 2 * 128 < hi) && decide (lo < ln.key / 2 * 128 + 128)).foldl writeBack s

/-- The same in every core: what a unit then reads there is what any core has stored (R249, R470, R500). -/
def cleanRange (s : State) (lo hi : Nat) : State := ((s.core :: s.cores).map (·.num)).foldl (atCore (cleanIn lo hi)) s

/-- Every line written back and discarded, as an acquire of scope `.CL` or wider does (R199, R237). -/
def l1Flush (s : State) : State := let s := l1Clean s; { s with core := { s.core with l1 := [] } }

/-- The line of a key written back and discarded. -/
def l1Evict (s : State) (key : Nat) : State :=
  match l1Find s.core key with
  | some ln => dropLine (writeBack s ln) key
  | none => s

/-- Whether a place where it lies has an uncorrectable error (R18, R509). -/
def lostHome (s : State) : Loc → Bool
  | .pa a => s.mod.upsets.any fun u => !u.2 && u.1 / 32 == a / 32
  | .vault a => s.mod.vupsets.any fun u => !u.2 && u.1 / 32 == a / 32
  | _ => false

/-- The line of a key in the L1 (R199): a miss fetches it through the second-level cache, where there is room for it (log 94); a line with an
uncorrectable error is not kept. -/
def l1Fill (s : State) (key : Nat) : State :=
  if (l1Find s.core key).isSome || (lineLocs key).any (lostHome s) then s
  else
    let s := l2Key s key false
    if l1Lines ≤ s.core.l1.length then s
    else { s with core := { s.core with l1 := s.core.l1 ++ [{ key := key, data := (lineLocs key).map (homeByte s) }] } }

/-- The lines of some places, each once. -/
def lineKeys (ls : List Loc) : List Nat := (ls.filterMap fun l => (lineOf l).map (·.1)).eraseDups

/-- Bytes written at resolved places by an engine, through the second-level cache (R195). -/
def engineWriteLocs (s : State) (ls : List Loc) (bs : List Byte) : State := l2Locs (engineBytes s ls bs) ls true

/-- The lines of some places brought into the L1. -/
def l1FillLocs (s : State) (ls : List Loc) : State := (lineKeys ls).foldl l1Fill s

/-- The lines of some places written back and discarded: what follows acts at their home (R207). -/
def atHome (s : State) (ls : List Loc) : State := (lineKeys ls).foldl l1Evict s

/-- Whether an ordering code has a release, or an acquire (R70). -/
def ordRel (ord : Nat) : Bool := ord == 2 || ord == 3
def ordAcq (ord : Nat) : Bool := ord == 1 || ord == 3

/-- What an ordering at a scope does to the L1 before the access: at `.CL` or wider a release writes back, and an acquire discards (R199). -/
def orderL1 (s : State) (ord scope : Nat) : State :=
  if scope < 2 then s else if ordAcq ord then l1Flush s else if ordRel ord then l1Clean s else s

end Sys2Proof.Machine
end

