-- ==== Sys2Proof/Machine/Layout.lean ====
section
/-!
DEFINITION. The layout record of tensor copies as data (spec/11_copy.md R260 to R264, R275): its fields, the order and the places of its
elements, and the areas of its labels and selvedges.
-/
namespace Sys2Proof.Machine

/-- A layout record. -/
abbrev Layout := BitVec 512

def tcE0 (r : Layout) : Nat := fld r 175 160
def tcE1 (r : Layout) : Nat := fld r 191 176
def tcE2 (r : Layout) : Nat := fld r 207 192
def tcB0 (r : Layout) : Nat := fld r 231 208
def tcB1 (r : Layout) : Nat := fld r 255 232
def tcO0 (r : Layout) : Int := (BitVec.ofNat 24 (fld r 279 256)).toInt
def tcO1 (r : Layout) : Int := (BitVec.ofNat 24 (fld r 303 280)).toInt
def tcRs (r : Layout) : Nat := fld r 343 304
def tcPs (r : Layout) : Nat := fld r 383 344
def tcFill (r : Layout) : Nat := fld r 415 384
def tcLvoid (r : Layout) : Nat := fld r 447 416
def tcLblPtr (r : Layout) : Nat := fld r 495 448
def tcTpitch (r : Layout) : Nat := fld r 63 32
def tcLaxis (r : Layout) : Bool := bit r 23
def tcShuf (r : Layout) : Bool := bit r 22
def tcSwz (r : Layout) : Nat := fld r 21 20
def tcOuter (r : Layout) : Nat := fld r 19 18
def tcInner (r : Layout) : Nat := fld r 17 16
def tcBc (r : Layout) : Nat := 2 ^ fld r 15 13
def tcBr (r : Layout) : Nat := 2 ^ fld r 12 10
def tcDir (r : Layout) : Bool := bit r 9
def tcEsize (r : Layout) : Nat := fld r 2 0

/-- The element size in nibbles: 1 for 4-bit elements. -/
def tcNibs (r : Layout) : Nat := if tcEsize r = 4 then 1 else 2 * 2 ^ tcEsize r

def tcE0p (r : Layout) : Nat := roundUp (tcE0 r) (tcBc r)
def tcE1p (r : Layout) : Nat := roundUp (tcE1 r) (tcBr r)
def tcNbc (r : Layout) : Nat := tcE0p r / tcBc r
def tcNbr (r : Layout) : Nat := tcE1p r / tcBr r
def tcPacked (r : Layout) : Nat := roundUp ((tcE1p r * tcE0p r * tcNibs r + 1) / 2) 128
def tcPitch (r : Layout) : Nat := if tcTpitch r = 0 then tcPacked r else tcTpitch r
/-- Elements of one plane of the padded region, and of all planes. -/
def tcPlane (r : Layout) : Nat := tcE1p r * tcE0p r
def tcCount (r : Layout) : Nat := tcE2 r * tcPlane r

/-- The even bits of a number, packed. -/
def evenBits : Nat → Nat → Nat
  | 0, _ => 0
  | n + 1, x => x % 2 + 2 * evenBits n (x / 4)

/-- The block row and column of block number `bi` (R261). -/
def blockOf (r : Layout) (bi : Nat) : Nat × Nat :=
  match tcOuter r with
  | 0 => (bi / tcNbc r, bi % tcNbc r)
  | 1 => (bi % tcNbr r, bi / tcNbr r)
  | _ =>
    let m := Nat.log2 (min (tcNbr r) (tcNbc r))
    let g := bi / 4 ^ m
    let x := bi % 4 ^ m
    let bc := evenBits m x
    let br := evenBits m (x / 2)
    if tcNbr r < tcNbc r then (br, bc + g * 2 ^ m) else (br + g * 2 ^ m, bc)

/-- The pre-shuffled position of an element of 32 (R26). -/
def shufPos (i : Nat) : Nat := 2 * (i % 16) + i / 16

/-- An element in traversal order (R261): its plane, row and column, and its offset from the tiled base in nibbles. -/
structure TcElem where
  p : Nat
  r : Nat
  c : Nat
  t : Nat
deriving DecidableEq, Repr

/-- The k-th element in traversal order (R261). -/
def tcElem (r : Layout) (k : Nat) : TcElem :=
  let p := k / tcPlane r
  let e := k % tcPlane r
  let w := e % (tcBr r * tcBc r)
  let (br, bc) := blockOf r (e / (tcBr r * tcBc r))
  let ir := if tcInner r = 0 then w / tcBc r else w % tcBr r
  let ic := if tcInner r = 0 then w % tcBc r else w / tcBr r
  let e := if tcShuf r then 32 * (e / 32) + shufPos (e % 32) else e
  let t := p * tcPitch r * 2 + e * tcNibs r
  let b := t / 2
  let b := if tcSwz r = 0 then b else b ^^^ ((b / 128 % 2 ^ tcSwz r) * 16)
  { p := p, r := br * tcBr r + ir, c := bc * tcBc r + ic, t := 2 * b + t % 2 }

/-- Whether an element is present on the strided side (R262). -/
def tcPresent (r : Layout) (e : TcElem) : Bool :=
  let rr : Int := e.r + tcO1 r
  let cc : Int := e.c + tcO0 r
  e.r < tcE1 r && e.c < tcE0 r && 0 ≤ rr && rr < tcB1 r && 0 ≤ cc && cc < tcB0 r

/-- The nibble address of a present element on the strided side (R262). -/
def tcStrided (r : Layout) (base : Nat) (e : TcElem) : Nat :=
  let rr := ((e.r : Int) + tcO1 r).toNat
  let cc := ((e.c : Int) + tcO0 r).toNat
  2 * (base + e.p * tcPs r + rr * tcRs r) + cc * tcNibs r

/-- The value that an element not present takes (R260, R262). -/
def tcFillVal (r : Layout) : Nat :=
  if tcEsize r = 4 then tcFill r % 16 else (tcFill r + tcFill r * 2 ^ 32) % 2 ^ (4 * tcNibs r)

/-- The fields of the descriptor word (R275). -/
def tcCmask (d : Dword) : Nat := fld d 63 56
def tcKey (d : Dword) : Nat := fld d 55 40
def tcLblOff (d : Dword) : Nat := fld d 39 16
def tcRslot (d : Dword) : Nat := fld d 15 13
def tcSelv (d : Dword) : Bool := bit d 12
def tcLbl (d : Dword) : Bool := bit d 11
def tcDstSp (d : Dword) : Bool := bit d 10
def tcSrcSp (d : Dword) : Bool := bit d 9
def tcTag (d : Dword) : Nat := fld d 5 0

/-- The spaces and bases of the tiled and the strided side (R260). -/
def tcTiledSp (r : Layout) (d : Dword) : Bool := if tcDir r then tcSrcSp d else tcDstSp d
def tcStridedSp (r : Layout) (d : Dword) : Bool := if tcDir r then tcDstSp d else tcSrcSp d

/-- The label words of one plane (R264). -/
def tcLblN (r : Layout) : Nat := if tcLaxis r then tcE0p r else tcE1p r

/-- Where the selvedges start, and how many there are (R264). -/
def tcSelvBase (r : Layout) (d : Dword) : Nat := roundUp (tcLblOff d + 4 * tcE2 r * tcLblN r) 16
def tcSelvNum (r : Layout) : Nat := (tcE2 r * tcLblN r + 63) / 64


end Sys2Proof.Machine
end

