-- ==== Sys2Proof/Machine/Resolve.lean ====
section
/-!
DEFINITION. Address resolution (spec/09_translation.md R213 to R227, spec/08_memory.md R192, R200 to R202): the regions of R214, the
first and the second stage, the TLBs, gather windows, the fault records of R223, and the ownership of engine operations (R245).
-/
namespace Sys2Proof.Machine

/-- The kinds of access, by the ACC code of R223. -/
inductive Access where
  | read | write | fetch | rmw
deriving DecidableEq, Repr

/-- The ACC code (R223). -/
def Access.code : Access → Nat
  | .read => 0 | .write => 1 | .fetch => 2 | .rmw => 3

/-- How a resolution fails: a first-stage or address fault, a second-stage fault, an uncorrectable read, a translation that the host has yet
to give, or a location that an engine operation has yet to write (R222, R225, R245, R502, R509). -/
inductive XClass where
  | mem | walk | ras | pri | own
deriving DecidableEq, Repr

/-- A failed resolution with what its record holds (R223). -/
structure XFault where
  cls : XClass
  cause : Nat
  va : Nat
  ipa : Nat := 0
  level : Nat := 0
  onEntry : Bool := false
  win : Bool := false
deriving DecidableEq, Repr

/-- The CAUSE codes of translation faults (R223). -/
def xNotMapped : Nat := 1
def xPerm : Nat := 2
def xRsv : Nat := 3
def xKr : Nat := 4
def xRange : Nat := 5
def xPri : Nat := 6
def xSpill : Nat := 7
def xAddr : Nat := 8
def xVault : Nat := 9
def xWin : Nat := 10
def xSpad : Nat := 11

/-- `sr.xlinfo` of a fault (R223). -/
def xlInfo (f : XFault) (acc : Access) (user : Bool) : Dword :=
  BitVec.ofNat 64 (f.cause + f.level * 2 ^ 8 + acc.code * 2 ^ 10 + bnat user * 2 ^ 12 + bnat f.win * 2 ^ 13 +
    bnat (f.cls = .walk) * 2 ^ 14 + bnat f.onEntry * 2 ^ 15)

/-- The record of a fault (R223). -/
def xlRecOf (f : XFault) (acc : Access) (user : Bool) : XlRec :=
  { va := BitVec.ofNat 64 f.va, ipa := BitVec.ofNat 64 f.ipa, info := xlInfo f acc user }

/-- What an access is resolved under: privilege, whether permissions are checked (R210), and the registers of its context. -/
structure View where
  priv : Bool
  perm : Bool := true
  vwbase : Nat
  winbase : Nat
  hwbase : Nat
  hwlimit : Nat
  hwoff : Nat
  s1root : Nat
  svmbase : Nat
  svmlimit : Nat
  /-- the number of the access among engine operations: what those issued before it own holds it back (R245) -/
  engine : Nat := 0
  /-- the member whose copy makes the access, which the member's other copies do not hold back (R271) -/
  copyOf : Nat := 0
  /-- the engine operations that hold back the reads of a window's index, made as an access issues (R201, R245) -/
  index : Nat := 0
  /-- the access looks into the core's own TLB before the cluster's (R213) -/
  core : Bool := false
  /-- the access acts at the line's home, whatever the L1 holds (R199, R207) -/
  home : Bool := false
deriving DecidableEq, Repr

/-- The context's registers as its other members and its engines see them (R226). -/
def ctxView (s : State) (priv : Bool) (engine : Nat) : View :=
  { priv := priv, engine := engine, vwbase := s.ctx.vwbase.toNat, winbase := s.ctx.winbase.toNat, hwbase := s.ctx.hwbase.toNat
    hwlimit := s.ctx.hwlimit.toNat, hwoff := s.ctx.hwoff.toNat, s1root := s.ctx.s1root.toNat, svmbase := s.ctx.svmbase.toNat
    svmlimit := s.ctx.svmlimit.toNat }

/-- The view of a copy of a member (R226, R271). -/
def copyView (s : State) (c : Copy) : View := { ctxView s c.priv c.id with copyOf := c.issuer }

/-- Whether the member runs privileged: in a privileged context, or in a supervisor frame (R443). -/
def memberPriv (s : State) : Bool := s.ctx.priv || (match s.m.frames with | f :: _ => f.sup | [] => false)

/-- A context register as the member sees it: its own unpublished write if it has made one (R226). -/
def ctxOvOr (s : State) (n : Nat) (d : Dword) : Nat := ((lookupKey n s.m.ctxOv).getD d).toNat

/-- The registers that the member's own accesses are resolved under (R226). -/
def memberView (s : State) : View :=
  { priv := memberPriv s, core := true, vwbase := s.ctx.vwbase.toNat, winbase := s.ctx.winbase.toNat
    hwbase := ctxOvOr s 0x084 s.ctx.hwbase, hwlimit := ctxOvOr s 0x085 s.ctx.hwlimit, hwoff := ctxOvOr s 0x086 s.ctx.hwoff
    s1root := ctxOvOr s 0x087 s.ctx.s1root, svmbase := ctxOvOr s 0x08F s.ctx.svmbase, svmlimit := ctxOvOr s 0x090 s.ctx.svmlimit }

/-- The same for an access that an engine will make, translated as its instruction issues (R223): the index of a window is read now (R245). -/
def issueView (s : State) : View := { memberView s with index := s.nextId }

/-- The same for the member's reads and writes, which wait for what engines own (R245). -/
def accessView (s : State) : View := { memberView s with engine := s.nextId }

/-- The bytes of device memory that a partition is granted: 10^10 for each eighth (R218). -/
def grantedBytes (p : Partition) : Nat := ((List.range 64).filter fun i => p.hbm.getLsbD i).length * 10 ^ 10

/-- Whether a PA of fabric space names a peer of the routing table (R502). -/
def routeOf (p : Partition) (pa : Nat) : Option (BitVec 32) :=
  (p.routes.find? fun r => r.1 == (pa >>> 43) % 128 && r.2.1 == (pa >>> 40) % 8).map fun r => r.2.2

/-- The grant check of a PA (R218): granted device memory, host-port space, or fabric space of a routed peer. -/
def paGranted (p : Partition) (pa : Nat) : Bool :=
  let b := p.prbase.toNat
  (b ≤ pa && pa < b + grantedBytes p) ||
    (pa >>> 51 == 1 && (if pa >>> 50 == 3 then (routeOf p pa).isSome else true))

/-- Whether a PA lies in a KR range (R216), whose limit is the first unit beyond it (log 119). -/
def inKr (s : State) (pa : Nat) : Bool := s.mod.kr.any fun r => r.1 * 2 ^ 18 ≤ pa && pa < r.2 * 2 ^ 18

/-- A named peer that no granted link reaches (R500, R502). -/
def peerLost (s : State) (pa : Nat) : Bool :=
  pa >>> 50 == 3 &&
    (match routeOf s.part pa with
     | some ls => ls &&& s.part.links &&& (~~~ s.mod.linksDown) == 0#32
     | none => false)

/-- The fields of a table entry (R215). -/
def entV (e : Nat) : Bool := e.testBit 0
def entLeaf (e : Nat) : Bool := e.testBit 1
def entFrame (e : Nat) : Nat := ((e >>> 18) % 2 ^ 34) * 2 ^ 18
def entSc (e : Nat) : Nat := (e >>> 7) % 4

/-- Whether a valid entry of the given table level and stage is malformed (R215). That SC = 0b11, CONT in a first-level leaf and FRAME[51:48] of a
first-stage table pointer count among the rules is the model's choice (log 118). -/
def malformed (stage1 : Bool) (level e : Nat) : Bool :=
  (e >>> 52 != 0) || (stage1 && (e >>> 48) % 16 != 0) ||
    (if entLeaf e then
       (e.testBit 3 && !e.testBit 2) || (stage1 && entSc e == 3) ||
         (level == 1 && ((e >>> 18) % 2 ^ 15 != 0 || e.testBit 6))
     else level == 2 || (e >>> 2) % 256 != 0)

/-- Whether a leaf's R, W and X allow the access (R217). -/
def leafAllows (e : Nat) : Access → Bool
  | .read => e.testBit 2
  | .write => e.testBit 3
  | .fetch => e.testBit 4
  | .rmw => e.testBit 2 && e.testBit 3

/-- A table entry as a walker reads it: at device scope, never from an L1 (R217); an uncorrectable error is RAS, and so is a peer's memory that no
link reaches (R502, R509). -/
def readEntry (s : State) (va pa : Nat) : Except XFault Nat :=
  if lostHome s (.pa pa) || peerLost s pa then .error { cls := .ras, cause := 5, va := va } else .ok (readNat s.mem pa 8)

/-- The 16 entries of the aligned run in which the entry at a PA stands (R219). -/
def runEntries (s : State) (pa : Nat) : List Nat := (List.range 16).map fun i => readNat s.mem (pa / 128 * 128 + 8 * i) 8

/-- Whether one of them is a valid leaf with CONT. -/
def runMarked (s : State) (pa : Nat) : Bool :=
  (List.range 16).any fun i => let b := (readCell s.mem (pa / 128 * 128 + 8 * i)).toNat; b.testBit 0 && b.testBit 1 && b.testBit 6

/-- Whether a run is what CONT states: consecutive frames from one aligned to 4 MiB, and bits that are otherwise identical (R219). -/
def runMeets (es : List Nat) : Bool :=
  let e := es.headD 0
  (e >>> 18) % 16 == 0 && es.zipIdx.all fun x => x.1 == e + x.2 * 2 ^ 18

/-- The second-level entry of either stage that an access uses, where its own, of a page, is `e` at PA `pa` (R217 to R219): in a run that CONT
misstates, its own or another leaf of the run, as a free value chooses (log 110), which the walker then reads. -/
def runEntry (s : State) (va page pa e : Nat) : Except XFault Nat :=
  if !runMarked s pa || runMeets (runEntries s pa) then .ok e
  else do
    let x ← readEntry s va (pa / 128 * 128 + 8 * (Config.freeLeaf s.cycle page).toNat)
    return if entV x && entLeaf x then x else e

/-- The checks of a PA after the second stage (R216, R218): the partition's grants, then the KR ranges. That a KR fault of a PA is a second-stage
fault is the model's choice (log 119). -/
def checkPa (s : State) (perm : Bool) (va ipa pa : Nat) (onEntry : Bool) : Except XFault Nat :=
  let bad (cause : Nat) : Except XFault Nat := .error { cls := .walk, cause := cause, va := va, ipa := ipa, onEntry := onEntry }
  if !paGranted s.part pa then bad xRange else if perm && !onEntry && inKr s pa then bad xKr else .ok pa

/-- The first-level entry of an index that the walk cache of the die in focus holds for a context, or for the second stage (R220). -/
def walkFind (s : State) (ctx : Option Nat) (index : Nat) : Option Nat :=
  (s.mod.walkc.find? fun w => w.die == s.cl.num / 16 && w.part == s.part.num && w.ctx == ctx && w.index == index).map (·.entry)

/-- A first-level entry of the second stage, from the walk cache where it holds the entry (R218, R220). -/
def secondEntry (s : State) (va ipa : Nat) : Except XFault Nat :=
  match walkFind s none (ipa >>> 33) with
  | some e => .ok e
  | none => readEntry s va (s.part.s2root.toNat + 8 * (ipa >>> 33))

/-- The second stage (R218): the PA of an IPA. -/
def stage2 (s : State) (perm : Bool) (acc : Access) (va ipa : Nat) (onEntry : Bool) : Except XFault Nat :=
  let bad (cause level : Nat) : Except XFault Nat :=
    .error { cls := .walk, cause := cause, va := va, ipa := ipa, level := level, onEntry := onEntry }
  if ipa < s.part.prlim.toNat then checkPa s perm va ipa (s.part.prbase.toNat + ipa) onEntry
  else do
    let e1 ← secondEntry s va ipa
    if !entV e1 then bad xNotMapped 1
    else if malformed false 1 e1 then bad xRsv 1
    else if entLeaf e1 then
      if perm && !leafAllows e1 acc then bad xPerm 1 else checkPa s perm va ipa (entFrame e1 / 2 ^ 33 * 2 ^ 33 + ipa % 2 ^ 33) onEntry
    else
      let p2 := entFrame e1 + 8 * ((ipa >>> 18) % 2 ^ 15)
      let own ← readEntry s va p2
      let e2 ← runEntry s va (ipa >>> 18) p2 own
      if !entV e2 then bad xNotMapped 2
      else if malformed false 2 e2 then bad xRsv 2
      else if perm && !leafAllows e2 acc then bad xPerm 2
      else checkPa s perm va ipa (entFrame e2 + ipa % 2 ^ 18) onEntry

/-- The leaf checks of the first stage, RSV before PERM before KR (R216, R217). -/
def leafFault (v : View) (acc : Access) (level e : Nat) : Option Nat :=
  if malformed true level e then some xRsv
  else if v.perm && !e.testBit 5 && !v.priv then some xPerm
  else if v.perm && !leafAllows e acc then some xPerm
  else if v.perm && e.testBit 9 then some xKr
  else none

/-- A first-stage fault at a level: on a leaf, with the IPA that the leaf gives, else with none (R223, R519). -/
def stage1Fault {α : Type} (va cause level ipa : Nat) : Except XFault α :=
  .error { cls := .mem, cause := cause, va := va, level := level, ipa := ipa }

/-- The IPA of a VA's first-level entry (R217). -/
def firstIpa (v : View) (va : Nat) : Nat := (v.s1root + 8 * (va >>> 33)) % 2 ^ 48

/-- A first-level entry of the first stage, from the walk cache where it holds the entry (R217, R220). -/
def firstEntry (s : State) (v : View) (va : Nat) : Except XFault Nat :=
  match walkFind s (some s.ctx.id) (va >>> 33) with
  | some e => .ok e
  | none => do
    let p1 ← stage2 s true .read va (firstIpa v va) true
    readEntry s va p1

/-- The first-stage leaf of a VA with its level and the IPA that it gives (R217); in a run that CONT misstates, its own or another (R219; log 110). -/
def leafOf (s : State) (v : View) (va : Nat) : Except XFault (Nat × Nat × Nat) := do
  let e1 ← firstEntry s v va
  if !entV e1 then stage1Fault va xNotMapped 1 0
  else if entLeaf e1 then return (e1, 1, entFrame e1 / 2 ^ 33 * 2 ^ 33 + va % 2 ^ 33)
  else if malformed true 1 e1 then stage1Fault va xRsv 1 0
  else
    let p2 ← stage2 s true .read va (entFrame e1 + 8 * ((va >>> 18) % 2 ^ 15)) true
    let own ← readEntry s va p2
    let e2 ← runEntry s va (va >>> 18) p2 own
    if !entV e2 then stage1Fault va xNotMapped 2 0 else return (e2, 2, entFrame e2 + va % 2 ^ 18)

/-- The translation that one of some TLB entries gives a VA of the context in focus (R220). -/
def tlbFind (s : State) (ts : List TlbEntry) (va : Nat) : Option TlbEntry :=
  ts.find? fun t => t.part == s.part.num && t.ctx == s.ctx.id && t.page ≤ va >>> 18 && va >>> 18 < t.page + t.span

/-- The translation of a VA that the TLBs in front of an access hold: a member's core's, then the cluster's (R213, R220). -/
def tlbHit (s : State) (v : View) (va : Nat) : Option TlbEntry :=
  match (if v.core then tlbFind s s.core.tlb va else none) with
  | some t => some t
  | none => tlbFind s s.cl.tlb va

/-- An access under a held translation (R220): the permissions of both stages, and the KR ranges, are checked as they stand in it. -/
def tlbUse (s : State) (v : View) (acc : Access) (va : Nat) (t : TlbEntry) : Except XFault (Nat × Nat) :=
  let pa := t.pa + (va - t.page * 2 ^ 18)
  let ipa := t.ipa + (va - t.page * 2 ^ 18)
  match leafFault v acc t.level t.leaf with
  | some c => stage1Fault va c t.level ipa
  | none =>
    match t.leaf2 with
    | some (e, level) =>
      if v.perm && !leafAllows e acc then .error { cls := .walk, cause := xPerm, va := va, ipa := ipa, level := level }
      else (checkPa s v.perm va ipa pa false).map fun pa => (pa, entSc t.leaf)
    | none => (checkPa s v.perm va ipa pa false).map fun pa => (pa, entSc t.leaf)

/-- The first stage and the second after it (R217): the PA and SC of a VA, from the TLB where it holds the page (R220). -/
def walkVa (s : State) (v : View) (acc : Access) (va : Nat) : Except XFault (Nat × Nat) :=
  match tlbHit s v va with
  | some t => tlbUse s v acc va t
  | none => do
    let (e, level, ipa) ← leafOf s v va
    match leafFault v acc level e with
    | some c => stage1Fault va c level ipa
    | none =>
      let pa ← stage2 s v.perm acc va ipa false
      return (pa, entSc e)

/-- The regions of R214, by the REGION code of R229. -/
inductive Region where
  | tables | vault | window | host
deriving DecidableEq, Repr

/-- Whether an address falls in the vault window, a gather window, the heap window or the host range (R214). -/
def inVaultWin (v : View) (a : Nat) : Bool := v.vwbase ≤ a && a < v.vwbase + 2 ^ 31
def inGather (v : View) (a : Nat) : Bool := v.winbase ≤ a && a < v.winbase + 2 ^ 36
def inHeap (v : View) (a : Nat) : Bool := v.hwbase ≤ a && a < v.hwbase + v.hwlimit
def inHost (v : View) (a : Nat) : Bool := v.svmbase ≤ a && a < v.svmlimit

/-- The vault and the byte in it of an offset of the vault window (R192). -/
def vaultLoc (s : State) (o : Nat) : Option Loc :=
  let vi := o >>> 25
  let b := o % 2 ^ 25
  match s.part.clusters[vi]? with
  | some c => if b < s.part.vsplit * 2 ^ 22 then some (.vault (c * 2 ^ 25 + b)) else none
  | none => none

/-- The PA of a host bus address in the host-port space of the partition's home port (R225, R498). -/
def hostPa (p : Partition) (a : Nat) : Nat := 2 ^ 51 + p.homeport % 2 * 2 ^ 49 + a % 2 ^ 49

/-- The host's translation of a page (R225), with its permissions where they are checked (R210). -/
def hostPage (s : State) (perm : Bool) (acc : Access) (va : Nat) : Except XFault Nat :=
  match lookupKey (va >>> 18) s.ctx.ats with
  | some p =>
    let ok := match acc with | .read => p.r | .write => p.w | .rmw => p.r && p.w | .fetch => p.x
    if ok || !perm then .ok (hostPa s.part (p.pa.toNat / 2 ^ 18 * 2 ^ 18 + va % 2 ^ 18)) else .error { cls := .mem, cause := xPerm, va := va }
  | none =>
    if s.ctx.priFail.contains (va >>> 18) then .error { cls := .mem, cause := xPri, va := va }
    else .error { cls := .pri, cause := xPri, va := va }

/-- The fields of a window descriptor (R200). -/
def winFill (w : Window) (b : Nat) : Byte := BitVec.ofNat 8 (w.toNat >>> (256 + 8 * (b % 8)))
def winEsize (w : Window) : Nat := 4 * 2 ^ fld w 195 192
def winIsize (w : Window) : Nat := if bit w 196 then 8 else 4
def winCount (w : Window) : Nat := fld w 159 128
def winBound (w : Window) : Nat := fld w 191 160
def winBase (w : Window) : Nat := fld w 111 64
def winIndex (w : Window) : Nat := fld w 47 0

/-- Where the byte at a VA lies outside the gather windows (R214 steps 1 and 3 to 5), with SC and region. -/
def resolvePlain (s : State) (v : View) (acc : Access) (va : Nat) : Except XFault (Loc × Nat × Region) :=
  if va >>> 48 != 0 then .error { cls := .mem, cause := xAddr, va := va }
  else if inVaultWin v va then
    match vaultLoc s (va - v.vwbase) with
    | none => .error { cls := .mem, cause := xVault, va := va }
    | some l => if acc = .fetch then .error { cls := .mem, cause := xPerm, va := va } else .ok (l, 0, .vault)
  else if inHeap v va && !inGather v va then
    if acc = .fetch then .error { cls := .mem, cause := xPerm, va := va }
    else (stage2 s v.perm acc va ((va + v.hwoff) % 2 ^ 48) false).map fun pa => (.pa pa, 0, .tables)
  else if inHost v va && !inGather v va then (hostPage s v.perm acc va).map fun pa => (.pa pa, 2, .host)
  else (walkVa s v acc va).map fun (pa, sc) => (.pa pa, sc, .tables)

/-- Whether the read of a resolved place meets an uncorrectable error in device memory or a vault (R18, R509); a line that the core's L1 holds
is not read there. -/
def lostAt (s : State) (l : Loc) : Bool := (l1At s.core l).isNone && lostHome s l

/-- Whether a place is memory of a fabric peer that no granted link reaches (R502). -/
def peerAt (s : State) : Loc → Bool
  | .pa a => peerLost s a
  | _ => false

/-! ## Ownership (R245) -/

/-- What a tensor copy writes, as ranges of bytes (R245): in memory by virtual address, in each target's scratchpad by offset from its base, or in
the share of the copy's own team by offset. -/
inductive OwnRange where
  | mem (va n : Nat)
  | target (off n : Nat)
  | share (off n : Nat)
deriving DecidableEq, Repr

/-- The bytes that an access of `n` nibbles from a nibble address touches. -/
def nibBytes (n : Nat) : Nat := max 1 (n / 2)

/-- The element ranges that a tensor copy has yet to write from its k-th element on. -/
def elemRanges (r : Layout) (d : Dword) (dst k : Nat) : List OwnRange :=
  let n := nibBytes (tcNibs r)
  ((List.range (tcCount r - k)).map fun i =>
    let e := tcElem r (k + i)
    if tcDir r then
      (if !tcPresent r e then []
       else if tcDstSp d then [.share (tcStrided r dst e / 2) n] else [.mem (tcStrided r dst e / 2 % 2 ^ 64) n])
    else if tcDstSp d then [.target (e.t / 2) n] else [.mem ((2 * dst + e.t) / 2 % 2 ^ 64) n]).flatten

/-- The place of label word `i` of plane `p` on the memory side, where its index is present (R264). -/
def lblMem (r : Layout) (p i : Nat) : Option Nat :=
  let b := if tcLaxis r then tcB0 r else tcB1 r
  let o := if tcLaxis r then tcO0 r else tcO1 r
  let ext := if tcLaxis r then tcE0 r else tcE1 r
  let x : Int := i + o
  if i < ext && 0 ≤ x && x < b then some (tcLblPtr r + 4 * (p * b + x.toNat)) else none

/-- The label and selvedge ranges that a tensor copy writes (R264). -/
def labelRanges (r : Layout) (d : Dword) : List OwnRange :=
  let n := tcE2 r * tcLblN r
  if !tcLbl d then []
  else if tcDir r then
    (List.range n).filterMap fun j => (lblMem r (j / tcLblN r) (j % tcLblN r)).map fun a => .mem (a % 2 ^ 64) 4
  else .share (tcLblOff d) (4 * n) :: (if tcSelv d then [.share (tcSelvBase r d) (64 * tcSelvNum r)] else [])

/-- The context of a team as it stands, and the state with it in focus. -/
def atCtxOf (s : State) (t : Team) : State :=
  if s.ctx.id == t.ctx && s.ctx.part == t.part then s
  else match s.ctxs.find? fun c => c.id == t.ctx && c.part == t.part with | some c => { s with ctx := c } | none => s

/-- Whether a place of memory lies in a range of virtual addresses, as it translates now. -/
def inVaRange (s : State) (v : View) (va n : Nat) (l : Loc) : Bool :=
  match resolvePlain s v .write va, l with
  | .ok (.pa a, _, _), .pa x => a ≤ x && x < a + n
  | .ok (.vault a, _, _), .vault x => a ≤ x && x < a + n
  | _, _ => false

/-- Whether a range that a copy of team `t` writes holds a place; a scratchpad place is one of the share of team `tid`. -/
def rangeHas (s : State) (t : Team) (c : Copy) (targets : List (Nat × Nat)) (tid : Nat) (l : Loc) (x : OwnRange) : Bool :=
  match x, l with
  | .mem va n, l => inVaRange s (ctxView s c.priv 0) va n l
  | .target off n, .spad a => targets.any fun g => g.1 == tid && g.2 + off ≤ a && a < g.2 + off + n
  | .share off n, .spad a => t.id == tid && off ≤ a && a < off + n
  | _, _ => false

/-- Whether a copy of team `t` has yet to write a place (R245); a suspended copy owns nothing that it has not written (R246). -/
def copyOwns (s : State) (t : Team) (c : Copy) (tid : Nat) (l : Loc) : Bool :=
  if c.fault.isSome then false
  else
    match c.op with
    | .lanes ls => ls.any (fun e => e.2.contains l) && (match l with | .spad _ => t.id == tid | _ => true)
    | .tensor r d dst _ targets _ =>
      let s := atCtxOf s t
      ((if c.labelsDone then [] else labelRanges r d) ++ elemRanges r d dst.toNat c.pos).any (rangeHas s t c targets tid l)

/-- Whether an operation of a matrix engine has yet to write a place (R245). -/
def opOwns (o : MxOp) (tid : Nat) (l : Loc) : Bool := o.own.contains l && (match l with | .spad _ => o.team == tid | _ => true)

/-- Whether an engine operation issued before number `n` has yet to write a place that it owns (R245); a scratchpad place is one of the share of
team `tid`, and a copy of member `copyOf` is not held back by that member's other copies (R271). The operations of saved teams count (log 6). -/
def ownedBy (s : State) (tid n copyOf : Nat) (l : Loc) : Bool :=
  ((s.team :: s.teams.map (·.1)).any fun t =>
    t.part == s.part.num && t.copies.any fun c => c.id < n && !(copyOf != 0 && c.issuer == copyOf) && copyOwns s t c tid l) ||
    ((s.core :: s.cores).any fun k => k.mxq.any fun o => o.id < n && opOwns o tid l) ||
    s.part.saved.any fun e => e.2.1.savedOps.any fun o => o.id < n && opOwns o tid l

/-- Whether a range that a copy writes meets bytes `lo` to `hi` of the physical space. -/
def rangeMeets (s : State) (c : Copy) (lo hi : Nat) : OwnRange → Bool
  | .mem va n =>
    (match resolvePlain s (ctxView s c.priv 0) .write va with
     | .ok (.pa a, _, _) => decide (a < hi) && decide (lo < a + n)
     | _ => false)
  | _ => false

/-- Whether a copy of team `t` has yet to write one of those bytes (R245). -/
def copyMeets (s : State) (t : Team) (c : Copy) (lo hi : Nat) : Bool :=
  let inside (l : Loc) : Bool := match l with | .pa a => decide (lo ≤ a) && decide (a < hi) | _ => false
  if c.fault.isSome then false
  else
    match c.op with
    | .lanes ls => ls.any fun e => e.2.any inside
    | .tensor r d dst _ _ _ =>
      ((if c.labelsDone then [] else labelRanges r d) ++ elemRanges r d dst.toNat c.pos).any (rangeMeets (atCtxOf s t) c lo hi)

/-- Whether an engine operation issued before number `n` has yet to write one of bytes `lo` to `hi` of the physical space (R245): what an access to a
table, to the frame pool or to tap memory waits for. -/
def ownedPa (s : State) (n lo hi : Nat) : Bool :=
  let inside (l : Loc) : Bool := match l with | .pa a => decide (lo ≤ a) && decide (a < hi) | _ => false
  ((s.team :: s.teams.map (·.1)).any fun t => t.part == s.part.num && t.copies.any fun c => c.id < n && copyMeets s t c lo hi) ||
    ((s.core :: s.cores).any fun k => k.mxq.any fun o => o.id < n && o.own.any inside) ||
    s.part.saved.any fun e => e.2.1.savedOps.any fun o => o.id < n && o.own.any inside

/-- The same for the team in focus. -/
def ownedBefore (s : State) (n : Nat) (l : Loc) : Bool := ownedBy s s.team.id n 0 l

/-- Whether a member or an outside agent must wait for an engine to write one of some places (R245). -/
def ownedAny (s : State) (ls : List Loc) : Bool := ls.any (ownedBefore s s.nextId)

/-- A failed resolution where a view must wait for an engine, or the read of a place meets an uncorrectable error: at its home for a fetch, an atomic
step, and a read that passes the L1 by (R199, R207). -/
def placeFault (s : State) (v : View) (home : Bool) (acc : Access) (va : Nat) (ls : List Loc) : Option XFault :=
  let lost (l : Loc) : Bool :=
    match acc with
    | .write => false
    | .read => lostHome s l && (home || lostAt s l)
    | _ => lostHome s l
  if ls.any lost || ls.any (peerAt s) then some { cls := .ras, cause := 5, va := va }
  else if ls.any (ownedBy s s.team.id v.engine v.copyOf) then some { cls := .own, cause := 0, va := va }
  else none

/-- Where the byte at a VA lies, gather windows included; the index and the data of a window are resolved by the same rule (R201, R214).
`fuel` bounds windows that lead to windows: past it the read has no place and raises WIN (log 11). -/
def resolveByte (s : State) (v : View) (acc : Access) (va : Nat) : Nat → Except XFault (Loc × Nat × Region)
  | 0 => .error { cls := .mem, cause := xWin, va := va, win := true }
  | fuel + 1 =>
    if va >>> 48 != 0 then .error { cls := .mem, cause := xAddr, va := va }
    else if inVaultWin v va || !inGather v va then resolvePlain s v acc va
    else if acc = .fetch then .error { cls := .mem, cause := xPerm, va := va }
    else
      let o := (va - v.winbase) % 2 ^ 32
      match lookupKey ((va - v.winbase) / 2 ^ 32) s.ctx.wins with
      | none => .error { cls := .mem, cause := xWin, va := va }
      | some w =>
        match acc with
        | .write => .ok (.drop, 0, .window)
        | .rmw => .error { cls := .mem, cause := xWin, va := va }
        | _ =>
          let es := winEsize w
          let i := o / es
          if winCount w ≤ i then .ok (.fill (winFill w (o % es)), 0, .window)
          else
            let asWin (e : XFault) : XFault := { e with win := true }
            let ia := winIndex w + i * winIsize w
            let idx := (List.range (winIsize w)).foldl
              (fun (r : Except XFault (List Byte)) j => do
                let bs ← r
                match resolveByte s v .read (ia + j) fuel with
                | .ok (l, _, _) =>
                  match placeFault s { v with engine := max v.engine v.index } v.home .read (ia + j) [l] with
                  | some e => .error (asWin e)
                  | none => return bs ++ [readLoc s l]
                | .error e => .error (asWin e)) (.ok [])
            match idx with
            | .error e => .error e
            | .ok bs =>
              let n := ofLeBytes bs
              if winBound w ≤ n then .ok (.fill (winFill w (o % es)), 0, .window)
              else
                match resolveByte s v .read ((winBase w + n * es + o % es) % 2 ^ 64) fuel with
                | .ok (l, _, _) => .ok (l, 0, .window)
                | .error e => .error (asWin e)

/-- The bound on windows that lead to windows: each of the 16 once (log 11). -/
def winFuel : Nat := 17

/-- The places of the `n` bytes from a VA; an access of a page is resolved once, one of a window byte by byte (R201, R205, R214). -/
def resolveRange (s : State) (v : View) (acc : Access) (va n : Nat) : Except XFault (List Loc) :=
  if !inVaultWin v va && inGather v va then
    (List.range n).mapM fun i => (resolveByte s v acc ((va + i) % 2 ^ 64) winFuel).map fun r => r.1
  else do
    let (l, _, _) ← resolveByte s v acc va winFuel
    match l with
    | .pa a => return (List.range n).map fun i => .pa (a + i)
    | .vault a => return (List.range n).map fun i => .vault (a + i)
    | l => return [l]

/-- Which caches an access at a VA passes: both levels, the second alone, or none (R199, R214, R215). -/
inductive CacheUse where
  | both | second | none
deriving DecidableEq, Repr

/-- The caches of an access, by the region and the scope-cacheability of its address. -/
def cacheUse (s : State) (v : View) (va : Nat) : CacheUse :=
  match resolveByte s { v with perm := false } .read va winFuel with
  | .ok (_, _, .window) => .second
  | .ok (_, _, .host) => .none
  | .ok (_, 0, _) => .both
  | .ok (_, 1, _) => .second
  | _ => .none

/-- The table entries that the second stage reads for an IPA (R218). -/
def secondReads (s : State) (va ipa : Nat) : List Nat :=
  if ipa < s.part.prlim.toNat then []
  else
    (if (walkFind s none (ipa >>> 33)).isSome then [] else [s.part.s2root.toNat + 8 * (ipa >>> 33)]) ++
      (match secondEntry s va ipa with
       | .ok e => if entV e && !entLeaf e then [entFrame e + 8 * ((ipa >>> 18) % 2 ^ 15)] else []
       | .error _ => [])

/-- A first-stage entry at an IPA, with the entries that lead to it. -/
def firstReads (s : State) (va ipa : Nat) : List Nat :=
  secondReads s va ipa ++ (match stage2 s true .read va ipa true with | .ok pa => [pa] | .error _ => [])

/-- The table entries that a walker reads for an access at a VA (R217, R218, R220). -/
def walkReads (s : State) (v : View) (va : Nat) : List Nat :=
  if va >>> 48 != 0 || inVaultWin v va || inGather v va then []
  else if inHeap v va then secondReads s va ((va + v.hwoff) % 2 ^ 48)
  else if inHost v va || (tlbHit s v va).isSome then []
  else
    (if (walkFind s (some s.ctx.id) (va >>> 33)).isSome then [] else firstReads s va (firstIpa v va)) ++
      (match firstEntry s v va with
       | .ok e => if entV e && !entLeaf e then firstReads s va (entFrame e + 8 * ((va >>> 18) % 2 ^ 15)) else []
       | .error _ => []) ++
      (match leafOf s v va with | .ok (_, _, ipa) => secondReads s va ipa | .error _ => [])

/-- The places of a gather window's index element, as they resolve (R201). -/
def indexPlaces (s : State) (v : View) (w : Window) (i fuel : Nat) : List Loc :=
  (List.range (winIsize w)).filterMap fun j =>
    match resolveByte s v .read (winIndex w + i * winIsize w + j) fuel with | .ok (l, _, _) => some l | .error _ => none

/-- The places that are read on the way to the byte at a VA: table entries, and the index of a gather window (R201, R217). -/
def leadPlaces (s : State) (v : View) (va : Nat) : Nat → List Loc
  | 0 => []
  | fuel + 1 =>
    if inVaultWin v va || !inGather v va then (walkReads s v va).map .pa
    else
      match lookupKey ((va - v.winbase) / 2 ^ 32) s.ctx.wins with
      | none => []
      | some w =>
        let o := (va - v.winbase) % 2 ^ 32
        let i := o / winEsize w
        if winCount w ≤ i then []
        else
          let idx := indexPlaces s v w i fuel
          let n := ofLeBytes (readLocs s idx)
          leadPlaces s v (winIndex w + i * winIsize w) fuel ++ idx ++
            (if idx.length == winIsize w && n < winBound w then
               leadPlaces s v ((winBase w + n * winEsize w + o % winEsize w) % 2 ^ 64) fuel
             else [])

/-- The second-level cache as the way to the bytes of an access leaves it: walkers and index reads pass through it (R195, R217). -/
def l2Walk (s : State) (v : View) (va : Nat) : State := l2Locs s (leadPlaces s v va winFuel) false

/-- The same for `n` bytes: each byte of a gather window has an index of its own (R201). -/
def l2Walks (s : State) (v : View) (va n : Nat) : State :=
  if !inVaultWin v va && inGather v va then (List.range n).foldl (fun s i => l2Walk s v ((va + i) % 2 ^ 64)) s else l2Walk s v va

/-! ## Through the caches -/

/-- The L1 as an access at a VA finds it: an address that passes the L1 by is accessed at its home, to which the core's own line goes back first
(R215, R254). -/
def seenAt (s : State) (v : View) (va : Nat) (ls : List Loc) : State :=
  match cacheUse s v va with
  | .both => s
  | _ => atHome s ls

/-- The caches as a member's access at a VA, which resolves to some places, finds them (R195, R199). -/
def passCaches (s : State) (v : View) (va : Nat) (ls : List Loc) (store : Bool) : State :=
  let s := l2Walks s v va ls.length
  match cacheUse s v va with
  | .both =>
    let s := l1FillLocs s ls
    l2Locs s (ls.filter fun l => (l1At s.core l).isNone) store
  | .second => l2Locs (atHome s ls) ls store
  | .none => atHome s ls

/-- The caches as an engine's access at a VA finds them (R195, R199, R215): no line enters the L1. -/
def l2Pass (s : State) (v : View) (va : Nat) (ls : List Loc) (store : Bool) : State :=
  let s := l2Walks s v va ls.length
  match cacheUse s v va with
  | .both => l2Locs s ls store
  | .second => l2Locs (atHome s ls) ls store
  | .none => atHome s ls

/-- The L1 lines of some places at a VA that its accesses pass the L1 by for, each with whether they pass the second level by too (R215, R254). -/
def passedBy (s : State) (v : View) (va : Nat) (ls : List Loc) : List (Nat × Bool) :=
  match cacheUse s v va with
  | .both => []
  | .second => (lineKeys ls).map fun k => (k, false)
  | .none => (lineKeys ls).map fun k => (k, true)

/-- Those lines written back and discarded, as an operation that passes them by finds them. -/
def passBy (s : State) (ks : List (Nat × Bool)) : State := ks.foldl (fun s e => l1Evict s e.1) s

/-- As `resolveRange`, with the uncorrectable errors that a read would meet (R509), the peers that no link reaches (R502), and what earlier engine
operations own (R245). -/
def resolveAccess (s : State) (v : View) (acc : Access) (va n : Nat) : Except XFault (List Loc) := do
  let ls ← resolveRange s v acc va n
  match placeFault s v (v.home || cacheUse s v va != .both) acc va ls with
  | some e => .error e
  | none => return ls

end Sys2Proof.Machine
end

