-- ==== Sys2Proof/Machine/Regs.lean ====
section
/-!
DEFINITION. The registers of a member (spec/05_registers.md R102 to R120): renaming, last reads, spill and refill, uniform registers and
predicates, and the trap that an instruction raises.
-/
namespace Sys2Proof.Machine

/-- The trap classes by their codes (R442). -/
def cEmu : Nat := 0x01
def cIll : Nat := 0x02
def cMem : Nat := 0x03
def cWalk : Nat := 0x04
def cAlign : Nat := 0x05
def cShape : Nat := 0x06
def cBound : Nat := 0x07
def cFmt : Nat := 0x08
def cRas : Nat := 0x09
def cTap : Nat := 0x0A
def cPre : Nat := 0x0B
def cUser : Nat := 0x0C
def cOvl : Nat := 0x0D
def cTree : Nat := 0x0E
def cShf : Nat := 0x0F
def cLease : Nat := 0x10

/-- A trap as an instruction raises it: class and cause (R442, R451), the handler mask where it is not the active lanes, the records of
faulting lanes (R223), the class data, and the engine operation it comes from (R460). -/
structure Trap where
  cls : Nat
  cause : Nat := 0
  mask : Option Mask := none
  xl : List (Nat × XlRec) := []
  data0 : Dword := 0#64
  data1 : Dword := 0#64
  held : Bool := false
  bk : Bool := false
  /-- `sr.trappc` is the next instruction -/
  after : Bool := false
  engine : Option EngineRef := none
  /-- the value the trap leaves in `sr.cpfault`, `sr.qfault`, `sr.shfault`, `sr.ovlva`, `sr.leaseinfo` or `sr.lblstat` -/
  record : Option Dword := none
deriving DecidableEq, Repr

/-- BOUND with its causes (R451). -/
def bound (cause : Nat) : Trap := { cls := cBound, cause := cause }
def bReg : Nat := 1
def bKreg : Nat := 2
def bRstk : Nat := 3
def bAcc : Nat := 4
def bCb : Nat := 5
def bRel : Nat := 6
def bTree : Nat := 7
def bQueue : Nat := 8
def bAreg : Nat := 9
def bBar : Nat := 10
def bLap : Nat := 11
def bFrame : Nat := 12
def bOwin : Nat := 13

/-- SHAPE with its causes (R451). -/
def shape (cause : Nat) : Trap := { cls := cShape, cause := cause }
def shRsv : Nat := 1
def shGeom : Nat := 2
def shTag : Nat := 3
def shMcwin : Nat := 4
def shWin : Nat := 5
def shWb : Nat := 6
def shAccrow : Nat := 7
def shLbl : Nat := 8
def shRel : Nat := 9
def shShrec : Nat := 10
def shCross : Nat := 11
def shBar : Nat := 12
def shTq : Nat := 13
def shImg : Nat := 14
def shVec : Nat := 15

def alignTrap : Trap := { cls := cAlign }

/-- EMU with a cause that an instruction's own checks raise (R63 step 5). -/
def emuTrap (c : EmuCause) : Trap := { cls := cEmu, cause := c.code }

/-- The lanes of the member's issue group: 32, 64, 128 or 16 for waves, 1 for an access processor or the sequencer (R72, R82, R281). -/
def nLanes (s : State) : Nat :=
  match s.m.kind with
  | .wave => s.team.width
  | _ => 1

/-- The hardware waves of the issue group (R82). -/
def nHw (s : State) : Nat := if nLanes s ≤ 32 then 1 else nLanes s / 32

/-- The lanes of hardware wave `h` in a lane mask. -/
def hwMask (m : Mask) (h : Nat) : BitVec 32 := BitVec.ofNat 32 (m.toNat >>> (32 * h))

/-- The mapped register `r` of hardware wave `h` (R105). -/
def vreg (rf : RegFile) (r h : Nat) : Option VReg := lookupKey (4 * r + h) rf.vregs

/-- The value of register `r` in a lane: 0 where it is unmapped (R106). -/
def vLane (rf : RegFile) (r l : Nat) : Word :=
  match vreg rf r (l / 32) with
  | some v => v.vals.getD (l % 32) 0#32
  | none => 0#32

/-- A register window with one register of one hardware wave set. -/
def setVreg (rf : RegFile) (r h : Nat) (v : VReg) : RegFile := { rf with vregs := insertKey (4 * r + h) v rf.vregs }

/-- A uniform register (R116); an access processor's a registers stand in the same place (R281). -/
def kReg (rf : RegFile) (n : Nat) : Dword := rf.kregs.getD n 0#64

/-- A predicate; p7 is constant true (R117, R72). -/
def pReg (rf : RegFile) (n : Nat) : Mask := if n = 7 then BitVec.allOnes 128 else rf.preds.getD n 0#128

/-- A window with a uniform register written: its parity is good again (R114). -/
def putK (rf : RegFile) (n : Nat) (x : Dword) : RegFile :=
  { rf with kregs := rf.kregs.set n x, kbad := rf.kbad &&& ~~~(1#64 <<< n) }

/-- A window with a predicate written in the lanes of `act` (R56, R114). -/
def putP (rf : RegFile) (n : Nat) (act v : Mask) : RegFile :=
  { rf with preds := rf.preds.set n ((pReg rf n &&& ~~~act) ||| (v &&& act)), pbad := rf.pbad.set n (rf.pbad.getD n 0#128 &&& ~~~act) }

def setK (s : State) (n : Nat) (x : Dword) : State := { s with m := { s.m with rf := putK s.m.rf n x } }

/-- A predicate written in the lanes of `act`; writes to p7 are ignored (R56). -/
def setP (s : State) (n : Nat) (act v : Mask) : State :=
  if n = 7 then s else { s with m := { s.m with rf := putP s.m.rf n act v } }

/-- `sr.regstat` with one of its sticky bits set (R120). -/
def stickReg (s : State) (b : Nat) : State := { s with m := { s.m with regstat := s.m.regstat ||| (1#64 <<< b) } }

/-- All windows of a member: the current one and those its frames interrupt (R448). -/
def windows (m : Member) : List RegFile := m.rf :: m.frames.map (·.rf)

/-- The physical registers that a member's hardware wave `h` holds, over all its windows (R104, R448). -/
def physOf (m : Member) (h : Nat) : Nat :=
  ((windows m).map fun rf => (rf.vregs.filter fun e => e.1 % 4 == h && !e.2.spilled).length).foldl (· + ·) 0

/-- The members resident on the core in focus. -/
def coreMembers (s : State) : List Member :=
  (s.m :: s.peers) ++ ((s.teams.filter fun t => t.1.core == s.core.num && t.1.present).map (·.2)).flatten

/-- The rename maps of issue slot `i`: member and hardware wave (R104). -/
def slotMaps (s : State) (i : Nat) : List (Member × Nat) :=
  ((coreMembers s).map fun m => ((List.range m.slots.length).filter fun h => m.slots.getD h 0 / 8 == i).map fun h => (m, h)).flatten

/-- The reserved floor of a rename map (R104). -/
def regFloor : Nat := 16

/-- The free physical registers of an issue slot's pool (R104, `sr.pregfree`). -/
def poolFree (s : State) (i : Nat) : Nat :=
  s.core.pool.getD i 0 - ((slotMaps s i).map fun e => physOf e.1 e.2).foldl (· + ·) 0

/-- The issue slot of the member's rename map `h` (R104). -/
def slotOf (m : Member) (h : Nat) : Nat := m.slots.getD h 0 / 8

/-- The duplicates that stand in the free registers of an issue slot's pool (R114). -/
def dupsOf (s : State) (i : Nat) : Nat :=
  ((slotMaps s i).map fun p =>
    ((windows p.1).map fun rf => (rf.vregs.filter fun e => e.1 % 4 == p.2 && !e.2.spilled && e.2.dup).length).foldl (· + ·) 0).foldl (· + ·) 0

/-- A member whose registers in an issue slot have no duplicates. -/
def withoutDups (i : Nat) (m : Member) : Member :=
  let off (rf : RegFile) : RegFile :=
    { rf with vregs := rf.vregs.map fun e => if slotOf m (e.1 % 4) == i then (e.1, { e.2 with dup := false }) else e }
  { m with rf := off m.rf, frames := m.frames.map fun f => { f with rf := off f.rf } }

/-- An allocation has taken the registers in which duplicates stood, where fewer are free than duplicates are held (R114). Which duplicates go is
the model's choice: all of the issue slot's (log 121). -/
def takeDups (s : State) (i : Nat) : State :=
  if dupsOf s i ≤ poolFree s i then s
  else
    { s with
      m := withoutDups i s.m
      peers := s.peers.map (withoutDups i)
      teams := s.teams.map fun t => if t.1.core == s.core.num && t.1.present then (t.1, t.2.map (withoutDups i)) else t }

/-- Whether a register of a member's hardware wave `h` has a duplicate, which only a free register of its pool can hold (R114). -/
def hasDup (s : State) (m : Member) (h : Nat) (v : VReg) : Bool := v.dup && 0 < poolFree s (slotOf m h)

/-- The same of the member in focus. -/
def repairs (s : State) (h : Nat) (v : VReg) : Bool := hasDup s s.m h v

/-- Whether the member's rename map `h` may take a free register (R104): below its floor always, else beyond the unmet floors of the
slot's other maps. -/
def mayTake (s : State) (h : Nat) : Bool :=
  if physOf s.m h < regFloor then true
  else
    let i := slotOf s.m h
    let unmet := ((slotMaps s i).filter fun e => !(e.1.id == s.m.id && e.2 == h)).map fun e => regFloor - physOf e.1 e.2
    unmet.foldl (· + ·) 0 < poolFree s i

/-- The least recently used register of a window's map `h` that is in the pool and not named: its key and stamp (R109). -/
def lruOf (rf : RegFile) (h : Nat) (named : List Nat) : Option (Nat × Nat) :=
  rf.vregs.foldl (fun best e =>
    if e.1 % 4 == h && !e.2.spilled && !named.contains (e.1 / 4) then
      match best with
      | some b => if e.2.stamp < b.2 then some (e.1, e.2.stamp) else best
      | none => some (e.1, e.2.stamp)
    else best) none

/-- The window with the register at a key moved to the backing store (R109). -/
def spillKey (rf : RegFile) (k : Nat) : RegFile :=
  { rf with vregs := rf.vregs.map fun e => if e.1 == k then (e.1, { e.2 with spilled := true }) else e }

/-- The budget of the program below every frame (R103). -/
def programBudget (m : Member) : Nat := ((windows m).getLastD m.rf).budget

/-- Window `j` of a member: 0 is the current one, `j + 1` the one that frame `j` interrupts (R448). -/
def winRf (m : Member) : Nat → RegFile
  | 0 => m.rf
  | j + 1 => ((m.frames[j]?).map (·.rf)).getD {}

/-- The member with window `j` set. -/
def setWin (s : State) (j : Nat) (rf : RegFile) : State :=
  match j with
  | 0 => { s with m := { s.m with rf := rf } }
  | j + 1 => { s with m := { s.m with frames := modifyAt (fun f => { f with rf := rf }) j s.m.frames } }

/-- Which of the four handler spill areas of a rename map the topmost of some frames uses: its two context frames, then its two supervisor
frames (R441). -/
def frameArea (fs : List Frame) : Nat :=
  match fs with
  | [] => 0
  | f :: _ => (if f.sup then 2 else 0) + (fs.filter fun g => g.sup == f.sup).length - 1

/-- Where the stack extension of the member's cursor stands: behind its register slots (R74; log 12). -/
def extVa (s : State) : Nat := s.m.bsbase.toNat + 128 * (nHw s * programBudget s.m)

/-- The slot of register `r` of hardware wave `h` in window `j`: in the backing store for the program's window, in the handler spill space
for a handler's (R112, R441; log 12). -/
def slotVa (s : State) (j r h : Nat) : Nat :=
  match s.m.frames.drop j with
  | [] => s.m.bsbase.toNat + 128 * (h * programBudget s.m + r)
  | fs => extVa s + 8192 + 4096 * (4 * h + frameArea fs) + 128 * r

/-- The lane under which a trap's record stands for the lowest lane of its handler mask. -/
def someLane : Nat := 128

/-- The translation that a spill or refill needs (R112): a fault is MEM with cause SPILL, an uncorrectable error in memory RAS (R509). -/
def spillFault (s : State) (acc : Access) (j r h : Nat) : Option Trap :=
  match resolveRange s { memberView s with priv := true } acc (slotVa s j r h) 128 with
  | .ok ls => if acc == .read && ls.any (lostAt s) then some { cls := cRas, cause := 5 } else none
  | .error f =>
    if f.cls == .ras then some { cls := cRas, cause := 5 }
    else some { cls := cMem, cause := xSpill, xl := [(someLane, xlRecOf { f with cls := .mem, cause := xSpill } acc false)] }

/-- The lanes of a register written to its slot, as an access of the member (R109, R112, R195, R199). -/
def spillOut (s : State) (j r h : Nat) (vals : List Word) : State :=
  match resolveRange s { memberView s with priv := true } .write (slotVa s j r h) 128 with
  | .ok ls => writeLocs (passCaches s { memberView s with priv := true } (slotVa s j r h) ls true) ls (bytesOfWords vals)
  | .error _ => s

/-- The caches as the read of a register's slot leaves them (R111, R195, R199). -/
def refillPass (s : State) (j r h : Nat) : State :=
  match resolveRange s { memberView s with priv := true } .read (slotVa s j r h) 128 with
  | .ok ls => passCaches s { memberView s with priv := true } (slotVa s j r h) ls false
  | .error _ => s

/-- One more in the count of rename map `h` (R111, R119). -/
def bump (h : Nat) (l : List Dword) : List Dword := l.set h (l.getD h 0#64 + 1#64)

/-- The least recently used register of map `h` over all windows of the member, but for those that the instruction names in window `j`: its
window, key and stamp (R109). Over all windows: a handler's write may so spill a register of the program it interrupts before one of its own,
which R109's "one of the writing map's own mapped registers" leaves open (the model's choice, log 88). -/
def lruAll (s : State) (j h : Nat) (named : List Nat) : Option (Nat × Nat × Nat) :=
  (windows s.m).zipIdx.foldl (fun best w =>
    match lruOf w.1 h (if w.2 == j then named else []) with
    | none => best
    | some (k, t) =>
      match best with
      | some b => if t < b.2.2 then some (w.2, k, t) else best
      | none => some (w.2, k, t)) none

/-- Room for one more register of window `j` in map `h` (R109): nothing where the map may take one, else its least recently used register
that the instruction does not name is spilled. -/
def makeRoom (s : State) (j h : Nat) (named : List Nat) : Except Trap State :=
  if mayTake s h then .ok s
  else
    match lruAll s j h named with
    | none => .ok s
    | some (i, k, _) =>
      match spillFault s .write i (k / 4) h with
      | some t => .error t
      | none =>
        let s := spillOut s i (k / 4) h (((vreg (winRf s.m i) (k / 4) h).map (·.vals)).getD [])
        let s := setWin s i (spillKey (winRf s.m i) k)
        .ok { s with m := { s.m with spillcnt := bump h s.m.spillcnt } }

/-- Register `r` of hardware wave `h` in window `j` marked as just used, in the pool. -/
def stampReg (s : State) (j r h : Nat) (v : VReg) : State :=
  let s := setWin s j (setVreg (winRf s.m j) r h { v with spilled := false, stamp := s.m.clock })
  { s with m := { s.m with clock := s.m.clock + 1 } }

/-- The same for a register that the pool now gives a physical register (R104, R114). -/
def allocReg (s : State) (j r h : Nat) (v : VReg) : State := takeDups (stampReg s j r h v) (slotOf s.m h)

/-- A mapped register of window `j` brought into the pool where it is spilled (R111). -/
def pullReg (s : State) (j : Nat) (named : List Nat) (r h : Nat) (v : VReg) : Except Trap State :=
  if !v.spilled then .ok (stampReg s j r h v)
  else
    match spillFault s .read j r h with
    | some t => .error t
    | none => do
      let s ← makeRoom s j h named
      let s := refillPass s j r h
      return allocReg { s with m := { s.m with refillcnt := bump h s.m.refillcnt } } j r h v

/-- A register of hardware wave `h` in window `j` is read: an unmapped one sets UNWRITTEN, a spilled one is refilled, and one with a parity
error is repaired from its duplicate or raises RAS (R106, R111, R114). -/
def touchReg (s : State) (j : Nat) (named : List Nat) (r h : Nat) : Except Trap State :=
  match vreg (winRf s.m j) r h with
  | none => .ok (stickReg s 0)
  | some v =>
    if v.bad == 0#32 then pullReg s j named r h v
    else if repairs s h v then pullReg { s with m := { s.m with rascnt := bump h s.m.rascnt } } j named r h { v with bad := 0#32 }
    else .error { cls := cRas, cause := 1 }

/-- A register of hardware wave `h` in window `j` is about to be written: it is mapped with 0 in every lane, or refilled where it is spilled
(R105, R111). That it is refilled, and counted, though the write may cover every lane is the model's choice (log 88). -/
def openReg (s : State) (j : Nat) (named : List Nat) (r h : Nat) : Except Trap State :=
  match vreg (winRf s.m j) r h with
  | none => do
    let s ← makeRoom s j h named
    return allocReg s j r h { vals := List.replicate 32 0#32 }
  | some v => pullReg s j named r h v

/-- A window whose registers are all read, as an image needs them (R114, R454): a register with a parity error is repaired from its duplicate and
counted in its map, and any other error is RAS. -/
def readWin (s : State) (j : Nat) : Except Trap State :=
  let rf := winRf s.m j
  let hit := rf.vregs.filter fun e => e.2.bad != 0#32
  if rf.kbad != 0#64 || rf.pbad.any (fun p => p != 0#128) || hit.any (fun e => !repairs s (e.1 % 4) e.2) then .error { cls := cRas, cause := 1 }
  else
    let s := setWin s j { rf with vregs := rf.vregs.map fun e => (e.1, { e.2 with bad := 0#32 }) }
    .ok { s with m := { s.m with rascnt := hit.foldl (fun l e => bump (e.1 % 4) l) s.m.rascnt } }

/-- The hardware waves that have a lane in a mask. -/
def hwsOf (s : State) (m : Mask) : List Nat := (List.range (nHw s)).filter fun h => hwMask m h != 0#32

/-- Registers `rs` of the current window are read in the hardware waves `hs`. -/
def touchRegs (s : State) (named rs hs : List Nat) : Except Trap State :=
  rs.foldlM (fun s r => hs.foldlM (fun s h => touchReg s 0 named r h) s) s

/-- Registers `rs` of the current window are about to be written in the hardware waves `hs`. -/
def openRegs (s : State) (named rs hs : List Nat) : Except Trap State :=
  rs.foldlM (fun s r => hs.foldlM (fun s h => openReg s 0 named r h) s) s

/-- The registers of a range are read one after another, each named by the instruction only until it has been read (R110). -/
def touchRange (s : State) (others rs hs : List Nat) : Except Trap State :=
  rs.foldlM (fun s r => touchRegs s (r :: others) [r] hs) s

/-- Register `r` written in the lanes of `act`, with its dead bits cleared and its parity good there (R105, R107, R114). A register that is
not mapped is. -/
def writeV (s : State) (r : Nat) (act : Mask) (val : Nat → Word) : State :=
  (hwsOf s act).foldl (fun s h =>
    let v := (vreg s.m.rf r h).getD { vals := List.replicate 32 0#32 }
    let a := hwMask act h
    let vals := (List.range 32).map fun i => if a.getLsbD i then val (32 * h + i) else v.vals.getD i 0#32
    { s with m := { s.m with rf := setVreg s.m.rf r h { v with vals := vals, dead := v.dead &&& ~~~a, bad := v.bad &&& ~~~a } } }) s

/-- The dead bits of register `r` set in the lanes of `act` (R107). -/
def markDead (s : State) (act : Mask) (r : Nat) : State :=
  { s with m := { s.m with rf := { s.m.rf with vregs := s.m.rf.vregs.map fun e =>
      if e.1 / 4 == r then (e.1, { e.2 with dead := e.2.dead ||| hwMask act (e.1 % 4) }) else e } } }

/-- Whether a register's dead mask covers every live lane of its hardware wave (R107). -/
def allDead (live : Mask) (e : Nat × VReg) : Bool := hwMask live (e.1 % 4) &&& ~~~e.2.dead == 0#32

/-- The registers of a window whose dead mask covers LIVE go, but for those in `keep` (R107). -/
def sweepWin (live : Mask) (keep : List Nat) (rf : RegFile) : RegFile :=
  { rf with vregs := rf.vregs.filter fun e => keep.contains (e.1 / 4) || !allDead live e }

/-- The registers of every window whose dead mask covers LIVE are freed, but for those of the current one in `keep` (R107, R108). -/
def sweepRegs (s : State) (keep : List Nat) : State :=
  { s with m := { s.m with
      rf := sweepWin s.m.live keep s.m.rf
      frames := s.m.frames.map fun f => { f with rf := sweepWin s.m.live [] f.rf } } }

/-- Whether an instruction that names operand `o` meets a parity error of a uniform register or predicate (R114). -/
def unitBad (rf : RegFile) (o : Operand) : Bool :=
  match o with
  | .k r => rf.kbad.getLsbD r
  | .p r => rf.pbad.getD r 0#128 != 0#128
  | _ => false

end Sys2Proof.Machine
end

