-- ==== Sys2Proof/Machine/Operands.lean ====
section
/-!
DEFINITION. The operand forms (spec/03_encoding.md R53 to R60, spec/04_waves.md R87, spec/06_arithmetic.md R137, R138): what each field
supplies in each lane, and how a result is written.
-/
namespace Sys2Proof.Machine

/-- What an instruction being issued knows of itself: its fields, the lanes of its issue group, the lanes active after predication and
the lowest of them, whether it executes once (R59, R281), its address and length, the state its sources read, the entries it popped in
the order of S0, S1, S2 and DST, and the sleep it comes out of. -/
structure Ic where
  f : Fields
  n : Nat
  act : Mask
  lane : Nat
  uni : Bool
  one : Bool
  pc : Dword
  len : Nat
  rd : State
  pops : List (List Word)
  old : Option Wait

/-- How a member reads a 9-bit name (R53, R281). -/
def nameReader (m : Member) (n : Name) : Operand :=
  match m.kind with
  | .ap => operandOfAp n
  | _ => operandOf n

/-- The address after the instruction (R45). -/
def Ic.next (ic : Ic) : Dword := ic.pc + BitVec.ofNat 64 ic.len

/-- The operand that a name denotes in this instruction. -/
def Ic.opnd (ic : Ic) (n : Name) : Operand := nameReader ic.rd.m n

/-- An integer of `b` bits sign-extended to 64 bits. -/
def sx (b x : Nat) : Dword := (BitVec.ofNat b x).signExtend 64

/-- The FP32 patterns of the floating inline constants (R54). -/
def floatConsts : List Nat :=
  [0x3F000000, 0x3F800000, 0x40000000, 0x40800000, 0xBF000000, 0xBF800000, 0xC0000000, 0x3FB8AA3B]

/-- An inline constant read in an integer or untyped type (R54). -/
def constBits (i : Nat) : Dword :=
  if i < 16 then BitVec.ofNat 64 i
  else if i < 24 then 0#64 - BitVec.ofNat 64 (i - 15)
  else BitVec.ofNat 64 (floatConsts.getD (i - 24) 0)

/-- The trailing immediate as a 64-bit operand (R58). -/
def immBits (f : Fields) : Dword :=
  match f.len.toNat with
  | 1 => sx 32 (fld f.ext 31 0)
  | 2 => f.ext
  | _ => 0#64

/-- The context depth of a member (`sr.emu_depth`, R448). -/
def emuDepth (m : Member) : Nat := (m.frames.filter fun f => !f.sup).length

/-- The supervisor depth of a member (`sr.svdepth`, R448). -/
def svDepth (m : Member) : Nat := (m.frames.filter fun f => f.sup).length

/-- A special value in a lane (R55). -/
def specialBits (s : State) (i l : Nat) : Dword :=
  match i with
  | 0 => BitVec.ofNat 64 l
  | 1 => BitVec.ofNat 64 (if s.m.kind = .wave then s.m.waveId + l / 32 else 0)
  | 2 => s.team.teamId.setWidth 64
  | 3 => s.m.role.setWidth 64
  | 4 => BitVec.ofNat 64 (nLanes s)
  | 5 => 0#64
  | 6 => BitVec.ofNat 64 (emuDepth s.m)
  | _ => BitVec.allOnes 64

/-- The other half-wave of a half-wave's hardware wave (R82). -/
def otherHalf (s : State) : Option Member :=
  if nLanes s = 16 then s.peers.find? fun o => o.kind = .wave && o.waveId == s.m.waveId && o.half != s.m.half else none

/-- pN over the 32 lanes of hardware wave `h` of the member: under width 16 the two half-waves hold 16 lanes each, half-wave 0 the low ones
(R56, R82). -/
def hwPred (s : State) (r h : Nat) : BitVec 32 :=
  if r = 7 then BitVec.allOnes 32
  else if nLanes s = 16 then
    let part (m : Member) : Nat := (pReg m.rf r).toNat % 2 ^ 16 * 2 ^ (16 * m.half)
    BitVec.ofNat 32 (part s.m + ((otherHalf s).map part).getD 0)
  else hwMask (pReg s.m.rf r) h

/-- The 64 bits that an operand supplies in a lane, where a vector operand is one register, or a pair when `wide` (R53 to R60). `pop` is
the entry popped for the field. What a q or p register supplies to a 64-bit operand is the model's choice (log 105): its 32 bits with zeros
above them. -/
def opndBits (s : State) (f : Fields) (o : Operand) (pop : List Word) (wide : Bool) (l : Nat) : Dword :=
  match o with
  | .v r => if wide then (vLane s.m.rf (r + 1) l) ++ (vLane s.m.rf r l) else (vLane s.m.rf r l).setWidth 64
  | .k r => kReg s.m.rf r
  | .q _ => (pop.getD (l % 32) 0#32).setWidth 64
  | .p r => (hwPred s r (l / 32)).setWidth 64
  | .special i => specialBits s i l
  | .const i => constBits i
  | .imm => immBits f
  | .reserved => 0#64
  | .none => 0#64

/-- The lane that a lane's sources are read from: the lowest active lane in a uniform instruction (R59). -/
def Ic.at (ic : Ic) (l : Nat) : Nat := if ic.uni then ic.lane else l

def Ic.src0 (ic : Ic) (wide : Bool) (l : Nat) : Dword :=
  opndBits ic.rd ic.f (ic.opnd ic.f.s0) (ic.pops.getD 0 []) wide (ic.at l)
def Ic.src1 (ic : Ic) (wide : Bool) (l : Nat) : Dword :=
  opndBits ic.rd ic.f (ic.opnd ic.f.s1) (ic.pops.getD 1 []) wide (ic.at l)
def Ic.src2 (ic : Ic) (wide : Bool) (l : Nat) : Dword :=
  opndBits ic.rd ic.f (ic.opnd ic.f.s2) (ic.pops.getD 2 []) wide (ic.at l)
/-- DST read as a source (R46). -/
def Ic.srcD (ic : Ic) (wide : Bool) (l : Nat) : Dword :=
  opndBits ic.rd ic.f (ic.opnd ic.f.dst) (ic.pops.getD 3 []) wide (ic.at l)

/-- The sources read once from the lowest active lane (R59). -/
def Ic.u0 (ic : Ic) (wide : Bool) : Dword := ic.src0 wide ic.lane
def Ic.u1 (ic : Ic) (wide : Bool) : Dword := ic.src1 wide ic.lane
def Ic.u2 (ic : Ic) (wide : Bool) : Dword := ic.src2 wide ic.lane
def Ic.uD (ic : Ic) (wide : Bool) : Dword := ic.srcD wide ic.lane

/-- The low 32 bits. -/
def lo32 (x : Dword) : Word := x.setWidth 32

/-- Whether a condition operand holds in a lane (R87). -/
def condBits (s : State) (f : Fields) (o : Operand) (l : Nat) : Bool :=
  match o with
  | .p r => (pReg s.m.rf r).getLsbD l
  | .v r => vLane s.m.rf r l != 0#32
  | .none => false
  | o => opndBits s f o [] false l != 0#64

def Ic.cond0 (ic : Ic) (l : Nat) : Bool := condBits ic.rd ic.f (ic.opnd ic.f.s0) (ic.at l)
def Ic.cond1 (ic : Ic) (l : Nat) : Bool := condBits ic.rd ic.f (ic.opnd ic.f.s1) (ic.at l)
def Ic.cond2 (ic : Ic) (l : Nat) : Bool := condBits ic.rd ic.f (ic.opnd ic.f.s2) (ic.at l)

/-- The active lanes, ascending (R5). -/
def Ic.lanes (ic : Ic) : List Nat := lanesOf ic.n ic.act

/-- The lanes that the instruction acts in: the lowest active one when it is uniform (R59). -/
def Ic.once (ic : Ic) : List Nat := if ic.uni then [ic.lane] else ic.lanes

/-- An entry pushed onto a data queue (R57, R284). -/
def pushQueue (s : State) (q : Nat) (e : QEntry) : State :=
  { s with team := { s.team with queues := modifyAt (fun es => es ++ [e]) q s.team.queues } }

/-- The entry that a result makes: 0 in inactive lanes, the one value in every lane for a one-lane member (R57, R284). -/
def Ic.entry (ic : Ic) (res : Nat → Word) : List Word :=
  (List.range 32).map fun l => if ic.one then res 0 else if ic.act.getLsbD l then res l else 0#32

/-- The result written to DST in the active lanes: a vector register or, when `wide`, a pair; the k register once, as the 64 bits that
`res` gives in the lowest active lane; a queue entry; a predicate, by whether the result is not zero; or nothing (R53, R56, R57, R138). -/
def Ic.write (ic : Ic) (s : State) (wide : Bool) (res : Nat → Dword) : State :=
  match ic.opnd ic.f.dst with
  | .v r =>
    let s := writeV s r ic.act fun l => lo32 (res l)
    if wide then writeV s (r + 1) ic.act fun l => (res l >>> 32).setWidth 32 else s
  | .k r => setK s r (res ic.lane)
  | .q r => pushQueue s r (.data (ic.entry fun l => lo32 (res l)))
  | .p r => setP s r ic.act (maskOf ic.n fun l => res l != 0#64)
  | _ => s

/-- A 32-bit result as 64 bits: sign-extended for a signed type, else zero-extended (R138). -/
def ext32 (signed : Bool) (w : Word) : Dword := if signed then w.signExtend 64 else w.setWidth 64

/-- The same 64-bit value written to every active lane, or to the k register once. -/
def Ic.writeAll (ic : Ic) (s : State) (wide : Bool) (x : Dword) : State := ic.write s wide fun _ => x

end Sys2Proof.Machine
end

