-- ==== Sys2Proof/Machine/Lookahead.lean ====
section
/-!
DEFINITION. Lookahead (spec/03_encoding.md R47): what an instruction of a window may find of the registers that the long-latency instructions
before it write, where the promise of LA is broken. Each register and lane is chosen by a free value (log 86).
-/
namespace Sys2Proof.Machine

/-- Whether no register stands in a set. -/
def RegSet.isEmpty (r : RegSet) : Bool := r.vs.isEmpty && r.ks.isEmpty && r.ps.isEmpty

/-- The registers that two sets have in common. -/
def RegSet.both (a b : RegSet) : RegSet := { vs := a.vs.filter b.vs.contains, ks := a.ks.filter b.ks.contains, ps := a.ps.filter b.ps.contains }

/-- The registers of two sets. -/
def RegSet.union (a b : RegSet) : RegSet := { vs := a.vs ++ b.vs, ks := a.ks ++ b.ks, ps := a.ps ++ b.ps }

/-- 128 free bits from the n-th free value on. -/
def freeMask (n : Nat) : Mask := Config.freeWord n ++ Config.freeWord (n + 1) ++ Config.freeWord (n + 2) ++ Config.freeWord (n + 3)

/-- The free values that one choice between two windows takes. -/
def mixCount : Nat := 2048

/-- A window of registers with those of a set, lane by lane, as another window holds them where a free bit says so. -/
def mixRf (free : Nat) (set : RegSet) (a rf : RegFile) : RegFile :=
  let lanes (k : Nat) (v : VReg) : VReg :=
    { v with vals := v.vals.zipIdx.map fun e =>
        if (Config.freeWord (free + k)).getLsbD e.2 then vLane a (k / 4) (32 * (k % 4) + e.2) else e.1 }
  { rf with
    vregs := rf.vregs.map fun e => if set.vs.contains (e.1 / 4) then (e.1, lanes e.1 e.2) else e
    kregs := rf.kregs.zipIdx.map fun e =>
      if set.ks.contains e.2 && (Config.freeWord (free + 1024 + e.2)).getLsbD 0 then kReg a e.2 else e.1
    preds := rf.preds.zipIdx.map fun e =>
      if set.ps.contains e.2 then
        let m := freeMask (free + 1152 + 4 * e.2)
        (e.1 &&& m) ||| (pReg a e.2 &&& ~~~m)
      else e.1 }

/-- What the sources of an instruction that stands in open windows read (R47). -/
def lookRead (s rd : State) : State :=
  match s.m.look.wins with
  | [] => rd
  | ws =>
    { rd with m := { rd.m with rf := ws.zipIdx.foldl (fun rf w => mixRf (s.free + mixCount * w.2) w.1.set w.1.old rf) rd.m.rf } }

/-- The windows after one of their instructions. -/
def Look.counted (l : Look) : List LookWin := l.wins.filterMap fun w => if w.left ≤ 1 then none else some { w with left := w.left - 1 }

/-- The registers that the open windows' instructions and one that writes `set` both write. -/
def Look.shared (l : Look) (set : RegSet) : RegSet := l.wins.foldl (fun r w => r.union (w.set.both set)) {}

/-- The free values that a state's open windows take from an instruction. -/
def lookFree (s : State) : Nat := s.free + mixCount * s.m.look.wins.length

/-- An instruction that is predicated off in every lane counts (R47). -/
def lookOn (s : State) : State :=
  { s with m := { s.m with look := { s.m.look with wins := s.m.look.counted } }, free := lookFree s }

/-- LA of an instruction (R47). -/
def laOf (e : Entry) (f : Fields) : Nat := if e.star then modBits f 6 3 else 0

/-- Whether an instruction can move the cursor, so that no window reaches past it (R47). -/
def endsWindow (e : Entry) : Bool :=
  [eBr.opc, eBru.opc, eBrd.opc, eJoin.opc, eCall.opc, eCallx.opc, eRet.opc, eExit.opc, eKill.opc, eMskwr.opc, eLap.opc, ePrkend.opc,
    ePrdone.opc, eEret.opc, eAloop.opc].contains e.opc

/-- The member's windows once an instruction that writes `set` has read its sources in the lanes of `act`: it counts in the windows that it stands
in, and opens its own (R47). -/
def lookNext (e : Entry) (f : Fields) (set : RegSet) (act : Mask) (s s' : State) : State :=
  let l := s.m.look
  if l.wins.isEmpty && laOf e f = 0 then s'
  else
    let twice := l.shared set
    let own : List LookWin := if laOf e f = 0 then [] else [{ left := laOf e f, set := set, old := s.m.rf }]
    { s' with
      m := { s'.m with look :=
        { act := some act, wins := (if endsWindow e then [] else l.counted) ++ own, twice := twice, first := if twice.isEmpty then {} else s'.m.rf } }
      free := s'.free + mixCount * l.wins.length }

/-- What an instruction that was issued in `s0` is found to write: the set of its own window, and the registers that it and the instructions of the
windows it stands in both write (R47). -/
def lookSet (e : Entry) (f : Fields) (set : RegSet) (s0 s : State) : State :=
  let l := s.m.look
  let wins := if laOf e f = 0 then l.wins else modifyAt (fun w => { w with set := set }) (l.wins.length - 1) l.wins
  { s with m := { s.m with look := { l with wins := wins, twice := s0.m.look.shared set } } }

/-- What the registers that it shares with them hold before it writes them. -/
def lookFirst (s : State) : State :=
  if s.m.look.twice.isEmpty then s else { s with m := { s.m with look := { s.m.look with first := s.m.rf } } }

/-- As an instruction ends, the registers that it and a long-latency instruction before it both write hold either value (R47). -/
def lookEnd (s : State) : State :=
  let s := { s with m := { s.m with look := { s.m.look with act := none } } }
  let l := s.m.look
  if l.twice.isEmpty then s
  else
    { s with
      m := { s.m with rf := mixRf s.free l.twice l.first s.m.rf, look := { l with twice := {}, first := {} } }
      free := s.free + mixCount }

end Sys2Proof.Machine
end

