-- ==== Sys2Proof/Machine/Relation.lean ====
section
/-!
DEFINITION. Labels and relations as data (spec/14_labels.md R332 to R340): the relation descriptor, trees, the verdict on a pair, selvedges
and the verdict on two selvedges.
-/
namespace Sys2Proof.Machine

/-! ## The descriptor -/

/-- A relation descriptor as one number (R332). -/
abbrev Rel := BitVec 1024

def relOf (bs : List Byte) : Rel := BitVec.ofNat 1024 (ofLeBytes bs)

def relNfld (r : Rel) : Nat := fld r 2 0
def relNcl (r : Rel) : Nat := fld r 5 3
def relVfld (r : Rel) : Nat := fld r 10 8
def relVoidEn (r : Rel) : Bool := bit r 11
def relTrapBad (r : Rel) : Bool := bit r 12
def relVval (r : Rel) : Nat := fld r 255 224
def relField (r : Rel) (f : Nat) : Nat := fld r (128 + 16 * f + 15) (128 + 16 * f)
def fieldShift (e : Nat) : Nat := e % 32
def fieldWidth (e : Nat) : Nat := e / 32 % 64
/-- Atom `a` of clause `c`. -/
def relAtom (r : Rel) (c a : Nat) : Dword := BitVec.ofNat 64 (fld r (256 + 192 * c + 64 * a + 63) (256 + 192 * c + 64 * a))

/-- The fields of an atom (R332). -/
def atKind (a : Dword) : Nat := fld a 15 13
def atOp (a : Dword) : Nat := fld a 12 11
def atFr (a : Dword) : Nat := fld a 10 8
def atFc (a : Dword) : Nat := fld a 7 5
def atDir (a : Dword) : Bool := bit a 4
def atTree (a : Dword) : Nat := fld a 3 2
def atCa (a : Dword) : Int := (BitVec.ofNat 24 (fld a 63 40)).toInt
def atCb (a : Dword) : Int := (BitVec.ofNat 24 (fld a 39 16)).toInt

/-- Whether an atom's kind uses its row field and its column field (R334). -/
def usesFr (a : Dword) : Bool := !(atKind a == 3 && atDir a)
def usesFc (a : Dword) : Bool := !(atKind a == 3 && !atDir a)

/-- The conditions of R334 on one atom. -/
def atomOk (r : Rel) (c : Nat) (a : Dword) : Bool :=
  let k := atKind a
  if relNcl r ≤ c || k == 0 then a == 0#64
  else
    k ≤ 4 &&
      (if usesFr a then decide (atFr a < relNfld r) else atFr a == 0) && (if usesFc a then decide (atFc a < relNfld r) else atFc a == 0) &&
      (k == 1 || atOp a == 0) && (k == 1 || k == 3 || !atDir a) && (k == 4 || atTree a == 0) && (k == 3 || atCb a == 0) &&
      (k != 4 || atCa a == 0) && (k != 2 || decide (0 ≤ atCa a)) && fld a 1 0 == 0

/-- The conditions of R334 on a descriptor, the tree grant apart. -/
def relOk (r : Rel) : Bool :=
  decide (relNfld r ≤ 6) && decide (relNcl r ≤ 4) && fld r 127 13 == 0 && fld r 7 6 == 0 &&
    ((List.range 6).all fun f =>
      let e := relField r f
      if f < relNfld r then decide (1 ≤ fieldWidth e) && decide (fieldWidth e ≤ 32) && decide (fieldShift e + fieldWidth e ≤ 32) && e / 2048 == 0
      else e == 0) &&
    (if relVoidEn r then decide (relVfld r < relNfld r) && decide (relVval r < 2 ^ fieldWidth (relField r (relVfld r)))
     else relVfld r == 0 && relVval r == 0) &&
    ((List.range 4).all fun c => (List.range 3).all fun a => atomOk r c (relAtom r c a))

/-- Whether every ancestor atom names a tree slot below the grant (R334). -/
def relTreesOk (r : Rel) (trees : Nat) : Bool :=
  (List.range (relNcl r)).all fun c => (List.range 3).all fun a => atKind (relAtom r c a) != 4 || decide (atTree (relAtom r c a) < trees)

/-- A field of a label (R333). -/
def labelField (r : Rel) (l f : Nat) : Nat :=
  let e := relField r f
  l / 2 ^ fieldShift e % 2 ^ fieldWidth e

/-- Whether a label is void (R333). -/
def labelVoid (r : Rel) (l : Nat) : Bool := relVoidEn r && labelField r l (relVfld r) == relVval r

/-! ## Trees -/

/-- Which nodes of a parent array are valid, in ascending order (R335). -/
def treeValid (ps : List Byte) : List Bool :=
  (ps.zipIdx).foldl (fun vs e =>
    let p := e.1.toNat
    vs ++ [if e.2 = 0 then p == 0 else decide (p < e.2) && vs.getD p false]) []

/-- Whether a node is valid in a tree slot (R335). -/
def nodeValid (ps : List Byte) (n : Nat) : Bool := (treeValid ps).getD n false

/-- Whether `b` is an ancestor of `a` or `a` itself, for valid nodes (R335). -/
def isAncestor (ps : List Byte) (b : Nat) : Nat → Nat → Bool
  | 0, a => a == b
  | n + 1, a => a == b || (a != 0 && isAncestor ps b n (ps.getD a 0#8).toNat)

/-- An offence of an ancestor atom: its tree slot and the offending node value (R337). -/
abbrev TreeBad := Nat × Nat

/-- An ancestor atom on two node values: its verdict, and the offence if one of them is invalid, the row's first (R336, R337). -/
def ancestorTest (trees : List (List Byte)) (slot a b : Nat) : Bool × Option TreeBad :=
  let ps := trees.getD slot []
  if !nodeValid ps a then (false, some (slot, a))
  else if !nodeValid ps b then (false, some (slot, b))
  else (isAncestor ps b 256 a, none)

/-! ## The verdict on a pair -/

/-- A comparison by its OP code (R332). -/
def opHolds (op : Nat) (x y : Int) : Bool :=
  match op with
  | 0 => x == y
  | 1 => x != y
  | 2 => decide (x < y)
  | _ => decide (x ≤ y)

/-- An atom other than an ancestor atom on two labels (R333). -/
def atomHolds (r : Rel) (a : Dword) (rl cl : Nat) : Bool :=
  let x : Int := labelField r rl (atFr a)
  let y : Int := labelField r cl (atFc a)
  match atKind a with
  | 1 => if atDir a then opHolds (atOp a) x (y + atCa a) else opHolds (atOp a) y (x + atCa a)
  | 2 => decide (x - y ≤ atCa a) && decide (y - x ≤ atCa a)
  | 3 => let v := if atDir a then y else x; decide (atCa a ≤ v) && decide (v ≤ atCb a)
  | _ => true

/-- The ancestor atoms of a clause in order, until one fails (R336, R337). -/
def ancestorsHold (r : Rel) (trees : List (List Byte)) (rl cl : Nat) : List Dword → Bool × Option TreeBad
  | [] => (true, none)
  | a :: as =>
    let (ok, bad) := ancestorTest trees (atTree a) (labelField r rl (atFr a)) (labelField r cl (atFc a))
    if ok then ancestorsHold r trees rl cl as else (false, bad)

/-- A clause on two labels: its ancestor atoms are evaluated only where its other atoms hold (R333, R337). -/
def clauseHolds (r : Rel) (trees : List (List Byte)) (rl cl c : Nat) : Bool × Option TreeBad :=
  let as := (List.range 3).map (relAtom r c)
  if as.all fun a => atKind a == 4 || atomHolds r a rl cl then ancestorsHold r trees rl cl (as.filter fun a => atKind a == 4)
  else (false, none)

/-- The clauses in order until one holds, with the first offence met. -/
def clausesHold (r : Rel) (trees : List (List Byte)) (rl cl : Nat) : List Nat → Option TreeBad → Bool × Option TreeBad
  | [], bad => (false, bad)
  | c :: cs, bad =>
    let (ok, b) := clauseHolds r trees rl cl c
    let bad := bad.or b
    if ok then (true, bad) else clausesHold r trees rl cl cs bad

/-- The verdict of R333 on a row and a column label, with the first offence (R337). -/
def pairVerdict (r : Rel) (trees : List (List Byte)) (rl cl : Nat) : Bool × Option TreeBad :=
  if labelVoid r rl || labelVoid r cl then (false, none) else clausesHold r trees rl cl (List.range (relNcl r)) none

/-! ## Selvedges -/

/-- A selvedge (R338). -/
abbrev Selv := BitVec 512

/-- The selvedge of a group of label words (R338). -/
def selvOf (r : Rel) (ls : List Nat) : Selv :=
  let live := ls.filter fun l => !labelVoid r l
  let mm (f : Nat) : Nat :=
    let vs := live.map fun l => labelField r l f
    (vs.foldl min 0xFFFFFFFF) + (vs.foldl max 0) * 2 ^ 32
  BitVec.ofNat 512 (((List.range (relNfld r)).foldl (fun x f => x + mm f * 2 ^ (64 * f)) 0) + bnat live.isEmpty * 2 ^ 384 +
    bnat (live.length < ls.length) * 2 ^ 385 + live.length * 2 ^ 400)

def selvMin (s : Selv) (f : Nat) : Int := fld s (64 * f + 31) (64 * f)
def selvMax (s : Selv) (f : Nat) : Int := fld s (64 * f + 63) (64 * f + 32)
def selvAllVoid (s : Selv) : Bool := bit s 384
def selvAnyVoid (s : Selv) : Bool := bit s 385

/-- MAY and MUST of a comparison of ranges (R339). -/
def opMayMust (op : Nat) (xlo xhi ylo yhi : Int) : Bool × Bool :=
  let same := xlo == xhi && ylo == yhi && xlo == ylo
  match op with
  | 0 => (decide (xlo ≤ yhi) && decide (ylo ≤ xhi), same)
  | 1 => (!same, decide (xhi < ylo) || decide (yhi < xlo))
  | 2 => (decide (xlo < yhi), decide (xhi < ylo))
  | _ => (decide (xlo ≤ yhi), decide (xhi ≤ ylo))

/-- MAY and MUST of an atom on two selvedges (R339). -/
def atomMayMust (a : Dword) (rs cs : Selv) : Bool × Bool :=
  let rlo := selvMin rs (atFr a)
  let rhi := selvMax rs (atFr a)
  let clo := selvMin cs (atFc a)
  let chi := selvMax cs (atFc a)
  let ca := atCa a
  match atKind a with
  | 1 =>
    if atDir a then opMayMust (atOp a) rlo rhi (clo + ca) (chi + ca) else opMayMust (atOp a) clo chi (rlo + ca) (rhi + ca)
  | 2 => (decide (rlo - chi ≤ ca) && decide (clo - rhi ≤ ca), decide (rhi - clo ≤ ca) && decide (chi - rlo ≤ ca))
  | 3 =>
    let lo := if atDir a then clo else rlo
    let hi := if atDir a then chi else rhi
    (decide (lo ≤ atCb a) && decide (ca ≤ hi), decide (ca ≤ lo) && decide (hi ≤ atCb a))
  | 4 => (true, false)
  | _ => (true, true)

/-- MAY and MUST of a clause (R339). -/
def clauseMayMust (r : Rel) (rs cs : Selv) (c : Nat) : Bool × Bool :=
  let vs := (List.range 3).map fun a => atomMayMust (relAtom r c a) rs cs
  (vs.all (·.1), vs.all (·.2))

/-- The verdict on two selvedges (R339): 0 NONE, 1 PART, 2 ALL. -/
def selvVerdict (r : Rel) (rs cs : Selv) : Nat :=
  let vs := (List.range (relNcl r)).map (clauseMayMust r rs cs)
  if selvAllVoid rs || selvAllVoid cs || !(vs.any (·.1)) then 0
  else if !selvAnyVoid rs && !selvAnyVoid cs && vs.any (·.2) then 2 else 1

end Sys2Proof.Machine
end

