-- ==== Sys2Proof/Machine/MxQueue.lean ====
section
/-!
DEFINITION. The operation queue of a matrix engine (spec/13_matrix.md R305, R307, R311, R319; spec/14_labels.md R340 to R344): the format word
and the sizes of operand blocks, when an operation may take its next step, and the operations that wait on scratchpad lines.
-/
namespace Sys2Proof.Machine

/-! ## The format word (R35, R36) -/

def fwA (w : Word) : Nat := fld w 3 0
def fwB (w : Word) : Nat := fld w 7 4
def fwAcc (w : Word) : Nat := fld w 9 8
def fwSemi (w : Word) : Nat := fld w 12 10
def fwScale (w : Word) : Nat := fld w 14 13
def fwCb (w : Word) : Nat := fld w 18 15
def fwSparse (w : Word) : Nat := fld w 20 19
def fwRel (w : Word) : Bool := bit w 21
def fwRslot (w : Word) : Nat := fld w 24 22
def fwInt (w : Word) : Bool := 2 ≤ fwAcc w
def fwOver (w : Word) : Bool := fwAcc w % 2 == 1
/-- Whether SCALE names A, and B. -/
def fwScaleA (w : Word) : Bool := fwScale w == 1 || fwScale w == 3
def fwScaleB (w : Word) : Bool := fwScale w == 1 || fwScale w == 2

/-- The size of an element in nibbles. -/
def mxNibs (c : Nat) : Nat :=
  match c with
  | 0 => 8
  | 1 => 4
  | 2 => 4
  | 7 => 1
  | _ => 2

/-- The K-step depth (R39). -/
def mxKs (c : Nat) : Nat := if c = 0 then 32 else 64

/-- The bytes of `n` elements. -/
def mxBytes (c n : Nat) : Nat := n * mxNibs c / 2

/-- The stride of the A blocks of `rows` rows (R307). -/
def bstA (w : Word) (rows : Nat) : Nat :=
  let n := rows * mxKs (fwA w)
  roundUp (mxBytes (fwA w) n + (if fwScaleA w then n / 32 else 0)) 128

/-- The size of a dense or 2:4 B block, unrounded and as a stride (R307). -/
def bstB (c sparse : Nat) (scaled : Bool) : Nat :=
  let n := 64 * mxKs c
  roundUp ((if sparse = 1 then mxBytes c (n / 2) + n / 8 else mxBytes c n) + (if scaled then n / 32 else 0)) 128

/-! ## Readiness -/

/-- The team of an operation. -/
def teamById (s : State) (id : Nat) : Option Team :=
  if s.team.id = id then some s.team else (s.teams.find? fun t => t.1.id == id).map (·.1)

/-- Whether an operation is a multiply-accumulate, and whether it reads a panel for the weight buffer. -/
def isMma (o : MxOp) : Bool :=
  match o.work with
  | .mma _ _ _ _ _ => true
  | _ => false
def isPanel (o : MxOp) : Bool :=
  match o.work with
  | .panel _ => true
  | _ => false

/-- The words of a share that hold `n` bytes from an offset are full (R177). -/
def wordsFull (t : Team) (off n : Nat) : Bool := (List.range ((off % 4 + n + 3) / 4)).all fun i => wordFull t (off / 4 + i)

/-- Scratchpad places whose words are full (R325, R348). -/
def placesFull (t : Team) (ls : List Loc) : Bool :=
  ls.all fun l => match l with | .spad a => wordFull t (a / 4) | _ => true

/-- The 64 label words from a line (R344): those that the engine has read before stand in `early`, from number `first` on. -/
def labelLine (t : Team) (early : List (Nat × Word)) (first line : Nat) : List Word :=
  (List.range 64).map fun w => (lookupKey (first + w) early).getD (spadWord t (32 * line + w))

/-- The row label words that a part uses (R312, R344). -/
def partRows (t : Team) (early : List (Nat × Word)) (lbla : Nat) (p : MmaPart) : List Word :=
  ((labelLine t early 0 lbla).drop p.row).take p.rows

/-- The path of R311 on label words (R340, R341). -/
def pathOf (p : MmaPart) (rows cols : List Word) : Nat :=
  if !fwRel p.fw then 2
  else
    let r := relOf p.rel
    match selvVerdict r (selvOf r (rows.map BitVec.toNat)) (selvOf r (cols.map BitVec.toNat)) with
    | 0 => 1
    | 2 => 2
    | _ => 3

/-- Whether a part reads labels. -/
def usesLabels (lt : Bool) (p : MmaPart) : Bool := lt || fwRel p.fw

/-- The part with its label words read and its path decided, at the operation's first K-step (R341, R344). -/
def decidePart (t : Team) (early : List (Nat × Word)) (lbla lblb : Nat) (lt : Bool) (p : MmaPart) : MmaPart :=
  if p.path ≠ 0 then p
  else if usesLabels lt p then
    let rows := partRows t early lbla p
    let cols := labelLine t early 64 lblb
    { p with rowLbl := rows, colLbl := cols, path := pathOf p rows cols }
  else { p with path := 2 }

/-- Whether the label lines that a part still waits for are full, or were as the engine began to read them (R344). -/
def labelsReady (t : Team) (early : List (Nat × Word)) (lbla lblb : Nat) (lt : Bool) (p : MmaPart) : Bool :=
  p.path ≠ 0 || !usesLabels lt p || !early.isEmpty || (wordsFull t (128 * lbla) 256 && wordsFull t (128 * lblb) 256)

/-- The A and B blocks of a part's next K-step in scratchpad (R307). -/
def nextA (p : MmaPart) : Nat × Nat := (p.aOff + p.done * bstA p.fw p.rows, bstA p.fw p.rows)
def nextB (p : MmaPart) : Nat × Nat :=
  let b := bstB (fwB p.fw) (fwSparse p.fw) (fwScaleB p.fw)
  (p.bOff + p.done * b, b)

/-- Whether the operands of a part's next K-step can be read (R177, R309). -/
def operandsReady (t : Team) (p : MmaPart) : Bool :=
  (p.aRegs.isSome || wordsFull t (nextA p).1 (nextA p).2) &&
    (match p.weight with
     | none => wordsFull t (nextB p).1 (nextB p).2
     | some w => t.wbs.any fun x => x.id == w && x.loaded)

/-- The scratchpad places of a block. -/
def blockLocs (off n : Nat) : List Loc := (List.range n).map fun i => .spad (off + i)

/-- The scratchpad places that the next K-step of a multiply-accumulate reads: labels that it has yet to read, and the blocks of its first part
unless that is skipped (R311, R344). -/
def stepLocs (t : Team) (early : List (Nat × Word)) (la lb : Nat) (lt : Bool) (p : MmaPart) (ps : List MmaPart) : List Loc :=
  (if (p :: ps).any fun q => q.path == 0 && usesLabels lt q then blockLocs (128 * la) 256 ++ blockLocs (128 * lb) 256 else []) ++
    (if (decidePart t early la lb lt p).path == 1 then []
     else
      (if p.aRegs.isSome then [] else blockLocs (nextA p).1 (nextA p).2) ++ if p.weight.isSome then [] else blockLocs (nextB p).1 (nextB p).2)

/-- The physical address of an offset in the memory of tap `t` (R467). -/
def tapPa (s : State) (t off : Nat) : Nat := s.part.prbase.toNat + s.part.tapbase.toNat + t * 2 ^ 22 + off

/-- Whether an engine operation issued before number `n` has yet to write in a tap's memory from an offset on (R245). -/
def tapOwned (s : State) (n t off len : Nat) : Bool := ownedPa s n (tapPa s t off) (tapPa s t off + len)

/-- Whether an operation can take its next step as far as scratchpad lines, panels and ownership go (R177, R245, R325, R341). -/
def opReady (s : State) (t : Team) (o : MxOp) : Bool :=
  let owned (ls : List Loc) : Bool := ls.any (ownedBy s o.team o.id 0)
  let free (ls : List Loc) : Bool := placesFull t ls && !owned ls
  match o.work with
  | .mma _ la lb lt (p :: ps) =>
    (p :: ps).all (labelsReady t o.early la lb lt) && ((decidePart t o.early la lb lt p).path == 1 || operandsReady t p) &&
      !owned (stepLocs t o.early la lb lt p ps)
  | .panel _ => false
  | .accLoad _ mv => mv.elems.all (fun e => free e.locs) && mv.labels.all (fun l => free l.2) && free mv.scales
  | .accStore _ mv => !owned ((mv.elems.map (·.locs)).flatten ++ (mv.labels.map (·.2)).flatten ++ mv.scales)
  | .lblLoad _ _ ws => ws.all fun l => free l.2
  | .lblStore _ _ ws => !owned (ws.map (·.2)).flatten
  | .tap _ tapn _ _ _ _ _ _ => !tapOwned s o.id tapn 0 (2 ^ 22)
  | _ => true

/-- The operations whose tiles have no earlier unfinished operation (R305). -/
def headOps : List MxOp → List MxOp → List MxOp
  | _, [] => []
  | before, o :: r =>
    let rest := headOps (before ++ [o]) r
    if before.any fun b => b.team == o.team && b.tiles &&& o.tiles != 0 then rest else o :: rest

/-- The operations that wait on scratchpad lines, directly or behind another on a tile (R319); the first list holds the earlier ones that do. -/
def stalledOps (s : State) : List MxOp → List MxOp → List MxOp
  | _, [] => []
  | st, o :: r =>
    let behind := st.any fun b => b.team == o.team && b.tiles &&& o.tiles != 0
    let head := (headOps [] s.core.mxq).any fun p => p.id == o.id
    let waits := behind || (head && !isPanel o && (match teamById s o.team with
      | some t => !opReady s t o && (match o.work with
          | .mma _ la lb lt (p :: ps) => !(p :: ps).all (labelsReady t o.early la lb lt) || !(p.aRegs.isSome || wordsFull t (nextA p).1 (nextA p).2) ||
              (p.weight.isNone && !wordsFull t (nextB p).1 (nextB p).2)
          | .accLoad _ mv => !placesFull t ((mv.elems.map (·.locs)).flatten ++ (mv.labels.map (·.2)).flatten ++ mv.scales)
          | .lblLoad _ _ ws => !placesFull t (ws.map (·.2)).flatten
          | _ => false)
      | none => true))
    if waits then o :: stalledOps s (st ++ [o]) r else stalledOps s st r

/-- Whether an operation is one of the team in focus that waits so. -/
def isStalled (s : State) (o : MxOp) : Bool := o.team == s.team.id && (stalledOps s [] s.core.mxq).any fun b => b.id == o.id

/-- The operations of the team in focus that wait so are discarded (R319). -/
def dropStalled (s : State) : State := { s with core := { s.core with mxq := s.core.mxq.filter fun o => !isStalled s o } }

end Sys2Proof.Machine
end

