-- ==== Sys2Proof/Machine/Ops.lean ====
section
/-!
DEFINITION. The named operations that every instruction is made of: taking a trap and returning from one (spec/19_traps.md R442 to R453,
R460), retirement (spec/04_waves.md R80), resuming from the reconvergence stack (R76), delivery of PRE (spec/18_scheduler.md R431), and
`issue`, the steps of spec/03_encoding.md R63 with the order of R447.
-/
namespace Sys2Proof.Machine

/-! ## Team barriers -/

/-- The arrival units of a member (R400): its hardware waves 0 to 31, or itself by its role and its number in it. -/
def unitsOf (width : Nat) (m : Member) : List Nat :=
  match m.kind with
  | .wave => if width ≤ 32 then [m.waveId] else (List.range (width / 32)).map (m.waveId + ·)
  | .ap => [32 + 8 * m.role.toNat + m.memNo]
  | .mx => [96]

/-- The members of the team in focus. -/
def teamMembers (s : State) : List Member := s.m :: s.peers

/-- Members that have not retired. -/
def unretired (ms : List Member) : List Member := ms.filter fun m => m.status != .retired && m.status != .unbound

/-- Whether a role is in the mask of team barrier `n` (R401). -/
def inTbMask (t : Team) (n : Nat) (role : Nat) : Bool := (t.tbmask.getD (n / 8) 0#64).getLsbD (8 * (n % 8) + role)

/-- The units of unretired members that team barrier `n` expects (R401, R403). -/
def liveUnits (s : State) (n : Nat) : List Nat :=
  (((unretired (teamMembers s)).filter fun m => inTbMask s.team n m.role.toNat).map (unitsOf s.team.width)).flatten.eraseDups

/-- EXPECT of team barrier `n` (R401, R403): the units of unretired members, and those that arrived before they retired. -/
def barExpect (s : State) (n : Nat) (b : Barrier) : Nat :=
  let live := liveUnits s n
  live.length + (b.arrived.filter fun u => !live.contains u).length

/-- A change of every sleep of a member: its own, and those that an interruption or a pre-emption keeps for it. -/
def mapWaits (g : Wait → Wait) (m : Member) : Member :=
  { m with wait := m.wait.map g, pre := { m.pre with wait := m.pre.wait.map g }
           frames := m.frames.map fun f => { f with wait := f.wait.map g } }

/-- A change of every member of the team in focus. -/
def mapTeam (g : Member → Member) (s : State) : State := { s with m := g s.m, peers := s.peers.map g }

/-- Whether a generation lies after another in 16-bit serial arithmetic (R405). -/
def genPassed (gen g : BitVec 16) : Bool := let d := (gen - g).toNat; 1 ≤ d && d ≤ 32767

/-- A sleep re-examined as barrier `n` completes a phase and takes a generation (R402, R405). -/
def wakeBarrier (n : Nat) (gen : BitVec 16) (w : Wait) : Wait :=
  match w with
  | .barrier k g => if k == n && genPassed gen g then .barrierDone g else w
  | w => w

/-- The sleep of a first half-wave as its hardware wave arrives at barrier `n` in the phase of a generation (R400). -/
def joinWait (n : Nat) (gen : BitVec 16) (w : Wait) : Wait := if w == .half n then .barrier n gen else w

/-- The hardware waves of which a half-wave has arrived, and all that have not retired (R400). -/
def readyWaves (s : State) (halves : List Nat) : List Nat :=
  let live := unretired (teamMembers s)
  ((live.filter fun m => halves.contains m.id &&
    live.all fun o => o.kind != .wave || o.waveId != m.waveId || halves.contains o.id).map (·.waveId)).eraseDups

/-- The half-waves of some hardware waves. -/
def halvesOf (s : State) (ws : List Nat) : List Nat :=
  ((teamMembers s).filter fun m => m.kind = .wave && ws.contains m.waveId).map (·.id)

/-- The half-waves of some hardware waves that sleep in `BAR` have arrived with them (R400). -/
def joinHalves (s : State) (n : Nat) (gen : BitVec 16) (ws : List Nat) : State :=
  let ids := halvesOf s ws
  mapTeam (fun m => if ids.contains m.id then mapWaits (joinWait n gen) m else m) s

/-- Team barrier `n` settled (R400 to R403): hardware waves whose half-waves are together arrive, and the phase completes when every expected
unit has arrived. -/
def settleBar (s : State) (n : Nat) : State :=
  let b := s.team.bars.getD n {}
  let ws := readyWaves s b.halves
  let s := joinHalves s n b.gen ws
  let b := { b with arrived := b.arrived ++ ws, halves := b.halves.filter fun h => !(halvesOf s ws).contains h }
  let e := barExpect s n b
  let put (b : Barrier) (s : State) : State := { s with team := { s.team with bars := s.team.bars.set n b } }
  if e != 0 && e ≤ b.arrived.length then
    put { b with gen := b.gen + 1#16, arrived := [] } (mapTeam (mapWaits (wakeBarrier n (b.gen + 1#16))) s)
  else put b s

/-- The hardware waves of the team whose half-waves are together arrive at route-tag barrier `n` (R400, R404). -/
def joinRoute (s : State) (n : Nat) : State :=
  let b := s.part.bts.getD n {}
  let ws := readyWaves s b.halves
  let s := joinHalves s (16 + n) b.gen ws
  let b := { b with arrived := b.arrived ++ ws.map (128 * s.team.id + ·), halves := b.halves.filter fun h => !(halvesOf s ws).contains h }
  { s with part := { s.part with bts := s.part.bts.set n b } }

/-- Every barrier settled as a member retires (R400, R402, R403). -/
def settleBars (s : State) : State :=
  (List.range s.part.bts.length).foldl joinRoute ((List.range s.team.bars.length).foldl settleBar s)

/-! ## Copies whose fault waits, and tags -/

/-- The copies outstanding on a tag (R256). -/
def tagOut (t : Team) (tag : Nat) : List Copy := t.copies.filter fun c => c.tag == tag

/-- `sr.tagmask`: bit t set when no copy on tag t is outstanding (R256). -/
def tagMask (t : Team) : Dword := BitVec.ofNat 64 ((List.range 64).foldl (fun x i => if (tagOut t i).isEmpty then x + 2 ^ i else x) 0)

/-- A copy abandoned: it stops being outstanding and ABORT is set on its tag (R266, R267). -/
def abandonCopy (s : State) (id : Nat) : State :=
  match s.team.copies.find? fun c => c.id == id with
  | none => s
  | some c =>
    { s with team := { s.team with
        copies := s.team.copies.filter fun d => d.id != id
        abort := s.team.abort ||| (1#64 <<< c.tag) } }

/-- Whether a wave member of the team is still there to take a copy's fault (R266). -/
def waveLeft (s : State) : Bool := (unretired (teamMembers s)).any fun m => m.kind = .wave

/-- Suspended copies are abandoned when no wave member can take their fault (R266). -/
def dropOrphans (s : State) : State :=
  if waveLeft s then s
  else (s.team.copies.filter fun c => c.fault.isSome).foldl (fun s c => abandonCopy s c.id) s

/-! ## Retirement and termination -/

/-- The physical registers, the wave slots and the frames of a retired member are free (R80). -/
def freeMember (m : Member) : Member := { m with rf := { m.rf with vregs := [] }, frames := [], slots := [] }

/-- Whether the retirement of a team's last member waits for its copies (R257). -/
def leaveWaits (s : State) : Bool := (unretired (teamMembers s)).isEmpty && !s.team.copies.isEmpty

/-- As the last member of a team retires, which waits for the team's copies (R257), what it holds is free (R80), the team's shuttle contexts are
cancelled and their slots return (R355), and its matrix operations that wait on scratchpad lines are discarded (R319). -/
def lastLeaves (s : State) : State :=
  if (unretired (teamMembers s)).isEmpty && s.team.copies.isEmpty then
    dropStalled (mapTeam freeMember { s with team := { s.team with sh := {}, shs := [] } })
  else s

/-- The member retires (R80): its lanes and stack are gone, its barriers settle without it, and copies that only it could answer for are abandoned.
Its registers and slots are free, but that the team's last member keeps them until the team's copies are done (R257). -/
def retire (s : State) : State :=
  let m := { s.m with status := .retired, wait := none, exec := 0#128, live := 0#128, stack := [], held := [] }
  let s := dropOrphans (settleBars { s with m := m })
  lastLeaves (if leaveWaits s then s else { s with m := freeMember s.m })

/-- V of a bind record cleared (R426). -/
def clearV (r : BitVec 256) : BitVec 256 := r &&& ~~~1#256

/-- CTXID of a bind record (R426). -/
def recCtx (r : BitVec 256) : Nat := fld r 151 136

/-- The resident teams that end with the context in focus. -/
def ctxTeams (s : State) : List Team := (s.teams.filter fun t => t.1.ctx == s.ctx.id && t.1.part == s.part.num).map (·.1) ++ [s.team]

/-- The cores of those teams write their lines back (R425, R434). -/
def ctxClean (s : State) : State := (((ctxTeams s).filter (·.present)).map (·.core)).foldl cleanCore s

/-- The context is terminated with a launch status (R443 to R445, R497): its launches fail, its teams leave their cores, nothing of it
issues again, and firmware is notified. -/
def endContext (s : State) (status : Nat) : State :=
  let c := s.ctx.id
  let gone := (ctxTeams s).map (·.id)
  let s := ctxClean s
  let core (k : Core) : Core :=
    { k with mxq := k.mxq.filter fun o => !gone.contains o.team
             recs := if s.part.clusters.contains (k.num / 8) then k.recs.map fun r => if recCtx r.2 == c then (r.1, clearV r.2) else r
                     else k.recs }
  { s with
    ctx := { s.ctx with alive := false }
    m := { id := s.m.id, status := .retired }
    peers := []
    team := {}
    teams := s.teams.filter fun t => !(t.1.ctx == c && t.1.part == s.part.num)
    core := core s.core
    cores := s.cores.map core
    part := { s.part with
      launches := s.part.launches.map fun l =>
        if l.ctx == c && l.phase != .done then
          { l with phase := (match l.phase with | .failed x => .failed x | _ => .failed status)
                   last := if l.ended < l.started then s.cycle else l.last }
        else l
      saved := s.part.saved.filter fun e => e.2.1.ctx != c
      notices := s.part.notices ++ [.terminated c] } }

def statusRas : Nat := 5
def statusTerm : Nat := 6

/-- An engine operation of a member of the team in focus meets an uncorrectable error (R18, R445): the issuer holds RAS, or another member of the
team where it has retired; with none left the context ends. `tiles` are those of a matrix operation (R318). -/
def holdRas (s : State) (issuer : Nat) (tiles : Option Nat) (cause : Nat) : State :=
  let give (id : Nat) (tiles : Option Nat) : State :=
    let h : HeldTrap := { cls := cRas, cause := cause, tiles := tiles, data := 0#64 }
    mapTeam (fun m => if m.id == id then { m with held := m.held ++ [h] } else m) s
  let live := unretired (teamMembers s)
  if live.any fun m => m.id == issuer then give issuer tiles
  else match live.head? with | some m => give m.id none | none => endContext s statusRas

/-! ## Taking a trap -/

/-- `sr.emu_imm` (R449). -/
def emuImm (f : Fields) : Dword :=
  match f.len.toNat with
  | 1 => BitVec.ofNat 64 (fld f.ext 31 0)
  | 2 => f.ext
  | _ => 0#64

/-- A sleep as held over an interruption: a timed one by the cycles that remain (R97); one on scratchpad words begins anew (R186). -/
def freezeWait (s : State) : Option Wait → Option Wait
  | some (.sleep c) => some (.sleep (c - s.cycle))
  | some (.words _ _ _) => none
  | w => w

/-- A held sleep taken up again (R97). -/
def thawWait (s : State) : Option Wait → Option Wait
  | some (.sleep c) => some (.sleep (c + s.cycle))
  | w => w

/-- Whether a class is bound for the supervisor (R442). -/
def forSupervisor (t : Trap) : Bool :=
  t.cls == cIll || t.cls == cMem || t.cls == cWalk || t.cls == cRas || t.cls == cTap || t.bk

/-- Where a trap goes: the frame's kind with OVERFLOW and NOVEC, or termination (R443, R444). -/
structure Route where
  sup : Bool
  overflow : Bool := false
  novec : Bool := false
  vector : Dword
deriving DecidableEq, Repr

/-- The route of a trap (R443, R444); none where it terminates the context. -/
def routeTrap (s : State) (t : Trap) : Option Route :=
  let sup (o n : Bool) : Option Route :=
    if s.part.svvec == 0#64 then none else some { sup := true, overflow := o, novec := n, vector := s.part.svvec }
  let v := if t.cls == cEmu then s.ctx.emuVec else s.ctx.trapVec
  let novec := !forSupervisor t && v == 0#64
  if svDepth s.m ≥ 2 then none
  else if svDepth s.m = 1 || forSupervisor t then sup false novec
  else if emuDepth s.m ≥ 2 then sup true novec
  else if novec then sup false true
  else some { sup := false, vector := v }

/-- The UNIT and FROM codes of `sr.trapinfo` (R450). -/
def unitCode : Kind → Nat
  | .wave => 0 | .ap => 1 | .mx => 2
def fromCode (m : Member) : Nat :=
  match m.frames with
  | [] => 0
  | f :: _ => if f.sup then 2 else 1

/-- `sr.trapinfo` of a trap (R450). -/
def trapInfo (s : State) (t : Trap) (r : Route) : Dword :=
  BitVec.ofNat 64 (t.cls * 2 ^ 40 + unitCode s.m.kind * 2 ^ 34 + fromCode s.m * 2 ^ 32 + bnat t.held * 2 ^ 31 +
    bnat r.overflow * 2 ^ 30 + bnat r.novec * 2 ^ 29 + bnat t.bk * 2 ^ 28 + t.cause % 2 ^ 16)

/-- The low and high halves of a mask. -/
def maskLo (m : Mask) : Dword := m.setWidth 64
def maskHi (m : Mask) : Dword := (m >>> 64).setWidth 64

/-- The banked registers of a new frame (R449). -/
def newBank (s : State) (f : Fields) (pc : Dword) (len : Nat) (act mask : Mask) (t : Trap) (r : Route) : List Dword :=
  let tp := if t.after then pc + BitVec.ofNat 64 len else pc
  let emu (x : Dword) : Dword := if t.cls == cEmu then x else 0#64
  [trapInfo s t r, tp, maskLo mask, maskHi mask, maskLo s.m.exec, maskHi s.m.exec, t.data0, t.data1,
   emu (f.opc.setWidth 64), emu (f.mod.setWidth 64), emu (f.dst.setWidth 64), emu (f.s0.setWidth 64), emu (f.s1.setWidth 64),
   emu (f.s2.setWidth 64), emu (emuImm f), emu pc, emu (BitVec.ofNat 64 len), emu (maskLo act), emu (maskHi act), emu (rawWord f)] ++
    List.replicate 12 0#64

/-- A handler's fresh window (R441, R448). -/
def freshWindow (k : Kind) : RegFile :=
  { vregs := [], kregs := List.replicate 16 0#64, preds := List.replicate 7 0#128, budget := if k = .wave then 32 else 0, unif := 16 }

/-- The class's own register takes the trap's record (R266, R287, R295, R337, R366, R411), and a mismatch that RAS reports is over (R115). -/
def setRecord (m : Member) (t : Trap) : Member :=
  let m := if t.cls == cRas && t.cause == 2 then { m with datapath := 0 } else m
  match t.record with
  | none => m
  | some x =>
    match t.engine with
    | some (.copy _) => { m with cpfault := x }
    | some (.stream _) => { m with qfault := x }
    | some (.shuttle _) => { m with shfault := x }
    | none =>
      if t.cls == cOvl then { m with ovlva := x } else if t.cls == cLease then { m with leaseinfo := x } else m

/-- A trap is taken at the instruction of fields `f` at `pc` with active lanes `act` (R442 to R450): the interrupted state goes into a
frame, the handler gets a fresh window, EXEC is the handler mask and the cursor the vector. -/
def enterTrap (s : State) (f : Fields) (pc : Dword) (len : Nat) (act : Mask) (t : Trap) : State :=
  match routeTrap s t with
  | none => endContext s statusTerm
  | some r =>
    let mask := (t.mask.getD act) &&& s.m.live
    let xl := (List.range (nLanes s)).map fun l =>
      (lookupKey (if l == lowestLane mask && (lookupKey someLane t.xl).isSome then someLane else l) t.xl).getD {}
    let tp := if t.after then pc + BitVec.ofNat 64 len else pc
    let fr : Frame :=
      { sup := r.sup, cls := t.cls, rf := s.m.rf, cursor := tp, exec := s.m.exec, mark := s.m.stack.length
        wait := freezeWait s s.m.wait, bank := newBank s f pc len act mask t r, xl := if r.sup then xl else [], engine := t.engine
        seen := s.m.look.act }
    let m := setRecord s.m t
    { s with
      m := { m with frames := fr :: m.frames, rf := freshWindow m.kind, exec := mask, cursor := r.vector, wait := none, look := {} }
      ctx := { s.ctx with priFail := s.ctx.priFail.filter fun p => !(t.xl.any fun e => (e.2.va.toNat >>> 18) == p) } }

/-- The fields that a trap without an instruction reports (R451): none. -/
def noFields : Fields :=
  { len := 0#2, role := 7#3, preg := 7#3, pneg := 0#1, lr := 0#3, mod := 0#7, dst := 0#9, s0 := 0#9, s1 := 0#9, s2 := 0#9, ext := 0#64
    opc := 0#9 }

/-! ## The stack extension -/

/-- The most entries a stack holds (R72); an access processor and the sequencer hold 16 (R279, R306). -/
def stackLimit (k : Kind) : Nat := if k = .wave then 256 else 16

/-- KIND of a stack entry (R74). -/
def kindCode : EntryKind → Nat
  | .a => 0 | .j => 1 | .p => 2 | .c => 3

/-- A stack entry as 32 bytes (R74). -/
def entryBytes (e : StackEntry) : List Byte := leBytes 32 (e.mask.toNat * 2 ^ 128 + kindCode e.kind * 2 ^ 64 + e.addr.toNat)

/-- The entries that the hardware holds: the most recent 16, or 8 of a half-wave (R72, R82). -/
def heldLimit (s : State) : Nat := if nLanes s = 16 then 8 else 16

/-- The view in which the hardware moves stack entries. -/
def extView (s : State) : View := { memberView s with priv := true }

/-- The address of slot `i` of the stack extension (R74): the slots hold the entries below the held ones, the first pushed lowest. -/
def extSlot (s : State) (i : Nat) : Nat := extVa s + 32 * i

/-- The caches as an access of a slot of the stack extension leaves them (R195, R199). -/
def passSlot (s : State) (acc : Access) (i : Nat) : State :=
  match resolveRange s (extView s) acc (extSlot s i) 32 with
  | .ok ls => passCaches s (extView s) (extSlot s i) ls (acc == .write)
  | .error _ => s

/-- Whether an access of a slot of the stack extension meets an uncorrectable error, on the way to it or in it (R18, R509). -/
def slotLost (s : State) (acc : Access) (i : Nat) : Bool :=
  match resolveAccess s (extView s) acc (extSlot s i) 32 with
  | .error f => f.cls == .ras
  | .ok _ => false

/-- Whether `n` pushes move an entry to such a slot: where the held entries are full, each moves the oldest of them (R74). -/
def moveLost (s : State) (n : Nat) : Bool :=
  s.m.kind = .wave && (List.range n).any fun j =>
    decide (heldLimit s ≤ s.m.stack.length + j) && slotLost s .write (s.m.stack.length + j - heldLimit s)

/-- The slots from which `n` pops refill the held entries (R74). -/
def refillSlots (s : State) (n : Nat) : List Nat :=
  if s.m.kind = .wave then
    ((List.range n).filter fun j => heldLimit s + j < s.m.stack.length).map fun j => s.m.stack.length - heldLimit s - 1 - j
  else []

/-- Whether `n` pops refill from such a slot. -/
def refillLost (s : State) (n : Nat) : Bool := (refillSlots s n).any (slotLost s .read)

/-- The state in which `n` pops have refilled the held entries. -/
def refill (s : State) (n : Nat) : State := (refillSlots s n).foldl (fun s i => passSlot s .read i) s

/-- The RAS of a stack extension that has lost an entry (R18, R509). -/
def extTrap : Trap := { cls := cRas, cause := 5 }

/-- The oldest held entry moved to the stack extension, where the held ones are full (R74). Where its place does not translate nothing is written
and nothing traps (log 115). -/
def moveOldest (s : State) : State :=
  match s.m.kind, s.m.stack[heldLimit s - 1]? with
  | .wave, some e =>
    let i := s.m.stack.length - heldLimit s
    match resolveRange s (extView s) .write (extSlot s i) 32 with
    | .ok ls => writeLocs (passCaches s (extView s) (extSlot s i) ls true) ls (entryBytes e)
    | .error _ => s
  | _, _ => s

/-- The state with one entry pushed on the reconvergence stack (R74). -/
def pushedOne (s : State) (e : StackEntry) : State := { moveOldest s with m := { s.m with stack := e :: s.m.stack } }

/-- The state with entries pushed on the reconvergence stack, the first of them on top. -/
def pushed (s : State) (es : List StackEntry) : State := es.foldr (fun e s => pushedOne s e) s

/-- The trap of a push of `n` entries: BOUND with cause RSTK at the limit (R74, R283), and RAS where an entry would move to a place that is lost. -/
def pushTrap (s : State) (n : Nat) : Option Trap :=
  if n != 0 && decide (stackLimit s.m.kind < s.m.stack.length + n) then some (bound bRstk)
  else if moveLost s n then some extTrap
  else none

/-- Entries pushed, the first of them on top, or the trap of the push: all of them or none. -/
def pushEntries (s : State) (es : List StackEntry) : Except Trap State :=
  match pushTrap s es.length with
  | some t => .error t
  | none => .ok (pushed s es)

/-! ## Resuming from the stack -/

/-- The first entry from the top, above the mark, whose lanes are not all gone (R76). -/
def resumeEntry (live : Mask) (mark : Nat) : List StackEntry → Option (StackEntry × List StackEntry)
  | [] => none
  | e :: r => if r.length < mark then none else if e.mask &&& live != 0#128 then some (e, r) else resumeEntry live mark r

/-- The current frame's mark: entries at and below it belong to what the frame interrupts (R448). -/
def frameMark (m : Member) : Nat :=
  match m.frames with
  | f :: _ => f.mark
  | [] => 0

/-- The member after an instruction has changed its masks (R76, R80): it retires with LIVE empty, resumes from its stack with EXEC empty,
and takes BOUND with cause RSTK where the stack holds nothing to resume; RAS where the pops would refill from a lost place (R74, R509), which is
taken with every live lane in EXEC (log 115). -/
def settleMasks (s : State) : State :=
  if s.m.live == 0#128 then retire s
  else if s.m.exec != 0#128 then s
  else
    let mark := frameMark s.m
    let found := resumeEntry s.m.live mark s.m.stack
    let pops := s.m.stack.length - (found.map fun p => p.2.length).getD mark
    if refillLost s pops then
      enterTrap { s with m := { s.m with exec := s.m.live } } noFields s.m.cursor 0 s.m.live { extTrap with mask := some s.m.live }
    else
      let s := refill s pops
      match found with
      | some (e, r) => { s with m := { s.m with exec := e.mask &&& s.m.live, cursor := e.addr.setWidth 64, stack := r } }
      | none =>
        let s := { s with m := { s.m with exec := s.m.live, stack := s.m.stack.drop (s.m.stack.length - mark) } }
        enterTrap s noFields s.m.cursor 0 s.m.live { bound bRstk with mask := some s.m.live }

/-- Lanes leave LIVE: also every MASK of the stack, every frame's EXEC and `sr.trapexec` (R77, R95, R448). -/
def dropLanes (s : State) (gone : Mask) : State :=
  let k := ~~~gone
  let fr (f : Frame) : Frame :=
    { f with exec := f.exec &&& k
             bank := (f.bank.set 4 (f.bank.getD 4 0#64 &&& maskLo k)).set 5 (f.bank.getD 5 0#64 &&& maskHi k) }
  { s with m := { s.m with
      live := s.m.live &&& k, exec := s.m.exec &&& k, stack := s.m.stack.map fun e => { e with mask := e.mask &&& k }
      frames := s.m.frames.map fr
      pre := { s.m.pre with exec := s.m.pre.exec &&& k, stack := s.m.pre.stack.map fun e => { e with mask := e.mask &&& k } } } }

/-! ## Pre-emption -/

/-- Whether PRE is due at the member's next boundary (R431). -/
def preDue (m : Member) : Bool := m.pre.phase = .pending && m.frames.isEmpty && m.kind = .wave

/-- PRE is delivered (R431): the hardware holds the interrupted cursor, EXEC, stack and sleep, and the handler starts with EXEC = LIVE. -/
def deliverPre (s : State) : State :=
  { s with m := { s.m with
      pre := { phase := .handling, pc := s.m.cursor, exec := s.m.exec, stack := s.m.stack, wait := freezeWait s s.m.wait
               seen := s.m.look.act, since := s.cycle }
      cursor := s.team.handler, exec := s.m.live, stack := [], wait := none, ready := s.cycle, look := {} } }

/-! ## Issue -/

/-- What the execution of an instruction comes to. -/
inductive Act where
  /-- it completes, and the cursor moves to the next instruction -/
  | ok (s : State)
  /-- it completes and has set the cursor -/
  | go (s : State)
  /-- it traps without effect (R446) -/
  | trap (t : Trap)
  /-- it traps with the one effect that its entry states (R211) -/
  | trapIn (g : State → State) (t : Trap)
  /-- it completes and traps (R476) -/
  | trapAfter (s : State) (t : Trap)
  /-- it sleeps without effect (R84) -/
  | sleep (w : Wait)
  /-- it sleeps with part of its effect done, which its entry states -/
  | hold (s : State) (w : Wait)
  /-- it sleeps without effect until the host has answered the page request of a VA (R225) -/
  | ask (va : Nat)

/-- A result that may be a trap, as an act. -/
def Act.of (r : Except Trap State) : Act :=
  match r with
  | .ok s => .ok s
  | .error t => .trap t

/-- Whether a member comes out of a sleep in which its instruction has read its operands already (R97, R99, R326, R387,
R406, R408, R417, R476, R504, R506). -/
def resumed : Option Wait → Bool
  | some (.sleep _) => true
  | some .slept => true
  | some (.regroup _ _ _ _ _) => true
  | some (.barrier _ _) => true
  | some (.barrierDone _) => true
  | some (.half _) => true
  | some (.taskRoom _ _ _) => true
  | some (.tasks _ _) => true
  | some (.regrouped _) => true
  | some (.mxResult _) => true
  | some (.mxRead _ _) => true
  | some .crossSent => true
  | some .sent => true
  | some .sentDone => true
  | some .xred => true
  | some (.xredDone _ _) => true
  | _ => false

/-- The lanes in which a member that comes out of a sleep has read its predicate already (R47). -/
def seenLanes (s : State) : Option Mask := if resumed s.m.wait then s.m.look.act else none

/-- The lanes active after predication (R49), by the predicate as a lookahead window lets it be read (R47). -/
def activeLanes (s : State) (f : Fields) : Mask :=
  match seenLanes s with
  | some m => s.m.exec &&& m &&& allLanes (nLanes s)
  | none =>
    let p := pReg (lookRead s s).m.rf f.preg.toNat
    s.m.exec &&& (if f.pneg == 1#1 then ~~~p else p) &&& allLanes (nLanes s)

/-- Whether a member's unit implements an opcode (R50, R282, R306). -/
def implements (s : State) (e : Entry) : Bool :=
  match s.m.kind with
  | .wave => e.wave
  | .ap => e.ap || (e.apPriv && memberPriv s)
  | .mx => e.mx

/-- The source fields of an entry: the specification, the name and the LR bit; DST among them where it names a source (R46, R48). -/
def sourceFields (e : Entry) (f : Fields) : List (FieldSpec × Name × Bool) :=
  [(e.s0, f.s0, f.lr.getLsbD 0), (e.s1, f.s1, f.lr.getLsbD 1), (e.s2, f.s2, f.lr.getLsbD 2)] ++
    (if e.dstSrc then [(e.dst, f.dst, false)] else [])

/-- The vector registers that a field names (R103). -/
def fieldRegs (s : State) (f : Fields) (sp : FieldSpec) (n : Name) : List Nat :=
  if sp.raw f then [] else
    match nameReader s.m n with
    | .v r => (List.range (sp.span f)).map (r + ·)
    | _ => []

/-- The first bound that a field's operand breaks (R103, R116, R280, R281). -/
def fieldBound (s : State) (f : Fields) (sp : FieldSpec) (n : Name) : Option Trap :=
  if sp.raw f then none else
    match nameReader s.m n with
    | .v r => if s.m.rf.budget < r + sp.span f then some (bound bReg) else none
    | .k r =>
      if s.m.kind = .ap then (if s.m.rf.kregs.length ≤ r then some (bound bAreg) else none)
      else if max s.m.rf.unif 1 ≤ r then some (bound bKreg) else none
    | .q _ => if s.team.qset then none else some (bound bQueue)
    | _ => none

/-- The bounds of R63 step 5, then the widths under which a queue may be named (R284). -/
def boundsOf (e : Entry) (f : Fields) (s : State) : Option Trap :=
  if e.ownBounds then none else
    let all := [(e.s0, f.s0), (e.s1, f.s1), (e.s2, f.s2), (e.dst, f.dst)]
    match all.findSome? fun p => fieldBound s f p.1 p.2 with
    | some t => some t
    | none =>
      if s.m.kind = .wave && s.team.width != 32 && all.any (fun p => !p.1.raw f && isQueue (nameReader s.m p.2)) then
        some (emuTrap .width)
      else none

/-- The queue that a field names as a source (R57). -/
def popField (s : State) (f : Fields) (sp : FieldSpec) (n : Name) : Option Nat :=
  if sp.raw f then none else match nameReader s.m n with | .q q => some q | _ => none

/-- What the pops of an instruction meet, in field order (R57, R287): every entry, an empty queue, or a fault marker. -/
inductive Pops where
  | all (entries : List (List Word)) (queues : List (List QEntry))
  | empty
  | marker (stream : Nat)

/-- The entries that the fields pop, one after another. -/
def popsOf (s : State) (f : Fields) : List (FieldSpec × Name × Bool) → List (List QEntry) → List (List Word) → Pops
  | [], qs, acc => .all acc.reverse qs
  | (sp, n, _) :: r, qs, acc =>
    match popField s f sp n with
    | none => popsOf s f r qs ([] :: acc)
    | some q =>
      match qs.getD q [] with
      | [] => .empty
      | .marker id :: _ => .marker id
      | .data ws :: es => popsOf s f r (qs.set q es) (ws :: acc)

/-- Whether a push to DST meets a full queue (R57, R284). -/
def pushFull (e : Entry) (f : Fields) (s : State) : Bool :=
  !e.dstSrc && !e.noPush && !e.dst.raw f &&
    (match nameReader s.m f.dst with | .q q => decide (8 ≤ (s.team.queues.getD q []).length) | _ => false)

/-- `sr.qfault` of a stream's marker (R288). -/
def qfaultOf (st : Stream) : Dword := BitVec.ofNat 64 (st.ap * 2 ^ 36 + st.queue * 2 ^ 32 + st.pos % 2 ^ 32)

/-- The same record for every active lane (R266, R287). -/
def xlAll (act : Mask) (r : XlRec) : List (Nat × XlRec) := (lanesOf 128 act).map fun l => (l, r)

/-- The trap of an engine fault, MEM or WALK by its class (R222, R223). -/
def engTrap (act : Mask) (f : EngFault) (e : EngineRef) (record : Dword) : Trap :=
  { cls := if f.walk then cWalk else cMem, cause := f.xl.info.toNat % 256, xl := xlAll act f.xl, held := true, engine := some e
    record := some record }

/-- The trap of the marker that a pop meets (R287). -/
def markerTrap (s : State) (act : Mask) (id : Nat) : Option Trap :=
  match s.team.streams.find? fun st => st.id == id with
  | some st => st.fault.map fun x => { engTrap act x (.stream id) (qfaultOf st) with held := true }
  | none => none

/-- `sr.cpfault` of a suspended copy (R267). -/
def cpfaultOf (c : Copy) (x : CopyFault) : Dword := BitVec.ofNat 64 (x.side * 2 ^ 46 + c.tag * 2 ^ 40 + x.elem % 2 ^ 40)

/-- Whether a member's handler has the fault of a copy already (R266). -/
def faultDelivered (s : State) (id : Nat) : Bool := (teamMembers s).any fun m => m.frames.any fun f => f.engine == some (.copy id)

/-- Whether the member may be delivered a copy's fault, which is delivered once: it issued the copy, or the issuer has retired (R266). -/
def mayTakeFault (s : State) (c : Copy) : Bool :=
  s.m.kind = .wave && !faultDelivered s c.id && (c.issuer == s.m.id || !((unretired (teamMembers s)).any fun m => m.id == c.issuer))

/-- The copy fault that an instruction covering the tags `covers` delivers: the lowest tag first (R266). -/
def copyFaultTrap (s : State) (act : Mask) (covers : Nat → Bool) : Option Trap :=
  (List.range 64).findSome? fun tag =>
    if !covers tag then none else
      (tagOut s.team tag).findSome? fun c =>
        match c.fault with
        | some x => if mayTakeFault s c then some { engTrap act x.fault (.copy c.id) (cpfaultOf c x) with held := true } else none
        | none => none

/-- Register h0 reads 0 and ignores writes (R354). -/
def hReg (c : ShCtx) (r : BitVec 5) : Dword := if r == 0#5 then 0#64 else c.regs.getD r.toNat 0#64
def setH (c : ShCtx) (r : BitVec 5) (x : Dword) : ShCtx := if r == 0#5 then c else { c with regs := c.regs.set r.toNat x }

/-- The contexts of a team. -/
def teamShs (t : Team) : List ShCtx := (t.sh :: t.shs).filter fun c => c.id != 0

/-- `sr.shfault` of a context's held fault (R373). -/
def shfOf (c : ShCtx) : Dword :=
  BitVec.ofNat 64 (c.handle * 2 ^ 50 + c.cause % 2 ^ 8 * 2 ^ 42 + c.cursor % 2 ^ 10 * 2 ^ 32 + (hReg c 31#5).toNat % 2 ^ 32)

/-- The trap that delivers a context's held fault (R366). -/
def shTrap (act : Mask) (c : ShCtx) : Trap :=
  match c.fault with
  | some x => engTrap act x (.shuttle c.id) (shfOf c)
  | none => { cls := cShf, cause := c.cause, held := true, engine := some (.shuttle c.id), record := some (shfOf c) }

/-- Whether another member's frame has a context's fault in hand (R366). -/
def shTaken (s : State) (id : Nat) : Bool :=
  (unretired s.peers).any fun m => m.frames.any fun f => f.engine == some (.shuttle id)

/-- A held trap as it is delivered (R447 items 1 to 3). -/
def heldTrap (h : HeldTrap) : Trap :=
  { cls := h.cls, cause := h.cause, held := true, record := if h.cls == cRas then none else some h.data }

/-- The uniform value that S0 would supply, read without effect. -/
def peekBits (e : Entry) (f : Fields) (s : State) (wide : Bool) (lane : Nat) : Dword :=
  let pop := match popField s f e.s0 f.s0 with
    | some q => match (s.team.queues.getD q []).head? with | some (.data ws) => ws | _ => []
    | none => []
  opndBits s f (nameReader s.m f.s0) pop wide lane
def peekS0 (e : Entry) (f : Fields) (s : State) (lane : Nat) : Nat := (peekBits e f s false lane).toNat % 2 ^ 32

/-- Whether an instruction delivers a held trap (R318, R337, R411): one of a matrix operation waits for a retiring instruction, an `MXWAIT`
whose mask covers the operation, or an `ACCRD` of its tile. -/
def deliversHeld (e : Entry) (f : Fields) (s : State) (lane : Nat) (h : HeldTrap) : Bool :=
  match h.tiles with
  | none => true
  | some t =>
    (if s.m.kind = .wave then e.retiring else e.opc == 0x009 || e.opc == 0x193) ||
      (e.opc == 0x14B && peekS0 e f s lane &&& t != 0) || (e.opc == 0x147 && t.testBit (peekS0 e f s lane))

/-- The held trap that an instruction delivers first: RAS, then LEASE, then TREE (R447). -/
def dueHeld (e : Entry) (f : Fields) (s : State) (act : Mask) : Option HeldTrap :=
  let hs := s.m.held.filter (deliversHeld e f s (lowestLane act))
  match hs.find? fun h => h.cls == cRas with
  | some h => some h
  | none =>
    match hs.find? fun h => h.cls == cLease with
    | some h => some h
    | none => hs.head?

/-- Whether the instruction executes once: its DST names a k register, or its member has one lane (R59, R281). -/
def isUniform (e : Entry) (f : Fields) (s : State) : Bool :=
  s.m.kind != .wave || (!e.dst.raw f && isUni (nameReader s.m f.dst))

/-- Whether an instruction delivers the faults of a copy of tag `t` (R266): a retiring one by its opcode alone, `CPWAIT` and its kin and `CPSTAT`
by the mask or tag in S0, where the entry accepts its name. -/
def coversTag (e : Entry) (f : Fields) (s : State) (lane t : Nat) : Bool :=
  let named := e.s0.nameOk (nameReader s.m) f f.s0
  e.retiring ||
    (named && [eCpwait.opc, eCpany.opc, eCpfirst.opc, eCptest.opc].contains e.opc && (peekBits e f s true lane).getLsbD t) ||
    (named && e.opc == eCpstat.opc && (peekBits e f s false lane).toNat == t)

/-- The fault of a shuttle context that an `SHWAIT` delivers (R366), unless the end of the context has been reported to it. -/
def shuttleFault (e : Entry) (f : Fields) (s : State) (act : Mask) : Option Trap :=
  let told := match s.m.wait with | some (.shuttleDone _) => true | _ => false
  if e.opc != eShwait.opc || told || !e.s0.nameOk (nameReader s.m) f f.s0 then none
  else
    let h := (peekBits e f s false (lowestLane act)).toNat % 4
    match (teamShs s.team).find? fun c => c.handle == h with
    | some c => if c.phase == .faulted && !shTaken s c.id then some (shTrap act c) else none
    | none => none

/-- The fault of an engine that an instruction delivers (R447 item 4): that of a queue marker, of a copy, or of a shuttle context. -/
def engineFault (e : Entry) (f : Fields) (s : State) (act : Mask) : Option Trap :=
  let marker := if resumed s.m.wait then none else
    match popsOf s f (sourceFields e f) s.team.queues [] with
    | .marker id => markerTrap s act id
    | _ => none
  marker.or ((copyFaultTrap s act (coversTag e f s (lowestLane act))).or (shuttleFault e f s act))

/-- The trap that comes before the execution of an instruction with an active lane, in the order of R447 items 1 to 5 and of BOUND. -/
def earlyTrap (e : Entry) (f : Fields) (s : State) (act : Mask) : Option Trap :=
  match dueHeld e f s act with
  | some h => some (heldTrap h)
  | none =>
    match engineFault e f s act with
    | some t => some t
    | none =>
      if !implements s e then some { cls := cIll, cause := 3 }
      else
        match fateOf e (s.part.emuOpc.contains e.opc) (nameReader s.m) s.team.roles.length f with
        | some c => some (emuTrap c)
        | none => boundsOf e f s

/-- Whether an operand that an instruction reads meets a parity error (R114): a p source of a half-wave reads the other half's lanes too (R56). -/
def opndBad (s : State) (o : Operand) : Bool :=
  unitBad s.m.rf o ||
    (match o with | .p _ => ((otherHalf s).map fun m => unitBad m.rf o).getD false | _ => false)

/-- What upsets of uniform registers, predicates and the datapath do to an instruction (R114, R115): RAS, or one retry that is counted in the
map of the hardware wave of the lowest active lane. -/
def meetUpsets (e : Entry) (f : Fields) (s : State) (lane : Nat) : Except Trap State :=
  if (sourceFields e f).any (fun p => !p.1.raw f && opndBad s (nameReader s.m p.2.1)) || unitBad s.m.rf (.p f.preg.toNat) then
    .error { cls := cRas, cause := 1 }
  else if s.m.datapath == 0 || e.opc / 64 == 0 || 3 < e.opc / 64 then .ok s
  else if s.m.datapath == 1 then .ok { s with m := { s.m with datapath := 0, rascnt := bump (lane / 32) s.m.rascnt } }
  else .error { cls := cRas, cause := 2 }

/-- The hardware waves in which an instruction reads a field's vector source (R59, R121). That a crossbar source, of `BCAST` too, is read in every
hardware wave with a live lane is the model's choice (log 41). -/
def readHws (sp : FieldSpec) (f : Fields) (s : State) (act : Mask) (uni : Bool) (lane : Nat) : List Nat :=
  match sp.reads f with
  | .usual => if uni then [lane / 32] else hwsOf s act
  | .once => [lane / 32]
  | .active => hwsOf s act
  | .live => hwsOf s s.m.live
  | .low => [0]

/-- The vector registers that an instruction's source fields name, and those among them with an LR bit. -/
def sourceRegs (e : Entry) (f : Fields) (s : State) : List Nat :=
  ((sourceFields e f).map fun p => fieldRegs s f p.1 p.2.1).flatten
def lastRegs (e : Entry) (f : Fields) (s : State) : List Nat :=
  (((sourceFields e f).filter fun p => p.2.2).map fun p => fieldRegs s f p.1 p.2.1).flatten

/-- The vector registers that DST names as a destination. -/
def destRegs (e : Entry) (f : Fields) (s : State) : List Nat := if e.dstSrc then [] else fieldRegs s f e.dst f.dst

/-- The registers that an instruction writes beside its DST: the carry of `ADDC` and `SUBB` (R146), and what `REGROUP` migrates (R99). -/
def besideDst (e : Entry) (f : Fields) : RegSet :=
  if e.opc == eAddc.opc || e.opc == eSubb.opc then { ps := [modBits f 6 4] }
  else if e.opc == eRegroup.opc then { vs := (List.range (f.s1.toNat + 1)).drop f.s0.toNat, ps := List.range 7 }
  else {}

/-- The registers that an instruction writes (R47). -/
def destSet (e : Entry) (f : Fields) (s : State) : RegSet :=
  (besideDst e f).union (
    if e.dstSrc || e.dst.raw f then {}
    else
      match nameReader s.m f.dst with
      | .v _ => { vs := destRegs e f s }
      | .k r => { ks := [r] }
      | .p r => { ps := [r] }
      | _ => {})

/-- The LR bits applied over the lanes of `act`, with the registers freed that they end, but for those in `keep` (R107, R108). -/
def applyLr (s : State) (act : Mask) (last keep : List Nat) : State := sweepRegs (last.foldl (fun s r => markDead s act r) s) keep

/-- The vector registers of the source fields are read, each field's in the hardware waves where the instruction reads it. -/
def touchFields (e : Entry) (f : Fields) (s : State) (act : Mask) (uni : Bool) (lane : Nat) (named : List Nat) : Except Trap State :=
  (sourceFields e f).foldlM (fun t p => touchRegs t named (fieldRegs s f p.1 p.2.1) (readHws p.1 f s act uni lane)) s

/-- The destination registers mapped in the hardware waves of a mask (R105). -/
def openDst (e : Entry) (f : Fields) (s : State) (m : Mask) : Except Trap State :=
  openRegs s (sourceRegs e f s ++ destRegs e f s) (destRegs e f s) (hwsOf s m)

/-- The state in which the sources have been read, and the state with the last reads applied, the destination registers mapped and the
queue entries popped (R57, R105 to R108, R111), as a lookahead window lets them be (R47). An entry that checks its own bounds does all this
itself. -/
def prepare (e : Entry) (f : Fields) (s : State) (act : Mask) (uni : Bool) (lane : Nat) (qs : List (List QEntry)) :
    Except Trap (State × State) := do
  let s ← meetUpsets e f s lane
  if e.ownBounds then return (s, s)
  let dsts := destRegs e f s
  let rd ← touchFields e f s act uni lane (sourceRegs e f s ++ dsts)
  let s' := if e.late then rd else applyLr rd act (lastRegs e f s) dsts
  let s' ← if e.ownDst then .ok s' else openDst e f s' act
  return (lookRead s rd, lookNext e f (destSet e f s) act s { s' with team := { s'.team with queues := qs } })

/-- The common work of an entry that checks its own bounds, once its instruction has found that it needs its operands (R57, R63 step 5):
the instruction with what it read, and the state to act on. DST is not opened. -/
def ownIssue (e : Entry) (ic : Ic) (s : State) : Except Act (Ic × State) :=
  let e' : Entry := { e with ownBounds := false, dst := rawField, dstSrc := false }
  match boundsOf { e with ownBounds := false } ic.f s with
  | some t => .error (.trap t)
  | none =>
    match popsOf s ic.f (sourceFields e' ic.f) s.team.queues [] with
    | .empty => .error (.sleep .queue)
    | .marker _ => .error (.sleep .queue)
    | .all entries qs =>
      match prepare e' ic.f s ic.act ic.uni ic.lane qs with
      | .error t => .error (.trap t)
      | .ok (rd, s') => .ok ({ ic with rd := rd, pops := entries }, s')

/-- The last reads of an instruction whose entry takes them late, as it completes (R108). -/
def lateLast (e : Entry) (ic : Ic) (s : State) : State := applyLr s ic.act (lastRegs e ic.f s) (destRegs e ic.f s)

/-- The end of an instruction that completed (R47, R76, R107): freed registers go, and the member goes on, resumes or retires. -/
def complete (s : State) : State :=
  let s := sweepRegs (lookEnd s) []
  settleMasks { s with m := { s.m with wait := none } }

/-- The cursor of the member at an address. -/
def setCursor (s : State) (pc : Dword) : State := { s with m := { s.m with cursor := pc } }

/-- The page of a VA stands among the context's page requests (R225). -/
def askPage (s : State) (va : Nat) : State :=
  let p := va >>> 18
  { s with ctx := { s.ctx with priOut := if s.ctx.priOut.contains p then s.ctx.priOut else s.ctx.priOut ++ [p] } }

/-- What an act makes of the state that the instruction was issued in. -/
def applyAct (s : State) (ic : Ic) : Act → State
  | .ok s' => complete (setCursor s' ic.next)
  | .go s' => complete s'
  | .trap t => enterTrap s ic.f ic.pc ic.len ic.act t
  | .trapIn g t => enterTrap (g s) ic.f ic.pc ic.len ic.act t
  | .trapAfter s' t => enterTrap (complete (setCursor s' ic.next)) ic.f ic.pc ic.len ic.act t
  | .sleep w => { s with m := { s.m with wait := some w } }
  | .hold s' w => { s' with m := { s'.m with wait := some w } }
  | .ask va => { askPage s va with m := { s.m with wait := some (.pri va) } }

/-- PRE goes before the effect of an instruction that raises no trap of its own (R447 item 7). -/
def isTrap : Act → Bool
  | .trap _ => true
  | .trapIn _ _ => true
  | _ => false

/-- The member passes over the instruction (R50, R63). -/
def passOver (s : State) (pc : Dword) : State := if preDue s.m then deliverPre s else setCursor { s with m := { s.m with wait := none } } pc

/-- What comes before the body of an instruction with at least one active lane (R63, R447): what the instruction knows of itself, and the
state in which its sources are read, its queue entries popped and its destination registers mapped, or the act that it ends in. -/
def beginIssue (e : Entry) (f : Fields) (s : State) (act : Mask) : Ic × Except Act State :=
  let lane := lowestLane act
  let uni := isUniform e f s
  let ic : Ic :=
    { f := f, n := nLanes s, act := act, lane := lane, uni := uni, one := s.m.kind != .wave, pc := s.m.cursor, len := lenBytes f, rd := s
      pops := [], old := s.m.wait }
  match earlyTrap e f s act with
  | some t => (ic, .error (.trap t))
  | none =>
    match (if e.ownBounds || resumed s.m.wait then Pops.all [] s.team.queues else popsOf s f (sourceFields e f) s.team.queues []) with
    | .marker _ => (ic, .error (.sleep .queue))
    | .empty => (ic, .error (.sleep .queue))
    | .all entries qs =>
      if !e.ownBounds && pushFull e f s then (ic, .error (.sleep .queue))
      else
        match (if resumed s.m.wait then .ok (s, s) else prepare e f s act uni lane qs) with
        | .error t => (ic, .error (.trap t))
        | .ok (rd, s') => ({ ic with rd := rd, pops := entries }, .ok s')

/-- The act of an instruction with at least one active lane. -/
def execute (e : Entry) (f : Fields) (s : State) (act : Mask) (body : Ic → State → Act) : Ic × Act :=
  match beginIssue e f s act with
  | (ic, .error a) => (ic, a)
  | (ic, .ok s') => (ic, body ic s')

/-- The held trap that is taken leaves the member's list. -/
def dropHeld (e : Entry) (f : Fields) (act : Mask) (s : State) : State :=
  match dueHeld e f s act with
  | some h => { s with m := { s.m with held := s.m.held.erase h } }
  | none => s

/-- Whether PRE goes before the instruction (R431, R447 item 7): it does not end the sleep of a `TAP` (R476). -/
def preFirst (e : Entry) (s : State) : Bool := preDue s.m && !(e.opc == 0x158 && (resumed s.m.wait || s.m.wait == some .tapRoom))

/-- Whether an instruction is one of the member's: of its role or of every role (R50). -/
def ownRole (f : Fields) (s : State) : Bool := f.role == 7#3 || f.role == s.m.role

/-- Whether the member executes an instruction (R50): one of its own, but that an access processor or the sequencer skips one of every role that its
unit does not implement. -/
def executes (e : Entry) (f : Fields) (s : State) : Bool := ownRole f s && (s.m.kind == .wave || f.role != 7#3 || implements s e)

/-- Whether LEN is reserved or the instruction extends past its 32-byte block (R63). -/
def malformedAt (f : Fields) (s : State) : Bool := f.len == 3#2 || decide (32 < s.m.cursor.toNat % 32 + lenBytes f)

/-- The address at which the member goes on past an instruction: after it, or at the next block where it is malformed (R61, R63). -/
def pastIt (f : Fields) (s : State) : Dword :=
  s.m.cursor + BitVec.ofNat 64 (if malformedAt f s then 32 - s.m.cursor.toNat % 32 else lenBytes f)

/-- The fate of an instruction at the member's cursor (R63, R447). One that the member does not execute is passed over, malformed or not (log 24).
An instruction of every role that a member skips counts in its lookahead windows: R47 counts the member's "own role or role 7" and leaves a
skipped one open (the model's choice, log 86). -/
def issueState (e : Entry) (f : Fields) (s : State) (body : Ic → State → Act) : State :=
  let pc := s.m.cursor
  let act := activeLanes s f
  let on (s : State) : State := if ownRole f s && !malformedAt f s then lookOn s else s
  if !executes e f s then passOver (on s) (pastIt f s)
  else if act == 0#128 then
    if unitBad s.m.rf (.p f.preg.toNat) then enterTrap s f pc (lenBytes f) s.m.exec { cls := cRas, cause := 1 }
    else passOver (on s) (pastIt f s)
  else if malformedAt f s then
    match dueHeld e f s act with
    | some h => enterTrap (dropHeld e f act s) f pc (lenBytes f) act (heldTrap h)
    | none =>
      enterTrap s f pc (lenBytes f) act
        ((engineFault e f s act).getD { cls := cIll, cause := if f.len == 3#2 then 1 else 2 })
  else
    let (ic, a) := execute e f s act body
    if preFirst e s && !isTrap a then deliverPre s else applyAct (dropHeld e f act s) ic a

/-- An instruction is issued: it always leads to a next state. -/
def issue (e : Entry) (f : Fields) (s : State) (body : Ic → State → Act) : Host.Outcome State Fault Refusal :=
  .next (issueState e f s body)

/-! ## Faults of lanes -/

/-- The trap of the lanes whose resolution failed (R205, R222, R223): the first check in the order of R205 that any lane fails decides,
then WALK before MEM; an uncorrectable read raises RAS (R509). None where only a host translation is awaited. -/
def stepOf (f : XFault) : Nat :=
  match f.cls with
  | .mem => if f.win then 2 else if f.cause == xAddr then 0 else if f.cause == xVault || f.cause == xWin then 1 else 2
  | _ => 2

def laneTrapOf (s : State) (fs : List (Nat × XFault × Access)) : Option Trap :=
  let fs := fs.filter fun e => e.2.1.cls != .pri && e.2.1.cls != .own
  let first := (fs.map fun e => stepOf e.2.1).foldl min 9
  let fs := fs.filter fun e => stepOf e.2.1 == first
  let of (c : XClass) := fs.filter fun e => e.2.1.cls == c
  let mk (cls : Nat) (l : List (Nat × XFault × Access)) : Trap :=
    { cls := cls, cause := (l.head?.map fun e => e.2.1.cause).getD 0
      mask := some (l.foldl (fun m e => m ||| (1#128 <<< e.1)) 0#128)
      xl := l.map fun e => (e.1, xlRecOf e.2.1 e.2.2 (!memberPriv s)) }
  if !(of .walk).isEmpty then some (mk cWalk (of .walk))
  else if !(of .mem).isEmpty then some (mk cMem (of .mem))
  else if !(of .ras).isEmpty then some { cls := cRas, cause := 5 }
  else none

/-- The trap of lanes that failed in one kind of access. -/
def laneTrap (s : State) (acc : Access) (fs : List (Nat × XFault)) : Option Trap := laneTrapOf s (fs.map fun e => (e.1, e.2, acc))

/-- The act of lanes whose resolution failed: a trap, a sleep until the host answers its page request (R225), or one until an engine has written
what it owns (R245). -/
def faultAct (s : State) (acc : Access) (fs : List (Nat × XFault)) : Act :=
  match laneTrap s acc fs with
  | some t => .trap t
  | none =>
    match fs.find? fun e => e.2.cls == .pri with
    | some (_, f) => .ask f.va
    | none => .sleep .owned

/-- The resolutions of the lanes' addresses in a view, and the failures among them (R205, R223). -/
def resolveLanes (s : State) (v : View) (acc : Access) (n : Nat) (as : List (Nat × Nat)) : List (Nat × List Loc) × List (Nat × XFault) :=
  as.foldl (fun r e =>
    match resolveAccess s v acc e.2 n with
    | .ok ls => (r.1 ++ [(e.1, ls)], r.2)
    | .error f => (r.1, r.2 ++ [(e.1, f)])) ([], [])

/-- One access of `n` bytes at a uniform address in a view: its places, or the act that its failure comes to. -/
def resolveIn (s : State) (ic : Ic) (v : View) (acc : Access) (va n : Nat) : Except Act (List Loc) :=
  match resolveAccess s v acc va n with
  | .ok ls => .ok ls
  | .error f =>
    match faultAct ic.rd acc [(ic.lane, f)] with
    | .trap t => .error (.trap { t with mask := t.mask.map fun _ => ic.act, xl := xlAll ic.act (xlRecOf f acc (!memberPriv s)) })
    | a => .error a

/-- The places of an access that an engine will make, as its instruction issues (R223): engine ownership apart. -/
def translateOne (s : State) (ic : Ic) (acc : Access) (va n : Nat) : Except Act (List Loc) := resolveIn s ic (issueView s) acc va n

/-- The same where the member itself makes the access: it waits until an engine has written what it owns (R245). -/
def resolveOne (s : State) (ic : Ic) (acc : Access) (va n : Nat) : Except Act (List Loc) := resolveIn s ic (accessView s) acc va n

/-- The `n` bytes at a uniform address as the member reads them, with the caches as the read leaves them (R195, R199), or the act of a fault. -/
def readOne (s : State) (ic : Ic) (va n : Nat) : Except Act (State × List Byte) :=
  (resolveOne s ic .read va n).map fun ls =>
    let s := passCaches s (memberView s) va ls false
    (s, readLocs s ls)

/-- The places of `n` bytes that no alignment holds within a page, each byte resolved for itself, or the act of the first fault. -/
def resolveSpread (s : State) (ic : Ic) (acc : Access) (va n : Nat) : Except Act (List Loc) :=
  ((List.range n).mapM fun i => resolveOne s ic acc ((va + i) % 2 ^ 64) 1).map List.flatten

/-- The caches as an access of `n` bytes over one page or two finds them. -/
def passSpread (s : State) (va n : Nat) (ls : List Loc) (store : Bool) : State :=
  let k := 2 ^ 18 - va % 2 ^ 18
  let s := passCaches s (memberView s) va (ls.take k) store
  if n ≤ k then s else passCaches s (memberView s) ((va + k) % 2 ^ 64) (ls.drop k) store

/-- The same as `readOne` where the bytes may lie over two pages. -/
def readSpread (s : State) (ic : Ic) (va n : Nat) : Except Act (State × List Byte) :=
  (resolveSpread s ic .read va n).map fun ls =>
    let s := passSpread s va n ls false
    (s, readLocs s ls)

/-! ## Returning from a trap -/

/-- The emulated instruction's LR bits applied over `sr.emu_mask`: its destination, which the handler has written, stays mapped and holds the result
(R108, R452). -/
def applyEmuLr (s : State) (bank : List Dword) : State :=
  let f := fieldsOf (bank.getD 19 0#64) (bank.getD 14 0#64)
  let mask : Mask := (bank.getD 18 0#64) ++ (bank.getD 17 0#64)
  let plain : FieldSpec := anySrc
  let srcs := match entryOf f.opc.toNat with
    | some e => sourceFields e f
    | none => [(plain, f.s0, f.lr.getLsbD 0), (plain, f.s1, f.lr.getLsbD 1), (plain, f.s2, f.lr.getLsbD 2)]
  let dsts := match entryOf f.opc.toNat with
    | some e => destRegs e f s
    | none => fieldRegs s f plain f.dst
  let last := ((srcs.filter fun p => p.2.2).map fun p => fieldRegs s f p.1 p.2.1).flatten
  applyLr s mask (last.filter fun r => !dsts.contains r) []

/-- The engine operation whose fault entered a frame is resumed, or cancelled where the handler wrote CANCEL (R267, R288, R373). The resumption of
a copy is a new issue (R246). -/
def releaseEngine (s : State) (e : Option EngineRef) : State :=
  match e with
  | none => s
  | some (.copy id) =>
    if s.m.cpfault.getLsbD 63 then abandonCopy s id
    else
      let again (c : Copy) : Copy :=
        if c.id == id then { c with id := s.nextId, fault := none, pos := (c.fault.map (·.elem)).getD c.pos } else c
      { s with team := { s.team with copies := s.team.copies.map again }, nextId := s.nextId + 1 }
  | some (.stream id) =>
    let drop (q : List QEntry) : List QEntry := q.filter fun x => x != .marker id
    if s.m.qfault.getLsbD 63 then
      { s with team := { s.team with
          streams := s.team.streams.filter fun t => t.id != id, queues := s.team.queues.map drop } }
    else
      { s with team := { s.team with streams := s.team.streams.map fun t => if t.id == id then { t with fault := none } else t } }
  | some (.shuttle id) =>
    let cancel := s.m.shfault.getLsbD 63
    let res (c : ShCtx) : ShCtx :=
      if c.id == id && c.phase = .faulted then
        (if cancel || c.fault.isNone then { c with phase := .ended, cancelled := true, isOpen := false, fault := none }
         else { c with phase := .running, fault := none, cause := 0 })
      else c
    { s with team := { s.team with sh := res s.team.sh, shs := s.team.shs.map res } }

/-- The return from the current frame (R460). -/
def leaveFrame (s : State) : Option State :=
  match s.m.frames with
  | [] => none
  | f :: fs =>
    let b := f.bank
    let written := f.cls == cEmu && f.pcWritten
    let pc :=
      if f.cls == cEmu then (if f.pcWritten then b.getD 15 0#64 else b.getD 15 0#64 + b.getD 16 0#64) else b.getD 1 0#64
    let ex : Mask := (b.getD 5 0#64) ++ (b.getD 4 0#64)
    let s := { s with m := { s.m with
      frames := fs, rf := f.rf, stack := s.m.stack.drop (s.m.stack.length - f.mark)
      wait := if pc == f.cursor then thawWait s f.wait else none
      look := { s.m.look with act := if pc == f.cursor then f.seen else none } } }
    if f.cls == cRas then some (endContext s statusRas)
    else
      let s := if f.cls == cEmu && !written then applyEmuLr s b else s
      let s := { s with m := { s.m with exec := ex &&& s.m.live, cursor := pc } }
      some (settleMasks (releaseEngine s f.engine))

end Sys2Proof.Machine
end

