-- ==== Sys2Proof/Machine/SReg.lean ====
section
/-!
DEFINITION. The special registers (spec/04_waves.md R100, with the tables of R119, R203, R226, R272, R290, R320, R346, R373, R393, R412,
R437, R449, R478, R503): what each holds, and what a write to each does.
-/
namespace Sys2Proof.Machine

/-- What a special register supplies: one value, or one for each lane. -/
inductive SrVal where
  | uni (x : Dword)
  | lanes (f : Nat → Dword)

/-- WIDTH of `sr.wavepos` (R83). -/
def widthCode (w : Nat) : Nat := if w == 64 then 1 else if w == 128 then 2 else if w == 16 then 3 else 0

/-- `sr.wavepos` (R83): WIDTH, HALF, GROUP, SLOT and WAVE; GROUP numbers the coupled groups over the whole team (log 114). -/
def wavepos (t : Team) (m : Member) : Dword :=
  let g := if t.width > 32 then m.waveId / (t.width / 32) else m.waveId
  BitVec.ofNat 64 (widthCode t.width * 2 ^ 14 + m.half * 2 ^ 13 + g * 2 ^ 8 + (m.slots.getD 0 0 % 8) * 2 ^ 5 + m.waveId)

/-- The weight-buffer KiB that the teams of the core hold (R320, R323). -/
def wbUsed (s : State) : Nat :=
  let kib (t : Team) : Nat := (t.wbs.map (·.kib)).foldl (· + ·) 0
  kib s.team + (((s.teams.filter fun t => t.1.core == s.core.num && t.1.present).map fun t => kib t.1).foldl (· + ·) 0)

/-- `sr.wbfree` (R320). -/
def wbFree (s : State) : Dword := BitVec.ofNat 64 (1024 - wbUsed s)

/-- A map of the handles below 64 that a list names. -/
def mapBits (l : List Nat) : Dword := l.foldl (fun x h => x ||| (1#64 <<< h)) 0#64

/-- The translation records of the innermost supervisor frame (R223, R226). -/
def xlRecs (m : Member) : List XlRec := ((m.frames.find? fun f => f.sup).map (·.xl)).getD []

/-- `sr.mxskip` or `sr.mxpre` as an `SRD` finds it (R4, R517; log 112): with or without each advance of which no `MXWAIT` of the member has made
sure. -/
def mxCount (s : State) (total sure : Dword) : Dword :=
  let open_ := (total - sure).toNat
  if open_ = 0 then total
  else sure + BitVec.ofNat 64 ((Config.freeWord s.free ++ Config.freeWord (s.free + 1)).toNat % (open_ + 1))

/-- The state after a read of a special register: the free values of `sr.mxskip` and `sr.mxpre` are used up. -/
def spendSr (s : State) (n : Nat) : State := if n == 0x0C2 || n == 0x0C3 then { s with free := s.free + 2 } else s

/-- A banked register of the current frame (R449): `sr.emu_*` are 0 in a frame not entered by EMU; 0 outside every frame (log 13). -/
def banked (m : Member) (n : Nat) : Dword :=
  match m.frames with
  | f :: _ => if 0x148 ≤ n && f.cls != cEmu then 0#64 else f.bank.getD (n - 0x140) 0#64
  | [] => 0#64

/-- Whether reading a register needs privilege (R226, R437, R449, R478). -/
def srPriv (n : Nat) : Bool :=
  (0x084 ≤ n && n ≤ 0x087) || (0x089 ≤ n && n ≤ 0x08E) || (0x08F ≤ n && n ≤ 0x092) || n == 0x0C9 || n == 0x164 || n == 0x182

/-- The value of a special register as the member reads it; none where no chapter assigns the number (R100). The counts of a coupled group
are those of its lowest wave. That `sr.pregfree` reads the pool of the issue slot of the lowest wave, and of issue slot 0 in a member without one, is
the model's choice (log 114), and that 0x154 to 0x15F, which R449 reserves, are unassigned numbers (log 13). -/
def srRead (s : State) (n : Nat) : Option SrVal :=
  let u (x : Dword) : Option SrVal := some (.uni x)
  let un (x : Nat) : Option SrVal := some (.uni (BitVec.ofNat 64 x))
  let ln (l : List Word) : Option SrVal := some (.lanes fun i => (l.getD i 0#32).setWidth 64)
  if n == 0x000 then u s.part.caps
  else if n == 0x001 then u s.ctx.capblk
  else if n == 0x002 then u s.core.clamp
  else if 0x010 ≤ n && n ≤ 0x012 then un (s.team.grid.getD (n - 0x010) 1)
  else if 0x013 ≤ n && n ≤ 0x015 then un (s.team.pos.getD (n - 0x013) 0)
  else if n == 0x016 then u (wavepos s.team s.m)
  else if n == 0x017 then ln s.m.lorig
  else if n == 0x018 then un s.m.stack.length
  else if n == 0x020 then u s.m.rskey
  else if n == 0x021 then ln s.m.rsctr
  else if n == 0x030 then u s.m.xstat
  else if n == 0x040 then u s.m.regstat
  else if n == 0x041 then un (programBudget s.m)
  else if n == 0x042 then u (s.m.spillcnt.getD 0 0#64)
  else if n == 0x043 then u (s.m.refillcnt.getD 0 0#64)
  else if n == 0x044 then un (poolFree s (s.m.slots.getD 0 0 / 8))
  else if n == 0x045 then u (s.m.rascnt.getD 0 0#64)
  else if n == 0x046 then u s.m.bsbase
  else if n == 0x080 then u s.ctx.vwbase
  else if n == 0x081 then u s.ctx.winbase
  else if n == 0x082 then u s.part.evstat
  else if n == 0x083 then u (mapBits (s.ctx.wins.map (·.1)))
  else if n == 0x084 then un (ctxOvOr s n s.ctx.hwbase)
  else if n == 0x085 then un (ctxOvOr s n s.ctx.hwlimit)
  else if n == 0x086 then un (ctxOvOr s n s.ctx.hwoff)
  else if n == 0x087 then un (ctxOvOr s n s.ctx.s1root)
  else if n == 0x088 then un s.ctx.id
  else if n == 0x089 then some (.lanes fun l => ((xlRecs s.m).getD l {}).va)
  else if n == 0x08A then some (.lanes fun l => ((xlRecs s.m).getD l {}).ipa)
  else if n == 0x08B then some (.lanes fun l => ((xlRecs s.m).getD l {}).info)
  else if n == 0x08C then u s.part.poolbase
  else if n == 0x08D then u s.part.poolcap
  else if n == 0x08E then u s.part.poolcnt
  else if n == 0x08F then un (ctxOvOr s n s.ctx.svmbase)
  else if n == 0x090 then un (ctxOvOr s n s.ctx.svmlimit)
  else if n == 0x091 then u s.part.prbase
  else if n == 0x092 then u s.part.prlim
  else if n == 0x093 then u (tagMask s.team)
  else if n == 0x094 then u s.m.cpfault
  else if 0x095 ≤ n && n ≤ 0x098 then u (s.team.mcwin.getD (n - 0x095) 0#64)
  else if n == 0x099 then un s.m.apNum
  else if n == 0x09A then u s.m.qfault
  else if n == 0x09B then u s.m.ovlva
  else if n == 0x09C then u s.m.shfault
  else if n == 0x09D then u (mapBits ((s.team.sh :: s.team.shs).filterMap fun c => if c.id == 0 then none else some c.handle))
  else if n == 0x0C0 then u s.m.rowadmit
  else if n == 0x0C1 then u s.team.mxstat
  else if n == 0x0C2 then u (mxCount s s.team.mxskip s.m.sureSkip)
  else if n == 0x0C3 then u (mxCount s s.team.mxpre s.m.surePre)
  else if n == 0x0C4 then u s.team.mxras
  else if n == 0x0C5 then u (wbFree s)
  else if n == 0x0C6 then u (mapBits ((s.team.wbs.filter fun w => !w.freed).map (·.handle)))
  else if n == 0x0C7 then u s.team.lblstat
  else if n == 0x0C8 then un (s.team.rels.length + s.team.trees.length * 16)
  else if n == 0x0C9 then u s.part.tapbase
  else if n == 0x0CA then u s.team.tapstat
  else if n == 0x100 then u s.m.lc
  else if 0x101 ≤ n && n ≤ 0x104 then u ((s.m.lapit.getD (n - 0x101) 0#32).setWidth 64)
  else if n == 0x105 then un s.team.drift
  else if n == 0x106 then u s.team.prkstat
  else if n == 0x107 then un s.m.memNo
  else if n == 0x108 then u s.m.rspbase
  else if n == 0x109 || n == 0x10A then u (s.team.tbmask.getD (n - 0x109) 0#64)
  else if 0x10B ≤ n && n ≤ 0x112 then un ((s.part.bts.getD (n - 0x10B) {}).expect)
  else if n == 0x113 then u s.m.leaseinfo
  else if 0x140 ≤ n && n ≤ 0x153 then u (banked s.m n)
  else if n == 0x160 then un (emuDepth s.m)
  else if n == 0x161 then un (svDepth s.m)
  else if n == 0x162 then u s.ctx.emuVec
  else if n == 0x163 then u s.ctx.trapVec
  else if n == 0x164 then u s.part.svvec
  else if n == 0x180 then u s.team.prestat
  else if n == 0x181 then u s.m.pre.pc
  else if n == 0x182 then u (s.team.bindrec.setWidth 64)
  else none

/-- Whether `SWR` may write a register (R100). R217 calls `sr.s1root` read-only and R226 gives it privileged read and write: that a privileged `SWR`
writes it is the model's choice (log 120). -/
def srWritable (n : Nat) : Bool :=
  n == 0x020 || n == 0x021 || n == 0x030 || n == 0x040 || (0x084 ≤ n && n ≤ 0x087) || (0x08C ≤ n && n ≤ 0x090) ||
    (0x094 ≤ n && n ≤ 0x098) || n == 0x09A || n == 0x09C || n == 0x0C1 || n == 0x0C7 || n == 0x0CA ||
    (0x101 ≤ n && n ≤ 0x104) || n == 0x106 || (0x109 ≤ n && n ≤ 0x112) || n == 0x141 || n == 0x144 || n == 0x145 || n == 0x14F ||
    n == 0x164

/-- The emulation cause under which an access to a special register goes to the handler (R100); an unassigned number and a write to a
read-only register are SREG, a missing privilege is PRIV. -/
def srFault (s : State) (n : Nat) (write : Bool) : Option EmuCause :=
  if (srRead s n).isNone then some .sreg
  else if srPriv n && !memberPriv s then some .priv
  else if write && !srWritable n then some .sreg
  else none

/-- CANCEL, the one writable bit of an engine-fault register (R267, R288, R373). -/
def withCancel (old x : Dword) : Dword := setFld old 63 63 (fld x 63 63)

/-- A banked register of the current frame written (R449): `sr.emu_pc` holds nothing in a frame not entered by EMU, but is marked as written;
outside every frame nothing is (log 13). -/
def setBanked (m : Member) (n : Nat) (x : Dword) : Member :=
  match m.frames with
  | f :: fs =>
    let bank := if n == 0x14F && f.cls != cEmu then f.bank else f.bank.set (n - 0x140) x
    { m with frames := { f with bank := bank, pcWritten := f.pcWritten || n == 0x14F } :: fs }
  | [] => m

/-- The fields of a multicast window (R269). -/
def mcKey (w : Dword) : Nat := fld w 63 48
def mcSize (w : Dword) : Nat := fld w 43 24
def mcBase (w : Dword) : Nat := fld w 19 0

/-- Whether a multicast delivery into the team's window of a key is in flight (R269, R270): the descriptor word of a multicast holds its key,
and that of a plain `TCOPY` holds 0 there (R275). -/
def mcInFlight (s : State) (key : Nat) : Bool :=
  let aims (c : Copy) : Bool := match c.op with
    | .tensor _ desc _ _ ts _ => fld desc 55 40 == key && ts.any fun t => t.1 == s.team.id
    | _ => false
  ((s.team.copies ++ (s.teams.map fun t => t.1.copies).flatten)).any aims

/-- A write to `sr.mcwinN` (R269). -/
def writeMcwin (s : State) (n : Nat) (x : Dword) : Except Trap State :=
  let v := setFld (setFld (setFld x 47 44 0) 23 20 0) 6 0 0
  let old := s.team.mcwin.getD n 0#64
  let others := (s.team.mcwin.zipIdx.filter fun e => e.2 != n).map fun e => mcKey e.1
  if mcBase v + 128 * mcSize v > s.team.share || (mcKey v != 0 && others.contains (mcKey v)) ||
      (mcKey old != 0 && mcInFlight s (mcKey old)) then .error (shape shMcwin)
  else .ok { s with team := { s.team with mcwin := s.team.mcwin.set n v } }

/-- A write to `sr.tbmask0` or `sr.tbmask1` (R401): refused where a changed barrier has an arrival in its phase. -/
def writeTbmask (s : State) (n : Nat) (x : Dword) : Except Trap State :=
  let v := (List.range 8).foldl (fun v i => setFld v (8 * i + 7) (8 * i + 7) 0) x
  let old := s.team.tbmask.getD n 0#64
  let busy := (List.range 8).any fun i =>
    let b := s.team.bars.getD (8 * n + i) {}
    fld v (8 * i + 7) (8 * i) != fld old (8 * i + 7) (8 * i) && b.arrived != []
  if busy then .error (shape shBar) else .ok { s with team := { s.team with tbmask := s.team.tbmask.set n v } }

/-- A write to `sr.btexpN` (R404): refused while the phase has an arrival. -/
def writeBtexp (s : State) (n : Nat) (x : Dword) : Except Trap State :=
  let b := s.part.bts.getD n {}
  if b.arrived != [] then .error (shape shBar)
  else .ok { s with part := { s.part with bts := s.part.bts.set n { b with expect := fld x 19 0 } } }

/-- A uniform special register written (R100); reserved bits are ignored (R2). -/
def srWriteUni (s : State) (n : Nat) (x : Dword) : Except Trap State :=
  let mem (m : Member) : Except Trap State := .ok { s with m := m }
  let team (t : Team) : Except Trap State := .ok { s with team := t }
  let part (p : Partition) : Except Trap State := .ok { s with part := p }
  if n == 0x020 then mem { s.m with rskey := x }
  else if n == 0x030 then mem { s.m with xstat := if fld x 7 0 == 0 then setFld s.m.xstat 7 0 0 else s.m.xstat }
  else if n == 0x040 then mem { s.m with regstat := x &&& 7#64 }
  else if (0x084 ≤ n && n ≤ 0x087) || n == 0x08F || n == 0x090 then mem { s.m with ctxOv := insertKey n x s.m.ctxOv }
  else if n == 0x08C then part { s.part with poolbase := x }
  else if n == 0x08D then part { s.part with poolcap := x }
  else if n == 0x08E then part { s.part with poolcnt := x }
  else if n == 0x094 then mem { s.m with cpfault := withCancel s.m.cpfault x }
  else if 0x095 ≤ n && n ≤ 0x098 then writeMcwin s (n - 0x095) x
  else if n == 0x09A then mem { s.m with qfault := withCancel s.m.qfault x }
  else if n == 0x09C then mem { s.m with shfault := withCancel s.m.shfault x }
  else if n == 0x0C1 then team { s.team with mxstat := x &&& 1#64 }
  else if n == 0x0C7 then team { s.team with lblstat := if bit x 0 then s.team.lblstat else 0#64 }
  else if n == 0x0CA then team { s.team with tapstat := x &&& 3#64 }
  else if 0x101 ≤ n && n ≤ 0x104 then mem { s.m with lapit := s.m.lapit.set (n - 0x101) (lo32 x) }
  else if n == 0x106 then team { s.team with prkstat := x &&& 1#64 }
  else if n == 0x109 || n == 0x10A then writeTbmask s (n - 0x109) x
  else if 0x10B ≤ n && n ≤ 0x112 then writeBtexp s (n - 0x10B) x
  else if n == 0x141 || n == 0x144 || n == 0x145 || n == 0x14F then mem (setBanked s.m n x)
  else if n == 0x164 then part { s.part with svvec := x }
  else .ok s

end Sys2Proof.Machine
end

