-- ==== Sys2Proof/Machine/Control.lean ====
section
/-!
DEFINITION. The control instructions (spec/04_waves.md R86 to R101), and the writes of special registers that other agents see (R269, R401,
R404).
-/
namespace Sys2Proof.Machine

/-- The outcome of every meaning: a next state, for nothing in spec/ stops the machine. -/
abbrev Out := Host.Outcome State Fault Refusal

/-- NOP (R86): no effect. -/
def execNop (f : Fields) (s : State) : Out := issue eNop f s fun _ s => .ok s

/-- The trailing displacements (R86). -/
def disp1 (f : Fields) : Dword := sx 32 (fld f.ext 31 0)
def disp2 (f : Fields) : Dword := sx 32 (fld f.ext 63 32)

/-- Whether an address is a multiple of 4 (R61). -/
def aligned4 (a : Dword) : Bool := a.toNat % 4 == 0

/-- The taken lanes of a branch (R87). -/
def takenLanes (ic : Ic) : Mask := ic.act &&& maskOf ic.n ic.cond0

/-- `BRU`: the whole of EXEC moves if any lane is taken (R88). -/
def branchUniform (ic : Ic) (s : State) : Act :=
  let tgt := ic.pc + disp1 ic.f
  if !aligned4 tgt then .trap alignTrap
  else .go (setCursor s (if takenLanes ic != 0#128 then tgt else ic.next))

/-- The top entry of the stack that belongs to the running program or handler (R74, R448). -/
def topEntry (m : Member) : Option StackEntry := if frameMark m < m.stack.length then m.stack.head? else none

/-- `BR` on a wave (R88). -/
def branchDivergent (ic : Ic) (s : State) : Act :=
  let t := takenLanes ic
  let tgt := ic.pc + disp1 ic.f
  if !aligned4 tgt then .trap alignTrap
  else if t == s.m.exec then .go (setCursor s tgt)
  else if t == 0#128 then .ok s
  else
    let fwd := decide (ic.pc.toNat < tgt.toNat)
    let rpc : BitVec 48 := (if fwd then tgt else ic.next).setWidth 48
    let same := match topEntry s.m with | some e => e.kind == EntryKind.a && e.addr == rpc | none => false
    match pushEntries s (if same then [] else [{ mask := s.m.exec, kind := .a, addr := rpc }]) with
    | .error e => .trap e
    | .ok s' =>
      let ex := if fwd then s.m.exec &&& ~~~t else t
      .go (setCursor { s' with m := { s'.m with exec := ex } } (if fwd then ic.next else tgt))

/-- BR (R88); with one lane it acts as `BRU` (R282). -/
def execBr (f : Fields) (s : State) : Out :=
  issue eBr f s fun ic s => if ic.one then branchUniform ic s else branchDivergent ic s

/-- BRU (R88). -/
def execBru (f : Fields) (s : State) : Out := issue eBru f s branchUniform

/-- BRD (R89). -/
def execBrd (f : Fields) (s : State) : Out :=
  issue eBrd f s fun ic s =>
    let t := takenLanes ic
    let tgt := ic.pc + disp1 f
    let join := ic.pc + disp2 f
    if !aligned4 tgt || !aligned4 join then .trap alignTrap
    else
      let j : StackEntry := { mask := s.m.exec, kind := .j, addr := join.setWidth 48 }
      let p : StackEntry := { mask := t, kind := .p, addr := tgt.setWidth 48 }
      match pushEntries s (if t == s.m.exec || t == 0#128 then [j] else [p, j]) with
      | .error e => .trap e
      | .ok s' =>
        if t == s.m.exec then .go (setCursor s' tgt)
        else .go (setCursor { s' with m := { s'.m with exec := s.m.exec &&& ~~~t } } ic.next)

/-- JOIN (R90). Its pop may refill the held entries from the stack extension (R74), and raises RAS where that place is lost (R509). -/
def execJoin (f : Fields) (s : State) : Out :=
  issue eJoin f s fun _ s =>
    match topEntry s.m with
    | some e =>
      if e.kind = .j || e.kind = .p then
        if refillLost s 1 then .trap extTrap
        else
          let s := refill s 1
          .go { s with m := { s.m with exec := e.mask &&& s.m.live, cursor := e.addr.setWidth 64, stack := s.m.stack.tail } }
      else .trap (bound bRstk)
    | none => .trap (bound bRstk)

/-- CALL (R91, R92). -/
def execCall (f : Fields) (s : State) : Out :=
  issue eCall f s fun ic s =>
    match pushEntries s [{ mask := s.m.exec, kind := .c, addr := (ic.pc + 8#64).setWidth 48 }] with
    | .error e => .trap e
    | .ok s => .go (setCursor { s with m := { s.m with exec := ic.act } } (ic.pc + (disp24 f).signExtend 64 * 4#64))

/-- The target of an indirect call in a lane: 48 bits (R93). -/
def callTarget (ic : Ic) (l : Nat) : Nat := (ic.src0 true l).toNat % 2 ^ 48

/-- Distinct numbers in ascending order. -/
def insertAsc (x : Nat) : List Nat → List Nat
  | [] => [x]
  | y :: r => if x < y then x :: y :: r else if x = y then y :: r else y :: insertAsc x r

def ascending (l : List Nat) : List Nat := l.foldl (fun a x => insertAsc x a) []

/-- CALLX (R93): the lanes of each distinct target form a group, and the groups run in ascending address order. -/
def execCallx (f : Fields) (s : State) : Out :=
  issue eCallx f s fun ic s =>
    if ic.lanes.any fun l => callTarget ic l % 4 != 0 then .trap alignTrap
    else
      let gs := ascending (ic.lanes.map (callTarget ic))
      let group (g : Nat) : Mask := ic.act &&& maskOf ic.n fun l => callTarget ic l == g
      let rest := s.m.exec &&& ~~~ic.act
      let ret : BitVec 48 := (ic.pc + 8#64).setWidth 48
      let first : List StackEntry :=
        if modBits f 0 0 == 0 then [{ mask := s.m.exec, kind := .c, addr := ret }]
        else if rest != 0#128 then [{ mask := rest, kind := .p, addr := ret }] else []
      let g1 := gs.headD 0
      match pushEntries s ((gs.tail.map fun g => { mask := group g, kind := .p, addr := BitVec.ofNat 48 g }) ++ first) with
      | .error e => .trap e
      | .ok s => .go (setCursor { s with m := { s.m with exec := group g1 } } (BitVec.ofNat 64 g1))

/-- Lanes removed from the entries above the topmost C entry; none where there is no C entry (R94). -/
def leaveCall (gone : Mask) : List StackEntry → Option (List StackEntry)
  | [] => none
  | e :: r => if e.kind = .c then some (e :: r) else (leaveCall gone r).map fun r => { e with mask := e.mask &&& ~~~gone } :: r

/-- The lanes active after predication leave LIVE (R95). -/
def exitLanes (ic : Ic) (s : State) : Act := .ok (dropLanes s ic.act)

/-- RET (R94): without a C entry of its own it acts as `EXIT`. -/
def execRet (f : Fields) (s : State) : Out :=
  issue eRet f s fun ic s =>
    let own := s.m.stack.length - frameMark s.m
    match leaveCall ic.act (s.m.stack.take own) with
    | some st => .ok { s with m := { s.m with stack := st ++ s.m.stack.drop own, exec := s.m.exec &&& ~~~ic.act } }
    | none => exitLanes ic s

/-- EXIT (R95). -/
def execExit (f : Fields) (s : State) : Out := issue eExit f s exitLanes

/-- YIELD (R96): the wave counts as ready from this cycle. -/
def execYield (f : Fields) (s : State) : Out := issue eYield f s fun _ s => .ok { s with m := { s.m with ready := s.cycle } }

/-- The longest sleep (R97). -/
def sleepMax : Nat := 2 ^ 24 - 1

/-- SLEEP (R97): the member sleeps for min(S0, 2^24 - 1) cycles, which an interruption suspends. -/
def execSleep (f : Fields) (s : State) : Out :=
  issue eSleep f s fun ic s' =>
    match ic.old with
    | some (.sleep c) => if c ≤ s.cycle then .ok (lateLast eSleep ic s') else .sleep (.sleep c)
    | some .slept => .ok (lateLast eSleep ic s')
    | _ =>
      let n := min (ic.u0 false).toNat sleepMax
      if n == 0 then .ok (lateLast eSleep ic s') else .hold s' (.sleep (s.cycle + n))

/-- 64 lanes of a mask, from lane 64 with H = 1 (R98). -/
def maskHalf (f : Fields) (m : Mask) : Dword := if modBits f 0 0 == 1 then maskHi m else maskLo m

/-- MSKRD (R98). -/
def execMskrd (f : Fields) (s : State) : Out :=
  issue eMskrd f s fun ic s => .ok (ic.writeAll s false (maskHalf f ic.rd.m.exec))

/-- The lanes that may run at this point: the nearest entry of kind A, J or C, without the lanes of the P entries above it (R98). -/
def runnable (live : Mask) : List StackEntry → Mask
  | [] => live
  | e :: r => if e.kind = .p then runnable live r &&& ~~~e.mask else e.mask &&& live

/-- MSKWR (R98). -/
def execMskwr (f : Fields) (s : State) : Out :=
  issue eMskwr f s fun ic s =>
    let x : Mask := (ic.u0 false).setWidth 128
    let x := if modBits f 0 0 == 1 then x <<< 64 else x
    let own := s.m.stack.length - frameMark s.m
    .ok { s with m := { s.m with exec := x &&& runnable s.m.live (s.m.stack.take own) } }

/-! ## REGROUP -/

/-- The focus moved to another member of the team. -/
def swapTo (s : State) (id : Nat) : State :=
  match s.peers.find? fun m => m.id == id with
  | some m => { s with m := m, peers := s.peers.map fun p => if p.id == id then s.m else p }
  | none => s

/-- The free lanes of a host, ascending, paired with the partner's live lanes (R99). -/
def migration (host partner : Member) : List (Nat × Nat) :=
  (lanesOf 32 partner.live).zip ((List.range 32).filter fun l => !host.live.getLsbD l)

/-- A change of another member of the team, as that member makes it. -/
def atPeer (s : State) (id : Nat) (g : State → Except Trap State) : Except Trap State := do
  let me := s.m.id
  let s ← g (swapTo s id)
  return swapTo s me

/-- The host's lanes that take a lane of the partner, and the partner's lane of each. -/
def takenBy (pairs : List (Nat × Nat)) : Mask := pairs.foldl (fun m p => m ||| (1#128 <<< p.2)) 0#128
def takenFrom (pairs : List (Nat × Nat)) (l : Nat) : Nat := ((pairs.find? fun p => p.2 == l).map (·.1)).getD 0

/-- The registers that a `REGROUP` of the registers `rs` names while it moves register `r`: the range with S2, or, where they are more than the
floor of R104, that register with S2 (R109, R110; log 108). -/
def regroupNamed (rs s2 : List Nat) (r : Nat) : List Nat := if rs.length + s2.length ≤ regFloor then rs ++ s2 else r :: s2

/-- A register of the migrated range as the host takes it (R99): a mapped one of the partner is read there, and refilled where it is spilled; the
host takes its lanes, with 0 elsewhere in a register that was unmapped. -/
def migrateReg (partner : Nat) (named : Nat → List Nat) (pairs : List (Nat × Nat)) (s : State) (r : Nat) : Except Trap State := do
  let rfOf (s : State) : RegFile := (swapTo s partner).m.rf
  let mapped := (vreg (rfOf s) r 0).isSome
  if !mapped && (vreg s.m.rf r 0).isNone then return s
  else
    let s ← if mapped then atPeer s partner fun p => touchReg p 0 (named r) r 0 else .ok s
    let s ← openReg s 0 (named r) r 0
    return writeV s r (takenBy pairs) fun l => vLane (rfOf s) r (takenFrom pairs l)

/-- A window with a predicate's migrated lanes taken from the partner's. -/
def migratePred (pairs : List (Nat × Nat)) (partner rf : RegFile) (n : Nat) : RegFile :=
  putP rf n (takenBy pairs) (maskOf 32 fun l => (pReg partner n).getLsbD (takenFrom pairs l))

/-- A value of the host's lane list with the migrated lanes taken from the partner's. -/
def migrateList (pairs : List (Nat × Nat)) (host partner : List Word) : List Word :=
  pairs.foldl (fun h p => h.set p.2 (partner.getD p.1 0#32)) host

/-- The focus hosts the lanes of `partner` (R99): the registers `a` to `b`, beside those that S2 names. A parity error in a predicate of the partner
raises RAS (R114). The host's last reads `last` end in the lanes of `act` before it takes the lanes (R108). -/
def fuseInto (s : State) (partner : Member) (s2 : List Nat) (a b : Nat) (last : List Nat) (act : Mask) : Except Trap State := do
  let pairs := migration s.m partner
  let rs := (List.range (b + 1 - a)).map (a + ·)
  if partner.rf.pbad.any (· != 0#128) then .error { cls := cRas, cause := 1 }
  else
    let s ← rs.foldlM (migrateReg partner.id (regroupNamed rs s2) pairs) (applyLr s act last rs)
    let live := s.m.live ||| takenBy pairs
    return { s with m := { s.m with
      rf := (List.range 7).foldl (migratePred pairs partner.rf) s.m.rf, rsctr := migrateList pairs s.m.rsctr partner.rsctr
      lorig := migrateList pairs s.m.lorig partner.lorig, live := live, exec := live } }

/-- The status that two waves at `REGROUP` come to (R99): 4, 5, 2, or 0 where they fuse. That order is the model's choice (log 29). -/
def regroupStatus (me other : Member) (partner otherPartner : Nat) : Nat :=
  if other.cursor != me.cursor || otherPartner != me.waveId || partner != other.waveId then 4
  else if me.stack != [] || other.stack != [] || me.exec != me.live || other.exec != other.live then 5
  else if countLanes me.live + countLanes other.live > 32 then 2
  else 0

/-- A peer of the team changed. -/
def modifyPeer (s : State) (id : Nat) (g : Member → Member) : State :=
  { s with peers := s.peers.map fun p => if p.id == id then g p else p }

/-- The waves that sleep in a `REGROUP` naming the focus end it with status 4 as the focus arrives at a `REGROUP`, but for the one that it names
(R99). -/
def releaseNamed (s : State) (keep : Option Nat) : State :=
  let end4 (w : Wait) : Wait := match w with
    | .regroup _ _ n _ _ => if n == s.m.waveId then .regrouped 4 else w
    | w => w
  { s with peers := s.peers.map fun p => if some p.id == keep then p else mapWaits end4 p }

/-- The k destination of `REGROUP` written with a status. -/
def regroupDone (ic : Ic) (s : State) (st : Nat) : State := ic.writeAll s false (BitVec.ofNat 64 st)

/-- A `REGROUP` that leaves the wave unchanged ends (R99, R108). -/
def regroupAlone (ic : Ic) (s : State) (st : Nat) : State := regroupDone ic (lateLast eRegroup ic s) st

/-- REGROUP (R99). -/
def execRegroup (f : Fields) (s : State) : Out :=
  issue eRegroup f s fun ic s =>
    match ic.old with
    | some (.regrouped st) => .ok (if st = 0 then regroupDone ic s st else regroupAlone ic s st)
    | old =>
      let a := f.s0.toNat
      let b := f.s1.toNat
      let s2 := fieldRegs s f eRegroup.s2 f.s2
      if b < a || s.m.rf.budget ≤ b then .trap (bound bReg)
      else if s.team.width != 32 then .trap (emuTrap .width)
      else
          let partner := match old with | some (.regroup _ _ n _ _) => n | _ => (ic.u2 false).toNat % 2 ^ 32
          let last := lastRegs eRegroup f s
          match s.peers.find? fun p => p.kind = .wave && p.waveId == partner && p.role == s.m.role && p.status != .retired with
          | none => .ok (regroupAlone ic (releaseNamed s none) 3)
          | some p =>
            let s := releaseNamed s (some p.id)
            match p.wait with
            | some (.regroup _ _ named pLast pAct) =>
              let st := regroupStatus s.m p partner named
              if st != 0 then .ok (regroupAlone ic (modifyPeer s p.id fun p => { p with wait := some (.regrouped st) }) st)
              else if s.m.waveId < p.waveId then
                match fuseInto s p s2 a b last ic.act with
                | .error t => .trap t
                | .ok s =>
                  let s := regroupDone ic s 0
                  let me := s.m.id
                  .ok (swapTo (retire (swapTo s p.id)) me)
              else
                let me := s.m
                match fuseInto (swapTo s p.id) me s2 a b pLast pAct with
                | .error t => .trap t
                | .ok s =>
                  let s := { s with m := { s.m with wait := some (.regrouped 0) } }
                  let s := swapTo s me.id
                  .go { s with m := { s.m with live := 0#128, exec := 0#128 } }
            | _ => .hold s (.regroup a b partner last ic.act)

/-! ## Special registers -/

/-- The number of a special register (R86). -/
def srNum (f : Fields) : Nat := f.s1.toNat

/-- SRD (R100). -/
def execSrd (f : Fields) (s : State) : Out :=
  issue eSrd f s fun ic s =>
    match srFault ic.rd (srNum f) false with
    | some c => .trap (emuTrap c)
    | none =>
      let hi (x : Dword) : Dword := if modBits f 0 0 == 1 then x >>> 32 else x
      match srRead ic.rd (srNum f) with
      | some (.uni x) => .ok (ic.writeAll (spendSr s (srNum f)) false (hi x))
      | some (.lanes g) => .ok (ic.write s false fun l => hi (g l))
      | none => .ok s

/-- The value that `SWR` writes to a register that held `old` (R100). -/
def swrValue (f : Fields) (old x : Dword) : Dword := if modBits f 0 0 == 1 then (lo32 x) ++ (lo32 old) else x

/-- SWR (R100, R101). A vector source is a pair for a 64-bit register, or one register, zero-extended. -/
def execSwr (f : Fields) (s : State) : Out :=
  issue eSwr f s fun ic s =>
    let n := srNum f
    match srFault ic.rd n true with
    | some c => .trap (emuTrap c)
    | none =>
      let x (l : Nat) : Dword :=
        match ic.opnd f.s0 with
        | .imm => BitVec.ofNat 64 (fld f.ext 31 0)
        | _ => ic.src0 (swrSpan f == 2) l
      match srRead ic.rd n with
      | some (.uni old) => Act.of (srWriteUni s n (swrValue f old (x ic.lane)))
      | _ =>
        let ctr := (List.range ic.n).map fun l => if ic.act.getLsbD l then lo32 (x l) else s.m.rsctr.getD l 0#32
        .ok { s with m := { s.m with rsctr := ctr } }

/-- A write to a special register that stands outside an instruction: its effect, or the trap it is refused with, taken by the member in
focus at its cursor. -/
def outsideWrite (s : State) (r : Except Trap State) : State :=
  match r with
  | .ok s' => s'
  | .error t =>
    enterTrap s { len := 0, role := 7, preg := 7, pneg := 0, lr := 0, mod := 0, dst := 0, s0 := 0, s1 := 0, s2 := 0, ext := 0, opc := 0x010 }
      s.m.cursor 8 s.m.exec t

/-- MCWIN_WRITE (R269). -/
def execMcwinWrite (n : BitVec 2) (v : Dword) (s : State) : Out := .next (outsideWrite s (writeMcwin s n.toNat v))

/-- TBMASK_WRITE (R401). -/
def execTbmaskWrite (n : BitVec 1) (v : Dword) (s : State) : Out := .next (outsideWrite s (writeTbmask s n.toNat v))

/-- BTEXP_WRITE (R404). -/
def execBtexpWrite (n : BitVec 3) (v : Dword) (s : State) : Out := .next (outsideWrite s (writeBtexp s n.toNat v))

/-! ## Events of sleeping members -/

/-- The member's sleep ends; its instruction issues again at its next turn (R84). -/
def wake (s : State) : State := { s with m := { s.m with wait := none, ready := s.cycle } }

/-- SLEEP_EXPIRY (R97): the count has run out, and the `SLEEP` completes when it issues again. -/
def execSleepExpiry (s : State) : Out :=
  match s.m.wait with
  | some (.sleep c) => if c ≤ s.cycle then .next { s with m := { s.m with wait := some .slept } } else .next s
  | _ => .next s

end Sys2Proof.Machine
end

