-- ==== Sys2Proof/Machine/Fetch.lean ====
section
/-!
DEFINITION. Whose turn it is and what it fetches (spec/03_encoding.md R61, R62; spec/04_waves.md R75; spec/16_pricking.md R383): moving the
focus between agents, the cluster instruction cache, and the instruction at a member's cursor.
-/
namespace Sys2Proof.Machine

/-! ## Focus -/

/-- The core in focus becomes core `n`; a core that no list holds is as after reset (R11, R102). -/
def pickCore (s : State) (n : Nat) : State :=
  if s.core.num == n then s
  else
    let c := (s.cores.find? fun c => c.num == n).getD { num := n }
    { s with core := c, cores := s.core :: s.cores.filter fun c => c.num != n }

/-- The cluster in focus becomes cluster `n`. -/
def pickCluster (s : State) (n : Nat) : State :=
  if s.cl.num == n then s
  else
    let c := (s.cls.find? fun c => c.num == n).getD { num := n }
    { s with cl := c, cls := s.cl :: s.cls.filter fun c => c.num != n }

/-- The partition in focus becomes partition `n`, where there is one. -/
def pickPart (s : State) (n : Nat) : State :=
  if s.part.present && s.part.num == n then s
  else
    match s.parts.find? fun p => p.num == n with
    | some p =>
      let rest := s.parts.filter fun p => p.num != n
      { s with part := p, parts := if s.part.present then s.part :: rest else rest }
    | none => s

/-- The context in focus becomes context `id` of partition `part`, where there is one. -/
def pickCtx (s : State) (part id : Nat) : State :=
  if s.ctx.alive && s.ctx.id == id && s.ctx.part == part then s
  else
    match s.ctxs.find? fun c => c.id == id && c.part == part with
    | some c => { s with ctx := c, ctxs := s.ctx :: s.ctxs.filter fun c => !(c.id == id && c.part == part) }
    | none => s

/-- The team in focus put back among the others. -/
def parkTeam (s : State) : State :=
  if s.team.present then { s with teams := (s.team, s.m :: s.peers) :: s.teams, team := {}, m := {}, peers := [] } else s

/-- The core, cluster, context and partition of the team in focus. -/
def followTeam (s : State) : State :=
  pickCtx (pickPart (pickCluster (pickCore s s.team.core) (s.team.core / 8)) s.team.part) s.team.part s.team.ctx

/-- The team in focus becomes team `id`, with the first of its members. -/
def pickTeam (s : State) (id : Nat) : State :=
  if s.team.present && s.team.id == id then s
  else
    match s.teams.find? fun t => t.1.id == id with
    | some (t, m :: ms) =>
      let s := parkTeam s
      followTeam { s with team := t, m := m, peers := ms, teams := s.teams.filter fun t => t.1.id != id }
    | _ => s

/-- The team that holds member `id`. -/
def teamOfMember (s : State) (id : Nat) : Option Nat := (s.teams.find? fun t => t.2.any fun m => m.id == id).map (·.1.id)

/-- The member in focus becomes member `id`, where there is one. -/
def pickMember (s : State) (id : Nat) : State :=
  if s.m.id == id then s
  else if s.peers.any fun m => m.id == id then swapTo s id
  else
    match teamOfMember s id with
    | some t =>
      let s := pickTeam s t
      if s.m.id == id then s else swapTo s id
    | none => s

/-- The shuttle context in focus within a team becomes context `id`. -/
def pickShuttle (s : State) (id : Nat) : State :=
  if s.team.sh.id == id then s
  else
    match s.team.shs.find? fun c => c.id == id with
    | some c =>
      let rest := s.team.shs.filter fun c => c.id != id
      { s with team := { s.team with sh := c, shs := if s.team.sh.id == 0 then rest else s.team.sh :: rest } }
    | none => s

/-! ## Issue selection (R429) -/

/-- The issue slot in which a wave is chosen: the lowest of its group (R83, R429). -/
def issueSlot (m : Member) : Nat := (m.slots.map (· / 8)).foldl min 3

/-- Whether a wave's next instruction can issue: it runs, and does not sleep (log 102). -/
def canIssue (m : Member) : Bool := m.kind == .wave && m.status == .running && m.wait.isNone

/-- PRIO of a bind record (R426). -/
def brPrio (r : BitVec 256) : Nat := fld r 4 2

/-- The waves that compete with the member in focus for its issue slot, with their PRIO. -/
def contenders (s : State) : List (Nat × Member) :=
  let teams := (s.team, s.m :: s.peers) :: s.teams.filter fun t => t.1.core == s.core.num && t.1.present
  ((teams.map fun t => (t.2.filter fun m => canIssue m && issueSlot m == issueSlot s.m).map fun m => (brPrio t.1.bindrec, m))).flatten

/-- Whether a wave has been ready for 64 cycles or more without issuing (R429). -/
def starving (cycle : Nat) (m : Member) : Bool := decide (max m.ready m.issued + 64 ≤ cycle)

/-- Whether one wave is chosen before another (R429): a starving one first, the one ready longest; then PRIO; then the one ready longest. -/
def chosenBefore (cycle : Nat) (a b : Nat × Member) : Bool :=
  match starving cycle a.2, starving cycle b.2 with
  | true, true => a.2.ready < b.2.ready
  | true, false => true
  | false, true => false
  | false, false => b.1 < a.1 || (a.1 == b.1 && a.2.ready < b.2.ready)

/-- The wave that the issue slot of the member in focus chooses (R429); of waves that are equal the member in focus, or the first (log 102). -/
def chosen (s : State) : Nat :=
  ((contenders s).foldl (fun best x => if chosenBefore s.cycle x best then x else best) (brPrio s.team.bindrec, s.m)).2.id

/-- The turn of a member (R84, R429): a wave that can issue yields to the one that its issue slot chooses, a sleeping member looks at its sleep
again, and access processors and sequencers go their own way. -/
def takeTurn (s : State) (id : Nat) : State :=
  let s := pickMember s id
  if canIssue s.m then
    let s := pickMember s (chosen s)
    { s with m := { s.m with issued := s.cycle } }
  else if s.m.wait.isSome then { s with m := { s.m with ready := s.cycle } }
  else s

/-! ## The instruction cache -/

/-- The role mask of a code block (R383): bit r for an instruction of role r that starts in it, one that would extend past it among them. -/
def roleMask : Nat → List Byte → Nat → BitVec 8
  | 0, _, _ => 0#8
  | fuel + 1, bs, off =>
    if 32 < off + 8 then 0#8
    else
      let w := BitVec.ofNat 64 (ofLeBytes ((bs.drop off).take 8))
      let f := fieldsOf w 0#64
      (1#8 <<< f.role.toNat) ||| (if f.len == 3#2 then 0#8 else roleMask fuel bs (off + lenBytes f))

/-- A code block as memory holds it (R61, R383). -/
def loadBlock (s : State) (pa : Nat) : IBlock :=
  let bs := readCells s.mem pa 32
  { pa := pa, bytes := bs, roles := roleMask 4 bs 0 }

/-- The cluster's cached block at a PA (R62). -/
def cachedBlock (c : Cluster) (pa : Nat) : Option IBlock := c.icache.find? fun b => b.pa == pa

/-- The blocks of 32 bytes that a cluster's instruction cache of 256 KiB holds (R7). -/
def icacheBlocks : Nat := 8192

/-- The cluster holds the block at a PA from now on, which comes through the second-level cache (R195). A full cache gives up its oldest block, and
the cluster any block at any time (log 122). -/
def fillBlock (s : State) (pa : Nat) : State :=
  match cachedBlock s.cl pa with
  | some _ => s
  | none => { l2Locs s [.pa pa] false with cl := { s.cl with icache := s.cl.icache.drop (s.cl.icache.length + 1 - icacheBlocks) ++ [loadBlock s pa] } }

/-- The block of a VA, which a fetch has found at a PA, with what its walk reads (R195, R217). -/
def fetchBlock (s : State) (va pa : Nat) : State := fillBlock (l2Walk s (memberView s) va) pa

/-- ICACHE_FILL (R62, R383): the block of a VA of the context enters the cache, unless its fetch would fault. -/
def execIcacheFill (va : Dword) (s : State) : Out :=
  let b := va.toNat / 32 * 32
  match resolveAccess s (memberView s) .fetch b 32 with
  | .ok (.pa a :: _) => .next (fetchBlock s b a)
  | _ => .next s

/-! ## The cursor -/

/-- R75: while the top entry is an A entry at the cursor, its lanes rejoin. -/
def rejoinFrom (live : Mask) (mark : Nat) (cursor : Dword) : List StackEntry → Option Mask → Option Mask × List StackEntry
  | [], m => (m, [])
  | e :: r, m =>
    if mark ≤ r.length && e.kind == EntryKind.a && e.addr.setWidth 64 == cursor then rejoinFrom live mark cursor r (some (e.mask &&& live))
    else (m, e :: r)

/-- The check of R75 at the cursor. Its pops refill the held entries from the stack extension (R74); where that is lost the member has taken RAS
(R509), which stands as the error. -/
def rejoin (s : State) : Except State State :=
  let (m, st) := rejoinFrom s.m.live (frameMark s.m) s.m.cursor s.m.stack none
  let pops := s.m.stack.length - st.length
  if refillLost s pops then .error (enterTrap s noFields s.m.cursor 0 s.m.exec extTrap)
  else
    let s := refill s pops
    .ok { s with m := { s.m with exec := m.getD s.m.exec, stack := st } }

/-- The cursor past the undecoded end of a block (R61), with the check of R75 before and after. -/
def fetchPoint (s : State) : Except State State := do
  let s ← rejoin s
  if s.m.cursor.toNat % 32 == 28 then rejoin (setCursor s (s.m.cursor + 4#64)) else return s

/-- What a member's turn comes to before an instruction executes. -/
inductive Fetched where
  /-- an instruction to execute -/
  | run (i : Instr) (s : State)
  /-- nothing executes: the member is gone or stopped, or its fetch trapped -/
  | done (s : State)

/-- The PA of the block at a VA, which is read from memory where the cluster's cache does not hold it (R62, R509). -/
def fetchPlace (s : State) (va : Nat) : Except XFault Nat :=
  match resolveRange s (memberView s) .fetch va 32 with
  | .error f => .error f
  | .ok ls =>
    match ls.head? with
    | some (.pa a) =>
      match (if (cachedBlock s.cl a).isSome then none else placeFault s (memberView s) true .fetch va ls) with
      | some f => .error f
      | none => .ok a
    | _ => .error { cls := .mem, cause := xPerm, va := va }

/-- The instruction at the member's cursor, or the fault of its fetch (R61, R62, R224). -/
def fetchHere (s : State) : Fetched :=
  let pc := s.m.cursor.toNat
  match fetchPlace s (pc / 32 * 32) with
  | .error f =>
    match faultAct s .fetch [(lowestLane s.m.exec, { f with va := if f.cls == .ras then f.va else pc })] with
    | .trap t =>
      let x := xlRecOf { f with va := pc } .fetch (!memberPriv s)
      .done (enterTrap s noFields s.m.cursor 0 s.m.exec { t with mask := none, xl := xlAll s.m.exec x })
    | .ask va => .done { askPage s va with m := { s.m with wait := some (.pri va) } }
    | _ => .done s
  | .ok a =>
    let s := fetchBlock s (pc / 32 * 32) a
    match cachedBlock s.cl a with
    | some b =>
      match decode ((b.bytes.drop (pc % 32)) ++ List.replicate 8 0#8) with
      | some i => .run i s
      | none => .done s
    | none => .done s

/-- A one-lane member stops at its next boundary once its team is to be pre-empted (R431). -/
def stopDue (s : State) : Bool := s.team.preReq && s.m.kind != .wave

/-- The member's turn (R63, R75, R431). -/
def fetchMember (s : State) : Fetched :=
  match s.m.status with
  | .running =>
    if stopDue s then .done { s with m := { s.m with status := .stopped } }
    else if !s.ctx.alive then .done s
    else
      match fetchPoint s with
      | .error t => .done t
      | .ok s => if s.m.exec == 0#128 then .done (settleMasks s) else fetchHere s
  | _ => .done s

/-- The word at a shuttle context's cursor; an address outside the program stops it (R374). -/
def fetchShuttle (s : State) : Option Instr :=
  let c := s.team.sh
  if c.phase = .running then
    match c.prog[c.cursor]? with
    | some w => some (decodeShuttle w)
    | none => some (.shuttleUndefinedWord 0#32)
  else none

/-- One step counts one cycle (log 3). -/
def tick (s : State) : State := { s with cycle := s.cycle + 1 }

/-- Where the instruction word of `withFetchWord` stands: the virtual address of the kernel that it makes. -/
def probeVa : Nat := 0x1000

/-- A running member, team, context and partition around one code address, for a machine in which no member is about to fetch: a 32-lane
wave of a team of one role in an unprivileged context whose first 8 GiB are mapped whole (R73, R217, R218). -/
def probeMachine (s : State) : State :=
  { s with
    mod := { s.mod with boot := .running }
    m := { id := 1, status := .running, slots := [0], cursor := BitVec.ofNat 64 probeVa, exec := allLanes 32, live := allLanes 32
           rf := { kregs := List.replicate 64 0#64, preds := List.replicate 7 0#128, budget := 256, unif := 64 }
           rsctr := List.replicate 32 0#32, lorig := (List.range 32).map fun l => BitVec.ofNat 32 l }
    peers := []
    teams := []
    team := { present := true, id := 1, ctx := 1, share := 4096, roles := [{ kind := .wave, count := 1, budget := 256, share := 0 }]
              drift := 1, bars := List.replicate 16 {}, chans := List.replicate 8 [], undeliv := List.replicate 64 0#8
              tbmask := [0x0101010101010101#64, 0x0101010101010101#64], entry := BitVec.ofNat 64 probeVa
              sh := { id := 1, issuer := 1, phase := .running, regs := List.replicate 32 0#64 } }
    ctx := { id := 1, alive := true, vwbase := 0x400000000000#64, winbase := 0x500000000000#64 }
    part := { present := true, clusters := [0, 1, 2, 3], coreMask := [(0, 0xFF#8)], hbm := 1#64, prlim := 0x200000000#64
              emuOpc := [0x05E, 0x05F], bts := List.replicate 8 {}, tqs := List.replicate 16 (List.replicate 4 []), vsplit := 4 }
    mem := writeNat s.mem 0 8 0x3F
    turns := [] }

/-- The bytes of an instruction stored at the member's cursor, where that resolves to memory; the cached block goes. -/
def placeCode (s : State) (bs : List Byte) : State :=
  let pc := s.m.cursor.toNat
  match resolveByte s (memberView s) .fetch pc winFuel with
  | .ok (.pa a, _, _) =>
    { storeMem s a bs with cl := { s.cl with icache := s.cl.icache.filter fun b => b.pa != a / 32 * 32 } }
  | _ => s

/-- Whether the member in focus is about to fetch from memory that a fetch reaches. -/
def fetches (s : State) : Bool :=
  s.mod.boot == BootPhase.running && s.turns == [] && s.m.status == Status.running && s.m.wait == none && s.ctx.alive && s.m.exec != 0#128 &&
    s.m.cursor.toNat % 32 ≤ 16 && !preDue s.m && !stopDue s && (!canIssue s.m || chosen s == s.m.id) &&
    (match resolveByte s (memberView s) .fetch s.m.cursor.toNat winFuel with | .ok (.pa _, _, _) => true | _ => false)

/-- A LIS-3 instruction placed where the member in focus fetches next, after a machine has been set up around it if there is none. -/
def withCode (s : State) (bs : List Byte) : State := placeCode (if fetches s then s else probeMachine s) bs

/-- A shuttle word placed as the next word of the shuttle context in focus, whose turn comes next. -/
def withShuttleWord (s : State) (w : Word) : State :=
  let s := if s.mod.boot == BootPhase.running && s.team.present && s.team.sh.phase == ShPhase.running then s else probeMachine s
  let c := s.team.sh
  let prog := if c.cursor < c.prog.length then c.prog.set c.cursor w else c.prog ++ List.replicate (c.cursor - c.prog.length) 0#32 ++ [w]
  { s with team := { s.team with sh := { c with prog := prog } }, turns := [.shuttle s.team.id c.id] }

end Sys2Proof.Machine
end

