-- ==== Sys2Proof/Machine/Flags.lean ====
section
/-!
DEFINITION. Number formats and rounding (spec/02_numbers.md R20 to R34). The device keeps no arithmetic flags (R23): overflow, inexactness
and invalid operations show only in the values that result, so this file is the rules by which those values come about.
-/
namespace Sys2Proof.Machine

/-! ## Formats -/

/-- A floating format (R20): exponent and fraction widths, bias, and whether it has infinities. -/
structure Fmt where
  ew : Nat
  fw : Nat
  bias : Nat
  inf : Bool
deriving DecidableEq, Repr

def fp32 : Fmt := { ew := 8, fw := 23, bias := 127, inf := true }
def fp16 : Fmt := { ew := 5, fw := 10, bias := 15, inf := true }
def bf16 : Fmt := { ew := 8, fw := 7, bias := 127, inf := true }
def e4m3 : Fmt := { ew := 4, fw := 3, bias := 7, inf := false }
def e5m2 : Fmt := { ew := 5, fw := 2, bias := 15, inf := true }

/-- An exact value: NaN, an infinity, or (-1)^neg × m × 2^e. -/
inductive FVal where
  | nan
  | inf (neg : Bool)
  | fin (neg : Bool) (m : Nat) (e : Int)
deriving DecidableEq, Repr

/-- The sign bit of a pattern. -/
def fmSign (fm : Fmt) (x : Nat) : Bool := x.testBit (fm.ew + fm.fw)

/-- The canonical NaN (R21). -/
def nanBits (fm : Fmt) : Nat := if fm.inf then (2 ^ fm.ew - 1) * 2 ^ fm.fw + 2 ^ (fm.fw - 1) else 2 ^ (fm.ew + fm.fw) - 1

/-- The patterns of zero, infinity and the largest finite value of a sign (R20). -/
def signBit (fm : Fmt) (neg : Bool) : Nat := bnat neg * 2 ^ (fm.ew + fm.fw)
def infBits (fm : Fmt) (neg : Bool) : Nat := signBit fm neg + (2 ^ fm.ew - 1) * 2 ^ fm.fw
def maxBits (fm : Fmt) (neg : Bool) : Nat :=
  signBit fm neg + (if fm.inf then (2 ^ fm.ew - 1) * 2 ^ fm.fw - 1 else 2 ^ (fm.ew + fm.fw) - 2)

/-- The value of a pattern (R20); under FTZ a subnormal reads as zero of its sign (R29). -/
def fdecode (fm : Fmt) (ftz : Bool) (x : Nat) : FVal :=
  let neg := fmSign fm x
  let e := x / 2 ^ fm.fw % 2 ^ fm.ew
  let f := x % 2 ^ fm.fw
  let top := 2 ^ fm.ew - 1
  if fm.inf && e == top then (if f == 0 then .inf neg else .nan)
  else if !fm.inf && e == top && f == 2 ^ fm.fw - 1 then .nan
  else if e == 0 then .fin neg (if ftz then 0 else f) (1 - (fm.bias : Int) - fm.fw)
  else .fin neg (2 ^ fm.fw + f) ((e : Int) - fm.bias - fm.fw)

/-! ## Rounding -/

/-- The rounding codes (R27). -/
def rndRN : Nat := 0
def rndRZ : Nat := 1
def rndRP : Nat := 2
def rndRM : Nat := 3
def rndRS : Nat := 4

/-- The rounding code with the random value that `.RS` draws (R27, R28). -/
structure Rnd where
  mode : Nat := 0
  rand : Nat := 0
deriving DecidableEq, Repr

/-- Whether a magnitude a + rem / 2^sh rounds away from zero (R27, R28). -/
def roundsUp (r : Rnd) (neg : Bool) (a rem sh : Nat) : Bool :=
  match r.mode with
  | 0 => decide (2 ^ sh < 2 * rem) || (2 * rem == 2 ^ sh && a % 2 == 1)
  | 1 => false
  | 2 => !neg && rem != 0
  | 3 => neg && rem != 0
  | _ => decide (r.rand < rem * 2 ^ 32 / 2 ^ sh)

/-- The result where rounding passes the largest finite value (R31). `away` says that the rounded value lies beyond the exact one or is
exact. -/
def overflowBits (fm : Fmt) (r : Rnd) (nosat neg away : Bool) : Nat :=
  if !fm.inf then (if nosat then nanBits fm else maxBits fm neg)
  else
    let toInf := match r.mode with
      | 0 => true | 1 => false | 2 => !neg | 3 => neg | _ => away
    if toInf then infBits fm neg else maxBits fm neg

/-- A finite exact value rounded once (R27 to R31); under FTZ a result that is subnormal after rounding is zero of its sign (R29). -/
def roundFin (fm : Fmt) (r : Rnd) (ftz nosat neg : Bool) (m : Nat) (e : Int) : Nat :=
  if m == 0 then signBit fm neg
  else
    let emin : Int := 1 - (fm.bias : Int)
    let q := max (e + Nat.log2 m) emin - fm.fw
    let sh := (q - e).toNat
    let a := if q ≤ e then m * 2 ^ (e - q).toNat else m / 2 ^ sh
    let rem := if q ≤ e then 0 else m % 2 ^ sh
    let up := rem != 0 && roundsUp r neg a rem sh
    let n := if up then a + 1 else a
    let n' := if n == 2 ^ (fm.fw + 1) then 2 ^ fm.fw else n
    let q' := if n == 2 ^ (fm.fw + 1) then q + 1 else q
    let be := (q' + fm.fw + fm.bias).toNat
    let bits := if n' < 2 ^ fm.fw then n' else be * 2 ^ fm.fw + (n' - 2 ^ fm.fw)
    if maxBits fm false < bits then overflowBits fm r nosat neg (up || rem == 0)
    else if ftz && n' < 2 ^ fm.fw then signBit fm neg
    else signBit fm neg + bits

/-- An exact value rounded to a format (R21, R30, R31). -/
def fencode (fm : Fmt) (r : Rnd) (ftz nosat : Bool) : FVal → Nat
  | .nan => nanBits fm
  | .inf neg => if fm.inf then infBits fm neg else if nosat then nanBits fm else maxBits fm neg
  | .fin neg m e => roundFin fm r ftz nosat neg m e

/-- Round to nearest-even, nothing flushed. -/
def fround (fm : Fmt) (v : FVal) : Nat := fencode fm {} false false v

/-- The 32 random bits that a key and a counter give (R28). -/
def rsRandom (key : Dword) (ctr : Word) : Nat :=
  let z := key + ctr.setWidth 64 * 0x9E3779B97F4A7C15#64
  let z := (z ^^^ (z >>> 30)) * 0xBF58476D1CE4E5B9#64
  let z := (z ^^^ (z >>> 27)) * 0x94D049BB133111EB#64
  (z ^^^ (z >>> 31)).toNat / 2 ^ 32

/-! ## Exact arithmetic -/

def isNan : FVal → Bool
  | .nan => true
  | _ => false

/-- The exact value of an integer. -/
def ofInt (x : Int) : FVal := .fin (decide (x < 0)) x.natAbs 0

def negV : FVal → FVal
  | .nan => .nan
  | .inf n => .inf (!n)
  | .fin n m e => .fin (!n) m e

/-- The exact sum; an exact sum of opposite values is +0, or -0 under `.RM` (R29, R158). -/
def addV (mode : Nat) : FVal → FVal → FVal
  | .nan, _ => .nan
  | _, .nan => .nan
  | .inf a, .inf b => if a == b then .inf a else .nan
  | .inf a, _ => .inf a
  | _, .inf b => .inf b
  | .fin na ma ea, .fin nb mb eb =>
    let e := min ea eb
    let xa : Int := ma * 2 ^ (ea - e).toNat
    let xb : Int := mb * 2 ^ (eb - e).toNat
    let x := (if na then -xa else xa) + (if nb then -xb else xb)
    if x == 0 then .fin (if na == nb then na else mode == rndRM) 0 0 else .fin (decide (x < 0)) x.natAbs e

/-- The exact product (R158). -/
def mulV : FVal → FVal → FVal
  | .nan, _ => .nan
  | _, .nan => .nan
  | .inf a, .inf b => .inf (a != b)
  | .inf a, .fin b m _ => if m == 0 then .nan else .inf (a != b)
  | .fin a m _, .inf b => if m == 0 then .nan else .inf (a != b)
  | .fin a ma ea, .fin b mb eb => .fin (a != b) (ma * mb) (ea + eb)

/-- A value multiplied by a power of two. -/
def scaleV (k : Int) : FVal → FVal
  | .fin n m e => .fin n m (e + k)
  | v => v

/-- Whether x < y, for values that are not NaN; -0 and +0 are equal. -/
def ltV : FVal → FVal → Bool
  | .nan, _ => false
  | _, .nan => false
  | .inf a, .inf b => a && !b
  | .inf a, .fin _ _ _ => a
  | .fin _ _ _, .inf b => !b
  | .fin na ma ea, .fin nb mb eb =>
    let e := min ea eb
    let xa : Int := ma * 2 ^ (ea - e).toNat
    let xb : Int := mb * 2 ^ (eb - e).toNat
    decide ((if na then -xa else xa) < (if nb then -xb else xb))

/-- Whether a value is a zero. -/
def isZero : FVal → Bool
  | .fin _ m _ => m == 0
  | _ => false

/-- The sign of a value. -/
def isNeg : FVal → Bool
  | .nan => false
  | .inf n => n
  | .fin n _ _ => n

/-- The smaller and larger value, -0 below +0; a NaN operand gives NaN (R38, R159). -/
def minV (x y : FVal) : FVal :=
  if isNan x || isNan y then .nan else if ltV x y then x else if ltV y x then y else if isNeg x then x else y
def maxV (x y : FVal) : FVal :=
  if isNan x || isNan y then .nan else if ltV x y then y else if ltV y x then x else if isNeg x then y else x

/-- The magnitude of a value rounded to an integer (R27, R28). -/
def roundMag (r : Rnd) (neg : Bool) (m : Nat) (e : Int) : Nat :=
  let sh := (-e).toNat
  let a := if 0 ≤ e then m * 2 ^ e.toNat else m / 2 ^ sh
  let rem := if 0 ≤ e then 0 else m % 2 ^ sh
  if rem != 0 && roundsUp r neg a rem sh then a + 1 else a

/-- The value rounded to an integer and clamped to a range; NaN gives 0 (R30). -/
def toIntV (r : Rnd) (lo hi : Int) : FVal → Int
  | .nan => 0
  | .inf neg => if neg then lo else hi
  | .fin neg m e =>
    let n : Int := roundMag r neg m e
    let x := if neg then -n else n
    if x < lo then lo else if hi < x then hi else x

/-- The integer square root of a number below 2^(2n), digit by digit. -/
def isqrt (n x : Nat) : Nat := (List.range n).foldr (fun i r => if (r + 2 ^ i) ^ 2 ≤ x then r + 2 ^ i else r) 0

/-- A quotient with enough bits that one rounding of it is the rounding of the exact quotient (R163). -/
def divV (x y : FVal) : FVal :=
  match x, y with
  | .nan, _ => .nan
  | _, .nan => .nan
  | .inf _, .inf _ => .nan
  | .inf a, .fin b _ _ => .inf (a != b)
  | .fin a _ _, .inf b => .fin (a != b) 0 0
  | .fin a ma ea, .fin b mb eb =>
    if mb == 0 then (if ma == 0 then .nan else .inf (a != b))
    else
      let k := 64 + Nat.log2 mb
      let q := ma * 2 ^ k / mb
      .fin (a != b) (2 * q + bnat (q * mb != ma * 2 ^ k)) (ea - eb - k - 1)

/-- A square root with enough bits that one rounding of it is the rounding of the exact root (R162). -/
def sqrtV : FVal → FVal
  | .nan => .nan
  | .inf neg => if neg then .nan else .inf false
  | .fin neg m e =>
    if m == 0 then .fin neg 0 0
    else if neg then .nan
    else
      let odd := e % 2 != 0
      let x := (if odd then 2 * m else m) * 2 ^ 64
      let r := isqrt 64 x
      .fin false (2 * r + bnat (r * r != x)) ((if odd then e - 1 else e) / 2 - 33)

/-! ## Special functions: exact values to 320 binary places -/

/-- The binary places of the fixed-point evaluations. -/
def fxP : Nat := 320
def fxOne : Int := 2 ^ fxP
def fxMul (a b : Int) : Int := a * b / 2 ^ fxP
def fxDiv (a b : Int) : Int := a * 2 ^ fxP / b

/-- ln 2, π and 1 / ln 2 to 320 binary places. -/
def fxLn2 : Int :=
  1480553391661173448385607439722553250922680800745876974795605978609098082859138712941075737848984
def fxPi : Int :=
  6710401180212168915155840974220003240804194089427148950727106424351713218671805380099500388914039
def fxInvLn2 : Int :=
  3081577904126213121686167198097690134163479766071396094403848907535455306605342191083616308484524

/-- A finite value to 320 binary places. -/
def fxOf (neg : Bool) (m : Nat) (e : Int) : Int :=
  let x : Int := if 0 ≤ e + fxP then m * 2 ^ (e + fxP).toNat else m / 2 ^ (-(e + fxP)).toNat
  if neg then -x else x

/-- The terms z^i / i! from the i-th on (Taylor). -/
def fxExpTerms (z : Int) : Nat → Nat → Int → Int
  | 0, _, _ => 0
  | n + 1, i, t => t + fxExpTerms z n (i + 1) (fxMul t z / (i + 1))

/-- e^z - 1 for a z of magnitude at most 2. -/
def fxExpm1 (z : Int) : Int := fxExpTerms z 110 1 z

/-- 2^x for x below 128. -/
def fxExp2 (x : Int) : Int :=
  let n := x / fxOne
  let v := fxOne + fxExpm1 (fxMul (x % fxOne) fxLn2)
  if 0 ≤ n then v * 2 ^ n.toNat else v / 2 ^ (-n).toNat

/-- The terms t^i / i of odd i, by t^2. -/
def fxAtanhTerms (t2 : Int) : Nat → Nat → Int → Int
  | 0, _, _ => 0
  | n + 1, i, t => t / i + fxAtanhTerms t2 n (i + 2) (fxMul t t2)

/-- log2 of m × 2^e. -/
def fxLog2 (m : Nat) (e : Int) : Int :=
  let k := Nat.log2 m
  let x := fxOf false m (-(k : Int))
  let t := fxDiv (x - fxOne) (x + fxOne)
  (e + k) * fxOne + fxMul (2 * fxAtanhTerms (fxMul t t) 104 1 t) fxInvLn2

/-- The terms of the sine series from the i-th power on. -/
def fxSinTerms (z2 : Int) : Nat → Nat → Int → Int
  | 0, _, _ => 0
  | n + 1, i, t => t + fxSinTerms z2 n (i + 2) (-(fxMul t z2) / ((i + 1) * (i + 2)))

/-- sin(πx). -/
def fxSinPi (x : Int) : Int :=
  let y := x % (2 * fxOne)
  let neg := decide (fxOne ≤ y)
  let y := if neg then y - fxOne else y
  let y := if fxOne < 2 * y then fxOne - y else y
  let z := fxMul y fxPi
  let v := fxSinTerms (fxMul z z) 50 1 z
  if neg then -v else v

/-- tanh of a non-negative value. -/
def fxTanh (a : Int) : Int :=
  if 64 * fxOne ≤ a then fxOne - 1
  else if a < fxOne then
    let em := fxExpm1 (2 * a)
    fxDiv em (em + 2 * fxOne)
  else
    let ex := fxExp2 (fxMul (2 * a) fxInvLn2)
    fxDiv (ex - fxOne) (ex + fxOne)

/-- How far an implementation's result may lie from the exact value (R162): in ulps of FP32 at the exact value, or absolutely by 2^-22. -/
inductive Bound where
  | ulps (k : Nat)
  | abs
deriving DecidableEq, Repr

/-- The bound to 320 binary places, with the last place of the evaluation added. -/
def boundFx (b : Bound) (v : Int) : Int :=
  let u : Int := 2 ^ (max (Nat.log2 v.natAbs : Int) (fxP - 126) - 23).toNat
  match b with
  | .ulps k => k * u + u / 2 ^ 40
  | .abs => 2 ^ (fxP - 22) + 2 ^ (fxP - 80)

/-- The result of a special function whose exact value is `v` (R140, R162): what the implementation gives, as an open value within the bound
(log 8), and the nearest FP32 value where it is not; a value beyond the range overflows (R31). -/
def boundedResult (b : Bound) (v : Int) (given : Nat) : Nat :=
  let near := fround fp32 (.fin (decide (v < 0)) v.natAbs (-(fxP : Int)))
  let c := given % 2 ^ 32
  match fdecode fp32 false near, fdecode fp32 false c with
  | .fin _ _ _, .fin n m e => if ((fxOf n m e) - v).natAbs ≤ (boundFx b v).natAbs then c else near
  | _, _ => near

/-- Whether a finite value is an integer, and the integer. -/
def isInteger (m : Nat) (e : Int) : Bool := decide (0 ≤ e) || m % 2 ^ (-e).toNat == 0
def integerOf (neg : Bool) (m : Nat) (e : Int) : Int :=
  let x : Int := if 0 ≤ e then m * 2 ^ e.toNat else m / 2 ^ (-e).toNat
  if neg then -x else x

/-- 1.0 and -1.0 in FP32. -/
def oneF : Nat := 0x3F800000
def minusOneF : Nat := 0xBF800000

/-- The special functions of R162 on FP32, by opcode. -/
def specialF32 (op x : Nat) (v : FVal) : Nat :=
  let given := Config.special op x
  match v with
  | .nan => nanBits fp32
  | .inf neg =>
    match op with
    | 0x088 => signBit fp32 neg
    | 0x089 => if neg then nanBits fp32 else 0
    | 0x08A => if neg then nanBits fp32 else infBits fp32 false
    | 0x08B => if neg then 0 else infBits fp32 false
    | 0x08C => if neg then nanBits fp32 else infBits fp32 false
    | 0x08F => if neg then minusOneF else oneF
    | _ => nanBits fp32
  | .fin neg m e =>
    let fx := fxOf neg m e
    match op with
    | 0x088 => if m == 0 then infBits fp32 neg else boundedResult (.ulps 1) (fxDiv fxOne fx) given
    | 0x089 =>
      if m == 0 then infBits fp32 neg
      else if neg then nanBits fp32
      else boundedResult (.ulps 1) (isqrt 400 (2 ^ (3 * fxP) / fx.toNat)) given
    | 0x08A => fround fp32 (sqrtV v)
    | 0x08B =>
      if isInteger m e && decide (-149 ≤ integerOf neg m e) && decide (integerOf neg m e ≤ 127) then
        fround fp32 (.fin false 1 (integerOf neg m e))
      else if 128 * fxOne ≤ fx then infBits fp32 false
      else if fx < -400 * fxOne then boundedResult (.ulps 2) 0 given
      else boundedResult (.ulps 2) (fxExp2 fx) given
    | 0x08C =>
      if m == 0 then infBits fp32 true
      else if neg then nanBits fp32
      else if m == 2 ^ Nat.log2 m then fround fp32 (ofInt (e + Nat.log2 m))
      else
        let half := decide (fxOne ≤ 2 * fx) && decide (fx ≤ 2 * fxOne)
        boundedResult (if half then .abs else .ulps 2) (fxLog2 m e) given
    | 0x08D =>
      if m == 0 then signBit fp32 neg
      else if isInteger m e then 0
      else if isInteger m (e + 1) then (if fxSinPi fx < 0 then minusOneF else oneF)
      else boundedResult .abs (fxSinPi fx) given
    | 0x08E =>
      if isInteger m e then (if integerOf false m e % 2 == 0 then oneF else minusOneF)
      else if isInteger m (e + 1) then 0
      else boundedResult .abs (fxSinPi (fx + fxOne / 2)) given
    | _ =>
      if m == 0 then signBit fp32 neg
      else
        let t := fxTanh fx.natAbs
        boundedResult (.ulps 2) (if neg then -t else t) given

/-! ## Block scales (R32, R33) -/

/-- floor(log2 x) of a finite nonzero value. -/
def flog2 : FVal → Int
  | .fin _ m e => e + Nat.log2 m
  | _ => 0

/-- The 16 entries of a codebook slot (R24, R25). -/
def cbTable (slot : List Byte) : List FVal :=
  (List.range 16).map fun c => fdecode bf16 false (ofLeBytes ((slot.drop (2 * c)).take 2))

/-- Whether a value is finite. -/
def isFin : FVal → Bool
  | .fin _ _ _ => true
  | _ => false

/-- The larger magnitude, as a floor(log2), of finite nonzero values; none where there is no such value (R33). -/
def topLog2 (vs : List FVal) : Option Int :=
  vs.foldl (fun r v =>
    if isFin v && !isZero v then
      match r with
      | some k => some (max k (flog2 v))
      | none => some (flog2 v)
    else r) none

/-- EMAX of a destination (R33): 8 for E4M3, 15 for E5M2, and for C4 that of its table. -/
def emaxOf (ty : Nat) (table : List FVal) : Int :=
  match ty with
  | 13 => 8
  | 14 => 15
  | _ => (topLog2 table).getD 0

/-- The E8M0 scale of a block (R33). -/
def blockScale (emax : Int) (vs : List FVal) : Nat :=
  if vs.any fun v => !isFin v then 255
  else
    match topLog2 vs with
    | none => 127
    | some k => (max 0 (min 254 (k - emax + 127))).toNat

/-- The distance of two finite values as a value. -/
def distV (x y : FVal) : FVal :=
  match addV 0 x (negV y) with
  | .fin _ m e => .fin false m e
  | v => v

/-- The code of C4 for a value that the scale already divides (R32): the finite entry nearest to it, the lower code on a tie; for a NaN the
lowest code whose entry is NaN. Where no such code exists, and for an infinity, spec/ states no code: `open4` (log 31). -/
def c4Code (table : List FVal) (v : FVal) (open4 : Nat) : Nat :=
  match v with
  | .nan => ((List.range 16).find? fun c => isNan (table.getD c .nan)).getD (open4 % 16)
  | .inf _ => open4 % 16
  | v =>
    let best := (List.range 16).foldl (fun (b : Option (Nat × FVal)) c =>
      let t := table.getD c .nan
      if !isFin t then b
      else
        let d := distV v t
        match b with
        | some (_, bd) => if ltV d bd then some (c, d) else b
        | none => some (c, d)) none
    (best.map (·.1)).getD (open4 % 16)

/-- E4M3 or E5M2 under a block scale saturates at the largest finite value (R33). -/
def satEncode (fm : Fmt) (r : Rnd) (v : FVal) : Nat :=
  match v with
  | .nan => nanBits fm
  | .inf neg => maxBits fm neg
  | .fin neg m e =>
    let x := roundFin fm r false false neg m e
    if isFin (fdecode fm false x) then x else maxBits fm neg

/-- The element of a scaled block (R33): the value over 2^(X - 127), as E4M3, E5M2 or C4. -/
def scaledElem (ty : Nat) (table : List FVal) (x : Nat) (r : Rnd) (v : FVal) (open4 : Nat) : Nat :=
  let v := scaleV (127 - (x : Int)) v
  match ty with
  | 13 => satEncode e4m3 r v
  | 14 => satEncode e5m2 r v
  | _ => c4Code table v open4

/-- The floating format of a type code (R70). -/
def fmtOfTy (c : Nat) : Fmt :=
  match c with
  | 10 => fp32
  | 11 => bf16
  | 12 => fp16
  | 13 => e4m3
  | _ => e5m2

/-- The value of an inline constant (R54). -/
def constVal (i : Nat) : FVal :=
  if i < 16 then ofInt i else if i < 24 then ofInt (-((i - 15 : Nat) : Int)) else fdecode fp32 false (floatConsts.getD (i - 24) 0)

/-- The bits of an inline constant read in a floating type (R54). -/
def constIn (fm : Fmt) (i : Nat) : Nat := fround fm (constVal i)

end Sys2Proof.Machine
end

