-- ==== Sys2Proof/Machine/Integer.lean ====
section
/-!
DEFINITION. The integer instructions (spec/06_arithmetic.md R137, R138, R141 to R155): operands are read as integers by the type, the
result is computed exactly, and it is narrowed once at the end.
-/
namespace Sys2Proof.Machine

/-- Whether a type code is signed (R70). -/
def signedTy (c : Nat) : Bool := 2 ≤ c && c ≤ 5

/-- A `w`-bit value read as signed or as unsigned (R141). -/
def asSigned (w : Nat) (x : Dword) : Int := (x.setWidth w).toInt
def asUnsigned (w : Nat) (x : Dword) : Int := (x.setWidth w).toNat

/-- A `w`-bit value read by a type's signedness (R23). -/
def byType (w : Nat) (signed : Bool) (x : Dword) : Int := if signed then asSigned w x else asUnsigned w x

/-- The least and greatest values of a type (R23). -/
def tyMin (w : Nat) (signed : Bool) : Int := if signed then -(2 ^ (w - 1)) else 0
def tyMax (w : Nat) (signed : Bool) : Int := if signed then 2 ^ (w - 1) - 1 else 2 ^ w - 1

/-- A value clamped to a range. -/
def clampInt (lo hi x : Int) : Int := if x < lo then lo else if hi < x then hi else x

/-- A result at width `w` as the 64 bits a k register takes (R138): modulo 2^w, then extended by the type. -/
def intRes (w : Nat) (signed : Bool) (x : Int) : Dword :=
  if w == 64 then BitVec.ofInt 64 x else ext32 signed (BitVec.ofInt 32 x)

/-- Width and signedness of the type in MOD[3:0] (R137). -/
def Ic.w (ic : Ic) : Nat := wOfTy ic.f
def Ic.signed (ic : Ic) : Bool := signedTy (tyCode ic.f)
def Ic.wide (ic : Ic) : Bool := ic.w == 64

/-- The sources by the type's signedness, and S0 and S1 as unsigned (R141). -/
def Ic.i0 (ic : Ic) (l : Nat) : Int := byType ic.w ic.signed (ic.src0 ic.wide l)
def Ic.i1 (ic : Ic) (l : Nat) : Int := byType ic.w ic.signed (ic.src1 ic.wide l)
def Ic.i2 (ic : Ic) (l : Nat) : Int := byType ic.w ic.signed (ic.src2 ic.wide l)
def Ic.n0 (ic : Ic) (l : Nat) : Nat := ((ic.src0 ic.wide l).setWidth ic.w).toNat
def Ic.n1 (ic : Ic) (l : Nat) : Nat := ((ic.src1 ic.wide l).setWidth ic.w).toNat

/-- S1 as a 32-bit operand at every width (R137). -/
def Ic.amount (ic : Ic) (l : Nat) : Nat := (lo32 (ic.src1 false l)).toNat

/-- SAT in MOD[4] (R142). -/
def Ic.sat (ic : Ic) : Bool := modBits ic.f 4 4 == 1

/-- An exact result under R142. -/
def Ic.settle (ic : Ic) (x : Int) : Int := if ic.sat then clampInt (tyMin ic.w ic.signed) (tyMax ic.w ic.signed) x else x

/-- An instruction that writes an integer of the type's width in each lane (R137, R138). -/
def intAct (ic : Ic) (s : State) (x : Nat → Int) : Act := .ok (ic.write s ic.wide fun l => intRes ic.w ic.signed (x l))

/-- An instruction that writes a 32-bit count or truth value at every width (R149, R153). -/
def countAct (ic : Ic) (s : State) (x : Nat → Nat) : Act := .ok (ic.write s false fun l => BitVec.ofNat 64 (x l))

/-- IADD (R143). -/
def execIadd (f : Fields) (s : State) : Out := issue eIadd f s fun ic s => intAct ic s fun l => ic.settle (ic.i0 l + ic.i1 l)

/-- IADDI (R143): the immediate is signed whatever the type. -/
def execIaddi (f : Fields) (s : State) : Out := issue eIaddi f s fun ic s => intAct ic s fun l => ic.settle (ic.i0 l + (imm12 f).toInt)

/-- ISUB (R143). -/
def execIsub (f : Fields) (s : State) : Out := issue eIsub f s fun ic s => intAct ic s fun l => ic.settle (ic.i0 l - ic.i1 l)

/-- IMUL (R144). -/
def execImul (f : Fields) (s : State) : Out := issue eImul f s fun ic s => intAct ic s fun l => ic.i0 l * ic.i1 l

/-- IMULH (R144): the high half of the exact product. -/
def execImulh (f : Fields) (s : State) : Out := issue eImulh f s fun ic s => intAct ic s fun l => ic.i0 l * ic.i1 l / 2 ^ ic.w

/-- IMAD (R145). -/
def execImad (f : Fields) (s : State) : Out := issue eImad f s fun ic s => intAct ic s fun l => ic.i0 l * ic.i1 l + ic.i2 l

/-- IMADW (R145): 32-bit factors, 64-bit addend and result. -/
def execImadw (f : Fields) (s : State) : Out :=
  issue eImadw f s fun ic s => .ok (ic.write s true fun l => BitVec.ofInt 64 (ic.i0 l * ic.i1 l + asUnsigned 64 (ic.src2 true l)))

/-- The predicate that MOD[6:4] names, written in the active lanes (R146). -/
def carryOut (ic : Ic) (s : State) (c : Nat → Bool) : State :=
  let g (l : Nat) : Bool := c (ic.at l)
  setP s (modBits ic.f 6 4) ic.act (maskOf ic.n g)

/-- ADDC (R146). Where DST and MOD name one predicate, the carry is written last. -/
def execAddc (f : Fields) (s : State) : Out :=
  issue eAddc f s fun ic s =>
    let x (l : Nat) : Int := ic.n0 l + ic.n1 l + bnat (ic.cond2 l)
    .ok (carryOut ic (ic.write s ic.wide fun l => intRes ic.w ic.signed (x l)) fun l => 2 ^ ic.w ≤ x l)

/-- SUBB (R146). Where DST and MOD name one predicate, the borrow is written last. -/
def execSubb (f : Fields) (s : State) : Out :=
  issue eSubb f s fun ic s =>
    let x (l : Nat) : Int := ic.n0 l - ic.n1 l - bnat (ic.cond2 l)
    .ok (carryOut ic (ic.write s ic.wide fun l => intRes ic.w ic.signed (x l)) fun l => x l < 0)

/-- IABS (R147). -/
def execIabs (f : Fields) (s : State) : Out :=
  issue eIabs f s fun ic s => intAct ic s fun l => ic.settle (if ic.i0 l < 0 then -(ic.i0 l) else ic.i0 l)

/-- INEG (R147). -/
def execIneg (f : Fields) (s : State) : Out := issue eIneg f s fun ic s => intAct ic s fun l => ic.settle (-(ic.i0 l))

/-- IMIN (R148). -/
def execImin (f : Fields) (s : State) : Out := issue eImin f s fun ic s => intAct ic s fun l => min (ic.i0 l) (ic.i1 l)

/-- IMAX (R148). -/
def execImax (f : Fields) (s : State) : Out := issue eImax f s fun ic s => intAct ic s fun l => max (ic.i0 l) (ic.i1 l)

/-- The conditions of R149. -/
def intCond (c : Nat) (x y : Int) : Bool :=
  match c with
  | 0 => x == y
  | 1 => x != y
  | 2 => decide (x < y)
  | 3 => decide (x ≤ y)
  | 4 => decide (y < x)
  | _ => decide (y ≤ x)

/-- ICMP (R149). -/
def execIcmp (f : Fields) (s : State) : Out :=
  issue eIcmp f s fun ic s => countAct ic s fun l => bnat (intCond (modBits f 6 4) (ic.i0 l) (ic.i1 l))

/-- SHL (R150). -/
def execShl (f : Fields) (s : State) : Out :=
  issue eShl f s fun ic s => intAct ic s fun l => if ic.amount l < ic.w then ic.n0 l * 2 ^ ic.amount l else (0 : Nat)

/-- SHR (R150). -/
def execShr (f : Fields) (s : State) : Out :=
  issue eShr f s fun ic s => intAct ic s fun l => if ic.amount l < ic.w then ic.n0 l / 2 ^ ic.amount l else (0 : Nat)

/-- SAR (R150): an amount of the width or more leaves the sign bit everywhere. -/
def execSar (f : Fields) (s : State) : Out :=
  issue eSar f s fun ic s => intAct ic s fun l => asSigned ic.w (ic.src0 ic.wide l) / 2 ^ min (ic.amount l) (ic.w - 1)

/-- A `w`-bit value rotated left by `n` (R150). -/
def rotl (w x n : Nat) : Nat := x * 2 ^ (n % w) % 2 ^ w + x / 2 ^ (w - n % w)

/-- ROT (R150). -/
def execRot (f : Fields) (s : State) : Out := issue eRot f s fun ic s => intAct ic s fun l => rotl ic.w (ic.n0 l) (ic.amount l)

/-- A bitwise operation on the sources (R151). -/
def bitAct (ic : Ic) (s : State) (g : Dword → Dword → Dword) : Act :=
  intAct ic s fun l => (g (ic.src0 ic.wide l) (ic.src1 ic.wide l)).toInt

/-- AND (R151). -/
def execAnd (f : Fields) (s : State) : Out := issue eAnd f s fun ic s => bitAct ic s fun a b => a &&& b

/-- OR (R151). -/
def execOr (f : Fields) (s : State) : Out := issue eOr f s fun ic s => bitAct ic s fun a b => a ||| b

/-- XOR (R151). -/
def execXor (f : Fields) (s : State) : Out := issue eXor f s fun ic s => bitAct ic s fun a b => a ^^^ b

/-- ANDN (R151). -/
def execAndn (f : Fields) (s : State) : Out := issue eAndn f s fun ic s => bitAct ic s fun a b => a &&& ~~~b

/-- NOT (R151). -/
def execNot (f : Fields) (s : State) : Out := issue eNot f s fun ic s => bitAct ic s fun a _ => ~~~a

/-- The width of a bit field clipped to the word (R152). -/
def clipField (w off wid : Nat) : Nat := if off < w then min wid (w - off) else 0

/-- BFX (R152). -/
def execBfx (f : Fields) (s : State) : Out :=
  issue eBfx f s fun ic s => intAct ic s fun l =>
    let off := ic.amount l % 256
    let n := clipField ic.w off ((ic.src2 false l).toNat % 256)
    let x := ic.n0 l / 2 ^ off % 2 ^ n
    if n == 0 then 0 else if ic.signed && x.testBit (n - 1) then (x : Int) - 2 ^ n else x

/-- BFI (R152). -/
def execBfi (f : Fields) (s : State) : Out :=
  issue eBfi f s fun ic s => intAct ic s fun l =>
    let ow := (ic.src2 false l).toNat
    let off := ow % 256
    let n := clipField ic.w off (ow / 256 % 256)
    let b := ic.n0 l
    if n == 0 then b else b - b / 2 ^ off % 2 ^ n * 2 ^ off + ic.n1 l % 2 ^ n * 2 ^ off

/-- The low `w` bits of a number in reverse order (R153). -/
def revBits : Nat → Nat → Nat
  | 0, _ => 0
  | w + 1, x => x % 2 * 2 ^ w + revBits w (x / 2)

/-- BREV (R153). -/
def execBrev (f : Fields) (s : State) : Out := issue eBrev f s fun ic s => intAct ic s fun l => revBits ic.w (ic.n0 l)

/-- POPC (R153). -/
def execPopc (f : Fields) (s : State) : Out := issue ePopc f s fun ic s => countAct ic s fun l => (bitsBelow ic.w (ic.n0 l)).length

/-- CLZ (R153). -/
def execClz (f : Fields) (s : State) : Out :=
  issue eClz f s fun ic s => countAct ic s fun l => match (bitsBelow ic.w (ic.n0 l)).getLast? with | some i => ic.w - 1 - i | none => ic.w

/-- CTZ (R153). -/
def execCtz (f : Fields) (s : State) : Out :=
  issue eCtz f s fun ic s => countAct ic s fun l => (bitsBelow ic.w (ic.n0 l)).headD ic.w

/-- LEA (R154). -/
def execLea (f : Fields) (s : State) : Out :=
  issue eLea f s fun ic s => .ok (ic.write s true fun l =>
    let i := byType 32 ic.signed (ic.src1 false l)
    BitVec.ofInt 64 ((ic.src0 true l).toNat + i * 2 ^ modBits f 6 4 + asSigned 32 (ic.src2 false l)))

/-- Quotient and remainder of R155. -/
def divRem (w : Nat) (signed : Bool) (x y : Int) : Int × Int :=
  if y == 0 then (if signed then -1 else tyMax w false, x)
  else if signed && x == tyMin w true && y == -1 then (tyMin w true, 0)
  else (Int.tdiv x y, Int.tmod x y)

/-- An instruction that writes a part of the quotient and remainder (R155). -/
def divAct (ic : Ic) (s : State) (part : Int × Int → Int) : Act :=
  let w := divWidth ic.f
  let signed := modBits ic.f 0 0 == 0
  .ok (ic.write s (w == 64) fun l =>
    intRes w signed (part (divRem w signed (byType w signed (ic.src0 (w == 64) l)) (byType w signed (ic.src1 (w == 64) l)))))

/-- IDIV (R155): EMU with cause DISABLED where the partition's EMUOPC bit is set, else the effect in hardware. -/
def execIdiv (f : Fields) (s : State) : Out := issue eIdiv f s fun ic s => divAct ic s (·.1)

/-- IREM (R155). -/
def execIrem (f : Fields) (s : State) : Out := issue eIrem f s fun ic s => divAct ic s (·.2)

end Sys2Proof.Machine
end

