-- ==== Sys2Proof/Machine/Float.lean ====
section
/-!
DEFINITION. The floating-point instructions and the conversions (spec/06_arithmetic.md R139, R156 to R170).
-/
namespace Sys2Proof.Machine

/-! ## Elements -/

/-- The formats of FT: `.f32`, `.f16`, `.bf16` (R156). -/
def ftFmt (ft : Nat) : Fmt :=
  match ft with
  | 0 => fp32
  | 1 => fp16
  | _ => bf16

/-- A lane operand read in a floating type: one element, or two under a packed type (R54, R139). -/
def floatBits (ft : Nat) (o : Operand) (raw : Dword) : Nat :=
  match o with
  | .const i => if ft = 0 then constIn fp32 i else constIn (ftFmt ft) i * 65537
  | _ => (lo32 raw).toNat

def Ic.f0 (ic : Ic) (ft l : Nat) : Nat := floatBits ft (ic.opnd ic.f.s0) (ic.src0 false l)
def Ic.f1 (ic : Ic) (ft l : Nat) : Nat := floatBits ft (ic.opnd ic.f.s1) (ic.src1 false l)
def Ic.f2 (ic : Ic) (ft l : Nat) : Nat := floatBits ft (ic.opnd ic.f.s2) (ic.src2 false l)

/-- An operation on elements applied to a lane: once, or to each of two elements with no interaction between them (R139). -/
def perElem (ft : Nat) (g : List Nat → Nat) (xs : List Nat) : Nat :=
  if ft = 0 then g xs else g (xs.map (· % 65536)) + g (xs.map (· / 65536)) * 65536

/-- An instruction that writes a floating result in each lane (R137, R138). -/
def floatAct (ic : Ic) (s : State) (x : Nat → Nat) : Act := .ok (ic.write s false fun l => BitVec.ofNat 64 (x l))

/-- FT in MOD[5:4], FTZ in MOD[3], RND in MOD[2:0], and MOD[6] (R156). -/
def Ic.ft (ic : Ic) : Nat := ftHi ic.f
def Ic.ftz (ic : Ic) : Bool := modBits ic.f 3 3 == 1
def Ic.rnd (ic : Ic) : Nat := modBits ic.f 2 0
def Ic.top (ic : Ic) : Bool := modBits ic.f 6 6 == 1

/-- SAT (R157): clamped to [+0, 1.0], NaN and -0 to +0. -/
def fsat (fm : Fmt) (x : Nat) : Nat :=
  let v := fdecode fm false x
  let one : FVal := .fin false 1 0
  if isNan v || isNeg v then 0 else if ltV one v then fround fm one else x

/-- An arithmetic instruction whose exact value is `g` of the element values (R157, R158). -/
def arithAct (ic : Ic) (s : State) (srcs : Nat → List Nat) (g : List FVal → FVal) : Act :=
  let fm := ftFmt ic.ft
  floatAct ic s fun l => perElem ic.ft (fun xs =>
    let r := fencode fm { mode := ic.rnd } ic.ftz false (g (xs.map (fdecode fm ic.ftz)))
    if ic.top then fsat fm r else r) (srcs l)

def Ic.two (ic : Ic) (l : Nat) : List Nat := [ic.f0 ic.ft l, ic.f1 ic.ft l]

/-- The i-th of some values. -/
def valAt (vs : List FVal) (i : Nat) : FVal := vs.getD i .nan

/-- FADD (R158). -/
def execFadd (f : Fields) (s : State) : Out :=
  issue eFadd f s fun ic s => arithAct ic s ic.two fun v => addV ic.rnd (valAt v 0) (valAt v 1)

/-- FSUB (R158). -/
def execFsub (f : Fields) (s : State) : Out :=
  issue eFsub f s fun ic s => arithAct ic s ic.two fun v => addV ic.rnd (valAt v 0) (negV (valAt v 1))

/-- FMUL (R158). -/
def execFmul (f : Fields) (s : State) : Out := issue eFmul f s fun ic s => arithAct ic s ic.two fun v => mulV (valAt v 0) (valAt v 1)

/-- FFMA (R158): one rounding. -/
def execFfma (f : Fields) (s : State) : Out :=
  issue eFfma f s fun ic s =>
    arithAct ic s (fun l => [ic.f0 ic.ft l, ic.f1 ic.ft l, ic.f2 ic.ft l]) fun v =>
      addV ic.rnd (mulV (valAt v 0) (valAt v 1)) (valAt v 2)

/-- FMIN and FMAX (R159): under NUM a single NaN gives the other operand. -/
def minMaxAct (ic : Ic) (s : State) (g : FVal → FVal → FVal) : Act :=
  let fm := ftFmt ic.ft
  floatAct ic s fun l => perElem ic.ft (fun xs =>
    let x := fdecode fm ic.ftz (xs.getD 0 0)
    let y := fdecode fm ic.ftz (xs.getD 1 0)
    fround fm (if ic.top && isNan x then y else if ic.top && isNan y then x else g x y)) (ic.two l)

/-- FMIN (R159). -/
def execFmin (f : Fields) (s : State) : Out := issue eFmin f s fun ic s => minMaxAct ic s minV

/-- FMAX (R159). -/
def execFmax (f : Fields) (s : State) : Out := issue eFmax f s fun ic s => minMaxAct ic s maxV

/-- The conditions of R160. -/
def floatCond (c : Nat) (x y : FVal) : Bool :=
  let un := isNan x || isNan y
  let eq := !un && !ltV x y && !ltV y x
  match c with
  | 0 => eq
  | 1 => !eq
  | 2 => ltV x y
  | 3 => ltV x y || eq
  | 4 => ltV y x
  | 5 => ltV y x || eq
  | 6 => un
  | _ => !un

/-- FCMP (R160): 1 or 0, or 2 × c1 + c0 under a packed type. -/
def execFcmp (f : Fields) (s : State) : Out :=
  issue eFcmp f s fun ic s =>
    let fm := ftFmt ic.ft
    let c (x y : Nat) : Nat := bnat (floatCond ic.rnd (fdecode fm ic.ftz x) (fdecode fm ic.ftz y))
    floatAct ic s fun l =>
      let x := ic.f0 ic.ft l
      let y := ic.f1 ic.ft l
      if ic.ft = 0 then c x y else 2 * c (x / 65536) (y / 65536) + c (x % 65536) (y % 65536)

/-- The class bit of a pattern (R161). -/
def classBit (fm : Fmt) (x : Nat) : Nat :=
  match fdecode fm false x with
  | .nan => 8
  | .inf neg => if neg then 0 else 7
  | .fin neg m _ =>
    if m == 0 then (if neg then 3 else 4)
    else if m < 2 ^ fm.fw then (if neg then 2 else 5)
    else if neg then 1 else 6

/-- FCLASS (R161): S1 is 32 untyped bits. -/
def execFclass (f : Fields) (s : State) : Out :=
  issue eFclass f s fun ic s =>
    let fm := ftFmt ic.ft
    let cls (x mask : Nat) : Nat := (2 ^ classBit fm x) &&& (mask % 1024)
    floatAct ic s fun l =>
      let x := ic.f0 ic.ft l
      let mask := (lo32 (ic.src1 false l)).toNat
      if ic.ft = 0 then cls x mask else cls (x % 65536) mask + cls (x / 65536) (mask / 65536) * 65536

/-! ## Special functions (R162, R163) -/

/-- FT in MOD[1:0] and FTZ in MOD[2] of the special functions and `FDIVS` (R156). -/
def Ic.ftLo (ic : Ic) : Nat := modBits ic.f 1 0
def Ic.ftzLo (ic : Ic) : Bool := modBits ic.f 2 2 == 1

/-- A result that is subnormal, as zero of its sign under FTZ (R29). -/
def flushBits (fm : Fmt) (ftz : Bool) (x : Nat) : Nat := if ftz && x / 2 ^ fm.fw % 2 ^ fm.ew == 0 then signBit fm (fmSign fm x) else x

/-- A special function on one element (R162): widened to FP32, evaluated, and rounded to the element's format. -/
def specialElem (ft op : Nat) (ftz : Bool) (x : Nat) : Nat :=
  let fm := ftFmt ft
  let v := fdecode fm ftz x
  let y := flushBits fp32 ftz (specialF32 op (fround fp32 v) v)
  if ft = 0 then y else fencode fm {} ftz false (fdecode fp32 false y)

/-- A special function in each lane. -/
def specialAct (op : Nat) (ic : Ic) (s : State) : Act :=
  floatAct ic s fun l => perElem ic.ftLo (fun xs => specialElem ic.ftLo op ic.ftzLo (xs.getD 0 0)) [ic.f0 ic.ftLo l]

/-- FRCP (R162). -/
def execFrcp (f : Fields) (s : State) : Out := issue eFrcp f s (specialAct 0x088)
/-- FRSQ (R162). -/
def execFrsq (f : Fields) (s : State) : Out := issue eFrsq f s (specialAct 0x089)
/-- FSQRT (R162). -/
def execFsqrt (f : Fields) (s : State) : Out := issue eFsqrt f s (specialAct 0x08A)
/-- FEXP2 (R162). -/
def execFexp2 (f : Fields) (s : State) : Out := issue eFexp2 f s (specialAct 0x08B)
/-- FLOG2 (R162). -/
def execFlog2 (f : Fields) (s : State) : Out := issue eFlog2 f s (specialAct 0x08C)
/-- FSIN (R162). -/
def execFsin (f : Fields) (s : State) : Out := issue eFsin f s (specialAct 0x08D)
/-- FCOS (R162). -/
def execFcos (f : Fields) (s : State) : Out := issue eFcos f s (specialAct 0x08E)
/-- FTANH (R162). -/
def execFtanh (f : Fields) (s : State) : Out := issue eFtanh f s (specialAct 0x08F)

/-- FDIVS (R163). -/
def execFdivs (f : Fields) (s : State) : Out :=
  issue eFdivs f s fun ic s =>
    let fm := ftFmt ic.ftLo
    floatAct ic s fun l => perElem ic.ftLo (fun xs =>
      fencode fm {} ic.ftzLo false (divV (fdecode fm ic.ftzLo (xs.getD 0 0)) (fdecode fm ic.ftzLo (xs.getD 1 0))))
      [ic.f0 ic.ftLo l, ic.f1 ic.ftLo l]

/-- FRND (R164): zero, infinite and integral values pass; a zero result keeps the sign. -/
def execFrnd (f : Fields) (s : State) : Out :=
  issue eFrnd f s fun ic s =>
    let fm := ftFmt ic.ft
    floatAct ic s fun l => perElem ic.ft (fun xs =>
      fround fm (match fdecode fm ic.ftz (xs.getD 0 0) with
        | .fin neg m e => .fin neg (roundMag { mode := ic.rnd } neg m e) 0
        | v => v)) [ic.f0 ic.ft l]

/-! ## Dot products (R165) -/

/-- Element i of width w of a word, read as signed or unsigned. -/
def wordElem (signed : Bool) (w i x : Nat) : Int :=
  let y := x / 2 ^ (w * i) % 2 ^ w
  if signed && y.testBit (w - 1) then (y : Int) - 2 ^ w else y

/-- An exact sum of values. -/
def sumV (vs : List FVal) : FVal := vs.foldl (addV 0) (.fin true 0 0)

/-- The formats of the floating combinations (R165). -/
def dotFmts (four : Bool) (c : Nat) : Fmt × Fmt :=
  match four, c with
  | true, 4 => (e4m3, e4m3)
  | true, 5 => (e4m3, e5m2)
  | true, 6 => (e5m2, e4m3)
  | true, _ => (e5m2, e5m2)
  | false, 4 => (fp16, fp16)
  | false, _ => (bf16, bf16)

/-- A dot product of `n` elements (R165): the exact sum as one value, rounded or narrowed once. S0 and S1 are read as 32 bits of packed
elements; under 16-bit floating elements a constant stands in both (R139). -/
def dotAct (four : Bool) (ic : Ic) (s : State) : Act :=
  let c := ic.rnd
  let n := if four then 4 else 2
  let w := if four then 8 else 16
  floatAct ic s fun l =>
    if c < 4 then
      let a := (lo32 (ic.src0 false l)).toNat
      let b := (lo32 (ic.src1 false l)).toNat
      let x := (List.range n).foldl (fun t i => t + wordElem (c != 1) w i a * wordElem (c == 0) w i b) (asSigned 32 (ic.src2 false l))
      let y := if modBits ic.f 3 3 == 1 then clampInt (tyMin 32 true) (tyMax 32 true) x else x
      (intRes 32 true y).toNat
    else
      let (fa, fb) := dotFmts four c
      let ft := if four then 3 else c - 3
      let a := if four then (lo32 (ic.src0 false l)).toNat else ic.f0 ft l
      let b := if four then (lo32 (ic.src1 false l)).toNat else ic.f1 ft l
      let el (fm : Fmt) (x i : Nat) : FVal := fdecode fm false (x / 2 ^ (w * i) % 2 ^ w)
      let prods := (List.range n).map fun i => mulV (el fa a i) (el fb b i)
      fround fp32 (addV 0 (fdecode fp32 false (ic.f2 0 l)) (sumV prods))

/-- DOT4 (R165). -/
def execDot4 (f : Fields) (s : State) : Out := issue eDot4 f s (dotAct true)

/-- DOT2 (R165). -/
def execDot2 (f : Fields) (s : State) : Out := issue eDot2 f s (dotAct false)

/-! ## Conversion -/

/-- The width of a type code in bits (R70). -/
def tyBits (c : Nat) : Nat :=
  match c with
  | 1 => 64 | 5 => 64 | 9 => 64
  | 2 => 8 | 6 => 8 | 13 => 8 | 14 => 8
  | 3 => 16 | 7 => 16 | 11 => 16 | 12 => 16
  | _ => 32

/-- The counters of the lanes that drew a value, advanced by one (R28). -/
def advanceCtr (ls : List Nat) (s : State) : State :=
  { s with m := { s.m with rsctr := ls.foldl (fun c l => modifyAt (· + 1#32) l c) s.m.rsctr } }

/-- The rounding of lane `l` of an instruction under code `mode` (R27, R28). -/
def Ic.laneRnd (ic : Ic) (mode l : Nat) : Rnd :=
  { mode := mode, rand := if mode = rndRS then rsRandom ic.rd.m.rskey (ic.rd.m.rsctr.getD (ic.at l) 0#32) else 0 }

/-- One element converted from type `st` to type `dt` (R30, R31, R167): its bits in the destination's width. -/
def convert (st dt : Nat) (r : Rnd) (ftz sb : Bool) (x : Nat) : Nat :=
  let fs := fmtOfTy st
  let fd := fmtOfTy dt
  let bd := tyBits dt
  let sd := signedTy dt
  let wrap (v : Int) : Nat := (v % 2 ^ bd).toNat
  if isIntTy st then
    let v := wordElem (signedTy st) (tyBits st) 0 x
    if isIntTy dt then wrap (if sb then clampInt (tyMin bd sd) (tyMax bd sd) v else v)
    else fencode fd r ftz sb (ofInt v)
  else if isIntTy dt then wrap (toIntV r (tyMin bd sd) (tyMax bd sd) (fdecode fs ftz x))
  else if st == dt then
    match fdecode fs ftz x with
    | .nan => nanBits fs
    | .fin neg m _ => if m == 0 then signBit fs neg else x
    | .inf _ => x
  else fencode fd r ftz sb (fdecode fs ftz x)

/-- The lane that a converted element makes (R166, R138): sign-extended for the narrow signed types. -/
def convertedLane (dt x : Nat) : Dword :=
  match dt with
  | 2 => ((BitVec.ofNat 8 x).signExtend 32).setWidth 64
  | 3 => ((BitVec.ofNat 16 x).signExtend 32).setWidth 64
  | 4 => (BitVec.ofNat 32 x).signExtend 64
  | _ => BitVec.ofNat 64 x

/-- CVT (R167, R168). An integer constant that its source type cannot hold exactly is rounded to that type (log 104). -/
def execCvt (f : Fields) (s : State) : Out :=
  issue eCvt f s fun ic s =>
    let st := cvtS f
    let dt := tyCode f
    let mode := modBits f 6 4
    let wide := tyBits st == 64
    let src (l : Nat) : Nat :=
      match ic.opnd f.s0 with
      | .const i => if isIntTy st then (ic.src0 wide l).toNat % 2 ^ tyBits st else constIn (fmtOfTy st) i
      | _ => (ic.src0 wide l).toNat % 2 ^ tyBits st
    let s := ic.write s (tyBits dt == 64) fun l => convertedLane dt (convert st dt (ic.laneRnd mode l) (cvtFtz f) (cvtSb f) (src l))
    .ok (if mode = rndRS then advanceCtr ic.once s else s)

/-- The codebook slots granted to the team, by number (R25). -/
def cbSlot (t : Team) (n : Nat) : Option (List Byte) := t.cbs[n]?

/-- CVTSC (R169): blocks of 32 lanes, whose contributing elements are the active lanes. -/
def execCvtsc (f : Fields) (s : State) : Out :=
  issue eCvtsc f s fun ic s =>
    let dt := tyCode f
    let mode := modBits f 6 4
    let slot := (ic.u1 false).toNat % 16
    match cbSlot s.team slot with
    | none =>
      if dt == 15 then .trap (bound bCb) else .ok (cvtscWrite ic s dt mode [])
    | some cb => .ok (cvtscWrite ic s dt mode cb)
where
  cvtscWrite (ic : Ic) (s : State) (dt mode : Nat) (cb : List Byte) : State :=
    let table := cbTable cb
    let val (l : Nat) : FVal := fdecode fp32 false (ic.f0 0 l)
    let scale (b : Nat) : Nat := blockScale (emaxOf dt table) ((ic.lanes.filter fun l => l / 32 == b).map val)
    let s := ic.write s false fun l =>
      let x := scale (l / 32)
      BitVec.ofNat 64 (x * 256 + scaledElem dt table x (ic.laneRnd mode l) (val l) (Config.c4Open cb x (ic.f0 0 l)))
    if dt == 15 then s else if mode = rndRS then advanceCtr ic.lanes s else s

/-- PACK (R170). -/
def execPack (f : Fields) (s : State) : Out :=
  issue ePack f s fun ic s =>
    let n := packCount f
    let w := 32 / n
    let r := f.s0.toNat
    floatAct ic s fun l =>
      (List.range n).foldl (fun x i => x + (vLane ic.rd.m.rf (r + i) (ic.at l)).toNat % 2 ^ w * 2 ^ (w * i)) 0

/-- UNPACK (R170): the field that S1 names once. -/
def execUnpack (f : Fields) (s : State) : Out :=
  issue eUnpack f s fun ic s =>
    let n := packCount f
    let w := 32 / n
    let i := (ic.u1 false).toNat % n
    floatAct ic s fun l => (BitVec.ofInt 32 (wordElem (modBits f 2 2 == 1) w i (lo32 (ic.src0 false l)).toNat)).toNat

end Sys2Proof.Machine
end

