-- ==== Sys2Proof/Machine/Scratch.lean ====
section
/-!
DEFINITION. The scratchpad instructions (spec/07_scratchpad.md R171 to R189), and what they share with the memory instructions: access
widths, load and store data, and the atomic operations (R188).
-/
namespace Sys2Proof.Machine

/-! ## Widths and data -/

/-- The value of an access of width code `w`, extended (R180). -/
def loadExt (w x : Nat) : Dword :=
  match w with
  | 4 => (BitVec.ofNat 8 x).signExtend 64
  | 6 => (BitVec.ofNat 16 x).signExtend 64
  | _ => BitVec.ofNat 64 x

/-- The lanes' loaded values, as little-endian numbers, written to DST (R183, R206). -/
def Ic.writeLoad (ic : Ic) (s : State) (w : Nat) (x : Nat → Nat) : State :=
  match ic.opnd ic.f.dst with
  | .v r =>
    if w = 2 then
      (List.range 4).foldl (fun s i => writeV s (r + i) ic.act fun l => BitVec.ofNat 32 (x l / 2 ^ (32 * i))) s
    else ic.write s (w == 1) fun l => loadExt w (x l)
  | _ => ic.write s false fun l => loadExt w (x l)

/-- The bytes that lane `l` stores, from the registers that DST names (R46, R183); a constant is extended to the width of the store (R54). -/
def Ic.storeBytes (ic : Ic) (w l : Nat) : List Byte :=
  match ic.opnd ic.f.dst with
  | .v r =>
    if w = 2 then ((List.range 4).map fun i => leBytes 4 (vLane ic.rd.m.rf (r + i) (ic.at l)).toNat).flatten
    else leBytes (wBytes w) (ic.srcD (w == 1) l).toNat
  | .const i => leBytes (wBytes w) (if i < 24 then (constBits i).signExtend 128 else (constBits i).setWidth 128).toNat
  | _ => leBytes (wBytes w) (ic.srcD (w == 1) l).toNat

/-- The value a lane has in a list of results. -/
def laneOr (rs : List (Nat × Nat)) (l : Nat) : Nat := (lookupKey l rs).getD 0

/-! ## Scratchpad addresses -/

/-- The scale and the displacement of the trailing address word (R180); 1 and 0 in the 64-bit form. -/
def awFactor (f : Fields) : Nat := if f.len == 1#2 then 2 ^ awScale f else 1
def awOffset (f : Fields) : Int := if f.len == 1#2 then (awDisp f).toInt else 0

/-- The scratchpad offset of a lane, with or without the index in S1 (R181). -/
def Ic.spadOff (ic : Ic) (indexed : Bool) (l : Nat) : Nat :=
  let i : Nat := if indexed then (lo32 (ic.src1 false l)).toNat else 0
  ((((lo32 (ic.src0 false l)).toNat + i * awFactor ic.f : Nat) + awOffset ic.f) % 2 ^ 32).toNat

/-- MEM with cause SPAD in lanes with their offsets (R181, R222, R223): each lane of the handler's mask finds its record. -/
def spadTrap (s : State) (acc : Access) (bad : List (Nat × Nat)) : Trap :=
  { cls := cMem, cause := xSpad, mask := some (bad.foldl (fun m e => m ||| (1#128 <<< e.1)) 0#128)
    xl := bad.map fun e => (e.1, xlRecOf { cls := .mem, cause := xSpad, va := e.2 } acc (!memberPriv s)) }

/-- The checks of R181 on lanes and offsets: alignment in every lane, then the share, which records the lowest lane that passes it. -/
def spadCheck (s : State) (acc : Access) (size : Nat) (offs : List (Nat × Nat)) : Option Trap :=
  let bad := offs.filter fun e => s.team.share < e.2 + size
  if offs.any fun e => e.2 % size != 0 then some alignTrap
  else if bad.isEmpty then none
  else some { spadTrap s acc bad with xl := (spadTrap s acc bad).xl.take 1 }

/-- The words that accesses of `size` bytes name, each once. -/
def wordSet (size : Nat) (offs : List (Nat × Nat)) : List Nat :=
  (offs.map fun e => (List.range ((size + 3) / 4)).map (e.2 / 4 + ·)).flatten.eraseDups

/-- RAS with cause USPAD where a word to be read has an uncorrectable error (R178). -/
def spadLost (t : Team) (ws : List Nat) : Option Trap :=
  if ws.any (spadHurt t) then some { cls := cRas, cause := 3 } else none

/-- The first of several traps. -/
def firstTrap (ts : List (Option Trap)) : Option Trap := ts.findSome? id

/-! ## Waiting on words (R184 to R186) -/

/-- Whether a set of words meets its condition. -/
def wordsMet (t : Team) (set : List Nat) (full : Bool) : Bool := set.all fun w => wordFull t w == full

/-- Whether a member that began to wait before `since` could complete now on a set that shares a word (R186). -/
def earlierReady (s : State) (set : List Nat) (since : Nat) : Bool :=
  s.peers.any fun p =>
    match p.wait with
    | some (.words ws f c) => c < since && wordsMet s.team ws f && ws.any set.contains
    | _ => false

/-- Whether an engine operation has yet to write one of some words that it owns (R245). -/
def wordsOwned (s : State) (set : List Nat) : Bool := ownedAny s (set.map fun w => (List.range 4).map fun i => Loc.spad (4 * w + i)).flatten

/-- The sleep of a synchronising access on a set of words; none where it may complete (R184 to R186, R245). That a waiter tests its words again
at its turn, and sleeps on where another access has changed them since, is the model's choice (log 89). -/
def Ic.waitWords (ic : Ic) (s : State) (set : List Nat) (full : Bool) : Option Wait :=
  let since := match ic.old with | some (.words _ _ c) => c | _ => s.cycle
  if wordsMet s.team set full && !earlierReady s set since && !wordsOwned s set then none else some (.words set full since)

/-- The sleep of an access of either kind on the places of lanes and offsets: a plain one waits only until engines have written what they own of
them (R245). -/
def Ic.spadWait (ic : Ic) (s : State) (size : Nat) (offs : List (Nat × Nat)) (cond : Option Bool) : Option Wait :=
  match cond with
  | some full => ic.waitWords s (wordSet size offs) full
  | none => if ownedAny s (offs.map fun e => (List.range size).map fun i => Loc.spad (e.2 + i)).flatten then some .owned else none

/-! ## LDS, STS and their synchronising forms -/

/-- The lanes that access, with their offsets. -/
def Ic.spadOffs (ic : Ic) (indexed : Bool) : List (Nat × Nat) := ic.once.map fun l => (l, ic.spadOff indexed l)

/-- A load from scratchpad (R183, R184): plain, waiting, or taking. -/
def spadLoad (ic : Ic) (s : State) (sync take : Bool) : Act :=
  let w := wCode ic.f
  let size := wBytes w
  let offs := ic.spadOffs true
  let ws := wordSet size offs
  match firstTrap [spadCheck ic.rd .read size offs, spadLost s.team ws] with
  | some t => .trap t
  | none =>
    match ic.spadWait s size offs (if sync then some true else none) with
    | some wt => .sleep wt
    | none =>
      let vals := offs.map fun e => (e.1, ofLeBytes (spadBytes s.team e.2 size))
      let s := { s with team := mendWords s.team ws }
      let s := if take then { s with team := ws.foldl setEmpty s.team } else s
      .ok (ic.writeLoad s w fun l => laneOr vals (ic.at l))

/-- LDS (R183). -/
def execLds (f : Fields) (s : State) : Out := issue eLds f s fun ic s => spadLoad ic s false false

/-- LDS_WAIT (R184). -/
def execLdsWait (f : Fields) (s : State) : Out := issue eLdsWait f s fun ic s => spadLoad ic s true false

/-- LDS_TAKE (R184). -/
def execLdsTake (f : Fields) (s : State) : Out := issue eLdsTake f s fun ic s => spadLoad ic s true true

/-- A store to scratchpad (R183, R185): the highest lane that writes a byte supplies it. That one which tests full bits reads no word, and so meets no
uncorrectable error there, is the model's choice (log 111). -/
def spadStore (ic : Ic) (s : State) (fill : Bool) : Act :=
  let w := wCode ic.f
  let size := wBytes w
  let offs := ic.spadOffs true
  let ws := wordSet size offs
  match spadCheck ic.rd .write size offs with
  | some t => .trap t
  | none =>
    match ic.spadWait s size offs (if fill then some false else none) with
    | some wt => .sleep wt
    | none =>
      let t := offs.foldl (fun t e => setSpadBytes t e.2 (ic.storeBytes w e.1)) s.team
      .ok { s with team := if fill then ws.foldl setFull t else t }

/-- STS (R183). -/
def execSts (f : Fields) (s : State) : Out := issue eSts f s fun ic s => spadStore ic s false

/-- STS_FILL (R185). -/
def execStsFill (f : Fields) (s : State) : Out := issue eStsFill f s fun ic s => spadStore ic s true

/-- SEMPTY (R187). That a range past the share is recorded as a write is the model's choice (log 111). -/
def execSempty (f : Fields) (s : State) : Out :=
  issue eSempty f s fun ic s =>
    let a := ic.spadOff false ic.lane
    let n := (lo32 (ic.u1 false)).toNat
    if a % 4 != 0 || n % 4 != 0 then .trap alignTrap
    else if s.team.share < a + n then .trap (spadTrap ic.rd .write [(ic.lane, a)])
    else .ok { s with team := { s.team with full := s.team.full.filter fun w => !(a / 4 ≤ w && w < (a + n) / 4) } }

/-! ## Atomic operations -/

/-- The result of an atomic operation on a value of the type (R188). -/
def atomOp (op ty old x : Nat) : Nat :=
  let w := tyWidth ty
  let signed := signedTy ty
  let rd (v : Nat) : Int := byType w signed (BitVec.ofNat 64 v)
  match op with
  | 0 =>
    if ty == 10 then fround fp32 (addV rndRN (fdecode fp32 false (old % 2 ^ 32)) (fdecode fp32 false (x % 2 ^ 32)))
    else (old + x) % 2 ^ w
  | 1 => if rd x < rd old then x % 2 ^ w else old
  | 2 => if rd old < rd x then x % 2 ^ w else old
  | 3 => (old &&& x) % 2 ^ w
  | 4 => (old ||| x) % 2 ^ w
  | 5 => (old ^^^ x) % 2 ^ w
  | _ => x % 2 ^ w

/-- Indivisible steps of lanes in ascending order on some storage: `step` gives the new value, if any, from the old (R188, R189). The
results are the old values. -/
def atomSteps {σ : Type} (read : σ → Nat → Nat) (write : σ → Nat → Nat → σ) (step : Nat → Nat → Option Nat) (ls : List Nat) (t : σ) :
    σ × List (Nat × Nat) :=
  ls.foldl (fun r l =>
    let old := read r.1 l
    (match step l old with | some x => write r.1 l x | none => r.1, r.2 ++ [(l, old)])) (t, [])

/-- The bytes of an atomic operation's type (R188). -/
def atomBytes (f : Fields) : Nat := tyWidth (awType f) / 8

/-- An operand of the type of an atomic operation (R54, R188). -/
def atomOperand (f : Fields) (o : Operand) (raw : Dword) : Nat := if awType f == 10 then floatBits 0 o raw else raw.toNat

/-- Atomic steps of the lanes on scratchpad. -/
def spadAtom (ic : Ic) (s : State) (indexed : Bool) (size : Nat) (signed : Bool) (step : Nat → Nat → Option Nat) : Act :=
  let offs := ic.spadOffs indexed
  match firstTrap [spadCheck ic.rd .rmw size offs, spadLost s.team (wordSet size offs)] with
  | some t => .trap t
  | none =>
  match ic.spadWait s size offs none with
  | some wt => .sleep wt
  | none =>
    let (t, olds) := atomSteps (fun t l => ofLeBytes (spadBytes t (laneOr offs l) size))
      (fun t l x => setSpadBytes t (laneOr offs l) (leBytes size x)) step (offs.map (·.1)) s.team
    let s := { s with team := mendWords t (wordSet size offs) }
    .ok (ic.write s (size == 8) fun l => intRes (8 * size) signed (laneOr olds (ic.at l) : Nat))

/-- ATOMS (R188). -/
def execAtoms (f : Fields) (s : State) : Out :=
  issue eAtoms f s fun ic s =>
    spadAtom ic s true (atomBytes f) (awType f == 4) fun l old =>
      some (atomOp (modBits f 2 0) (awType f) old (atomOperand f (ic.opnd f.s2) (ic.src2 (atomBytes f == 8) l)))

/-- The step of a compare-and-swap of `size` bytes (R189). -/
def casStep (ic : Ic) (size l old : Nat) : Option Nat :=
  if old == (ic.src1 (size == 8) l).toNat % 2 ^ (8 * size) then some ((ic.src2 (size == 8) l).toNat % 2 ^ (8 * size)) else none

/-- CASS (R189). -/
def execCass (f : Fields) (s : State) : Out :=
  issue eCass f s fun ic s => spadAtom ic s false (wBytes (wCode f)) false (casStep ic (wBytes (wCode f)))

end Sys2Proof.Machine
end

