-- ==== Sys2Proof/Machine/Memory.lean ====
section
/-!
DEFINITION. The memory instructions (spec/08_memory.md R191 to R212) and the eviction schedule. Accesses take effect in one order over all
agents (log 5), through the L1 of the member's core (R199).
-/
namespace Sys2Proof.Machine

/-! ## Addresses -/

/-- The address of a lane with the displacement `disp`, with or without the index in S1 (R205). -/
def Ic.memAddr (ic : Ic) (indexed : Bool) (factor : Nat) (disp : Int) (l : Nat) : Nat :=
  let i : Int := if indexed then asSigned 32 (ic.src1 false l) * factor else 0
  (((ic.src0 true l).toNat + i + disp) % 2 ^ 64).toNat

/-- The displacement of the I12 form (R204). -/
def i12Disp (f : Fields) : Int := (imm12 f).toInt

/-- The lanes that access, with their addresses (R205). -/
def Ic.memAddrs (ic : Ic) (indexed : Bool) : List (Nat × Nat) :=
  ic.once.map fun l => (l, ic.memAddr indexed (awFactor ic.f) (awOffset ic.f) l)

/-- The resolved lanes of an access, or the act that the first failing check of R205 comes to; an access waits until an engine has written
what it owns (R245). `home` says that its ordering empties the L1 first (R199). -/
def memResolve (ic : Ic) (acc : Access) (home : Bool) (size : Nat) (as : List (Nat × Nat)) : Except Act (List (Nat × List Loc)) :=
  if as.any fun e => e.2 % size != 0 then .error (.trap alignTrap)
  else
    let (locs, bad) := resolveLanes ic.rd { accessView ic.rd with home := home } acc size as
    if bad.isEmpty then .ok locs else .error (faultAct ic.rd acc bad)

/-! ## Through the caches -/

/-- The caches as the accesses of an instruction's lanes find them. -/
def passLanes (ic : Ic) (s : State) (as : List (Nat × Nat)) (locs : List (Nat × List Loc)) (store : Bool) : State :=
  (as.zip locs).foldl (fun s e => passCaches s (memberView ic.rd) e.1.2 e.2.2 store) s

/-- The ordering and the scope of a load, a store or an atomic operation (R204): those of the address word, or of the I12 form. -/
def ordOf (f : Fields) : Nat × Nat := if f.len == 1#2 then (awOrd f, awScope f) else (0, 0)
def ordI12 (f : Fields) : Nat × Nat := (x6 f / 16, x6 f % 8)

/-- An act of a computation that may already have come to one. -/
def actOf (r : Except Act Act) : Act :=
  match r with
  | .ok a => a
  | .error a => a

/-! ## LD and ST -/

/-- A load from addresses (R205, R206), with its ordering. -/
def memLoad (ic : Ic) (s : State) (ord : Nat × Nat) (as : List (Nat × Nat)) : Act :=
  let w := wCode ic.f
  match memResolve ic .read (ordAcq ord.1 && 2 ≤ ord.2) (wBytes w) as with
  | .error a => a
  | .ok locs =>
    let s := passLanes ic (orderL1 s ord.1 ord.2) as locs false
    let vals := locs.map fun e => (e.1, ofLeBytes (readLocs s e.2))
    .ok (ic.writeLoad s w fun l => laneOr vals (ic.at l))

/-- LD (R206). -/
def execLd (f : Fields) (s : State) : Out := issue eLd f s fun ic s => memLoad ic s (ordOf f) (ic.memAddrs true)

/-- LD_I12 (R206). -/
def execLdI12 (f : Fields) (s : State) : Out :=
  issue eLdI12 f s fun ic s => memLoad ic s (ordI12 f) (ic.once.map fun l => (l, ic.memAddr false 1 (i12Disp f) l))

/-- A store to addresses (R205, R206), with its ordering: the highest lane that writes a byte supplies it; a store to a bound window is dropped
(R202). A release at `.CL` or wider leaves nothing unwritten in the L1 (R199). -/
def memStore (ic : Ic) (s : State) (ord : Nat × Nat) (as : List (Nat × Nat)) : Act :=
  let w := wCode ic.f
  match memResolve ic .write false (wBytes w) as with
  | .error a => a
  | .ok locs =>
    let s := passLanes ic s as locs true
    .ok (orderL1 (locs.foldl (fun s e => writeLocs s e.2 (ic.storeBytes w e.1)) s) ord.1 ord.2)

/-- ST (R206). -/
def execSt (f : Fields) (s : State) : Out := issue eSt f s fun ic s => memStore ic s (ordOf f) (ic.memAddrs true)

/-- ST_I12 (R206). -/
def execStI12 (f : Fields) (s : State) : Out :=
  issue eStI12 f s fun ic s => memStore ic s (ordI12 f) (ic.once.map fun l => (l, ic.memAddr false 1 (i12Disp f) l))

/-! ## ATOM, CAS, RED -/

/-- The places of a lane among resolved lanes. -/
def locsOf (locs : List (Nat × List Loc)) (l : Nat) : List Loc := (lookupKey l locs).getD []

/-- Atomic steps of the lanes on memory at the lines' home (R207), with their ordering and the old values. -/
def memAtom (ic : Ic) (s : State) (indexed : Bool) (size : Nat) (step : Nat → Nat → Option Nat) (done : State → List (Nat × Nat) → State) :
    Act :=
  let as := ic.memAddrs indexed
  match memResolve ic .rmw true size as with
  | .error a => a
  | .ok locs =>
    let s := orderL1 s (awOrd ic.f) (awScope ic.f)
    let s := (as.zip locs).foldl (fun s e =>
      let s := atHome (l2Walks s (memberView ic.rd) e.1.2 size) e.2.2
      if cacheUse s (memberView ic.rd) e.1.2 = .none then s else l2Locs s e.2.2 true) s
    let (s, olds) := atomSteps (fun s l => ofLeBytes (readLocs s (locsOf locs l)))
      (fun s l x => writeLocs s (locsOf locs l) (leBytes size x)) step (locs.map (·.1)) s
    .ok (done s olds)

/-- The old values written to DST (R188). -/
def oldsOut (ic : Ic) (size : Nat) (signed : Bool) (s : State) (olds : List (Nat × Nat)) : State :=
  ic.write s (size == 8) fun l => intRes (8 * size) signed (laneOr olds (ic.at l) : Nat)

/-- ATOM (R207). -/
def execAtom (f : Fields) (s : State) : Out :=
  issue eAtom f s fun ic s =>
    let n := atomBytes f
    memAtom ic s true n (fun l old => some (atomOp (modBits f 2 0) (awType f) old (atomOperand f (ic.opnd f.s2) (ic.src2 (n == 8) l))))
      (oldsOut ic n (awType f == 4))

/-- CAS (R207). -/
def execCas (f : Fields) (s : State) : Out :=
  issue eCas f s fun ic s => memAtom ic s false (wBytes (wCode f)) (casStep ic (wBytes (wCode f))) (oldsOut ic (wBytes (wCode f)) false)

/-- RED (R207): the step of `ATOM` with the operand in DST, and no result. -/
def execRed (f : Fields) (s : State) : Out :=
  issue eRed f s fun ic s =>
    let n := atomBytes f
    memAtom ic s true n (fun l old => some (atomOp (modBits f 2 0) (awType f) old (atomOperand f (ic.opnd f.dst) (ic.srcD (n == 8) l))))
      fun s _ => s

/-! ## Ordering and caches -/

/-- FENCE (R208): at scope `.CL` or wider the member's stores leave the L1, and an acquire leaves it empty (R199). -/
def execFence (f : Fields) (s : State) : Out := issue eFence f s fun _ s => .ok (orderL1 s (modBits f 4 3) (modBits f 2 0))

/-- One lane of `PREF` (R209): a line of a STREAM range is not brought in. -/
def prefLane (v : View) (level : Nat) (s : State) (va : Nat) : State :=
  match resolveAccess s v .read va 1 with
  | .error _ => s
  | .ok ls =>
    let s := l2Walk s v va
    if (pLines ls).any fun n => evClass s.part n == 3 then s
    else
      match cacheUse s v va, level with
      | .none, _ => s
      | .both, 0 => l2Locs (l1FillLocs s ls) ls false
      | _, _ => l2Locs s ls false

/-- PREF (R209): no value changes, and it never traps after decode. -/
def execPref (f : Fields) (s : State) : Out :=
  issue ePref f s fun ic s => .ok (((ic.memAddrs true).map (·.2)).foldl (prefLane (memberView ic.rd) (modBits f 1 0)) s)

/-- The 128-byte lines that the range of `CCTL` is widened to, by number (R210). -/
def cctlLines (a n : Nat) : Nat × Nat := if n = 0 then (0, 0) else (a / 128, (a + n - 1) / 128 + 1)

/-- Whether one of the lines resolves to a place that satisfies `p` (R210): a line whose address resolves with a fault, but for PERM and KR, is
skipped, and so is one of a window, which no cache holds. -/
def inLines (s : State) (lo hi : Nat) (p : Loc → Bool) : Bool :=
  (List.range (hi - lo)).any fun i =>
    match resolveByte s { memberView s with perm := false } .read ((lo + i) * 128) winFuel with
    | .ok (_, _, .window) => false
    | .ok (l, _, _) => p l
    | .error _ => false

/-- Whether a cached block holds code of the lines, an L1 holds one of them under a key, or a physical line is one of them. -/
def blockInLines (s : State) (lo hi : Nat) (b : IBlock) : Bool :=
  inLines s lo hi fun l => match l with | .pa p => p ≤ b.pa && b.pa < p + 128 | _ => false
def keyInLines (s : State) (lo hi key : Nat) : Bool := inLines s lo hi fun l => match lineOf l with | some e => e.1 == key | none => false
def pInLines (s : State) (lo hi n : Nat) : Bool := inLines s lo hi fun l => match l with | .pa p => p / 128 == n | _ => false

/-- A cluster's cache without the blocks that satisfy `p`. -/
def dropBlocks (p : IBlock → Bool) (c : Cluster) : Cluster := { c with icache := c.icache.filter fun b => !p b }

/-- What `CCTL` does to the lines from `lo` up to `hi` (R210). -/
def cctlOp (s : State) (op lo hi : Nat) : State :=
  let l1 := s.core.l1.filter fun ln => keyInLines s lo hi ln.key
  match op with
  | 0 => l1.foldl writeBack s
  | 1 => (l1.filter fun ln => ln.dirty == 0#128).foldl (fun s ln => dropLine s ln.key) s
  | 2 => l1.foldl (fun s ln => l1Evict s ln.key) s
  | 3 =>
    let clean (x : L2Line) : L2Line := if pInLines s lo hi x.line then { x with dirty := false } else x
    { s with part := { s.part with l2 := s.part.l2.map clean } }
  | 4 => { s with part := { s.part with l2 := s.part.l2.filter fun x => !pInLines s lo hi x.line } }
  | 5 =>
    let inPart (c : Cluster) : Cluster := if s.part.clusters.contains c.num then dropBlocks (blockInLines s lo hi) c else c
    let s := l1.foldl writeBack s
    { s with cl := inPart s.cl, cls := s.cls.map inPart }
  | _ => l1Flush s

/-- CCTL (R210). -/
def execCctl (f : Fields) (s : State) : Out :=
  issue eCctl f s fun ic s =>
    let (lo, hi) := cctlLines (ic.u0 true).toNat (lo32 (ic.u1 false)).toNat
    .ok (cctlOp s (modBits f 2 0) lo hi)

/-! ## The eviction schedule -/

/-- Whether an entry of a step has a nonzero reserved field (R196). -/
def evBad (e : BitVec 128) : Bool := fld e 127 98 != 0 || fld e 63 48 != 0

/-- Whether an entry's range leaves the heap window (R196). -/
def evOut (v : View) (e : BitVec 128) : Bool :=
  let b := fld e 47 0 / 128 * 128
  !(v.hwbase ≤ b && b + 128 * fld e 95 64 ≤ v.hwbase + v.hwlimit)

/-- The state as the context that loads or loaded the schedule sees it (R196): `c` is that context. -/
def asContext (s : State) (c : Nat) : State :=
  if s.ctx.id = c then s
  else
    match s.ctxs.find? fun x => x.id == c && x.part == s.part.num with
    | some x => { s with ctx := x, m := { s.m with ctxOv := [] } }
    | none => s

/-- The bytes of step `n` of the schedule at `a`, with the caches as their read leaves them, or the act of a fault (R196, R211). -/
def evRead (s : State) (ic : Ic) (a n : Nat) : Except Act (State × List Byte) := readOne s ic ((a + 128 * n) % 2 ^ 64) 128

/-- The entries of a step (R196). -/
def evEntries (bs : List Byte) : List (BitVec 128) := (List.range 8).map fun i => BitVec.ofNat 128 (ofLeBytes ((bs.drop (16 * i)).take 16))

/-- `sr.evstat` with the flags that a step sets (R196): an unused entry has no range. -/
def evFlags (s : State) (bs : List Byte) (st : Dword) : Dword :=
  let bad := (evEntries bs).any evBad
  let out := (evEntries bs).any fun e => fld e 97 96 != 0 && evOut (memberView s) e
  st ||| (if bad then 1#64 else 0#64) ||| (if out then 2#64 else 0#64)

/-- The physical lines of an entry's range, through the heap window and the partition range register of the loading context (R196): the class,
the first line and the line after the last, none at or above the range limit (log 93). -/
def evRange (s : State) (e : BitVec 128) : Nat × Nat × Nat :=
  let ipa := (fld e 47 0 / 128 * 128 + (memberView s).hwoff) % 2 ^ 48
  let lim := s.part.prlim.toNat
  let top := min (ipa + 128 * fld e 95 64) lim
  if lim ≤ ipa then (0, 0, 0) else (fld e 97 96, (s.part.prbase.toNat + ipa) / 128, (s.part.prbase.toNat + top + 127) / 128)

/-- The ranges of a step that count (R196): one class 0 range stands for each entry that is unused or ignored. -/
def evRanges (s : State) (bs : List Byte) : List (Nat × Nat × Nat) :=
  (evEntries bs).map fun e => if evBad e || fld e 97 96 == 0 || evOut (memberView s) e then (0, 0, 0) else evRange s e

/-- The partition without a schedule (R211). -/
def noSchedule (p : Partition) : Partition := { p with evAddr := 0#64, evstat := 0#64, evStep := [] }

/-- EVLOAD (R211): more than 65,535 steps are undefined, which decides before the instruction's own checks (R63, R71; log 48). A fault reading step 0
leaves the schedule removed. -/
def execEvload (f : Fields) (s : State) : Out :=
  issue eEvload f s fun ic s =>
    let a := (ic.u0 true).toNat
    let n := (ic.u1 false).toNat
    if 65535 < n then .trap (emuTrap .rsv)
    else if a % 128 != 0 then .trap alignTrap
    else if n = 0 then .ok { s with part := noSchedule s.part }
    else
      match evRead s ic a 0 with
      | .ok (s, bs) =>
        let st := evFlags ic.rd bs (BitVec.ofNat 64 (n * 2 ^ 32))
        .ok { s with part := { s.part with evAddr := BitVec.ofNat 64 a, evCtx := s.ctx.id, evstat := st, evStep := evRanges ic.rd bs } }
      | .error (.trap t) => .trapIn (fun s => { s with part := noSchedule s.part }) t
      | .error e => e

/-- EVSTEP (R211): the amount is S0 (log 21). -/
def execEvstep (f : Fields) (s : State) : Out :=
  issue eEvstep f s fun ic s =>
    let st := s.part.evstat
    let n := fld st 47 32
    if n = 0 then .ok (ic.writeAll s false 0#64)
    else
      let c := (fld st 31 16 + (ic.u0 false).toNat % 2 ^ 16) % n
      match evRead (asContext s s.part.evCtx) ic s.part.evAddr.toNat c with
      | .ok (t, bs) =>
        let s := { s with core := t.core, part := t.part, mem := t.mem, vault := t.vault }
        let x := asContext ic.rd s.part.evCtx
        let p := { s.part with evstat := evFlags x bs (setFld st 31 16 c), evStep := evRanges x bs }
        .ok (ic.writeAll { s with part := p } false (BitVec.ofNat 64 c))
      | .error (.ask va) => if s.ctx.id = s.part.evCtx then .ask va else .sleep (.pri va)
      | .error e => e

/-! ## Gather windows -/

/-- The checks that `WINBIND` makes of a descriptor (R200). -/
def winOk (w : Window) : Bool :=
  fld w 511 320 == 0 && fld w 255 197 == 0 && fld w 195 192 ≤ 6 && fld w 127 112 == 0 && fld w 63 48 == 0 &&
    winCount w * winEsize w ≤ 2 ^ 32 && winIndex w % winIsize w == 0 && winBase w % min (winEsize w) 16 == 0

/-- MEM with cause WIN for a window number above 15 (R212). -/
def winNumTrap (s : State) (ic : Ic) (n : Nat) : Trap :=
  { cls := cMem, cause := xWin, xl := xlAll ic.act (xlRecOf { cls := .mem, cause := xWin, va := n } .read (!memberPriv s)) }

/-- WINBIND (R212). The descriptor's address need not be aligned: no rule asks for it. -/
def execWinbind (f : Fields) (s : State) : Out :=
  issue eWinbind f s fun ic s =>
    let n := (lo32 (ic.u0 false)).toNat
    if 15 < n then .trap (winNumTrap ic.rd ic n)
    else
      match readSpread s ic (ic.u1 true).toNat 64 with
      | .error e => e
      | .ok (s, bs) =>
        let w : Window := BitVec.ofNat 512 (ofLeBytes bs)
        if !winOk w then .trap (shape shWin)
        else
          let s := { s with ctx := { s.ctx with wins := insertKey n w s.ctx.wins } }
          .ok (ic.writeAll s false (s.ctx.winbase + BitVec.ofNat 64 (n * 2 ^ 32)))

/-- WINFREE (R212). -/
def execWinfree (f : Fields) (s : State) : Out :=
  issue eWinfree f s fun ic s =>
    let n := (lo32 (ic.u0 false)).toNat
    if 15 < n then .trap (winNumTrap ic.rd ic n) else .ok { s with ctx := { s.ctx with wins := eraseKey n s.ctx.wins } }

end Sys2Proof.Machine
end

