-- ==== Sys2Proof/Machine/Copy.lean ====
section
/-!
DEFINITION. The block-transfer engine (spec/11_copy.md R255 to R278): copies at issue, their completion and suspension, and the instructions
that wait on tags. A copy makes its reads in the step in which it leaves the load queue, or completes or is suspended (log 22).
-/
namespace Sys2Proof.Machine

/-! ## Tags and the queue -/

/-- The copies of the engine of the core in focus, with their teams. -/
def engineCopies (s : State) : List (Nat × Copy) :=
  (s.team.copies.map fun c => (s.team.id, c)) ++
    ((s.teams.filter fun t => t.1.core == s.core.num && t.1.present).map fun t => t.1.copies.map fun c => (t.1.id, c)).flatten

/-- Whether the load queue, and the store queue, have room (R255). -/
def loadRoom (s : State) : Bool := ((engineCopies s).filter fun c => !c.2.stored).length < 16
def storeRoom (s : State) : Bool := ((engineCopies s).filter fun c => c.2.stored).length < 16

/-- Whether the engine has room for a copy of the team on a tag (R255, R257). -/
def copyRoom (s : State) (tag : Nat) : Bool :=
  let cs := (engineCopies s).map fun c => (c.1, c.2.tag)
  loadRoom s && (cs.contains (s.team.id, tag) || cs.eraseDups.length < 64)

/-- The team's status of a tag cleared where the tag's bit goes from 1 to 0 (R256). -/
def openTag (t : Team) (tag : Nat) : Team :=
  if (tagOut t tag).isEmpty then { t with abort := t.abort &&& ~~~(1#64 <<< tag), undeliv := t.undeliv.set tag 0#8 } else t

/-- A copy issued on a tag (R256), with the lines that its places pass the L1 by for. -/
def issueCopy (s : State) (tag : Nat) (op : CopyOp) (passBy : List (Nat × Bool)) : State :=
  let t := openTag s.team tag
  let c : Copy := { id := s.nextId, tag := tag, issuer := s.m.id, priv := memberPriv s, op := op, passBy := passBy }
  { s with
    team := { t with copies := t.copies ++ [c] }
    nextId := s.nextId + 1 }

/-- A copy that stops being outstanding (R256); the retirement of the team's last member may have waited for it (R257). -/
def dropCopy (s : State) (id : Nat) : State :=
  lastLeaves { s with team := { s.team with copies := s.team.copies.filter fun c => c.id != id } }

/-! ## Engine operations and the caches -/

/-- The caches as the translations of some accesses, `n` bytes at each address, leave them at the issue of an engine operation (R195, R217). -/
def walkAll (s : State) (as : List (Nat × Nat)) : State := as.foldl (fun s a => l2Walks s (memberView s) a.1 a.2) s

/-- The lines that those accesses pass the L1 by for (R215, R254). -/
def passedAll (s : State) (acc : Access) (as : List (Nat × Nat)) : List (Nat × Bool) :=
  (as.flatMap fun a =>
    match resolveRange s (memberView s) acc a.1 a.2 with
    | .ok ls => passedBy s (memberView s) a.1 ls
    | .error _ => []).eraseDups

/-- The places among some that do not pass the second level by (R195, R215). -/
def cachedLocs (ks : List (Nat × Bool)) (ls : List Loc) : List Loc :=
  ls.filter fun l => match lineOf l with | some e => !ks.contains (e.1, true) | none => true

/-- The words of the share among some places that a read has corrected (R178). -/
def mendLocs (s : State) (ls : List Loc) : State :=
  { s with team := mendWords s.team (ls.filterMap fun l => match l with | .spad a => some (a / 4) | _ => none) }

/-- The state in which an engine operation that passes some lines by reads some places: it has passed the second level, and words of the share are
corrected (R178, R195). -/
def passedReads (ks : List (Nat × Bool)) (s : State) (ls : List Loc) : State := mendLocs (l2Locs (passBy s ks) (cachedLocs ks ls) false) ls

/-- Bytes written by such an operation. -/
def passedWrite (ks : List (Nat × Bool)) (s : State) (ls : List Loc) (bs : List Byte) : State :=
  engineBytes (l2Locs s (cachedLocs ks ls) true) ls bs

/-! ## CPY -/

/-- The bytes of a `CPY` element (R274). -/
def cpySize (f : Fields) : Nat := 4 * 2 ^ modBits f 1 0

/-- One side of a `CPY` (R274): the lanes' places, or a trap of its own checks, and its lanes whose translation fails. -/
def cpySide (s : State) (spad : Bool) (acc : Access) (n : Nat) (as : List (Nat × Nat)) :
    Except Trap (List (Nat × List Loc) × List (Nat × XFault)) :=
  if spad then
    match spadCheck s acc n as with
    | some t => .error t
    | none => .ok (as.map fun e => (e.1, (List.range n).map fun i => .spad (e.2 + i)), [])
  else if as.any fun e => e.2 % n != 0 then .error alignTrap
  else
    let (ls, bad) := resolveLanes s (issueView s) acc n as
    match laneTrap s acc (bad.filter fun e => stepOf e.2 < 2) with
    | some t => .error t
    | none => .ok (ls, bad)

/-- An address of a side in a lane: 32 bits in scratchpad, 64 in memory (R273). -/
def sideAddr (spad : Bool) (src : Bool → Nat → Dword) (l : Nat) : Nat := if spad then (lo32 (src false l)).toNat else (src true l).toNat

/-- The addresses in memory of one side of a `CPY`, with the bytes at each. -/
def sideTouches (spad : Bool) (n : Nat) (as : List (Nat × Nat)) : List (Nat × Nat) := if spad then [] else as.map fun e => (e.2, n)

/-- CPY (R274): the checks in their order, then one copy on its tag. R273 gives a tag source no width: that all 64 bits of a k register count against
63 is the model's choice (log 123). -/
def execCpy (f : Fields) (s : State) : Out :=
  issue eCpy f s fun ic s =>
    let tag := (ic.u1 false).toNat
    let n := cpySize f
    if 63 < tag then .trap (shape shTag)
    else
      let asS := ic.once.map fun l => (l, sideAddr (cpySrcSpad f) ic.src0 l)
      let asD := ic.once.map fun l => (l, sideAddr (cpyDstSpad f) ic.srcD l)
      match cpySide ic.rd (cpySrcSpad f) .read n asS with
      | .error t => .trap t
      | .ok (src, badS) =>
        match cpySide ic.rd (cpyDstSpad f) .write n asD with
        | .error t => .trap t
        | .ok (dst, badD) =>
          match laneTrapOf ic.rd ((badS.map fun e => (e.1, e.2, Access.read)) ++ badD.map fun e => (e.1, e.2, Access.write)) with
          | some t => .trap t
          | none =>
            if !(badS ++ badD).isEmpty then faultAct ic.rd .read (badS ++ badD)
            else if !copyRoom s tag then .sleep .copyRoom
            else
              let reads := sideTouches (cpySrcSpad f) n asS
              let writes := sideTouches (cpyDstSpad f) n asD
              .ok (issueCopy (walkAll s (reads ++ writes)) tag (.lanes (ic.once.map fun l => (locsOf src l, locsOf dst l)))
                (passedAll s .read reads ++ passedAll s .write writes))

/-! ## The checks at issue (R263) -/

/-- Step 2 of R263. -/
def tcReserved (r : Layout) : Bool :=
  fld r 511 496 != 0 || fld r 159 64 != 0 || fld r 31 24 != 0 || fld r 8 3 != 0 || 4 < tcEsize r || tcInner r ≥ 2 || tcOuter r == 3

/-- Whether a number is a power of two. -/
def isPow2 (n : Nat) : Bool := n != 0 && n == 2 ^ Nat.log2 n

/-- Step 3 of R263. -/
def tcMisaligned (r : Layout) (d : Dword) (tiled strided : Nat) : Bool :=
  tiled % 16 != 0 || strided % 16 != 0 || (tcSwz r != 0 && tiled % 128 != 0) ||
    (tcLbl d && (tcLblOff d % 4 != 0 || tcLblPtr r % 4 != 0))

/-- The self-overlap of a strided side that is written (R263). -/
def stridedOverlap (r : Layout) : Bool :=
  (1 < tcE1 r && 2 * tcRs r < tcE0 r * tcNibs r) || (1 < tcE2 r && tcPs r < tcE1 r * tcRs r)

/-- The geometry of step 5 of R263, labels apart. -/
def layoutBad (r : Layout) : Bool :=
  let unit := if tcShuf r then 16 else max 1 (tcNibs r / 2)
  (tcOuter r == 2 && !(isPow2 (tcNbr r) && isPow2 (tcNbc r))) ||
    (tcTpitch r != 0 && (tcTpitch r % 128 != 0 || tcTpitch r < tcPacked r)) ||
    (tcShuf r && (tcEsize r != 4 || tcInner r != 0 || fld r 15 13 < 5 || tcE0 r % 32 != 0 || tcO0 r % 32 != 0 || tcB0 r % 32 != 0)) ||
    tcRs r % unit != 0 || tcPs r % unit != 0 || (tcDir r && stridedOverlap r)

/-- Step 5 of R263. -/
def tcGeometry (r : Layout) (d : Dword) : Bool :=
  layoutBad r || (tcLbl d && (!tcTiledSp r d || tcStridedSp r d)) || (tcSelv d && tcDir r)

/-- The end of the bytes of present elements on a strided side from `base`; none where no element is present. -/
def stridedEnd (r : Layout) (base : Nat) : Option Nat :=
  let rLast := min (tcE1 r : Int) (tcB1 r - tcO1 r) - 1
  let cLast := min (tcE0 r : Int) (tcB0 r - tcO0 r) - 1
  if max 0 (-tcO1 r) ≤ rLast && max 0 (-tcO0 r) ≤ cLast then
    some (base + (tcE2 r - 1) * tcPs r + (rLast + tcO1 r).toNat * tcRs r + ((((cLast + tcO0 r).toNat + 1) * tcNibs r) + 1) / 2)
  else none

/-- Step 6 of R263: the offset of the scratchpad side or label area that reaches beyond the share, and the access that it is for. -/
def tcBeyond (s : State) (r : Layout) (d : Dword) (mc : Bool) (tiled strided : Nat) : Option (Nat × Access) :=
  let share := s.team.share
  let onTiled : Access := if tcDir r then .read else .write
  let onStrided : Access := if tcDir r then .write else .read
  if tcTiledSp r d && !mc && share < tiled + tcE2 r * tcPitch r then some (tiled, onTiled)
  else if tcStridedSp r d && (match stridedEnd r strided with | some e => decide (share < e) | none => false) then some (strided, onStrided)
  else if tcLbl d && share < (if tcSelv d then tcSelvBase r d + 64 * tcSelvNum r else tcLblOff d + 4 * tcE2 r * tcLblN r) then
    some (tcLblOff d, onTiled)
  else none

/-! ## Multicast (R269, R270) -/

/-- The resident teams of a core. -/
def teamsOn (s : State) (core : Nat) : List Team :=
  (s.team :: s.teams.map (·.1)).filter fun t => t.present && t.core == core

/-- The receiving windows of a core for a key, with the offset applied: the team and the scratchpad offset (R270). -/
def receivers (s : State) (core key off foot : Nat) : List (Nat × Nat) :=
  ((teamsOn s core).map fun t =>
    (t.mcwin.filter fun w => mcKey w == key && off + foot ≤ 128 * mcSize w).map fun w => (t.id, mcBase w + off)).flatten

/-- The targets of a multicast and the cores that receive nothing (R270). -/
def mcSample (s : State) (d : Dword) (off foot : Nat) : List (Nat × Nat) × BitVec 8 :=
  let base := s.team.core / 8 * 8
  let cores := bitsBelow 8 (tcCmask d)
  let per := cores.map fun i => (i, receivers s (base + i) (tcKey d) off foot)
  ((per.map (·.2)).flatten, per.foldl (fun u e => if e.2.isEmpty then u ||| (1#8 <<< e.1) else u) 0#8)

/-! ## TCOPY at issue -/

/-- A copy that is issued and completes at once (R263 step 4). -/
def passTag (s : State) (tag : Nat) : State := { s with team := openTag s.team tag }

/-- The cores of a multicast that receive nothing noted on a tag (R270). -/
def noteUndeliv (s : State) (tag : Nat) (u : BitVec 8) : State :=
  { s with team := { s.team with undeliv := modifyAt (· ||| u) tag s.team.undeliv } }

/-- TCOPY and TCOPY.MC at issue (R263, R276). -/
def tcopyAct (mc : Bool) (ic : Ic) (s : State) : Act :=
  let d := ic.f.ext
  let dst := sideAddr (tcDstSp d) ic.srcD ic.lane
  let src := sideAddr (tcSrcSp d) ic.src0 ic.lane
  let ra := (ic.u1 true).toNat
  if tcSelv d && s.team.rels.length ≤ tcRslot d then .trap (bound bRel)
  else if ra % 64 != 0 then .trap alignTrap
  else
    match readOne s ic ra 64 with
    | .error a => a
    | .ok (s, bs) =>
      let r : Layout := BitVec.ofNat 512 (ofLeBytes bs)
      let tiled := if tcDir r then src else dst
      let strided := if tcDir r then dst else src
      let foot := tcE2 r * tcPitch r
      if tcReserved r then .trap (shape shRsv)
      else if tcMisaligned r d tiled strided then .trap alignTrap
      else if tcE0 r = 0 || tcE1 r = 0 || tcE2 r = 0 then
        if !copyRoom s (tcTag d) then .sleep .copyRoom
        else .ok (noteUndeliv (passTag s (tcTag d)) (tcTag d) (if mc then (mcSample s d dst 0).2 else 0#8))
      else if tcGeometry r d || (mc && (!tcDstSp d || tcDir r)) then .trap (shape shGeom)
      else
        match tcBeyond s r d mc tiled strided with
        | some (off, acc) => .trap (spadTrap ic.rd acc (ic.lanes.map fun l => (l, off)))
        | none =>
          if !copyRoom s (tcTag d) then .sleep .copyRoom
          else
            let rel := if tcSelv d then s.team.rels.getD (tcRslot d) [] else []
            let (targets, undel) := if mc then mcSample s d dst foot else ([(s.team.id, dst)], 0#8)
            let s := issueCopy s (tcTag d) (.tensor r d (BitVec.ofNat 64 dst) (BitVec.ofNat 64 src) targets rel) []
            .ok (noteUndeliv s (tcTag d) undel)

/-- TCOPY (R276). -/
def execTcopy (f : Fields) (s : State) : Out := issue eTcopy f s (tcopyAct false)

/-- TCOPY_MC (R276). -/
def execTcopyMc (f : Fields) (s : State) : Out := issue eTcopyMc f s (tcopyAct true)

/-! ## Copies as they run -/

/-- How the run of a copy ends: whole, or at a fault with its side. -/
inductive RunEnd where
  | whole
  | stop (side : Nat) (f : XFault)
deriving DecidableEq, Repr

/-- A team changed, wherever it stands. -/
def onTeam (s : State) (id : Nat) (g : Team → Team) : State :=
  if s.team.id = id then { s with team := g s.team }
  else { s with teams := s.teams.map fun t => if t.1.id == id then (g t.1, t.2) else t }

/-- Whether a source of an engine's access has an uncorrectable error in the team's scratchpad (R178). -/
def spadLostLoc (t : Team) : Loc → Bool
  | .spad a => spadHurt t (a / 4)
  | _ => false

/-- The scratchpad places of an access of `n` nibbles. -/
def nibLocs (nib n : Nat) : List Loc := (List.range (nibBytes n)).map fun i => .spad (nib / 2 + i)

/-- A value of `n` nibbles read from scratchpad or memory by an engine, with the places it stands at (R178, R245, R259). -/
def engineRead (s : State) (v : View) (spad : Bool) (nib n : Nat) : Except XFault (Nat × List Loc) :=
  let cut (x : Nat) : Nat := if n = 1 then x / 16 ^ (nib % 2) % 16 else x
  if spad then
    let ls := nibLocs nib n
    if ls.any (spadLostLoc s.team) then .error { cls := .ras, cause := 3, va := nib / 2 }
    else if ls.any (ownedBy s s.team.id v.engine v.copyOf) then .error { cls := .own, cause := 0, va := nib / 2 }
    else .ok (cut (ofLeBytes (readLocs s ls)), ls)
  else
    let va := nib / 2 % 2 ^ 64
    (resolveAccess s v .read va (nibBytes n)).map fun ls => (cut (ofLeBytes (readLocs (seenAt s v va ls) ls)), ls)

/-- The state after such a read: caches passed, and words of the share corrected (R178, R195). -/
def engineSeen (s : State) (v : View) (spad : Bool) (nib : Nat) (ls : List Loc) : State :=
  if spad then mendLocs s ls else l2Pass s v (nib / 2 % 2 ^ 64) ls false

/-- A value with the bytes it replaces: a nibble keeps the other half of its byte. -/
def nibMerge (old nib n x : Nat) : List Byte :=
  if n = 1 then [BitVec.ofNat 8 (if nib % 2 = 0 then old / 16 * 16 + x % 16 else old % 16 + x % 16 * 16)] else leBytes (n / 2) x

/-- A value of `n` nibbles written into the scratchpad of each target, at a nibble offset from the target's base (R245, R259, R270). -/
def spadOut (s : State) (v : View) (targets : List (Nat × Nat)) (nib n x : Nat) : Except XFault State :=
  if targets.any fun t => (nibLocs (2 * t.2 + nib) n).any (ownedBy s t.1 v.engine v.copyOf) then
    .error { cls := .own, cause := 0, va := nib / 2 }
  else
    .ok (targets.foldl (fun s t => onTeam s t.1 fun tm =>
      let a := t.2 + nib / 2
      fillSpadBytes tm a (nibMerge (spadByte tm a).toNat nib n x)) s)

/-- A value of `n` nibbles written to memory by an engine (R244, R259). -/
def engineWrite (s : State) (v : View) (nib n x : Nat) : Except XFault State :=
  let va := nib / 2 % 2 ^ 64
  (resolveAccess s v .write va (nibBytes n)).map fun ls =>
    let s := l2Pass s v va ls true
    engineBytes s ls (nibMerge (ofLeBytes (readLocs s ls)) nib n x)

/-- A tensor copy's parameters, as its operation holds them. -/
structure TcRun where
  v : View
  r : Layout
  d : Dword
  dst : Nat
  src : Nat
  targets : List (Nat × Nat)
  rel : List Byte

/-- The nibble address of element `k`'s source, where it has one (R262). -/
def tcSource (c : TcRun) (k : Nat) : Option Nat :=
  let e := tcElem c.r k
  if tcPresent c.r e then some (if tcDir c.r then 2 * c.src + e.t else tcStrided c.r c.src e) else none

/-- The value of an element at its source address in a state (R262). -/
def tcValue (c : TcRun) (s : State) (nib : Nat) : Except XFault (Nat × List Loc) := engineRead s c.v (tcSrcSp c.d) nib (tcNibs c.r)

/-- The value of an element written (R262). -/
def tcPut (c : TcRun) (s : State) (k x : Nat) : Except XFault State :=
  let e := tcElem c.r k
  let n := tcNibs c.r
  if tcDir c.r then
    if tcDstSp c.d then spadOut s c.v [(s.team.id, 0)] (tcStrided c.r c.dst e) n x else engineWrite s c.v (tcStrided c.r c.dst e) n x
  else if tcDstSp c.d then spadOut s c.v c.targets e.t n x
  else engineWrite s c.v (2 * c.dst + e.t) n x

/-- One element (R262), with the value of its source as it stands in `rd`. -/
def tcStepFrom (c : TcRun) (rd s : State) (k : Nat) : Except (Nat × XFault) State :=
  let put (s : State) (x : Nat) : Except (Nat × XFault) State := (tcPut c s k x).mapError fun f => (1, f)
  match tcSource c k with
  | none => if tcDir c.r then .ok s else put s (tcFillVal c.r)
  | some nib =>
    match tcValue c rd nib with
    | .error f => .error (0, f)
    | .ok (x, ls) => put (engineSeen s c.v (tcSrcSp c.d) nib ls) x

/-- One element, read as it stands (R262). -/
def tcStep (c : TcRun) (s : State) (k : Nat) : Except (Nat × XFault) State := tcStepFrom c s s k

/-- Elements from the k-th on in traversal order, until the last or a fault: the state, and how the run ends at which element. Where the copy
overlaps itself `tcElems` allows other orders too (log 109). -/
def tcRunElems (c : TcRun) : Nat → Nat → State → State × Nat × RunEnd
  | 0, k, s => (s, k, .whole)
  | n + 1, k, s =>
    match tcStep c s k with
    | .ok s => tcRunElems c n (k + 1) s
    | .error (side, f) => (s, k, .stop side f)

/-- Whether the copy has changed the source of one of `n` elements from the k-th on (R271). -/
def tcDisturbed (c : TcRun) (k n : Nat) (s t : State) : Bool :=
  let x (s : State) (nib : Nat) : Option Nat := match tcValue c s nib with | .ok v => some v.1 | .error _ => none
  (List.range n).any fun i => match tcSource c (k + i) with | some nib => x s nib != x t nib | none => false

/-- A number put into a list before the first one with a greater key. -/
def putByKey (key : Nat → Nat) (i : Nat) : List Nat → List Nat
  | [] => [i]
  | j :: r => if key i < key j then i :: j :: r else j :: putByKey key i r

/-- `n` elements from the k-th on in an order that free values choose, each read as it stands then, or as it stood before the copy (R4, R271;
log 109). -/
def tcFreely (c : TcRun) (k n : Nat) (s : State) : State :=
  let word (i : Nat) : Word := Config.freeWord (s.free + i)
  let order := (List.range n).foldl (fun l i => putByKey (fun i => (word (2 * i)).toNat) i l) []
  let t := order.foldl (fun t i =>
    match tcStepFrom c (if (word (2 * i + 1)).getLsbD 0 then s else t) t (k + i) with | .ok t => t | .error _ => t) s
  { t with free := s.free + 2 * n }

/-- The run of elements from the k-th on (R261, R262): in traversal order, or, where the copy has written to its own source, as free values choose
for the elements of the run (R271; log 109). -/
def tcElems (c : TcRun) (k : Nat) (s : State) : State × Nat × RunEnd :=
  let (t, j, e) := tcRunElems c (tcCount c.r - k) k s
  (if tcDisturbed c k (j - k) s t then tcFreely c k (j - k) s else t, j, e)

/-- One label word, number j of the label area (R264). -/
def tcLabel (c : TcRun) (s : State) (j : Nat) : Except (Nat × XFault) State :=
  let area := 2 * (tcLblOff c.d + 4 * j)
  let rd (x : Except XFault (Nat × List Loc)) : Except (Nat × XFault) (Nat × List Loc) := x.mapError fun f => (2, f)
  let wr (x : Except XFault State) : Except (Nat × XFault) State := x.mapError fun f => (3, f)
  match lblMem c.r (j / tcLblN c.r) (j % tcLblN c.r) with
  | some mem =>
    if tcDir c.r then do
      let w ← rd (engineRead s c.v true area 8)
      wr (engineWrite (engineSeen s c.v true area w.2) c.v (2 * mem) 8 w.1)
    else do
      let w ← rd (engineRead s c.v false (2 * mem) 8)
      wr (spadOut (engineSeen s c.v false (2 * mem) w.2) c.v [(s.team.id, 0)] area 8 w.1)
  | none => if tcDir c.r then .ok s else wr (spadOut s c.v [(s.team.id, 0)] area 8 (tcLvoid c.r))

/-- All label words of a copy (R264), in order. -/
def tcLabels (c : TcRun) (s : State) : Except (Nat × XFault) State :=
  (List.range (tcE2 c.r * tcLblN c.r)).foldlM (tcLabel c) s

/-- The selvedges of the label area (R178, R264, R338), which wait for what an earlier operation owns there (R245). -/
def tcSelvedges (c : TcRun) (s : State) : Except (Nat × XFault) State :=
  let n := tcE2 c.r * tcLblN c.r
  (List.range (tcSelvNum c.r)).foldlM (fun s g =>
    let word (i : Nat) : Except (Nat × XFault) Nat :=
      ((engineRead s c.v true (2 * (tcLblOff c.d + 4 * (64 * g + i))) 8).mapError fun f => (2, f)).map (·.1)
    let base := tcSelvBase c.r c.d + 64 * g
    do
      let ws ← (List.range (min 64 (n - 64 * g))).mapM word
      if ((List.range 64).map fun i => Loc.spad (base + i)).any (ownedBy s s.team.id c.v.engine c.v.copyOf) then
        throw (3, { cls := .own, cause := 0, va := base })
      else return { s with team := fillSpadBytes s.team base (leBytes 64 (selvOf (relOf c.rel) ws).toNat) }) s

/-- The run of a copy from where it stands: labels first, then elements (R261, R264). A fault on a label access leaves none of the label words moved:
they are all moved again after the repair, which R264 and R265 leave open (the model's choice, log 124). -/
def runTensor (c : TcRun) (labelsDone : Bool) (pos : Nat) (s : State) : State × Nat × Bool × RunEnd :=
  let start : Except (Nat × XFault) State :=
    if labelsDone || !tcLbl c.d then .ok s else (tcLabels c s).bind fun s => if tcSelv c.d then tcSelvedges c s else .ok s
  match start with
  | .error (side, f) => (s, 0, false, .stop side f)
  | .ok s =>
    let (s, k, e) := tcElems c pos s
    (s, k, true, e)

/-- A copy of the team in focus. -/
def copyOf (s : State) (id : Nat) : Option Copy := s.team.copies.find? fun c => c.id == id

/-- A copy of the team in focus changed. -/
def setCopy (s : State) (c : Copy) : State :=
  { s with team := { s.team with copies := s.team.copies.map fun x => if x.id == c.id then c else x } }

/-- The parameters of a tensor copy. -/
def tcRunOf (s : State) (c : Copy) (r : Layout) (d dst src : Dword) (targets : List (Nat × Nat)) (rel : List Byte) : TcRun :=
  { v := copyView s c, r := r, d := d, dst := dst.toNat, src := src.toNat, targets := targets, rel := rel }

/-- A fault of an engine's access (R222, R223). -/
def engFaultOf (f : XFault) (acc : Access) (priv : Bool) : EngFault := { walk := f.cls == .walk, xl := xlRecOf f acc (!priv) }

/-- A copy meets an uncorrectable error: it ends, and a member of its team holds RAS (R18, R445). -/
def failCopy (s : State) (c : Copy) (cause : Nat) : State := holdRas (abandonCopy s c.id) c.issuer none cause

/-- Whether a `CPY` must wait for what engine operations issued before it own, those of its own member apart (R245, R271). -/
def copyHeld (s : State) (c : Copy) (l : List (List Loc × List Loc)) : Bool :=
  l.any fun e => (e.1 ++ e.2).any (ownedBy s s.team.id c.id c.issuer)

/-- The bytes that a `CPY` reads, each read before any write (R258). -/
def readLanes (l : List (List Loc × List Loc)) (s : State) : List (List Loc × List Byte) := l.map fun e => (e.2, readLocs s e.1)

/-- The writes of a `CPY` (R258, R259). -/
def writeOut (c : Copy) (out : List (List Loc × List Byte)) (s : State) : State :=
  out.foldl (fun s e => passedWrite c.passBy s e.1 e.2) (passBy s c.passBy)

/-- What the rest of a copy that stands in the load queue comes to: the state with its writes made but for those of a `CPY`, which are given
beside it; or none where it cannot go on, with the state that its attempt leaves (R225, R245, R509). -/
def copyRest (s : State) (c : Copy) : State × Option (List (List Loc × List Byte)) :=
  match c.op with
  | .lanes l =>
    if copyHeld s c l then (s, none)
    else if l.any fun e => e.1.any (lostAt (passBy s c.passBy)) || (e.1 ++ e.2).any (peerAt s) then (failCopy s c 5, none)
    else if l.any fun e => e.1.any (spadLostLoc s.team) then (failCopy s c 3, none)
    else
      let s := passedReads c.passBy s (l.flatMap (·.1))
      (s, some (readLanes l s))
  | .tensor r d dst src targets rel =>
    match runTensor (tcRunOf s c r d dst src targets rel) c.labelsDone c.pos s with
    | (s', _, _, .whole) => (s', some [])
    | (_, _, _, .stop _ f) =>
      match f.cls with
      | .pri => (askPage s f.va, none)
      | .ras => (failCopy s c f.cause, none)
      | _ => (s, none)

/-- The last read of a copy returns (R255, R257): where the store queue has room it goes there, a `CPY` with its writes still to make and a
tensor copy with them made. -/
def copyRead (s : State) (id : Nat) : State :=
  match copyOf s id with
  | none => s
  | some c =>
    if c.fault.isSome || c.stored || !storeRoom s then s
    else
      match copyRest s c with
      | (s', some out) =>
        let pos := match c.op with | .lanes _ => c.pos | .tensor r _ _ _ _ _ => tcCount r
        setCopy s' { c with stored := true, out := out, pos := pos, labelsDone := true }
      | (s', none) => s'

/-- COPY_COMPLETE (R256): the copy's last write lands and it stops being outstanding. A copy that is suspended, or that would fault, does
not complete, and neither does one that must wait for an earlier operation's writes (R245); one in the load queue passes through the store queue,
where it has room. -/
def execCopyComplete (id : Nat) (s : State) : Out :=
  match copyOf s id with
  | none => .next s
  | some c =>
    if c.fault.isSome then .next s
    else if c.stored then .next (dropCopy (writeOut c c.out s) id)
    else if !storeRoom s then .next s
    else
      match copyRest s c with
      | (s', some out) => .next (dropCopy (writeOut c out s') id)
      | (s', none) => .next s'

/-- The page of memory that an element of a tensor copy writes, where it writes memory. -/
def destPage (c : TcRun) (k : Nat) : Option Nat :=
  let e := tcElem c.r k
  if tcDstSp c.d then none
  else if tcDir c.r then (if tcPresent c.r e then some (tcStrided c.r c.dst e / 2 % 2 ^ 64 / 2 ^ 18) else none)
  else some ((2 * c.dst + e.t) / 2 % 2 ^ 64 / 2 ^ 18)

/-- Elements beyond a fault point that the engine wrote before it stopped, in at most 8 pages beyond the page of the fault (R265). -/
def writeAhead (c : TcRun) (k fault : Nat) : List Nat → List Nat → State → State
  | [], _, s => s
  | i :: r, ps, s =>
    match destPage c i with
    | some p =>
      if i ≤ k || tcCount c.r ≤ i || p == fault || (!ps.contains p && 8 ≤ ps.length) then writeAhead c k fault r ps s
      else
        match tcStep c s i with
        | .ok s => writeAhead c k fault r (if ps.contains p then ps else ps ++ [p]) s
        | .error _ => writeAhead c k fault r ps s
    | none => writeAhead c k fault r ps s

/-- COPY_SUSPEND (R265, R266): a tensor copy runs to its fault point and is suspended there, with some elements beyond it written, or abandoned
where no wave member is left to take the fault. -/
def execCopySuspend (id : CopyStop) (s : State) : Out :=
  match copyOf s id.id with
  | none => .next s
  | some c =>
    match c.op with
    | .lanes _ => .next s
    | .tensor r d dst src targets rel =>
      if c.fault.isSome || c.stored then .next s
      else
        let run := tcRunOf s c r d dst src targets rel
        match runTensor run c.labelsDone c.pos s with
        | (_, _, _, .whole) => .next s
        | (s', k, done, .stop side f) =>
          if f.cls == .mem || f.cls == .walk then
            let acc : Access := if side % 2 = 0 then .read else .write
            let cf : CopyFault := { side := side, elem := k, fault := engFaultOf f acc c.priv }
            let s' := if done then writeAhead run k (f.va >>> 18) id.ahead [] s' else s'
            .next (lastLeaves (dropOrphans (setCopy s' { c with fault := some cf, pos := k, labelsDone := done })))
          else .next s

/-- COPY_QUEUE_ROOM (R257): the member's sleep ends once the engine has room. -/
def execCopyQueueRoom (s : State) : Out :=
  match s.m.wait with
  | some .copyRoom => if loadRoom s then .next (wake s) else .next s
  | _ => .next s

/-! ## Waiting on tags (R277, R278)

A pending fault of a tag in the mask comes before any of these (R266, R447). -/

/-- CPWAIT (R277). -/
def execCpwait (f : Fields) (s : State) : Out :=
  issue eCpwait f s fun ic s =>
    let x := ic.u0 true
    if x &&& tagMask s.team == x then .ok s else .sleep .tags

/-- CPANY (R277). -/
def execCpany (f : Fields) (s : State) : Out :=
  issue eCpany f s fun ic s =>
    let x := ic.u0 true
    let m := x &&& tagMask s.team
    if m != 0#64 || x == 0#64 then .ok (ic.writeAll s false m) else .sleep .tags

/-- CPFIRST (R277). -/
def execCpfirst (f : Fields) (s : State) : Out :=
  issue eCpfirst f s fun ic s =>
    let r : Int := match (bitsBelow 64 (ic.u0 true &&& tagMask s.team).toNat).head? with | some t => t | none => -1
    .ok (ic.writeAll s false (intRes 32 true r))

/-- CPTEST (R277). -/
def execCptest (f : Fields) (s : State) : Out :=
  issue eCptest f s fun ic s =>
    let x := ic.u0 true
    let m := x &&& tagMask s.team
    .ok (ic.writeAll s false (if isPred (ic.opnd f.dst) then BitVec.ofNat 64 (bnat (m == x)) else m))

/-- The status of a tag (R278). -/
def tagStatus (t : Team) (tag : Nat) : Dword :=
  let out := tagOut t tag
  BitVec.ofNat 64 ((t.undeliv.getD tag 0#8).toNat * 2 ^ 40 + bnat (out.any fun c => c.fault.isSome) * 2 ^ 34 +
    bnat (t.abort.getLsbD tag) * 2 ^ 33 + bnat out.isEmpty * 2 ^ 32 + out.length)

/-- CPSTAT (R273, R278): a vector destination receives bits 31:0. -/
def execCpstat (f : Fields) (s : State) : Out :=
  issue eCpstat f s fun ic s =>
    let tag := (ic.u0 false).toNat
    if 63 < tag then .trap (shape shTag) else .ok (ic.writeAll s false (tagStatus s.team tag))

end Sys2Proof.Machine
end

