-- ==== Sys2Proof/Machine/Crossbar.lean ====
section
/-!
DEFINITION. The moves and the lane crossbar (spec/05_registers.md R121 to R135, spec/02_numbers.md R42).
-/
namespace Sys2Proof.Machine

/-! ## Moves -/

/-- MOV (R123): a k destination takes all 64 bits, every other 32. -/
def execMov (f : Fields) (s : State) : Out :=
  issue eMov f s fun ic s =>
    .ok (ic.write s false fun l => if isUni (ic.opnd f.dst) then ic.src0 false l else (lo32 (ic.src0 false l)).setWidth 64)

/-- MOVI (R124). -/
def execMovi (f : Fields) (s : State) : Out :=
  issue eMovi f s fun ic s =>
    .ok (ic.write s false fun l => (lo32 (ic.u0 false) + BitVec.ofNat 32 l * lo32 (ic.u1 false)).setWidth 64)

/-- A 64-bit value to a k register whole, to another destination its low half, or with HI its high half (R125). -/
def wideMove (ic : Ic) (s : State) (hi : Bool) (x : Dword) : Act :=
  .ok (ic.writeAll s false (if isUni (ic.opnd ic.f.dst) then x else (lo32 (if hi then x >>> 32 else x)).setWidth 64))

/-- The immediate of `MOVHI` and `ADDPC` (R125). -/
def upperImm (f : Fields) : Dword := (imm20 f).signExtend 64 <<< 12

/-- MOVHI (R125). -/
def execMovhi (f : Fields) (s : State) : Out := issue eMovhi f s fun ic s => wideMove ic s false (upperImm f)

/-- ADDPC (R125). -/
def execAddpc (f : Fields) (s : State) : Out :=
  issue eAddpc f s fun ic s => wideMove ic s (modBits f 0 0 == 1) (ic.pc + upperImm f)

/-! ## Shuffles -/

/-- S0 of a crossbar instruction in a source lane (R121): 0 outside LIVE for a vector register. The rest is the model's choice (log 41): a queue
entry gives its word of the lane, and 0 outside LIVE; a predicate in a coupled group gives each hardware wave's own mask; a special value, a constant
or a uniform source gives its own value also in a lane outside LIVE. -/
def Ic.lane0 (ic : Ic) (l : Nat) : Word :=
  match ic.opnd ic.f.s0 with
  | .v r => if ic.rd.m.live.getLsbD l then vLane ic.rd.m.rf r l else 0#32
  | .q _ => if ic.rd.m.live.getLsbD l then (ic.pops.getD 0 []).getD (l % 32) 0#32 else 0#32
  | o => lo32 (opndBits ic.rd ic.f o (ic.pops.getD 0 []) false l)

/-- S0 as a condition in lane `l` itself, whatever the destination (R128). -/
def Ic.laneCond0 (ic : Ic) (l : Nat) : Bool := condBits ic.rd ic.f (ic.opnd ic.f.s0) l

/-- BCAST (R126). That it reads S0 in every hardware wave with a live lane, and not in the source lane's alone, is the model's choice (log 41). -/
def execBcast (f : Fields) (s : State) : Out :=
  issue eBcast f s fun ic s => .ok (ic.writeAll s false ((ic.lane0 ((lo32 (ic.u1 false)).toNat % ic.n)).setWidth 64))

/-- A shuffle whose lane `l` takes lane `src l` (R127). -/
def shuffle (ic : Ic) (s : State) (src : Nat → Nat) : Act := .ok (ic.write s false fun l => (ic.lane0 (src l)).setWidth 64)

/-- The uniform lane mask or distance in S1 (R121). -/
def Ic.dist (ic : Ic) : Nat := (lo32 (ic.u1 false)).toNat

/-- SHFL (R127). -/
def execShfl (f : Fields) (s : State) : Out := issue eShfl f s fun ic s => shuffle ic s fun l => (lo32 (ic.src1 false l)).toNat % ic.n

/-- SHFLX (R127). -/
def execShflx (f : Fields) (s : State) : Out := issue eShflx f s fun ic s => shuffle ic s fun l => l ^^^ (ic.dist % ic.n)

/-- SHFLUP (R127). -/
def execShflup (f : Fields) (s : State) : Out := issue eShflup f s fun ic s => shuffle ic s fun l => if ic.dist ≤ l then l - ic.dist else l

/-- SHFLDN (R127). -/
def execShfldn (f : Fields) (s : State) : Out :=
  issue eShfldn f s fun ic s => shuffle ic s fun l => if l + ic.dist < ic.n then l + ic.dist else l

/-! ## Votes -/

/-- VOTE (R128). -/
def execVote (f : Fields) (s : State) : Out :=
  issue eVote f s fun ic s =>
    let b : Mask := ic.act &&& maskOf ic.n ic.laneCond0
    let c := modBits f 3 2
    let word (l : Nat) : Word := lo32 (opndBits ic.rd f (ic.opnd f.s0) [] false l)
    let eq := ic.lanes.all fun l => word l == word ic.lane
    let x : Dword :=
      match modBits f 1 0 with
      | 0 => BitVec.ofNat 64 (bnat (b != 0#128))
      | 1 => BitVec.ofNat 64 (bnat (b == ic.act))
      | 2 => if isUni (ic.opnd f.dst) then BitVec.ofNat 64 (b.toNat / 2 ^ (64 * c)) else BitVec.ofNat 64 (b.toNat / 2 ^ (32 * c) % 2 ^ 32)
      | _ => BitVec.ofNat 64 (bnat eq)
    .ok (ic.writeAll s false x)

/-- FIRSTL (R133). -/
def execFirstl (f : Fields) (s : State) : Out :=
  issue eFirstl f s fun ic s =>
    let ls := ic.lanes.filter ic.laneCond0
    let r := if modBits f 0 0 == 1 then ls.getLast? else ls.head?
    .ok (ic.writeAll s false (intRes 32 true (match r with | some l => (l : Int) | none => -1)))

/-! ## Reductions -/

/-- The distances of the prefix tree over `n` lanes (R42). -/
def treeDists (n : Nat) : List Nat := [1, 2, 4, 8, 16, 32, 64].filter (· < n)

/-- The inclusive prefix by the fixed tree (R42). -/
def prefixTree {α : Type} (add : α → α → α) (xs : List α) : List α :=
  (treeDists xs.length).foldl (fun xs d => xs.take d ++ (xs.zip (xs.drop d)).map fun p => add p.1 p.2) xs

/-- A sum rounded to FP32 (R42). -/
def addF32 (x y : FVal) : FVal := fdecode fp32 false (fround fp32 (addV rndRN x y))

/-- The FP32 value that a lane supplies to a crossbar instruction (R54, R121). -/
def Ic.laneF (ic : Ic) (l : Nat) : FVal := fdecode fp32 false (floatBits 0 (ic.opnd ic.f.s0) ((ic.lane0 l).setWidth 64))

/-- The lanes' FP32 values with an identity in inactive lanes. -/
def Ic.lanesF (ic : Ic) (ident : FVal) : List FVal := (List.range ic.n).map fun l => if ic.act.getLsbD l then ic.laneF l else ident

/-- The lanes' 32-bit values with an identity in inactive lanes. -/
def Ic.lanesW (ic : Ic) (ident : Word) : List Word := (List.range ic.n).map fun l => if ic.act.getLsbD l then ic.lane0 l else ident

/-- +0. -/
def zeroV : FVal := .fin false 0 0

/-- PFXSUM (R129): the result of lane 0 too, which no operation combines, is written as a value produced (log 113). -/
def execPfxsum (f : Fields) (s : State) : Out :=
  issue ePfxsum f s fun ic s =>
    let xs : List Nat :=
      if tyCode f == 10 then (prefixTree addF32 (ic.lanesF zeroV)).map (fround fp32)
      else (prefixTree (· + ·) (ic.lanesW 0#32)).map (·.toNat)
    let xs := if modBits f 4 4 == 1 then 0 :: xs else xs
    floatAct ic s fun l => xs.getD l 0

/-- LRED (R130). -/
def execLred (f : Fields) (s : State) : Out :=
  issue eLred f s fun ic s =>
    let signed := tyCode f == 4
    let op := modBits f 5 4
    if tyCode f == 10 then
      let x := match op with
        | 0 => (prefixTree addF32 (ic.lanesF zeroV)).getLastD zeroV
        | 1 => (ic.lanesF (.inf false)).foldl minV (.inf false)
        | _ => (ic.lanesF (.inf true)).foldl maxV (.inf true)
      .ok (ic.writeAll s false (BitVec.ofNat 64 (fround fp32 x)))
    else
      let val (l : Nat) : Int := byType 32 signed ((ic.lane0 l).setWidth 64)
      let x := match op with
        | 0 => (ic.lanes.map val).foldl (· + ·) 0
        | 1 => (ic.lanes.map val).foldl min (tyMax 32 signed)
        | _ => (ic.lanes.map val).foldl max (tyMin 32 signed)
      .ok (ic.writeAll s false (intRes 32 signed x))

/-- The uniform operand of `SAMPLE` made a number below 1 (R131). -/
def sampleU (u : FVal) : FVal :=
  if isNan u || ltV u zeroV then zeroV
  else if ltV u (.fin false 1 0) then u
  else fdecode fp32 false 0x3F7FFFFF

/-- The lane that weights and a number draw, with -1 for a zero total (R131). `act` says which lanes are active. -/
def sampleDraw (act : Nat → Bool) (w : List FVal) (u : FVal) : Int :=
  let ls := (List.range w.length).filter act
  let at' (xs : List FVal) (l : Nat) : FVal := xs.getD l zeroV
  match ls.find? fun l => at' w l == .inf false with
  | some l => l
  | none =>
    let x := prefixTree addF32 w
    let big := x.getLastD zeroV == .inf false
    let w := if big then w.map (scaleV (-64)) else w
    let x := if big then prefixTree addF32 w else x
    let total := x.getLastD zeroV
    if isZero total then -1
    else if total == .inf false then (((List.range w.length).find? fun l => at' x l == .inf false).getD 0 : Nat)
    else
      let t := fdecode fp32 false (fround fp32 (mulV u total))
      match ls.find? fun l => ltV t (at' x l) with
      | some l => l
      | none => ((ls.filter fun l => ltV zeroV (at' w l)).getLastD 0 : Nat)

/-- The sticky bits of `sr.regstat` that `SAMPLE` sets (R120). -/
def bitSbadw : Nat := 1
def bitSzero : Nat := 2

/-- SAMPLE (R131). -/
def execSample (f : Fields) (s : State) : Out :=
  issue eSample f s fun ic s =>
    let bad (v : FVal) : Bool := isNan v || ltV v zeroV
    let raw := ic.lanesF zeroV
    let w := raw.map fun v => if bad v then zeroV else v
    let s := if raw.any bad then stickReg s bitSbadw else s
    let u := fdecode fp32 false (floatBits 0 (ic.opnd f.s1) (ic.u1 false))
    let r := sampleDraw (fun l => ic.act.getLsbD l) w (sampleU u)
    let s := if r == -1 then stickReg s bitSzero else s
    .ok (ic.writeAll s false (intRes 32 true r))

/-! ## Selection and lanes -/

/-- SEL (R132): at the width of the destination. -/
def execSel (f : Fields) (s : State) : Out :=
  issue eSel f s fun ic s =>
    let pick (l : Nat) : Dword := if ic.cond2 l then ic.src0 false l else ic.src1 false l
    .ok (ic.write s false fun l => if isUni (ic.opnd f.dst) then pick l else (lo32 (pick l)).setWidth 64)

/-- KILL (R134): where lanes remain, DST receives their number. -/
def execKill (f : Fields) (s : State) : Out :=
  issue eKill f s fun ic s =>
    let gone : Mask := ic.act &&& maskOf ic.n ic.laneCond0
    let s := dropLanes s gone
    let left := ic.act &&& ~~~gone
    if s.m.live == 0#128 then .ok s
    else
      Act.of do
        let s ← openDst eKill f s left
        return { ic with act := left }.writeAll s false (BitVec.ofNat 64 (countLanes s.m.live))

/-- PLOP (R135). -/
def execPlop (f : Fields) (s : State) : Out :=
  issue ePlop f s fun ic s =>
    .ok (ic.write s false fun l => BitVec.ofNat 64 (bnat ((modBits f 3 0).testBit (2 * bnat (ic.cond0 l) + bnat (ic.cond1 l)))))

end Sys2Proof.Machine
end

