-- ==== Sys2Proof/Machine/Matrix.lean ====
section
/-!
DEFINITION. The matrix engine (spec/13_matrix.md R301 to R329, spec/02_numbers.md R35 to R43): formats and operand blocks, one K-step of a
multiply-accumulate, the operation queue, and the instructions that issue to it. The engine's own steps stand in MxEngine.
-/
namespace Sys2Proof.Machine

/-! ## The format word (R35, R36) -/

def isS8n8 (c : Nat) : Bool := c == 5 || c == 6
def isScalable (c : Nat) : Bool := c == 3 || c == 4 || c == 7

/-- Whether a format word breaks R36. -/
def fwBad (w : Word) : Bool :=
  let a := fwA w
  let b := fwB w
  fld w 31 25 != 0 || 7 < a || 7 < b || 4 < fwSemi w || fwSparse w == 3 || ((a == 0 || b == 0) && a != b) || isS8n8 a != isS8n8 b ||
    isS8n8 a != fwInt w || (fwScaleA w && !isScalable a) || (fwScaleB w && !isScalable b) || (fwSparse w == 1 && b == 0)

/-! ## Elements and blocks (R307) -/

/-- The format of a floating code of AFMT. -/
def mxFmt (c : Nat) : Fmt :=
  match c with
  | 0 => fp32
  | 1 => bf16
  | 2 => fp16
  | 3 => e4m3
  | _ => e5m2

/-- Element number `e` of a byte array; C4 is pre-shuffled in groups of 32 (R26, R307). -/
def mxElemAt (bs : List Byte) (c e : Nat) : Nat :=
  if c = 7 then
    let p := 32 * (e / 32) + shufPos (e % 32)
    (bs.getD (p / 2) 0#8).toNat / 16 ^ (p % 2) % 16
  else ofLeBytes ((bs.drop (mxBytes c e)).take (mxBytes c 1))

/-- The exact value of an element under its scale (R22, R24). -/
def mxVal (c : Nat) (table : List FVal) (raw x : Nat) : FVal :=
  if x = 255 then .nan else scaleV ((x : Int) - 127) (if c = 7 then table.getD raw .nan else fdecode (mxFmt c) false raw)

/-- The value of an s8 or n8 element. -/
def mxInt (c raw : Nat) : Word := if c = 5 then (BitVec.ofNat 8 raw).signExtend 32 else BitVec.ofNat 32 raw

/-- The size of one present block of a block-sparse panel (R308). -/
def sparseBlock (c : Nat) (scaled : Bool) : Nat := mxBytes c 1024 + (if scaled then 32 else 0)

/-- The A element of a row and its scale. -/
def aElem (w : Word) (rows : Nat) (bs : List Byte) (i k : Nat) : Nat × Nat :=
  let ks := mxKs (fwA w)
  (mxElemAt bs (fwA w) (i * ks + k),
    if fwScaleA w then (bs.getD (mxBytes (fwA w) (rows * ks) + i * ks / 32 + k / 32) 0#8).toNat else 127)

/-- The metadata nibble of group `g` of column `j` (R307). -/
def metaNib (c : Nat) (bs : List Byte) (j g : Nat) : Nat :=
  let ks := mxKs c
  (bs.getD (mxBytes c (64 * ks / 2) + j * ks / 8 + g / 2) 0#8).toNat / 16 ^ (g % 2) % 16

/-- The B element at (k, j) with its scale, where it is present (R39, R307, R308). `pres` is the presence byte of a block-sparse K-step. -/
def bElem (c sparse : Nat) (scaled : Bool) (pres : Nat) (bs : List Byte) (k j : Nat) : Option (Nat × Nat) :=
  let ks := mxKs c
  let sc (o : Nat) : Nat := if scaled then (bs.getD o 0#8).toNat else 127
  match sparse with
  | 0 => some (mxElemAt bs c (j * ks + k), sc (mxBytes c (64 * ks) + j * ks / 32 + k / 32))
  | 1 =>
    let g := k / 4
    let m := metaNib c bs j g
    let at' (n : Nat) : Option (Nat × Nat) :=
      some (mxElemAt bs c (j * (ks / 2) + n), sc (mxBytes c (64 * ks / 2) + 64 * ks / 8 + j * ks / 32 + k / 32))
    if k % 4 = m % 4 then at' (2 * g) else if m % 4 < m / 4 && k % 4 = m / 4 then at' (2 * g + 1) else none
  | _ =>
    let b := 2 * (k / 32) + j / 32
    if pres.testBit b then
      let o := sparseBlock c scaled * (bitsBelow b pres).length
      some (mxElemAt (bs.drop o) c (32 * (j % 32) + k % 32), sc (o + mxBytes c 1024 + j % 32))
    else none

/-- Whether a 2:4 block has a nibble with its positions out of order (R307). -/
def metaBad (c : Nat) (bs : List Byte) : Bool :=
  (List.range 64).any fun j => (List.range (mxKs c / 4)).any fun g => let m := metaNib c bs j g; m / 4 ≤ m % 4

/-! ## Semirings (R38) -/

/-- FP32 round to nearest-even, as a value. -/
def rnd32 (v : FVal) : FVal := fdecode fp32 false (fround fp32 v)

def oneV : FVal := .fin false 1 0
def zeroFv : FVal := .fin false 0 0

/-- The leaf of two exact values. -/
def leafF (semi : Nat) (a b : FVal) : FVal :=
  match semi with
  | 0 => rnd32 (mulV a b)
  | 1 => rnd32 (addV 0 a b)
  | 2 => rnd32 (addV 0 a b)
  | 3 => maxV (rnd32 (mulV a b)) zeroFv
  | _ => if isZero a || isZero b then zeroFv else oneV

/-- A node of the tree, and the accumulator step, which has the same form. -/
def nodeF (semi : Nat) (x y : FVal) : FVal :=
  match semi with
  | 0 => rnd32 (addV 0 x y)
  | 1 => minV x y
  | 4 => if isZero x && isZero y then zeroFv else oneV
  | _ => maxV x y

def sminW (x y : Word) : Word := if y.toInt < x.toInt then y else x
def smaxW (x y : Word) : Word := if x.toInt < y.toInt then y else x

def leafI (semi : Nat) (a b : Word) : Word :=
  match semi with
  | 0 => a * b
  | 1 => a + b
  | 2 => a + b
  | 3 => smaxW (a * b) 0#32
  | _ => if a == 0#32 || b == 0#32 then 0#32 else 1#32

def nodeI (semi : Nat) (x y : Word) : Word :=
  match semi with
  | 0 => x + y
  | 1 => sminW x y
  | 4 => if x == 0#32 && y == 0#32 then 0#32 else 1#32
  | _ => smaxW x y

/-- The identity of a semiring as tile bits. -/
def semiIdent (int : Bool) (semi : Nat) : Word :=
  match semi with
  | 1 => if int then 0x7FFFFFFF#32 else 0x7F800000#32
  | 2 => if int then 0x80000000#32 else 0xFF800000#32
  | _ => 0#32

/-- Neighbours combined. -/
def pairUp {α : Type} (op : α → α → α) : List α → List α
  | a :: b :: r => op a b :: pairUp op r
  | l => l

/-- The pairwise tree of R39 over up to 2^n leaves. -/
def treeFold {α : Type} (op : α → α → α) : Nat → List α → List α
  | 0, l => l
  | n + 1, l => treeFold op n (pairUp op l)

/-- The value of a tile word as FP32. -/
def tileVal (w : Word) : FVal := fdecode fp32 false w.toNat

/-- An accumulator element after a K-step (R39): none among the leaves is a dead one. -/
def accStepF (semi : Nat) (leaves : List (Option FVal)) (acc : Word) : Word :=
  if leaves.all Option.isNone then acc
  else
    let id := tileVal (semiIdent false semi)
    let root := (treeFold (nodeF semi) 6 (leaves.map fun l => l.getD id)).headD id
    BitVec.ofNat 32 (fround fp32 (nodeF semi (tileVal acc) root))

def accStepI (semi : Nat) (leaves : List (Option Word)) (acc : Word) : Word :=
  if leaves.all Option.isNone then acc
  else
    let id := semiIdent true semi
    nodeI semi acc ((treeFold (nodeI semi) 6 (leaves.map fun l => l.getD id)).headD id)

/-! ## One K-step (R39, R311) -/

/-- The operands of a K-step: the part, the bytes of its A and B blocks, the presence byte, and which pairs are admitted. -/
structure KStep where
  p : MmaPart
  a : List Byte
  b : List Byte
  pres : Nat := 0
  rowAdmit : Nat → Nat → Bool

/-- The B element at (k, j), where it is present. -/
def KStep.bAt (q : KStep) (k j : Nat) : Option (Nat × Nat) :=
  bElem (fwB q.p.fw) (fwSparse q.p.fw) (fwScaleB q.p.fw) q.pres q.b k j

/-- An accumulator element after the step; `i` counts the part's rows. -/
def KStep.elem (q : KStep) (i j : Nat) (acc : Word) : Word :=
  let w := q.p.fw
  let ks := mxKs (fwA w)
  if !q.rowAdmit i j then acc
  else if fwInt w then
    accStepI (fwSemi w) ((List.range ks).map fun k =>
      (q.bAt k j).map fun b => leafI (fwSemi w) (mxInt (fwA w) (aElem w q.p.rows q.a i k).1) (mxInt (fwB w) b.1)) acc
  else
    let tb := cbTable q.p.table
    accStepF (fwSemi w) ((List.range ks).map fun k =>
      (q.bAt k j).map fun b =>
        let a := aElem w q.p.rows q.a i k
        leafF (fwSemi w) (mxVal (fwA w) tb a.1 a.2) (mxVal (fwB w) tb b.1 b.2)) acc

/-- Whether row `i` of the part has a live leaf (R304). -/
def KStep.liveRow (q : KStep) (i : Nat) : Bool :=
  (List.range 64).any fun j => q.rowAdmit i j && (List.range (mxKs (fwA q.p.fw))).any fun k => (q.bAt k j).isSome

/-- Rows of a 64-bit map cleared. -/
def clearRows (m : Dword) (rows : List Nat) : Dword := rows.foldl (fun m i => m &&& ~~~(1#64 <<< i)) m

/-- The tile after a K-step. -/
def KStep.run (q : KStep) (t : Tile) : Tile :=
  { t with
    data := t.data.zipIdx.map fun e =>
      let i := e.2 / 64
      if q.p.row ≤ i && i < q.p.row + q.p.rows then q.elem (i - q.p.row) (e.2 % 64) e.1 else e.1
    rowAdmit := clearRows t.rowAdmit (((List.range q.p.rows).filter q.liveRow).map (q.p.row + ·)) }

/-! ## Tiles, weights and the queue -/

/-- BOUND with cause ACC where a tile number, or a bit of a tile mask, is not granted (R303). -/
def tileBad (t : Team) (n : Nat) : Bool := t.tiles.length ≤ n
def maskBad (t : Team) (mask : Nat) : Bool := (bitsBelow 8 mask).any (tileBad t)

/-- A tile as the team was granted it (R303). -/
def newTile (decode : Bool) : Tile :=
  { data := List.replicate 4096 0#32, rowLbl := List.replicate 64 0#32, colLbl := List.replicate 64 0#32, rowAdmit := BitVec.allOnes 64
    decode := decode }

def tileAt (t : Team) (n : Nat) : Tile := t.tiles.getD n (newTile false)

/-- A tile of the team in focus changed. -/
def onTile (s : State) (n : Nat) (g : Tile → Tile) : State := { s with team := { s.team with tiles := modifyAt g n s.team.tiles } }

/-- Whether the operation queue has room (R305). -/
def mxRoom (s : State) : Bool := s.core.mxq.length < 32

/-- An operation enters the queue of the core (R305), with the class of its tiles (R328). -/
def enqueue (s : State) (tiles : Nat) (work : MxWork) (own : List Loc) (passBy : List (Nat × Bool) := []) : State :=
  let o : MxOp :=
    { id := s.nextId, team := s.team.id, issuer := s.m.id, priv := memberPriv s, tiles := tiles
      decode := (bitsBelow 8 tiles).any fun n => (tileAt s.team n).decode, work := work, own := own, passBy := passBy }
  { s with core := { s.core with mxq := s.core.mxq ++ [o] }, nextId := s.nextId + 1 }

/-- The issue of an operation that raises no trap (R305): it enters the queue, or the member sleeps until there is room. -/
def enqueueAct (s : State) (tiles : Nat) (work : MxWork) (own : List Loc) (passBy : List (Nat × Bool) := []) : Act :=
  if mxRoom s then .ok (enqueue s tiles work own passBy) else .sleep .mxRoom

/-- The fields of a weight record (R308). -/
def wrFmt (r : BitVec 512) : Nat := fld r 3 0
def wrScaled (r : BitVec 512) : Bool := bit r 9
def wrSparse (r : BitVec 512) : Nat := fld r 11 10
def wrNks (r : BitVec 512) : Nat := fld r 41 32
def wrData (r : BitVec 512) : Nat := fld r 127 64
def wrBm (r : BitVec 512) : Nat := fld r 191 128

/-- The offset in a panel of K-step `t`, or its size with t = NKS (R308). -/
def panelOff (r : BitVec 512) (presence : List Byte) (t : Nat) : Nat :=
  if wrSparse r = 2 then
    sparseBlock (wrFmt r) (wrScaled r) * ((presence.take t).map fun p => (bitsBelow 4 p.toNat).length).foldl (· + ·) 0
  else bstB (wrFmt r) (wrSparse r) (wrScaled r) * t

/-- The loaded weight of a handle (R323): its panel may still be on its way. -/
def weightOf (t : Team) (h : Nat) : Option Weight := t.wbs.find? fun w => w.handle == h && !w.freed

/-! ## MMA and MMA.Q at issue (R310) -/

def mmaTile (f : Fields) : Nat := fld f.ext 17 15
def mmaNks (f : Fields) : Nat := if fld f.ext 23 18 = 0 then 64 else fld f.ext 23 18
def mmaWh (f : Fields) : Nat := fld f.ext 28 25
def mmaWks (f : Fields) : Nat := fld f.ext 38 29
def mmaLt (f : Fields) : Bool := bit f.ext 39
def mmaLbla (f : Fields) : Nat := fld f.ext 51 40
def mmaLblb (f : Fields) : Nat := fld f.ext 63 52

/-- A voting group of R37: its active lanes with the format words, and its values of S1 and S2. -/
structure VoteGroup where
  q : Nat
  fws : List (Nat × Word)
  a : Nat
  b : Nat

/-- The format word of a group's lowest active lane. -/
def VoteGroup.fw (g : VoteGroup) : Word := (g.fws.head?.map (·.2)).getD 0#32

/-- Step 1 of R310: codebook and relation slots. -/
def slotBad (t : Team) (w : Word) : Option Trap :=
  if (fwA w == 7 || fwB w == 7) && 2 * t.tiles.length ≤ fwCb w then some (bound bCb)
  else if fwRel w && t.rels.length ≤ fwRslot w then some (bound bRel)
  else none

/-- Step 2 of R310: the vote of R37, with the data that R451 gives the trap. -/
def voteTrap (g : VoteGroup) : Option Trap :=
  match g.fws.find? fun e => e.2 != g.fw with
  | some (l, w) =>
    some { cls := cFmt, data0 := BitVec.ofNat 64 (l + ((g.fws.head?.map (·.1)).getD 0) * 2 ^ 8), data1 := w ++ g.fw }
  | none => none

/-- The offsets of a group's A blocks, and of its B blocks in scratchpad. -/
def mmaBlocks (f : Fields) (g : VoteGroup) (aSpad : Bool) : List (Nat × Nat) :=
  let sa := bstA g.fw 64
  let sb := bstB (fwB g.fw) (fwSparse g.fw) (fwScaleB g.fw)
  (if aSpad then (List.range (mmaNks f)).map fun k => (g.a + k * sa, sa) else []) ++
    (if mmaBwb f then [] else (List.range (mmaNks f)).map fun k => (g.b + k * sb, sb))

/-- The label areas that a group reads (R344). -/
def labelAreas (f : Fields) (g : VoteGroup) : List (Nat × Nat) :=
  if mmaLt f || fwRel g.fw then [(128 * mmaLbla f, 256), (128 * mmaLblb f, 256)] else []

/-- Step 5 of R310: the first block or label area beyond the share, in lanes of its group. -/
def beyondShare (s : State) (f : Fields) (g : VoteGroup) (aSpad : Bool) : Option Trap :=
  match (mmaBlocks f g aSpad ++ labelAreas f g).find? fun b => s.team.share < b.1 + b.2 with
  | some b => some (spadTrap s .read (g.fws.map fun e => (e.1, b.1)))
  | none => none

/-- Step 6 of R310: the weight handle. `k0` is the first K-step. -/
def weightBad (t : Team) (f : Fields) (g : VoteGroup) (k0 : Nat) : Bool :=
  mmaBwb f &&
    (match weightOf t (mmaWh f) with
     | none => true
     | some w =>
       wrFmt w.record != fwB g.fw || wrSparse w.record != fwSparse g.fw || wrScaled w.record != fwScaleB g.fw ||
         wrNks w.record < k0 + mmaNks f)

/-- What a group's slots hold as its operation issues (R25, R345). -/
def mmaPart (s : State) (f : Fields) (g : VoteGroup) (row rows : Nat) (regs : Option (List Byte)) : MmaPart :=
  let k0 := mmaWks f + (if mmaBwb f then g.b else 0)
  { row := row, rows := rows, fw := g.fw, aOff := g.a, aRegs := regs
    bOff := if mmaBwb f then k0 else g.b
    weight := if mmaBwb f then (weightOf s.team (mmaWh f)).map (·.id) else none
    steps := mmaNks f
    table := s.team.cbs.getD (fwCb g.fw) []
    rel := if fwRel g.fw then s.team.rels.getD (fwRslot g.fw) [] else []
    trees := s.team.trees }

/-- The checks of R310 on all groups, each step on every group before the next; `step4` is the entry's own. -/
def mmaChecks (s : State) (f : Fields) (gs : List VoteGroup) (aSpad : Bool) (step4 : Option Trap) : Option Trap :=
  firstTrap
    [if tileBad s.team (mmaTile f) then some (bound bAcc) else none,
     gs.findSome? fun g => slotBad s.team g.fw,
     gs.findSome? voteTrap,
     if gs.any fun g => fwBad g.fw || (fwSparse g.fw == 2 && !mmaBwb f) then some (emuTrap .fw) else none,
     step4,
     gs.findSome? fun g => beyondShare s f g aSpad,
     if gs.any fun g => weightBad s.team f g (mmaWks f + g.b) then some (shape shWb) else none]

/-- MMA (R310, R311, R322). -/
def execMma (f : Fields) (s : State) : Out :=
  issue eMma f s fun ic s =>
    let g : VoteGroup :=
      { q := 0, fws := ic.lanes.map fun l => (l, lo32 (ic.src0 false l)), a := (lo32 (ic.u1 false)).toNat
        b := if mmaBwb f then 0 else (lo32 (ic.u2 false)).toNat }
    match mmaChecks ic.rd f [g] true (if g.a % 128 != 0 || g.b % 128 != 0 then some alignTrap else none) with
    | some t => .trap t
    | none =>
      enqueueAct s (2 ^ mmaTile f) (.mma (mmaTile f) (mmaLbla f) (mmaLblb f) (mmaLt f) [mmaPart ic.rd f g 0 64 none]) []

/-- The A bytes of a quarter, data and scales (R312). -/
def quarterLen (w : Word) : Nat := mxBytes (fwA w) (16 * mxKs (fwA w)) + (if fwScaleA w then 32 else 0)

/-- Byte `o` of quarter `q`'s A in the registers from `v` on (R312). -/
def quarterByte (s : State) (v q o : Nat) : Byte :=
  let l := 8 * q + o / 4 % 8
  if s.m.live.getLsbD l then BitVec.ofNat 8 ((vLane s.m.rf (v + o / 32) l).toNat >>> (8 * (o % 4))) else 0#8

/-- The quarters that have an active lane (R312). -/
def quarters (ic : Ic) : List VoteGroup :=
  ((List.range 4).filter fun q => ic.lanes.any fun l => l / 8 == q).map fun q =>
    let ls := ic.lanes.filter fun l => l / 8 == q
    let lo := ls.headD 0
    { q := q, fws := ls.map fun l => (l, lo32 (ic.src0 false l)), a := 0, b := (lo32 (ic.src2 false lo)).toNat }

/-- MMA_Q (R310, R312). -/
def execMmaQ (f : Fields) (s : State) : Out :=
  issue eMmaQ f s fun ic s =>
    match ownIssue eMmaQ ic s with
    | .error a => a
    | .ok (ic, s') =>
      if s.team.width != 32 then .trap (emuTrap .width)
      else
        let gs := quarters ic
        let v := f.s1.toNat
        let regs := ((gs.map fun g => quarterLen g.fw / 32).foldl max 0)
        let step4 : Option Trap :=
          if v % 8 != 0 || s.m.rf.budget < v + regs then some (bound bReg)
          else if !mmaBwb f && gs.any fun g => g.b % 128 != 0 then some alignTrap
          else none
        match mmaChecks ic.rd f gs false step4 with
        | some t => .trap t
        | none =>
          if !mxRoom s' then .sleep .mxRoom
          else
            let more := (List.range (regs - 1)).map fun i => v + 1 + i
            match touchRange s' (fieldRegs s f eMmaQ.s0 f.s0 ++ fieldRegs s f eMmaQ.s2 f.s2) more [0] with
            | .error t => .trap t
            | .ok s' =>
              let s' := if f.lr.getLsbD 1 then sweepRegs (more.foldl (fun s r => markDead s ic.act r) s') [] else s'
              let parts := gs.map fun g =>
                mmaPart ic.rd f g (16 * g.q) 16 (some ((List.range (quarterLen g.fw)).map (quarterByte ic.rd v g.q)))
              .ok (enqueue s' (2 ^ mmaTile f) (.mma (mmaTile f) (mmaLbla f) (mmaLblb f) (mmaLt f) parts) [])

/-! ## Weights (R308, R309, R323) -/

/-- A range cut at multiples of 128 bytes: the addresses and sizes of its pieces. -/
def pieces (va n : Nat) : List (Nat × Nat) :=
  (List.range ((va % 128 + n + 127) / 128)).map fun i =>
    let lo := max va ((va / 128 + i) * 128)
    (lo, min (va + n) ((va / 128 + i + 1) * 128) - lo)

/-- The places of a range that an engine reads or writes later: every piece of it translates (R223). -/
def translateMany (s : State) (ic : Ic) (acc : Access) (va n : Nat) : Except Act (List Loc) :=
  (pieces va n).foldlM (fun ls p => do
    let l ← translateOne s ic acc (p.1 % 2 ^ 64) p.2
    return ls ++ l) []

/-- The reserved fields and codes of a weight record (R308). -/
def recordBad (r : BitVec 512) : Bool :=
  fld r 511 192 != 0 || fld r 63 42 != 0 || fld r 31 12 != 0 || fld r 8 4 != 0 || 7 < wrFmt r || wrSparse r == 3 ||
    (wrSparse r != 2 && wrBm r != 0) || wrNks r == 0

/-- The bytes of a range as the member reads them, piece by piece, with the caches as the reads leave them (R195, R199); a member waits for what an
engine owns (R245). -/
def readMany (s : State) (ic : Ic) (va n : Nat) : Except Act (State × List Byte) :=
  (pieces va n).foldlM (fun r p => do
    let (s, bs) ← readOne r.1 ic (p.1 % 2 ^ 64) p.2
    return (s, r.2 ++ bs)) (s, [])

/-- A panel is loaded under a handle, or the status says why it is not (R323). A handle above 15 is SHAPE with cause WB (log 30). -/
def loadPanel (ic : Ic) (s : State) : Except Act State := do
  let h := (lo32 (ic.u0 false)).toNat
  let ra := (ic.u1 true).toNat
  if ra % 64 != 0 then throw (.trap alignTrap)
  let (s, bs) ← readMany s ic ra 64
  let r : BitVec 512 := BitVec.ofNat 512 (ofLeBytes bs)
  if wrData r % 128 != 0 then throw (.trap alignTrap)
  if recordBad r || 15 < h then throw (.trap (shape shWb))
  let (s, pres) ← if wrSparse r = 2 then readMany s ic (wrBm r) (wrNks r) else pure (s, [])
  let size := panelOff r pres (wrNks r)
  if pres.any (fun p => 16 ≤ p.toNat) || 2 ^ 20 < size then throw (.trap (shape shWb))
  let src ← translateMany ic.rd ic .read (wrData r) size
  let kib := (size + 1023) / 1024
  if !mxRoom s then throw (.sleep .mxRoom)
  let none_ (status : Dword) : State := ic.writeAll (enqueue s 0 (.plain true) []) false status
  if (weightOf s.team h).isSome then return none_ 2#64
  if (wbFree s).toNat < kib then return none_ 1#64
  let touches := (pieces (wrData r) size).map fun p => (p.1 % 2 ^ 64, p.2)
  let w : Weight :=
    { id := s.nextId, handle := h, issuer := s.m.id, kib := kib, record := r, presence := pres, src := src, passBy := passedAll s .read touches }
  let s := walkAll s touches
  let s := { s with team := { s.team with wbs := s.team.wbs ++ [w] }, nextId := s.nextId + 1 }
  return ic.writeAll (enqueue s 0 (.panel w.id) []) false 0#64

/-- A codebook slot is loaded (R25, R323): operations that have issued keep the table that they took. -/
def loadCodebook (ic : Ic) (s : State) : Except Act State := do
  let n := (lo32 (ic.u0 false)).toNat
  let a := (ic.u1 true).toNat
  if s.team.cbs.length ≤ n then throw (.trap (bound bCb))
  if a % 32 != 0 then throw (.trap alignTrap)
  let (s, bs) ← readMany s ic a 32
  if !mxRoom s then throw (.sleep .mxRoom)
  return enqueue { s with team := { s.team with cbs := s.team.cbs.set n bs } } 0 (.plain true) []

/-- An act of a computation that ends in a state. -/
def actOfState (r : Except Act State) : Act :=
  match r with
  | .ok s => .ok s
  | .error a => a

/-- WBLOAD (R323). -/
def execWbload (f : Fields) (s : State) : Out :=
  issue eWbload f s fun ic s => actOfState (if modBits f 0 0 == 1 then loadCodebook ic s else loadPanel ic s)

/-- WBFREE (R323): the handles are free at once; their space returns with WB_SPACE_RETURN. -/
def execWbfree (f : Fields) (s : State) : Out :=
  issue eWbfree f s fun ic s =>
    let mask := (ic.u0 false).toNat % 2 ^ 16
    let free (w : Weight) : Weight := if mask.testBit w.handle then { w with freed := true } else w
    enqueueAct { s with team := { s.team with wbs := s.team.wbs.map free } } 0 (.plain false) []

/-! ## ACCZERO, ACCADD, MXCLASS, MXWAIT -/

/-- ACCZERO (R324). -/
def execAcczero (f : Fields) (s : State) : Out :=
  issue eAcczero f s fun ic s =>
    let mask := (ic.u0 false).toNat % 2 ^ 8
    if maskBad s.team mask then .trap (bound bAcc)
    else enqueueAct s mask (.accZero mask (modBits f 3 3 == 1) (modBits f 2 0)) []

/-- ACCADD (R327). -/
def execAccadd (f : Fields) (s : State) : Out :=
  issue eAccadd f s fun ic s =>
    let d := (lo32 (ic.u0 false)).toNat
    let r := (lo32 (ic.u1 false)).toNat
    if tileBad s.team d || tileBad s.team r then .trap (bound bAcc)
    else enqueueAct s (2 ^ d ||| 2 ^ r) (.accAdd d r (modBits f 0 0 == 1)) []

/-- MXCLASS (R328). -/
def execMxclass (f : Fields) (s : State) : Out :=
  issue eMxclass f s fun ic s =>
    let mask := (ic.u0 false).toNat % 2 ^ 8
    if maskBad s.team mask then .trap (bound bAcc)
    else .ok ((bitsBelow 8 mask).foldl (fun s n => onTile s n fun t => { t with decode := modBits f 0 0 == 1 }) s)

/-- Whether a member has issued an operation that a mask of `MXWAIT` covers and that has not completed (R329). -/
def mxPending (s : State) (mask : Nat) : Bool :=
  s.core.mxq.any fun o => o.team == s.team.id && o.issuer == s.m.id &&
    (o.tiles &&& mask % 256 != 0 || (mask.testBit 8 && (match o.work with | .panel _ => true | .plain load => load | _ => false)))

/-- The member after an `MXWAIT`: every advance of a counter by an operation that its mask covers is certain to show (R517). -/
def sureAdvs (m : Member) (mask : Nat) : Member :=
  let sure := m.advs.filter fun a => a.1 &&& mask % 256 != 0
  { m with
    advs := m.advs.filter fun a => a.1 &&& mask % 256 == 0
    sureSkip := m.sureSkip + BitVec.ofNat 64 (sure.filter fun a => !a.2).length
    surePre := m.surePre + BitVec.ofNat 64 (sure.filter fun a => a.2).length }

/-- MXWAIT (R329, R517). -/
def execMxwait (f : Fields) (s : State) : Out :=
  issue eMxwait f s fun ic s =>
    let mask := (ic.u0 false).toNat % 2 ^ 9
    if maskBad s.team (mask % 256) then .trap (bound bAcc) else if mxPending s mask then .sleep .mxDone else .ok { s with m := sureAdvs s.m mask }

/-! ## ACCRD and ACCWR (R326) -/

/-- The lanes that take part: those of the group's lowest hardware wave. -/
def accLanes (ic : Ic) : Mask := ic.act &&& allLanes (min ic.n 32)

/-- A lane's number within its hardware wave. -/
def hwLane (s : State) (l : Nat) : Nat := l % 32 + 16 * s.m.half

/-- The registers that a form covers: 2n for rows, 2 for labels. -/
def accRegs (form n : Nat) : Nat := if form = 0 then 2 * n else 2

/-- The tile that `ACCRD` and `ACCWR` name, as a mask. -/
def accMask (ic : Ic) : Nat := 2 ^ (lo32 (ic.u0 false)).toNat

/-- What `ACCRD` and `ACCWR` check (R326): none where they have no effect, else the tile, row and count. -/
def accArgs (ic : Ic) (s : State) : Except Trap (Option (Nat × Nat × Nat)) :=
  let form := accForm ic.f
  let t := (lo32 (ic.u0 false)).toNat
  let row := if form = 0 then (lo32 (ic.u1 false)).toNat else 0
  let n := if form = 0 then (lo32 (ic.u2 false)).toNat else 1
  if tileBad s.team t then .error (bound bAcc)
  else if form = 0 && n = 0 then .ok none
  else if form = 0 && 64 < row + n then .error (shape shAccrow)
  else if form ≠ 3 && s.m.rf.budget < ic.f.dst.toNat + accRegs form n then .error (bound bReg)
  else .ok (some (t, row, n))

/-- The words that the engine read, written to the destination (R326): the tile's elements, its labels, or its row-admit map, which
`sr.rowadmit` takes as well. The registers are mapped and written one at a time, beside the instruction's other operands (R110). -/
def accReadOut (ic : Ic) (s : State) (ws : List Word) : Except Trap State :=
  if accForm ic.f = 3 then
    let x : Dword := (ws.getD 1 0#32) ++ (ws.getD 0 0#32)
    let s := { s with m := { s.m with rowadmit := x } }
    return ic.writeAll s false x
  else
    (List.range (ws.length / 32)).foldlM (fun s i => do
      let r := ic.f.dst.toNat + i
      let s ← openRegs s (r :: sourceRegs eAccrd ic.f s) [r] (hwsOf s (accLanes ic))
      return writeV s r (accLanes ic) fun l => ws.getD (32 * i + hwLane s l) 0#32) s

/-- The registers of an `ACCRD` destination of `k` words. -/
def accDests (f : Fields) (k : Nat) : List Nat := if accForm f = 3 then [] else (List.range (k / 32)).map (f.dst.toNat + ·)

/-- The registers that an `ACCRD` of `n` rows writes (R47). -/
def accSet (f : Fields) (n : Nat) (s : State) : RegSet :=
  if accForm f = 3 then destSet eAccrd f s else { vs := accDests f (32 * accRegs (accForm f) n) }

/-- `ACCRD` as its words arrive: its last reads are applied, and its destination is written (R108, R110). -/
def accComplete (ic : Ic) (s : State) (ws : List Word) : Act :=
  Act.of (accReadOut ic (applyLr (lookFirst s) ic.act (lastRegs eAccrd ic.f s) (accDests ic.f ws.length)) ws)

/-- ACCRD (R326): it takes its place in the queue, and the member sleeps until the engine has read the tile. -/
def execAccrd (f : Fields) (s : State) : Out :=
  issue eAccrd f s fun ic s =>
    match ic.old with
    | some (.mxResult id) => .sleep (.mxResult id)
    | some (.mxRead ws _) => accComplete ic s ws
    | _ =>
      match ownIssue eAccrd { ic with f := { ic.f with lr := 0#3 } } s with
      | .error a => a
      | .ok (ic, s') =>
        match accArgs ic s' with
        | .error t => .trap t
        | .ok none => enqueueAct (applyLr s' ic.act (lastRegs eAccrd f s') []) (accMask ic) (.plain false) []
        | .ok (some (t, row, n)) =>
          if !mxRoom s' then .sleep .mxRoom
          else
            let s' := lookSet eAccrd f (accSet f n s') s s'
            .hold (enqueue s' (2 ^ t) (.accRead t (accForm f) row n) []) (.mxResult s'.nextId)

/-- The words that `ACCWR` takes from its registers at issue, with the places they go to. -/
def accWords (ic : Ic) (row n : Nat) : List (Nat × Word) :=
  let v := ic.f.dst.toNat
  ((List.range (if accForm ic.f = 0 then n else 1)).map fun i =>
    ((lanesOf 32 (accLanes ic)).map fun l =>
      let h := hwLane ic.rd l
      [(64 * (row + i) + h, vLane ic.rd.m.rf (v + 2 * i) l), (64 * (row + i) + 32 + h, vLane ic.rd.m.rf (v + 2 * i + 1) l)]).flatten).flatten

/-- ACCWR (R326): its registers are read at issue. -/
def execAccwr (f : Fields) (s : State) : Out :=
  issue eAccwr f s fun ic s =>
    match ownIssue eAccwr ic s with
    | .error a => a
    | .ok (ic, s) =>
      match accArgs ic s with
      | .error t => .trap t
      | .ok none => enqueueAct s (accMask ic) (.plain false) []
      | .ok (some (t, row, n)) =>
        if accForm f = 3 then enqueueAct s (2 ^ t) (.setAdmit t (ic.uD true)) []
        else
          let regs := (List.range (accRegs (accForm f) n)).map (f.dst.toNat + ·)
          match touchRange s (sourceRegs { eAccwr with dstSrc := false } f s) regs (hwsOf s (accLanes ic)) with
          | .error e => .trap e
          | .ok s =>
            let rows := if accForm f = 0 then (List.range n).map (row + ·) else []
            enqueueAct s (2 ^ t) (.accWrite t (accForm f) rows (accWords ic row n)) []

/-! ## ACCLD and ACCST (R325) -/

def accTile (f : Fields) : Nat := fld f.ext 15 13
def accFmt (f : Fields) : Nat := fld f.ext 19 16
def accRnd (f : Fields) : Nat := fld f.ext 22 20
def accNosat (f : Fields) : Bool := bit f.ext 23
def accScaled (f : Fields) : Bool := bit f.ext 24
def accSaxis (f : Fields) : Bool := bit f.ext 25
def accCb (f : Fields) : Nat := fld f.ext 29 26
def accLbl (f : Fields) : Bool := bit f.ext 30
def accTrow (f : Fields) : Nat := fld f.ext 37 32
def accTcol (f : Fields) : Nat := fld f.ext 43 38
def accItype (f : Fields) : Bool := bit f.ext 44

/-- The ESIZE code of a type that R325 moves. -/
def accEsize (fmt : Nat) : Option Nat :=
  match fmt with
  | 0 => some 2
  | 4 => some 2
  | 10 => some 2
  | 11 => some 1
  | 12 => some 1
  | 13 => some 0
  | 14 => some 0
  | 2 => some 0
  | 6 => some 0
  | 15 => some 4
  | _ => none

/-- The further causes of GEOM (R325), and those of step 5 of R263; a side that overlaps itself counts only where it is written. -/
def accGeometry (f : Fields) (st : Bool) (r : Layout) : Bool :=
  let r' : Layout := if st then r else r &&& ~~~(BitVec.ofNat 512 (2 ^ 9))
  layoutBad r' || tcE2 r != 1 || 64 - accTrow f < tcE1 r || 64 - accTcol f < tcE0 r || accEsize (accFmt f) != some (tcEsize r) ||
    (accScaled f && (accFmt f < 13 || (if accSaxis f then tcE1 r else tcE0 r) % 32 != 0))

/-- The elements that an operation moves, with their nibble addresses; none for an element that is not present (R325). -/
def accElems (f : Fields) (st : Bool) (r : Layout) (base : Nat) : List (Option Nat × Option Nat) :=
  let idx (e : TcElem) : Option Nat :=
    if e.r < tcE1 r && e.c < tcE0 r then some (64 * (accTrow f + e.r) + accTcol f + e.c) else none
  if tcDir r then
    ((List.range (tcE1 r * tcE0 r)).map fun k =>
      let e : TcElem := { p := 0, r := k / tcE0 r, c := k % tcE0 r, t := 0 }
      (idx e, if tcPresent r e then some (tcStrided r base e) else none)).filter fun e => !st || e.2.isSome
  else
    ((List.range (tcCount r)).map fun k =>
      let e := tcElem r k
      (idx e, some (2 * base + e.t))).filter fun e => st || e.1.isSome

/-- The label words that an operation moves, with their addresses (R325). -/
def accLabels (f : Fields) (st : Bool) (r : Layout) : List (Nat × Option Nat) :=
  let n := if tcLaxis r then tcE0 r else tcE1 r
  let o := if tcLaxis r then tcO0 r else tcO1 r
  let b := if tcLaxis r then tcB0 r else tcB1 r
  let first := if tcLaxis r then accTcol f else accTrow f
  if !accLbl f then []
  else
    ((List.range n).map fun (i : Nat) =>
      let x : Int := i + o
      (first + i, if 0 ≤ x && x < b then some (tcLblPtr r + 4 * x.toNat) else none)).filter fun e => !st || e.2.isSome

/-- The places of `n` bytes of the memory side. -/
def sidePlaces (s : State) (ic : Ic) (acc : Access) (sp : Bool) (a n : Nat) : Except Act (List Loc) :=
  if sp then .ok ((List.range n).map fun i => .spad (a + i)) else translateOne s ic acc (a % 2 ^ 64) n

/-- The offset of a scratchpad side, scale array or label area that reaches beyond the share (R263 step 6, R325). -/
def accBeyond (s : State) (f : Fields) (r : Layout) (base sbase : Nat) (labels : List (Nat × Option Nat)) : Option Nat :=
  let share := s.team.share
  if !accSp f then none
  else if share < (if tcDir r then (stridedEnd r base).getD 0 else base + tcPitch r) then some base
  else if accScaled f && share < sbase + tcE0 r * tcE1 r / 32 then some sbase
  else labels.findSome? fun e => match e.2 with | some a => if share < a + 4 then some a else none | none => none

/-- The addresses in memory that a region move touches, with the bytes at each (R325). -/
def accTouches (f : Fields) (st : Bool) (r : Layout) (base sbase : Nat) : List (Nat × Nat) :=
  if accSp f then []
  else
    ((accElems f st r base).filterMap fun e => e.2.map fun a => (a / 2 % 2 ^ 64, nibBytes (tcNibs r))) ++
      ((accLabels f st r).filterMap fun e => e.2.map fun a => (a % 2 ^ 64, 4)) ++
      (if accScaled f then (pieces sbase (tcE0 r * tcE1 r / 32)).map fun p => (p.1 % 2 ^ 64, p.2) else [])

/-- The plan of a region move (R325), with every place translated. -/
def accPlan (ic : Ic) (s : State) (st : Bool) (r : Layout) (base sbase : Nat) : Except Act MxMove := do
  let f := ic.f
  let acc : Access := if st then .write else .read
  let labels := accLabels f st r
  match accBeyond s f r base sbase labels with
  | some o => throw (.trap (spadTrap s acc (ic.lanes.map fun l => (l, o))))
  | none => pure ()
  let n := nibBytes (tcNibs r)
  let elems ← (accElems f st r base).mapM fun e =>
    match e.2 with
    | none => pure { idx := e.1, locs := [] : MxElem }
    | some a => do return { idx := e.1, locs := ← sidePlaces s ic acc (accSp f) (a / 2) n, nib := a % 2 : MxElem }
  let lbls ← labels.mapM fun e =>
    match e.2 with
    | none => pure (e.1, [])
    | some a => do return (e.1, ← sidePlaces s ic acc (accSp f) a 4)
  let scales ← if accScaled f then
      (if accSp f then sidePlaces s ic acc true sbase (tcE0 r * tcE1 r / 32) else translateMany s ic acc sbase (tcE0 r * tcE1 r / 32))
    else pure []
  return {
    fmt := accFmt f, rnd := accRnd f, nosat := accNosat f, itype := accItype f, saxis := accSaxis f, scaled := accScaled f
    table := s.team.cbs.getD (accCb f) [], fill := tcFillVal r, lvoid := BitVec.ofNat 32 (tcLvoid r), laxis := tcLaxis r
    trow := accTrow f, tcol := accTcol f, e0 := tcE0 r, e1 := tcE1 r, elems := elems, labels := lbls, scales := scales }

/-- ACCLD and ACCST at issue (R325): the checks, then one operation under the tile. -/
def accMove (st : Bool) (ic : Ic) (s : State) : Act :=
  let f := ic.f
  let ra := (ic.u1 true).toNat
  let base := sideAddr (accSp f) ic.src0 ic.lane
  let sbase := sideAddr (accSp f) ic.src2 ic.lane
  if tileBad s.team (accTile f) then .trap (bound bAcc)
  else if accFmt f == 15 && 2 * s.team.tiles.length ≤ accCb f then .trap (bound bCb)
  else if ra % 64 != 0 then .trap alignTrap
  else
    match readMany s ic ra 64 with
    | .error a => a
    | .ok (s, bs) =>
      let r : Layout := BitVec.ofNat 512 (ofLeBytes bs)
      if tcReserved r then .trap (shape shRsv)
      else if base % 16 != 0 || (!tcDir r && tcSwz r != 0 && base % 128 != 0) || (accLbl f && tcLblPtr r % 4 != 0) then .trap alignTrap
      else if accGeometry f st r then .trap (shape shGeom)
      else if tcE0 r = 0 || tcE1 r = 0 then enqueueAct s (2 ^ accTile f) (.plain false) []
      else
        match accPlan ic ic.rd st r base sbase with
        | .error a => a
        | .ok mv =>
          let own := if st then (mv.elems.map (·.locs)).flatten ++ (mv.labels.map (·.2)).flatten ++ mv.scales else []
          let touches := accTouches f st r base sbase
          enqueueAct (walkAll s touches) (2 ^ accTile f) (if st then .accStore (accTile f) mv else .accLoad (accTile f) mv) own
            (passedAll s (if st then .write else .read) touches)

/-- ACCLD (R325). -/
def execAccld (f : Fields) (s : State) : Out := issue eAccld f s (accMove false)

/-- ACCST (R325). -/
def execAccst (f : Fields) (s : State) : Out := issue eAccst f s (accMove true)

end Sys2Proof.Machine
end

