-- ==== Sys2Proof/Machine/Labels.lean ====
section
/-!
DEFINITION. The label instructions (spec/14_labels.md R330 to R353): labels of tiles, relation and tree slots, and the test of a relation.
-/
namespace Sys2Proof.Machine

/-! ## LBLLD and LBLST (R347, R348, R353) -/

def lblTile (f : Fields) : Nat := fld f.ext 18 16
def lblCols (f : Fields) : Bool := bit f.ext 14
def lblFirst (f : Fields) : Nat := fld f.ext 13 8
def lblCount (f : Fields) : Nat := fld f.ext 7 0

/-- The label words of an operation with their places (R348): every address translates. -/
def lblPlaces (ic : Ic) (s : State) (acc : Access) (a : Nat) : Except Act (List (Nat × List Loc)) :=
  (List.range (lblCount ic.f)).mapM fun i => do
    return (lblFirst ic.f + i, ← sidePlaces s ic acc (lblSp ic.f) (a + 4 * i) 4)

/-- The addresses in memory that such an operation touches, with the bytes at each. -/
def lblTouches (f : Fields) (a : Nat) : List (Nat × Nat) :=
  if lblSp f then [] else (List.range (lblCount f)).map fun i => ((a + 4 * i) % 2 ^ 64, 4)

/-- LBLLD and LBLST at issue: the checks of R348 in their order. -/
def lblMove (st : Bool) (ic : Ic) (s : State) : Act :=
  let f := ic.f
  let acc : Access := if st then .write else .read
  let a := sideAddr (lblSp f) ic.src0 ic.lane
  if tileBad s.team (lblTile f) then .trap (bound bAcc)
  else if 64 < lblFirst f + lblCount f then .trap (shape shLbl)
  else if a % 4 != 0 then .trap alignTrap
  else if lblSp f && s.team.share < a + 4 * lblCount f then .trap (spadTrap ic.rd acc (ic.lanes.map fun l => (l, a)))
  else
    match lblPlaces ic ic.rd acc a with
    | .error e => e
    | .ok ws =>
      let touches := lblTouches f a
      if lblCount f = 0 then .ok s
      else
        enqueueAct (walkAll s touches) (2 ^ lblTile f)
          (if st then .lblStore (lblTile f) (lblCols f) ws else .lblLoad (lblTile f) (lblCols f) ws)
          (if st then (ws.map (·.2)).flatten else []) (passedAll s acc touches)

/-- LBLLD (R348). -/
def execLblld (f : Fields) (s : State) : Out := issue eLblld f s (lblMove false)

/-- LBLST (R353). -/
def execLblst (f : Fields) (s : State) : Out := issue eLblst f s (lblMove true)

/-! ## Slots (R349, R352) -/

/-- RELLD (R334, R349): operations that have issued keep the contents that they took (R345). -/
def execRelld (f : Fields) (s : State) : Out :=
  issue eRelld f s fun ic s =>
    let n := (lo32 (ic.u0 false)).toNat
    let a := (ic.u1 true).toNat
    if s.team.rels.length ≤ n then .trap (bound bRel)
    else if a % 128 != 0 then .trap alignTrap
    else
      match readMany s ic a 128 with
      | .error e => e
      | .ok (s, bs) =>
        if !relOk (relOf bs) then .trap (shape shRel)
        else if !relTreesOk (relOf bs) s.team.trees.length then .trap (bound bTree)
        else .ok { s with team := { s.team with rels := s.team.rels.set n bs } }

/-- TREELD (R335, R352). -/
def execTreeld (f : Fields) (s : State) : Out :=
  issue eTreeld f s fun ic s =>
    let n := (lo32 (ic.u0 false)).toNat
    let k := (lo32 (ic.u2 false)).toNat
    if s.team.trees.length ≤ n then .trap (bound bTree)
    else if k = 0 || 256 < k then .trap (shape shRel)
    else
      match readMany s ic (ic.u1 true).toNat k with
      | .error e => e
      | .ok (s, bs) =>
        let bad := ((treeValid bs).filter fun v => !v).length
        .ok (ic.writeAll { s with team := { s.team with trees := s.team.trees.set n bs } } false (BitVec.ofNat 64 bad))

/-! ## RELTEST and SELV (R350, R351) -/

/-- `sr.lblstat` after an offence of an ancestor atom: the first one since it was cleared stands (R337, R346). -/
def noteTree (s : State) (b : TreeBad) : State :=
  if s.team.lblstat.getLsbD 0 then s
  else { s with team := { s.team with lblstat := BitVec.ofNat 64 (b.2 * 2 ^ 32 + b.1 * 2 ^ 4 + 1) } }

/-- The verdicts of pairs in order, with the first offence. -/
def pairVerdicts (r : Rel) (trees : List (List Byte)) (ps : List (Nat × Nat × Nat)) : List (Nat × Bool) × Option TreeBad :=
  ps.foldl (fun a p =>
    let (v, b) := pairVerdict r trees p.2.1 p.2.2
    (a.1 ++ [(p.1, v)], a.2.or b)) ([], none)

/-- `RELTEST.PAIR` (R350): with TRAPBAD an offence traps before any effect but that on `sr.lblstat` (R337). -/
def reltestPair (ic : Ic) (s : State) (r : Rel) : Act :=
  let ps := ic.once.map fun l => (l, (lo32 (ic.src0 false l)).toNat, (lo32 (ic.src1 false l)).toNat)
  let (vs, bad) := pairVerdicts r s.team.trees ps
  let note (s : State) : State := match bad with | some b => noteTree s b | none => s
  if bad.isSome && relTrapBad r then .trapIn note { cls := cTree }
  else .ok (ic.write (note s) false fun l => BitVec.ofNat 64 (bnat ((lookupKey (ic.at l) vs).getD false)))

/-- A selvedge in lanes 0 to 15 of a register (R121, R338). -/
def selvIn (s : State) (r : Nat) : Selv :=
  BitVec.ofNat 512 (ofLeBytes (bytesOfWords ((List.range 16).map fun l => if s.m.live.getLsbD l then vLane s.m.rf r l else 0#32)))

/-- RELTEST (R350). -/
def execReltest (f : Fields) (s : State) : Out :=
  issue eReltest f s fun ic s =>
    let n := (lo32 (ic.u2 false)).toNat
    if s.team.rels.length ≤ n then .trap (bound bRel)
    else
      let r := relOf (s.team.rels.getD n [])
      if modBits f 2 0 == 0 then reltestPair ic s r
      else .ok (ic.writeAll s false (BitVec.ofNat 64 (selvVerdict r (selvIn ic.rd f.s0.toNat) (selvIn ic.rd f.s1.toNat))))

/-- SELV (R351): it waits until engines have written what they own of its words (R245). -/
def execSelv (f : Fields) (s : State) : Out :=
  issue eSelv f s fun ic s =>
    let a := (lo32 (ic.u0 false)).toNat
    let k := if modBits f 0 0 == 1 then 16 else 64
    let n := (lo32 (ic.u1 false)).toNat
    if a % 4 != 0 then .trap alignTrap
    else if s.team.share < a + 4 * k then .trap (spadTrap ic.rd .read (ic.lanes.map fun l => (l, a)))
    else if s.team.rels.length ≤ n then .trap (bound bRel)
    else
      match spadLost s.team ((List.range k).map (a / 4 + ·)) with
      | some t => .trap t
      | none =>
        if wordsOwned s ((List.range k).map (a / 4 + ·)) then .sleep .owned
        else
          let ws := (List.range k).map fun i => (spadWord s.team (a / 4 + i)).toNat
          let s := { s with team := mendWords s.team ((List.range k).map (a / 4 + ·)) }
          let sv := selvOf (relOf (s.team.rels.getD n [])) ws
          .ok (ic.write s false fun l => if l % 32 < 16 then BitVec.ofNat 64 (fld sv (32 * (l % 32) + 31) (32 * (l % 32))) else 0#64)

end Sys2Proof.Machine
end

