-- ==== Sys2Proof/Machine/Translate.lean ====
section
/-!
DEFINITION. The translation instructions (spec/09_translation.md R226 to R232): queries, the first-touch pool, and invalidation.
-/
namespace Sys2Proof.Machine

/-- The access that `ADDRQ` asks about (R229). -/
def queryAccess (k : Nat) : Access :=
  match k with
  | 0 => .read
  | 1 => .write
  | 2 => .fetch
  | _ => .rmw

/-- The REGION code of an address (R229). -/
def regionCode (v : View) (a : Nat) : Nat :=
  if a >>> 48 != 0 then 0 else if inVaultWin v a then 1 else if inGather v a then 2 else if inHeap v a then 0 else if inHost v a then 3 else 0

/-- The resolution that `ADDRQ` asks about: one through a gather window reads the index, which may be owned by an engine (R201, R245). -/
def queryFate (s : State) (acc : Access) (va : Nat) : Except XFault (Loc × Nat × Region) := resolveByte s (accessView s) acc va winFuel

/-- Whether the resolution fails in a class. -/
def queryFails (s : State) (acc : Access) (c : XClass) (va : Nat) : Bool :=
  match queryFate s acc va with | .error e => e.cls == c | .ok _ => false

/-- The result of `ADDRQ` for an address (R229); a host page that no translation has been given for would wait on PRI, and reads as a
fault with cause PRI. -/
def queryResult (s : State) (acc : Access) (va : Nat) : Dword :=
  let v := memberView s
  let region := regionCode v va * 2 ^ 52
  match queryFate s acc va with
  | .ok (l, sc, _) =>
    let pa := match l with | .pa a => if memberPriv s && regionCode v va != 2 then a % 2 ^ 52 else 0 | _ => 0
    BitVec.ofNat 64 (sc * 2 ^ 54 + region + pa)
  | .error e => BitVec.ofNat 64 (2 ^ 63 + bnat (e.cls == .walk) * 2 ^ 62 + e.cause % 64 * 2 ^ 56 + region)

/-- ADDRQ (R229): a walk that meets an uncorrectable error raises RAS (R18, R509). -/
def execAddrq (f : Fields) (s : State) : Out :=
  issue eAddrq f s fun ic s =>
    let acc := queryAccess (modBits f 2 0)
    let fails (c : XClass) : Bool := ic.once.any fun l => queryFails ic.rd acc c (ic.src0 true l).toNat
    if fails .ras then .trap { cls := cRas, cause := 5 }
    else if fails .own then .sleep .owned
    else .ok (ic.write s true fun l => queryResult ic.rd acc (ic.src0 true l).toNat)

/-! ## The first-touch pool -/

/-- A privileged instruction (R228): EMU with cause PRIV from an unprivileged context. -/
def privileged (ic : Ic) (a : Act) : Act := if memberPriv ic.rd then a else .trap (emuTrap .priv)

/-- An access of the pool unit that fails: its fault, and what kind of access it was (R223). -/
abbrev PoolFault := XFault × Access

/-- The PA of an access of the pool unit to an IPA (R227, R230). WALK is recorded only of the read of a first-stage entry, `table` (R223). -/
def walkerPa (s : State) (table : Bool) (acc : Access) (va ipa : Nat) : Except PoolFault Nat :=
  (stage2 s true acc va (ipa % 2 ^ 48) true).mapError fun e => ({ e with onEntry := table }, acc)

/-- The PA of `n` bytes at an IPA that the pool unit accesses, once no engine has yet to write them (R245). -/
def poolPa (s : State) (table : Bool) (acc : Access) (va ipa n : Nat) : Except PoolFault Nat := do
  let pa ← walkerPa s table acc va ipa
  if ownedPa s s.nextId pa (pa + n) then .error ({ cls := .own, cause := 0, va := va }, acc) else return pa

/-- The second-level cache as the walk for an IPA leaves it (R195, R217). -/
def passIpa (s : State) (va ipa : Nat) : State := l2Locs s ((secondReads s va (ipa % 2 ^ 48)).map .pa) false

/-- A 64-bit word at an IPA, read or written at device scope through the second-level cache (R195). -/
def readIpa (s : State) (table : Bool) (va ipa : Nat) : Except PoolFault (State × Nat) := do
  let pa ← poolPa s table .read va ipa 8
  let x ← (readEntry s va pa).mapError fun e => (e, .read)
  return (l2Locs (passIpa s va ipa) [.pa pa] false, x)
def writeIpa (s : State) (va ipa x : Nat) : Except PoolFault State :=
  (poolPa s false .write va ipa 8).map fun pa => l2Locs (storeMem (passIpa s va ipa) pa (leBytes 8 x)) [.pa pa] true

/-- The bytes of a frame. -/
def frameBytes : Nat := 2 ^ 18

/-- A frame set to zero at device scope, through the second-level cache line by line (R195, R230). -/
def zeroFrame (s : State) (va ipa : Nat) : Except PoolFault State :=
  (poolPa s false .write va ipa frameBytes).map fun pa =>
    let s := clearMem (passIpa s va ipa) pa frameBytes
    { s with part := { s.part with l2 := ((List.range (frameBytes / 128)).foldl (fun p i => l2Access p (pa / 128 + i) true) s.part).l2 } }

/-- Whether a pool entry has a bit outside 47:18 (R230). -/
def poolBad (e : Nat) : Bool := e % frameBytes != 0 || e >>> 48 != 0

/-- The attribute word of `PGMAP` is malformed (R230). -/
def attrBad (x : Nat) : Bool :=
  x / 512 != 0 || x % 4 != 0 || x.testBit 6 || (x >>> 7) % 4 == 3 || (x.testBit 3 && !x.testBit 2)

/-- The IPA of pool entry `i` (R227). -/
def poolIpa (s : State) (i : Nat) : Nat := s.part.poolbase.toNat + 8 * i

/-- The pool with `n` entries. -/
def setPool (s : State) (n : Nat) : State := { s with part := { s.part with poolcnt := BitVec.ofNat 64 n } }

/-- The frames that a lane pops, `need` of them, or the state of status 5 (R230): the malformed entry is discarded, and one that was popped
before it stays. -/
def popFrames (s : State) (va need : Nat) : Except PoolFault (State × Option (List Nat)) := do
  let n := s.part.poolcnt.toNat
  let (s, top) ← readIpa s false va (poolIpa s (n - 1))
  if poolBad top then return (setPool s (n - 1), none)
  else if need = 1 then return (setPool s (n - 1), some [top])
  else
    let (s, next) ← readIpa s false va (poolIpa s (n - 2))
    if poolBad next then
      let s ← writeIpa s va (poolIpa s (n - 2)) top
      return (setPool s (n - 1), none)
    else return (setPool s (n - 2), some [top, next])

/-- Whether step 5 of R214 resolves an address. -/
def byTables (v : View) (a : Nat) : Bool := a >>> 48 == 0 && !inVaultWin v a && !inGather v a && !inHeap v a && !inHost v a

/-- One lane of `PGMAP` (R230): the state and the status. -/
def mapLane (s : State) (attr va : Nat) : Except PoolFault (State × Nat) :=
  let v := memberView s
  if !byTables v va then .ok (s, 3)
  else do
    let ipa1 := v.s1root + 8 * (va >>> 33)
    let (s, e1) ← readIpa s true va ipa1
    if entV e1 && entLeaf e1 then return (s, 3)
    else
      let leafAt (frame : Nat) : Nat := frame + 8 * ((va >>> 18) % 2 ^ 15)
      let (s, e2) ← if entV e1 then readIpa s true va (leafAt (entFrame e1)) else .ok (s, 0)
      if entV e2 then return (s, 1)
      else
        let need := if entV e1 then 1 else 2
        if s.part.poolcnt.toNat < need then return (s, 2)
        else
          match ← popFrames s va need with
          | (s, none) => return (s, 5)
          | (s, some fs) =>
            let s ← fs.foldlM (fun s f => zeroFrame s va f) s
            let table := if entV e1 then entFrame e1 else fs.headD 0
            let page := fs.getLastD 0
            let s ← if entV e1 then .ok s else writeIpa s va ipa1 (table + 1)
            let s ← writeIpa s va (leafAt table) (page + attr + 3)
            return (s, 0)

/-- The lanes of `PGMAP` in ascending order; a second-stage fault names its lane (R230). -/
def mapLanes (ic : Ic) (attr : Nat) (s : State) : Except (Nat × PoolFault) (State × List (Nat × Nat)) :=
  ic.once.foldlM (fun r l =>
    match mapLane r.1 attr (ic.src0 true l).toNat with
    | .ok (s, st) => .ok (s, r.2 ++ [(l, st)])
    | .error e => .error (l, e)) (s, [])

/-- PGMAP (R230). -/
def execPgmap (f : Fields) (s : State) : Out :=
  issue ePgmap f s fun ic s => privileged ic (
    let attr := (lo32 (ic.u1 false)).toNat
    if attrBad attr then .ok (ic.writeAll s false 4#64)
    else
      match mapLanes ic attr s with
      | .ok (s, sts) => .ok (ic.write s false fun l => BitVec.ofNat 64 (laneOr sts (ic.at l)))
      | .error (l, e, acc) => faultAct ic.rd acc [(l, e)])

/-- Whether a frame may enter the pool (R231): aligned, mapped by the second stage to granted device memory, outside every KR range; or the
uncorrectable error that its walk meets (R18). -/
def poolFrameOk (s : State) (x : Nat) : Except XFault Bool :=
  if x % frameBytes != 0 || 2 ^ 48 ≤ x then .ok false
  else
    match stage2 s false .write x x false with
    | .ok pa => .ok (s.part.prbase.toNat ≤ pa && pa < s.part.prbase.toNat + grantedBytes s.part && !inKr s pa)
    | .error e => if e.cls == .ras then .error e else .ok false

/-- The act of a second-stage fault of a uniform instruction. -/
def uniformFault (ic : Ic) (e : XFault) (acc : Access) : Act :=
  match faultAct ic.rd acc [(ic.lane, e)] with
  | .trap t => .trap { t with mask := some ic.act, xl := xlAll ic.act (xlRecOf e acc (!memberPriv ic.rd)) }
  | a => a

/-- PGPOOL (R231): a full pool is reported before a refused frame. A second-stage fault has no VA here: that `sr.xlva` then holds the frame's IPA for
`.PUSH` and 0 for `.POP` is the model's choice (log 125). -/
def execPgpool (f : Fields) (s : State) : Out :=
  issue ePgpool f s fun ic s => privileged ic (
    let n := s.part.poolcnt.toNat
    let x := (ic.u0 true).toNat
    match modBits f 1 0 with
    | 0 => .ok (ic.writeAll s false s.part.poolcnt)
    | 1 =>
      if s.part.poolcap.toNat ≤ n then .ok (ic.writeAll s false 1#64)
      else
        match poolFrameOk s x with
        | .error e => uniformFault ic e .read
        | .ok false => .ok (ic.writeAll s false 2#64)
        | .ok true =>
          match writeIpa s x (poolIpa s n) x with
          | .ok s => .ok (ic.writeAll (setPool s (n + 1)) false 0#64)
          | .error (e, acc) => uniformFault ic e acc
    | _ =>
      if n = 0 then .ok (ic.writeAll s false 0#64)
      else
        match readIpa s false 0 (poolIpa s (n - 1)) with
        | .ok (s, e) => .ok (ic.writeAll (setPool s (n - 1)) false (BitVec.ofNat 64 (e / frameBytes * frameBytes % 2 ^ 48)))
        | .error (e, acc) => uniformFault ic e acc)

/-! ## Invalidation -/

/-- The context registers with a member's own writes published (R226). -/
def publish (c : Ctx) (ov : List (Nat × Dword)) : Ctx :=
  let of (n : Nat) (d : Dword) : Dword := (lookupKey n ov).getD d
  { c with hwbase := of 0x084 c.hwbase, hwlimit := of 0x085 c.hwlimit, hwoff := of 0x086 c.hwoff, s1root := of 0x087 c.s1root
           svmbase := of 0x08F c.svmbase, svmlimit := of 0x090 c.svmlimit }

/-- The second-stage leaf of an IPA with its level; none below the range limit (R218). -/
def leaf2Of (s : State) (va ipa : Nat) : Except XFault (Option (Nat × Nat)) :=
  if ipa < s.part.prlim.toNat then .ok none
  else do
    let e1 ← secondEntry s va ipa
    if entLeaf e1 then return some (e1, 1)
    else
      let p2 := entFrame e1 + 8 * ((ipa >>> 18) % 2 ^ 15)
      let own ← readEntry s va p2
      let e2 ← runEntry s va (ipa >>> 18) p2 own
      return some (e2, 2)

/-- Whether the 128 bytes of an aligned run of entries can be read (R18, R509). -/
def runWhole (s : State) (pa : Nat) : Bool := (List.range 4).all fun i => !lostHome s (.pa (pa / 128 * 128 + 32 * i))

/-- How many pages a TLB may hold as one entry with a page (R219, R220): those of a block, or of a run that is what CONT states. -/
def spanOf (s : State) (v : View) (va leaf level : Nat) : Nat :=
  if level = 1 then 2 ^ 15
  else if leaf.testBit 6 then
    match firstEntry s v va with
    | .ok e1 =>
      match stage2 s true .read va (entFrame e1 + 8 * ((va >>> 18) % 2 ^ 15)) true with
      | .ok pa => if runWhole s pa && runMeets (runEntries s pa) then 16 else 1
      | .error _ => 1
    | .error _ => 1
  else 1

/-- A translation widened over `n` pages, where the second stage maps them as one (R218, R219). -/
def widen (s : State) (n : Nat) (t : TlbEntry) : TlbEntry :=
  let d := t.page % n * 2 ^ 18
  let whole : Bool := match t.leaf2 with | none => decide (t.ipa - d + n * 2 ^ 18 ≤ s.part.prlim.toNat) | some (_, level) => level == 1
  if whole then { t with page := t.page / n * n, span := n, ipa := t.ipa - d, pa := t.pa - d } else t

/-- The translation of a VA that a walk gives a TLB to hold, of its page alone or as `wide` as the tables allow (R219, R220): none where the walk or
a leaf's layout faults. -/
def tlbEntryOf (s : State) (v : View) (wide : Bool) (va : Nat) : Option TlbEntry :=
  let page := va / frameBytes * frameBytes
  let walk : Except XFault TlbEntry := do
    let (e, level, ipa) ← leafOf s v page
    let pa ← stage2 s false .read page ipa false
    let leaf2 ← leaf2Of s page ipa
    let e1 ← firstEntry s v page
    let root := firstIpa v page >>> 18
    return { part := s.part.num, ctx := s.ctx.id, page := page >>> 18, leaf := e, level := level, ipa := ipa, leaf2 := leaf2, pa := pa
             tables := if entLeaf e1 then [root] else [root, entFrame e1 >>> 18] }
  match walk with
  | .ok t => if malformed true t.level t.leaf then none else some (if wide then widen s (spanOf s v page t.leaf t.level) t else t)
  | .error _ => none

/-- The entries of a core's TLB, and the sets and ways of a cluster's (R213). That an entry's set is that of its first page, in units of its size, is
the model's choice (log 95). -/
def coreTlbSize : Nat := 64
def tlbSets : Nat := 512
def tlbWays : Nat := 8
def tlbSetOf (t : TlbEntry) : Nat := t.page / t.span % tlbSets

/-- A core's and a cluster's TLB with an entry, where they have room for it. -/
def coreTlbPut (k : Core) (t : TlbEntry) : Core := if coreTlbSize ≤ k.tlb.length then k else { k with tlb := k.tlb ++ [t] }
def clTlbPut (k : Cluster) (t : TlbEntry) : Cluster :=
  if tlbWays ≤ (k.tlb.filter fun x => tlbSetOf x == tlbSetOf t).length then k else { k with tlb := k.tlb ++ [t] }

/-- The TLB of the core or the cluster in focus keeps a translation of the context in focus (R220; log 95): the core's takes what the cluster's
holds, or walks. -/
def fillTlb (s : State) (va : Nat) (core wide : Bool) : State :=
  let v := ctxView s false 0
  if va >>> 48 != 0 || inVaultWin v va || inGather v va || inHeap v va || inHost v va ||
      (tlbFind s (if core then s.core.tlb else s.cl.tlb) va).isSome then s
  else
    match (tlbHit s v va).orElse fun _ => tlbEntryOf s v wide va with
    | some t => if core then { s with core := coreTlbPut s.core t } else { s with cl := clTlbPut s.cl t }
    | none => s

/-- A TLB discards its translation of a VA: a parity error, or room for another (R220). -/
def discardTlb (s : State) (va : Nat) (core : Bool) : State :=
  let rest (ts : List TlbEntry) : List TlbEntry := match tlbFind s ts va with | some t => ts.erase t | none => ts
  if core then { s with core := { s.core with tlb := rest s.core.tlb } } else { s with cl := { s.cl with tlb := rest s.cl.tlb } }

/-- The first-level entries that a die holds for a stage (R213). -/
def walkSize : Nat := 256

/-- The key of a first-level entry of the context in focus in the die's walk cache, of its first stage or of the second. -/
def walkKey (s : State) (a : Nat) (second : Bool) : Option Nat × Nat := (if second then none else some s.ctx.id, a >>> 33)

/-- The walk cache of the die in focus keeps a valid and well-formed first-level entry (R220): of an IPA at the second stage, else of a VA of the
context in focus. -/
def fillWalk (s : State) (a : Nat) (second : Bool) : State :=
  let (ctx, index) := walkKey s a second
  let v := ctxView s false 0
  let n := (s.mod.walkc.filter fun w => w.die == s.cl.num / 16 && w.ctx.isNone == second).length
  if (walkFind s ctx index).isSome || walkSize ≤ n then s
  else
    match (if second then secondEntry s a a else firstEntry s v a) with
    | .ok e =>
      if !entV e || malformed (!second) 1 e then s
      else
        let w : WalkEntry :=
          { die := s.cl.num / 16, part := s.part.num, ctx := ctx, index := index, entry := e, page := if second then 0 else firstIpa v a >>> 18 }
        { s with mod := { s.mod with walkc := s.mod.walkc ++ [w] } }
    | .error _ => s

/-- It discards one (R220). -/
def discardWalk (s : State) (a : Nat) (second : Bool) : State :=
  let (ctx, index) := walkKey s a second
  let gone (w : WalkEntry) : Bool := w.die == s.cl.num / 16 && w.part == s.part.num && w.ctx == ctx && w.index == index
  { s with mod := { s.mod with walkc := s.mod.walkc.filter fun w => !gone w } }

/-- Whether `TLBINV` covers a translation of `n` pages of a context from a page on (R225, R232). -/
def coversPage (op x c : Nat) (ctx page n : Nat) : Bool :=
  match op with
  | 0 => ctx == c && page ≤ x >>> 18 && x >>> 18 < page + n
  | 1 => ctx == c
  | 2 => false
  | _ => true

/-- Whether it covers a held translation (R232). -/
def coversEntry (op x c : Nat) (t : TlbEntry) : Bool :=
  if op = 2 then (t.ipa >>> 18 ≤ x >>> 18 && x >>> 18 < (t.ipa >>> 18) + t.span) || t.tables.contains (x >>> 18)
  else coversPage op x c t.ctx t.page t.span

/-- Whether it covers a cached first-level entry (R232): `.IPA` those of the second stage for the IPA, and those of the first stage that were read
through its page (log 103). -/
def coversWalk (op x c : Nat) (w : WalkEntry) : Bool :=
  match op with
  | 0 => w.ctx == some c && w.index == x >>> 33
  | 1 => w.ctx == some c
  | 2 => if w.ctx.isNone then w.index == x >>> 33 else w.page == x >>> 18
  | _ => true

/-- Whether it covers translations of a context (R232). -/
def coversCtx (op c ctx : Nat) : Bool := op ≥ 2 || ctx == c

/-- Whether a place lies in memory that translations reach. -/
def isPa : Loc → Bool
  | .pa _ => true
  | _ => false

/-- Whether an operation of a matrix engine holds places in memory. -/
def opPlaces (o : MxOp) : Bool :=
  match o.work with
  | .accLoad _ mv => mv.elems.any (fun e => e.locs.any isPa) || mv.labels.any (fun l => l.2.any isPa) || mv.scales.any isPa
  | .accStore _ mv => mv.elems.any (fun e => e.locs.any isPa) || mv.labels.any (fun l => l.2.any isPa) || mv.scales.any isPa
  | .lblLoad _ _ ws => ws.any fun l => l.2.any isPa
  | .lblStore _ _ ws => ws.any fun l => l.2.any isPa
  | _ => false

/-- Whether an engine operation of one of some contexts of the partition in focus holds places that have been translated before (R223, R225,
R232): a `CPY`, an operation of a matrix engine, also of a saved team, or a panel that is being read. -/
def holdsPlaces (s : State) (ctxs : Nat → Bool) : Bool :=
  ((s.team :: s.teams.map (·.1)).any fun t =>
    t.part == s.part.num && ctxs t.ctx &&
      ((t.copies.any fun c => match c.op with | .lanes ls => ls.any fun e => e.1.any isPa || e.2.any isPa | _ => false) ||
        (t.wbs.any fun w => !w.loaded && !w.stale && w.src.any isPa) ||
        ((s.core :: s.cores).any fun k => k.mxq.any fun o => o.team == t.id && opPlaces o))) ||
    s.part.saved.any fun e => ctxs e.2.1.ctx && e.2.1.savedOps.any opPlaces

/-- The held translations that `TLBINV` covers removed from every core, cluster and walk cache of the partition, and from its contexts (R225,
R232). -/
def dropTlb (s : State) (op x c : Nat) : State :=
  let keep (t : TlbEntry) : Bool := !(t.part == s.part.num && coversEntry op x c t)
  let cl (k : Cluster) : Cluster := { k with tlb := k.tlb.filter keep }
  let core (k : Core) : Core := { k with tlb := k.tlb.filter keep }
  let ctx (k : Ctx) : Ctx := if k.part = s.part.num then { k with ats := k.ats.filter fun e => !coversPage op x c k.id e.1 1 } else k
  let walkc := s.mod.walkc.filter fun w => !(w.part == s.part.num && coversWalk op x c w)
  { s with cl := cl s.cl, cls := s.cls.map cl, core := core s.core, cores := s.cores.map core, ctx := ctx s.ctx, ctxs := s.ctxs.map ctx
           mod := { s.mod with walkc := walkc } }

/-- TLBINV (R232): it sleeps while engine operations hold places that were translated before, and the member's writes of context registers are
seen by the others after `.CTX` (R226). -/
def execTlbinv (f : Fields) (s : State) : Out :=
  issue eTlbinv f s fun ic s => privileged ic (
    let op := modBits f 2 0
    let c := (ic.u1 false).toNat % 2 ^ 16
    if holdsPlaces s (coversCtx op c) then .sleep .owned
    else
      let s := dropTlb s op (ic.u0 true).toNat c
      if op == 1 then .ok { s with ctx := publish s.ctx s.m.ctxOv, m := { s.m with ctxOv := [] } } else .ok s)

end Sys2Proof.Machine
end

