-- ==== Sys2Proof/Machine/Taps.lean ====
section
/-!
DEFINITION. Probe taps and steering (spec/20_picot.md R466 to R482), with what the tap ports cache (R471).
-/
namespace Sys2Proof.Machine

/-! ## Tap memory (R467 to R470) -/

def tapProbeOff (p : Nat) : Nat := 0x40 + 8 * p
def tapLogOff (n : Nat) : Nat := 0x1000 + 16 * (n % 256)
def tapSelOff (q : Nat) : Nat := 0x2000 + 8 * q
def tapSlotOff (q p : Nat) : Nat := 0x80000 + 8 * (64 * q + p)
def tapVecOff (v c : Nat) : Nat := 0x100000 + 0x8000 * v + 2 * c
def tapWeightOff (p c : Nat) : Nat := 0x200000 + 0x8000 * p + 2 * c

/-- A tap's memory with what any core has stored there written back: a port then reads and updates all of it where it lies, whichever core the
stores came from (R249, R470, R471). -/
def cleanTap (s : State) (t : Nat) : State := cleanRange s (tapPa s t 0) (tapPa s (t + 1) 0)

/-- The places of `n` bytes of a tap's memory. -/
def tapLocs (s : State) (t off n : Nat) : List Loc := (List.range n).map fun i => .pa (tapPa s t off + i)

/-- `n` bytes of a tap's memory as a number, and written, through the second-level cache (R195). -/
def tapRead (s : State) (t off n : Nat) : Nat := ofLeBytes ((tapLocs s t off n).map (homeByte s))
def tapWrite (s : State) (t off n x : Nat) : State := engineWriteLocs s (tapLocs s t off n) (leBytes n x)

/-- The granule that a tap port holds of a physical address (R471). -/
def tapHeld (c : Core) (pa : Nat) : Option TapGran := c.tapc.find? fun g => g.gran == pa / 32

/-- `n` bytes of a tap's descriptor, probes, weights, vectors or selectors as the port of the core in focus reads them (R471). -/
def tapItem (s : State) (t off n : Nat) : Nat :=
  ofLeBytes ((List.range n).map fun i =>
    let a := tapPa s t off + i
    match tapHeld s.core a with
    | some g => g.bytes.getD (a % 32) 0#8
    | none => readCell s.mem a)

/-- The port of the core in focus writes such an item: it holds nothing older of it. -/
def tapPut (s : State) (t off n x : Nat) : State :=
  let s := tapWrite s t off n x
  { s with core := { s.core with tapc := s.core.tapc.filter fun g => g.gran != tapPa s t off / 32 } }

/-- The tap port of the core in focus caches a granule of the partition's tap memory (R471; log 20), but for one that an engine has yet to write
(R245). -/
def fillTap (s : State) (gran : Nat) : State :=
  let base := tapPa s 0 0
  if (tapHeld s.core (32 * gran)).isSome || 32 * gran < base || base + 2 ^ 26 ≤ 32 * gran || ownedPa s s.nextId (32 * gran) (32 * gran + 32) then s
  else
    let s := l2Locs (cleanRange s (32 * gran) (32 * gran + 32)) [.pa (32 * gran)] false
    { s with core := { s.core with tapc := s.core.tapc ++ [{ gran := gran, bytes := readCells s.mem (32 * gran) 32 }] } }

/-- The tap ports hold nothing of a tap any more (R471, R482). -/
def dropTap (s : State) (t : Nat) : State :=
  let a := tapPa s t 0
  let core (c : Core) : Core := { c with tapc := c.tapc.filter fun g => 32 * g.gran < a || a + 2 ^ 22 ≤ 32 * g.gran }
  { s with core := core s.core, cores := s.cores.map core }

/-- A tap descriptor (R468). -/
abbrev TapDesc := BitVec 512

def tapDesc (s : State) (t : Nat) : TapDesc := BitVec.ofNat 512 (tapItem s t 0 64)

def tdNseq (d : TapDesc) : Nat := fld d 47 37
def tdSeqw (d : TapDesc) : Nat := fld d 36 31
def tdSeqsh (d : TapDesc) : Nat := fld d 30 26
def tdNprobe (d : TapDesc) : Nat := fld d 25 19
def tdHid (d : TapDesc) : Nat := fld d 18 4
def tdClrperm (d : TapDesc) : Bool := bit d 2
def tdRdperm (d : TapDesc) : Bool := bit d 1

/-- Whether tap `t` with its descriptor is disabled (R468). -/
def tapDisabled (s : State) (t : Nat) (d : TapDesc) : Bool :=
  s.part.taps ≤ t || !bit d 0 || bit d 3 || fld d 63 48 != 0 || fld d 511 96 != 0 || tdNseq d == 0 || 1024 < tdNseq d || tdSeqw d == 0 ||
    32 < tdSeqsh d + tdSeqw d || 32 < tdSeqw d || tdNprobe d == 0 || 64 < tdNprobe d || tdHid d == 0 || 16384 < tdHid d

/-- The sequence of a row label (R472). -/
def tapSeq (d : TapDesc) (label : Word) : Nat := label.toNat / 2 ^ tdSeqsh d % 2 ^ tdSeqw d

/-! ## A tap operation (R472 to R475) -/

/-- The parameters of a queued tap operation. -/
structure TapRun where
  tile : Nat
  tapn : Nat
  tcol : Nat
  nc : Nat
  c0 : Nat
  desc : TapDesc

/-- A crossing: its sequence, lowest row, probe, score and action (R473). -/
structure Crossing where
  seq : Nat
  row : Nat
  probe : Nat
  score : Word
  act : Nat
deriving DecidableEq, Repr

/-- The rows of each sequence in a tile, by their lowest row (R472). -/
def tapRows (c : TapRun) (t : Tile) : List (Nat × List Nat) :=
  let rs := (List.range 64).map fun i => (i, tapSeq c.desc (t.rowLbl.getD i 0#32))
  ((rs.map (·.2)).eraseDups.filter fun q => q < tdNseq c.desc).map fun q => (q, (rs.filter fun r => r.2 == q).map (·.1))

/-- A BF16 element as a value. -/
def bfVal (x : Nat) : FVal := fdecode bf16 false x

/-- What a row adds to a probe's score (R472). -/
def tapPart (s : State) (c : TapRun) (t : Tile) (p i : Nat) : FVal :=
  let leaf (k : Nat) : FVal :=
    if k < c.nc then rnd32 (mulV (tileVal (t.data.getD (64 * i + c.tcol + k) 0#32)) (bfVal (tapItem s c.tapn (tapWeightOff p (c.c0 + k)) 2)))
    else zeroFv
  (treeFold (nodeF 0) 6 ((List.range 64).map leaf)).headD zeroFv

/-- Whether a completed sweep crosses (R473). -/
def crosses (dir : Bool) (score thresh : FVal) : Bool :=
  isNan score || (!isNan thresh && (if dir then !ltV thresh score else !ltV score thresh))

/-- One probe on one sequence: the state with its slot updated, and the crossing if there is one (R472, R473). -/
def tapProbe (s : State) (c : TapRun) (t : Tile) (q : Nat) (rows : List Nat) (p : Nat) : State × Option Crossing :=
  let e := tapItem s c.tapn (tapProbeOff p) 8
  if e / 8 % 2 ^ 29 != 0 then (s, none)
  else
    let slot := tapRead s c.tapn (tapSlotOff q p) 8
    let score := rows.foldl (fun sc i => nodeF 0 sc (tapPart s c t p i)) (tileVal (BitVec.ofNat 32 slot))
    let bits := fround fp32 score
    let n := slot / 2 ^ 32 % 2 ^ 15 + c.nc
    let old := slot / 2 ^ 63 % 2
    let store (crossed n bits : Nat) (s : State) : State :=
      tapWrite s c.tapn (tapSlotOff q p) 8 (crossed * 2 ^ 63 + n * 2 ^ 32 + bits)
    if n == tdHid c.desc then
      let hit := crosses (e.testBit 2) score (tileVal (BitVec.ofNat 32 (e / 2 ^ 32)))
      let s := if isNan score then { s with team := { s.team with tapstat := s.team.tapstat ||| 2#64 } } else s
      (store (if hit then 1 else old) 0 0 s,
        if hit then some { seq := q, row := rows.headD 0, probe := p, score := BitVec.ofNat 32 bits, act := e % 4 } else none)
    else if tdHid c.desc < n then (store old 0 0 { s with team := { s.team with tapstat := s.team.tapstat ||| 1#64 } }, none)
    else (store old n bits s, none)

/-- A crossing's log entry, and its cancelling of steering (R473, R474). -/
def logCrossing (c : TapRun) (t : Tile) (s : State) (x : Crossing) : State :=
  let n := tapRead s c.tapn 8 4
  let word2 := s.core.num * 2 ^ 16 + x.probe * 2 ^ 8 + x.row
  let s := tapWrite s c.tapn (tapLogOff n) 16
    ((t.rowLbl.getD x.row 0#32).toNat + x.score.toNat * 2 ^ 32 + word2 * 2 ^ 64 + n * 2 ^ 96)
  let s := tapWrite s c.tapn 8 4 ((n + 1) % 2 ^ 32)
  if 2 ≤ x.act then tapPut s c.tapn (tapSelOff x.seq) 8 0 else s

/-- What the trap of the marked rows reports (R476): the first trapping crossing, and the first crossing of all; none where no row is marked. -/
def tapHit (c : TapRun) (t : Tile) (rows : List (Nat × List Nat)) (xs : List Crossing) : Option TapHit :=
  let ts := xs.filter fun x => x.act % 2 == 1
  match ts, xs with
  | x :: _, first :: _ =>
    let marked := (rows.filter fun r => ts.any fun y => y.seq == r.1).map (·.2)
    some
      { cause := c.tapn * 2 ^ 12 + x.probe * 2 ^ 6 + min ts.length 63
        data0 := marked.flatten.foldl (fun m i => m ||| (1#64 <<< i)) 0#64
        data1 := (t.rowLbl.getD first.row 0#32) ++ first.score }
  | _, _ => none

/-- The slots of an operation updated, with its crossings in the order of their log entries (R472, R473). -/
def runSlots (s : State) (c : TapRun) : State × List Crossing :=
  let t := tileAt s.team c.tile
  (tapRows c t).foldl (fun r q =>
    (List.range (tdNprobe c.desc)).foldl (fun r p =>
      let (s, x) := tapProbe r.1 c t q.1 q.2 p
      (s, r.2 ++ x.toList)) r) (s, [])

/-- The probes of an operation on its tile (R472 to R474). -/
def runProbes (s : State) (c : TapRun) : State × Option TapHit :=
  let t := tileAt s.team c.tile
  let (s, xs) := runSlots s c
  (xs.foldl (logCrossing c t) s, tapHit c t (tapRows c t) xs)

/-- The rows that steering adds to, with their selectors (R475). -/
def steerRow (s : State) (c : TapRun) (t : Tile) (i : Nat) : Option Nat :=
  let q := tapSeq c.desc (t.rowLbl.getD i 0#32)
  let sel := tapItem s c.tapn (tapSelOff q) 8
  if q < tdNseq c.desc && sel % 16 != 0 && sel / 16 % 2 ^ 28 == 0 then some sel else none

/-- Steering of a tile (R475). -/
def runSteer (s : State) (c : TapRun) : State :=
  let t := tileAt s.team c.tile
  let sels := (List.range 64).map (steerRow s c t)
  onTile s c.tile fun t =>
    { t with data := t.data.zipIdx.map fun e =>
        let k := e.2 % 64
        match sels.getD (e.2 / 64) none with
        | some sel =>
          if c.tcol ≤ k && k < c.tcol + c.nc then
            let v := bfVal (tapItem s c.tapn (tapVecOff (sel % 16) (c.c0 + (k - c.tcol))) 2)
            BitVec.ofNat 32 (fround fp32 (addV 0 (tileVal e.1) (mulV (tileVal (BitVec.ofNat 32 (sel / 2 ^ 32))) v)))
          else e.1
        | none => e.1 }

/-- What an operation reads of its tap's memory: offsets and lengths, and whether the port may hold it (R468 to R475). -/
def tapReads (s : State) (c : TapRun) (probe steer : Bool) : List (Nat × Nat × Bool) :=
  let t := tileAt s.team c.tile
  let seqs := (tapRows c t).map (·.1)
  let probes := (List.range (tdNprobe c.desc)).flatMap fun p =>
    (tapProbeOff p, 8, true) :: (tapWeightOff p c.c0, 2 * c.nc, true) :: seqs.map fun q => (tapSlotOff q p, 8, false)
  let sels := seqs.map fun q => (tapSelOff q, 8, true)
  let vecs := ((List.range 64).filterMap (steerRow s c t)).map fun sel => (tapVecOff (sel % 16) c.c0, 2 * c.nc, true)
  [(0, 64, true)] ++ (if probe then probes else []) ++ (if steer then sels ++ vecs else [])

/-- The second-level cache after the reads of what the port does not hold, offsets and lengths in a tap's memory (R195, R471). -/
def tapL2 (s : State) (t : Nat) (rs : List (Nat × Nat × Bool)) : State :=
  let free (cached : Bool) : Loc → Bool
    | .pa a => !(cached && (tapHeld s.core a).isSome)
    | _ => true
  l2Locs s (rs.flatMap fun r => (tapLocs s t r.1 r.2.1).filter (free r.2.2)) false

/-- The memory of a tap as an instruction that reads its descriptor finds it, with the caches as that read leaves them (R195, R471). -/
def tapSeen (s : State) (t : Nat) : State := let s := cleanTap s t; tapL2 s t [(0, 64, true)]

/-- A queued `TAP` or `STEER` runs (R472, R475). -/
def runTap (s : State) (c : TapRun) (probe steer : Bool) : State × Option TapHit :=
  let s := cleanTap s c.tapn
  let s := tapL2 s c.tapn (tapReads s c probe steer)
  let (s, hit) := if probe then runProbes s c else (s, none)
  (if steer then runSteer s c else s, hit)

/-- Whether a read of `n` bytes of a tap's memory meets an uncorrectable error; the port does not read what it holds (R471, R509). -/
def tapUpset (s : State) (t off n : Nat) (held : Bool) : Bool :=
  let a := tapPa s t off
  s.mod.upsets.any fun u =>
    !u.2 && u.1 / 32 * 32 < a + n && a < u.1 / 32 * 32 + 32 && !(held && (tapHeld s.core u.1).isSome)

/-- Whether an operation would read a word of tap memory that has an uncorrectable error (R476, R509): LOGCNT too, which is not cached, where a
probe crosses (R471, R474). -/
def tapLost (s : State) (c : TapRun) (probe steer : Bool) : Bool :=
  ((tapReads s c probe steer).any fun r => tapUpset s c.tapn r.1 r.2.1 r.2.2) ||
    (probe && tapUpset s c.tapn 8 4 false && !(runSlots s c).2.isEmpty)

/-! ## The instructions (R479 to R482) -/

def tapTapn (f : Fields) : Nat := fld f.ext 3 0
def tapTile (f : Fields) : Nat := fld f.ext 6 4
def tapSs (f : Fields) : Bool := bit f.ext 7
def tapCol0 (f : Fields) : Nat := fld f.ext 35 21

/-- The status of a `TAP` or `STEER` (R480) with its first hidden column. -/
def tapStatus (s : State) (f : Fields) (c0 : Nat) : Nat :=
  let d := tapDesc s (tapTapn f)
  if tapDisabled s (tapTapn f) d then 1 else if tdHid d < c0 + tapNc f then 2 else 0

/-- The end of a `TAP` with a status, its last reads applied (R108, R480). -/
def tapEnds (ic : Ic) (s : State) (st : Nat) : State := ic.writeAll (lateLast eTap ic s) false (BitVec.ofNat 64 st)

/-- TAP (R476, R480): it sleeps until its operation is done; a marked row's trap follows its completion. It waits for room in the queue, and for what an
engine has yet to write of its descriptor (R245), in a sleep that PRE does not end. -/
def execTap (f : Fields) (s : State) : Out :=
  issue eTap f s fun ic s =>
    match ic.old with
    | some (.mxResult id) => .sleep (.mxResult id)
    | some (.mxRead _ none) => .ok (tapEnds ic s 0)
    | some (.mxRead _ (some h)) =>
      .trapAfter (tapEnds ic s 0) { cls := cTap, cause := h.cause, data0 := h.data0, data1 := h.data1, after := true }
    | _ =>
      let c0 := tapCol0 f + (lo32 (ic.u0 false)).toNat
      let s := tapSeen s (tapTapn f)
      if tileBad s.team (tapTile f) then .trap (bound bAcc)
      else if tapOwned s s.nextId (tapTapn f) 0 64 then .sleep .tapRoom
      else if tapStatus s f c0 != 0 then .ok (tapEnds ic s (tapStatus s f c0))
      else if !mxRoom s then .sleep .tapRoom
      else
        let id := s.nextId
        .hold (enqueue s (2 ^ tapTile f) (.tap (tapTile f) (tapTapn f) (tapTcol f) (tapNc f) c0 (tapDesc s (tapTapn f)) true (tapSs f)) [])
          (.mxResult id)

/-- STEER (R475, R480): it completes asynchronously. -/
def execSteer (f : Fields) (s : State) : Out :=
  issue eSteer f s fun ic s =>
    let c0 := tapCol0 f + (lo32 (ic.u0 false)).toNat
    let s := tapSeen s (tapTapn f)
    if tileBad s.team (tapTile f) then .trap (bound bAcc)
    else if tapOwned s s.nextId (tapTapn f) 0 64 then .sleep .owned
    else if tapStatus s f c0 != 0 then .ok (ic.writeAll s false (BitVec.ofNat 64 (tapStatus s f c0)))
    else if !mxRoom s then .sleep .mxRoom
    else
      let s := enqueue s (2 ^ tapTile f) (.tap (tapTile f) (tapTapn f) (tapTcol f) (tapNc f) c0 (tapDesc s (tapTapn f)) false true) []
      .ok (ic.writeAll s false 0#64)

/-- A score slot as `TAPSTAT` gives it (R470, R481). -/
def tapSlot (s : State) (t q p : Nat) : Dword :=
  let d := tapDesc s t
  if tapDisabled s t d || tdNseq d ≤ q || tdNprobe d ≤ p then 1#64 <<< 61
  else if !memberPriv s && !tdRdperm d then 1#64 <<< 62
  else BitVec.ofNat 64 (tapRead s t (tapSlotOff q p) 8) &&& 0x80007FFFFFFFFFFF#64

/-- Whether the read of a score slot, or of the descriptor before it, meets an uncorrectable error (R509). -/
def tapSlotLost (s : State) (t q p : Nat) : Bool :=
  let d := tapDesc s t
  tapUpset s t 0 64 true ||
    (!tapDisabled s t d && q < tdNseq d && p < tdNprobe d && (memberPriv s || tdRdperm d) && tapUpset s t (tapSlotOff q p) 8 false)

/-- The tap, the sequence and the probe that `TAPSTAT` names in a lane (R481). -/
def tapName (ic : Ic) (l : Nat) : Nat × Nat × Nat :=
  ((ic.src0 false l).toNat % 16, (lo32 (ic.src1 false l)).toNat, (lo32 (ic.src2 false l)).toNat)

/-- The slot that a lane's `TAPSTAT` reads, as what it reads of the tap's memory beside the descriptor; none where it reads no slot. -/
def tapSlotReads (s : State) (n : Nat × Nat × Nat) : List (Nat × Nat × Bool) :=
  let d := tapDesc s n.1
  if tapDisabled s n.1 d || tdNseq d ≤ n.2.1 || tdNprobe d ≤ n.2.2 || (!memberPriv s && !tdRdperm d) then []
  else [(tapSlotOff n.2.1 n.2.2, 8, false)]

/-- TAPSTAT (R481): an uncorrectable error raises RAS with cause UMEM (R451), and it waits for what an engine has yet to write (R245). -/
def execTapstat (f : Fields) (s : State) : Out :=
  issue eTapstat f s fun ic s =>
    let ns := ic.once.map (tapName ic)
    let s := (ns.map (·.1)).eraseDups.foldl tapSeen s
    let owned (n : Nat × Nat × Nat) : Bool := ((0, 64, true) :: tapSlotReads s n).any fun r => tapOwned s s.nextId n.1 r.1 r.2.1
    if ns.any fun n => tapSlotLost s n.1 n.2.1 n.2.2 then .trap { cls := cRas, cause := 5 }
    else if ns.any owned then .sleep .owned
    else
      let s := ns.foldl (fun s n => tapL2 s n.1 (tapSlotReads s n)) s
      .ok (ic.write s true fun l => let n := tapName ic l; tapSlot s n.1 n.2.1 n.2.2)

/-- The score slots of a sequence cleared (R482), through the second-level cache (R195). -/
def clearSlots (s : State) (t q : Nat) : State :=
  l2Locs (clearMem s (tapPa s t (tapSlotOff q 0)) 512) (tapLocs s t (tapSlotOff q 0) 512) true

/-- TAPCLR (R471, R482): what it reads and clears waits for what an engine has yet to write (R245). -/
def execTapclr (f : Fields) (s : State) : Out :=
  issue eTapclr f s fun ic s =>
    let t := (ic.u0 false).toNat % 16
    let q := (lo32 (ic.u1 false)).toNat
    let op := modBits f 1 0
    if op == 2 then (if memberPriv s then .ok (dropTap s t) else .trap (emuTrap .priv))
    else
      let s := tapSeen s t
      let d := tapDesc s t
      let seqs := if op == 0 then [q] else List.range 1024
      if tapUpset s t 0 64 true then .trap { cls := cRas, cause := 5 }
      else if tapOwned s s.nextId t 0 64 then .sleep .owned
      else if !memberPriv s && !tdClrperm d then .trap (emuTrap .priv)
      else if tapDisabled s t d || (op == 0 && tdNseq d ≤ q) then .ok s
      else if seqs.any fun q => tapOwned s s.nextId t (tapSlotOff q 0) 512 then .sleep .owned
      else .ok (seqs.foldl (fun s q => clearSlots s t q) s)

end Sys2Proof.Machine
end

