-- ==== Sys2Proof/Machine/MxEngine.lean ====
section
/-!
DEFINITION. The steps of the matrix engine (spec/13_matrix.md R305, R309, R311 to R319, R323; spec/14_labels.md R337, R340 to R345): the choice
of the next operation, the K-steps of a multiply-accumulate, the single-step operations, and the panels of the weight buffer.
-/
namespace Sys2Proof.Machine

/-! ## The queue as the engine sees it -/

/-- The focus moved to a team for an act, and back to the member whose turn it was. -/
def atTeam (s : State) (id : Nat) (g : State → State) : State :=
  let me := s.m.id
  pickMember (g (pickTeam s id)) me

/-- An operation of the queue replaced, or removed. -/
def setOp (s : State) (o : MxOp) : State :=
  { s with core := { s.core with mxq := s.core.mxq.map fun p => if p.id == o.id then o else p } }
def dropOp (s : State) (id : Nat) : State :=
  { s with core := { s.core with mxq := s.core.mxq.filter fun p => p.id != id } }

/-- The operations that the engine may step next. -/
def readyOps (s : State) : List MxOp :=
  (headOps [] s.core.mxq).filter fun o => match teamById s o.team with | some t => opReady s t o | none => false

/-- A prompt operation that has begun and is not complete. -/
def partWay (o : MxOp) : Bool := o.last != 0 && !o.decode

/-- The operation in progress: among the prompt ones that are part-way, the one that ran a K-step last (R314; log 91). -/
def inProgress (s : State) : Option MxOp :=
  (s.core.mxq.filter partWay).foldl (fun best o =>
    match best with
    | some b => if b.last < o.last then some o else best
    | none => some o) none

/-- The engine's choice (R314, R315). -/
def chooseOp (s : State) : Option MxOp :=
  let ready := readyOps s
  let decode := ready.find? (·.decode)
  let current := (inProgress s).bind fun c => ready.find? fun o => o.id == c.id
  let prompt := ready.find? fun o => !o.decode
  if s.part.vsplit = 8 then
    match current with
    | some o => some o
    | none => if s.core.mxq.any partWay then prompt else decode.or prompt
  else decode.or (current.or prompt)

/-- A member of the team in focus changed. -/
def onMember (s : State) (id : Nat) (g : Member → Member) : State := if s.m.id = id then { s with m := g s.m } else modifyPeer s id g

/-- An operation advances `sr.mxskip`, or `sr.mxpre`, of its team (R320, R517). -/
def advanceCount (s : State) (o : MxOp) (pre : Bool) : State :=
  let note (m : Member) : Member := { m with advs := m.advs ++ [(o.tiles, pre)] }
  let s := onTeam s o.team fun t => if pre then { t with mxpre := t.mxpre + 1#64 } else { t with mxskip := t.mxskip + 1#64 }
  if s.team.id = o.team then onMember s o.issuer note
  else
    { s with teams := s.teams.map fun t =>
        if t.1.id == o.team then (t.1, t.2.map fun m => if m.id == o.issuer then note m else m) else t }

/-- The engine goes over to operation `next` (R314): a prompt operation that it leaves part-way in the array has its tile's state copied to the
spill slot, which counts as a pre-emption of its team once, and the state of `next` is back from its slot. -/
def leaveCurrent (s : State) (next : Nat) : State :=
  let leaves (o : MxOp) : Bool := o.id != next && partWay o && !o.spilled
  let s' := (s.core.mxq.filter leaves).foldl (fun s o => advanceCount s o true) s
  let mark (o : MxOp) : MxOp := if leaves o then { o with spilled := true } else if o.id == next then { o with spilled := false } else o
  { s' with core := { s'.core with mxq := s'.core.mxq.map mark } }

/-! ## Ends of operations -/

/-- A held trap given to the issuer of an operation (R318, R337). -/
def holdTrap (s : State) (o : MxOp) (h : HeldTrap) : State := onMember s o.issuer fun m => { m with held := m.held ++ [h] }

/-- The tiles of an operation as a held trap names them. -/
def heldTiles (o : MxOp) : Nat := if isPanel o then 256 else o.tiles

/-- A sleep that waits for an operation's result is given it, also where an interruption holds the sleep. -/
def answerWait (id : Nat) (w : Wait) (m : Member) : Member :=
  let sub (x : Option Wait) : Option Wait := if x == some (.mxResult id) then some w else x
  { m with wait := sub m.wait, pre := { m.pre with wait := sub m.pre.wait }, frames := m.frames.map fun f => { f with wait := sub f.wait } }

/-- An operation that meets an uncorrectable error: it ends, and its issuer holds RAS (R316, R318). -/
def failOp (s : State) (o : MxOp) (cause : Nat) : State :=
  let s := onMember s o.issuer (answerWait o.id (.mxRead [] none))
  holdRas (dropOp s o.id) o.issuer (some (heldTiles o)) cause

/-- An operation completes; a TREE offence under TRAPBAD is then held (R337). -/
def finishOp (s : State) (o : MxOp) : State :=
  let s := dropOp s o.id
  if o.treeBad then holdTrap s o { cls := cTree, cause := 0, tiles := some o.tiles, data := s.team.lblstat } else s

/-! ## K-steps -/

/-- The tile before K-step 0 of a part: overwritten rows, and labels (R311, R312, R344). -/
def startPart (t : Tile) (lt : Bool) (p : MmaPart) : Tile :=
  let inRows (i : Nat) : Bool := p.row ≤ i && i < p.row + p.rows
  let t := if fwOver p.fw then
      { t with
        data := t.data.zipIdx.map fun e => if inRows (e.2 / 64) then semiIdent (fwInt p.fw) (fwSemi p.fw) else e.1
        rowAdmit := ((List.range p.rows).map (p.row + ·)).foldl (fun m i => m ||| (1#64 <<< i)) t.rowAdmit }
    else t
  if usesLabels lt p then
    { t with
      rowLbl := t.rowLbl.zipIdx.map fun e => if inRows e.2 then p.rowLbl.getD (e.2 - p.row) 0#32 else e.1
      colLbl := p.colLbl }
  else t

/-- The verdicts of a part's pairs, row by row, with the first offence of an ancestor atom (R333, R337). -/
def partVerdicts (p : MmaPart) : List Bool × Option TreeBad :=
  let r := relOf p.rel
  let ps := ((List.range p.rows).map fun i => (List.range 64).map fun j =>
    (64 * i + j, (p.rowLbl.getD i 0#32).toNat, (p.colLbl.getD j 0#32).toNat)).flatten
  let (vs, bad) := pairVerdicts r p.trees ps
  (vs.map (·.2), bad)

/-- The bytes of a part's next B block, with the presence byte of a block-sparse one (R307, R308). -/
def blockB (t : Team) (p : MmaPart) : List Byte × Nat :=
  match p.weight with
  | none => (spadBytes t (nextB p).1 (nextB p).2, 0)
  | some w =>
    match t.wbs.find? fun x => x.id == w with
    | none => ([], 0)
    | some x =>
      let k := p.bOff + p.done
      let o := panelOff x.record x.presence k
      ((x.bytes.drop o).take (panelOff x.record x.presence (k + 1) - o), (x.presence.getD k 0#8).toNat)

/-- The scratchpad words that a K-step reads. -/
def stepWords (p : MmaPart) : List Nat :=
  let ws (b : Nat × Nat) : List Nat := (List.range (b.2 / 4)).map (b.1 / 4 + ·)
  (if p.aRegs.isSome then [] else ws (nextA p)) ++ (if p.weight.isSome then [] else ws (nextB p))

/-- A pass on path 2 or 3 (R311): the tile after it, with META and the first offence. -/
def runPass (t : Team) (tile : Tile) (p : MmaPart) : Tile × Bool × Option TreeBad :=
  let (vs, bad) := if p.path = 3 then partVerdicts p else ([], none)
  let (b, pres) := blockB t p
  let q : KStep :=
    { p := p, a := p.aRegs.getD (spadBytes t (nextA p).1 (nextA p).2), b := b, pres := pres
      rowAdmit := fun i j => p.path == 2 || vs.getD (64 * i + j) false }
  (q.run tile, fwSparse p.fw == 1 && metaBad (fwB p.fw) b, bad)

/-- The operation after a K-step of its first part: it goes on, or completes (R305, R314). -/
def advanceOp (s : State) (o : MxOp) (tile la lb : Nat) (lt : Bool) (p : MmaPart) (ps : List MmaPart) (tree : Bool) : State :=
  let p := { p with done := p.done + 1 }
  let parts := if p.done = p.steps then ps else p :: ps
  let o := { o with work := .mma tile la lb lt parts, last := s.nextId, spilled := false, treeBad := o.treeBad || tree, early := [] }
  if parts.isEmpty then finishOp s o else setOp { s with nextId := s.nextId + 1 } o

/-- The label words that parts read at the operation's first K-step (R344). -/
def labelWords (la lb : Nat) (lt : Bool) (ps : List MmaPart) : List Nat :=
  if ps.any fun p => p.path == 0 && usesLabels lt p then (List.range 64).map (32 * la + ·) ++ (List.range 64).map (32 * lb + ·) else []

/-- One K-step of the first part of a multiply-accumulate whose parts are decided (R311, R316, R341). -/
def runPart (s : State) (o : MxOp) (tile la lb : Nat) (lt : Bool) (p : MmaPart) (ps : List MmaPart) : State :=
  let s := if p.done = 0 then onTile s tile fun t => startPart t lt p else s
  if p.path = 1 then advanceOp (advanceCount s o false) o tile la lb lt p ps false
  else if (tileAt s.team tile).bad then failOp s o 5
  else if (spadLost s.team (stepWords p)).isSome then failOp s o 3
  else if 2 ≤ s.core.mxBad then
    failOp { s with core := { s.core with mxBad := s.core.mxBad - 2 }, team := { s.team with mxras := s.team.mxras + 1#64 } } o 4
  else
    let (t, mbad, bad) := runPass s.team (tileAt s.team tile) p
    let s := onTile s tile fun _ => t
    let s := { s with
      core := { s.core with mxBad := 0 }
      team := { mendWords s.team (stepWords p) with
        mxras := s.team.mxras + BitVec.ofNat 64 s.core.mxBad
        mxstat := if mbad then s.team.mxstat ||| 1#64 else s.team.mxstat } }
    let s := match bad with | some b => noteTree s b | none => s
    advanceOp s o tile la lb lt p ps (bad.isSome && relTrapBad (relOf p.rel))

/-- The engine reads one label word of a multiply-accumulate before its first K-step, its team in focus: rows by 0 to 63, columns by 64 to 127. Each
word is read once, and no other with it, so that a store racing with the reads is seen or not word by word (R4, R344). -/
def readLabel (s : State) (o : MxOp) (w : Nat) : State :=
  match o.work with
  | .mma _ la lb lt parts =>
    let i := if w < 64 then 32 * la + w else 32 * lb + (w - 64)
    if w < 128 && !(labelWords la lb lt parts).isEmpty && (lookupKey w o.early).isNone && !spadHurt s.team i then
      setOp { s with team := mendWords s.team [i] } { o with early := o.early ++ [(w, spadWord s.team i)] }
    else s
  | _ => s

/-- The turn of the engine of the core in focus to read label word `w` of operation `op`, which is the one that it would step next (R314, R344). -/
def labelTurn (s : State) (op w : Nat) : State :=
  match chooseOp s with
  | some o => if o.id == op then atTeam s o.team fun s => readLabel s o w else s
  | none => s

/-- One K-step of a multiply-accumulate, its team in focus: the labels of all its parts are read by the first (R312, R344). -/
def runKstep (s : State) (o : MxOp) : State :=
  match o.work with
  | .mma tile la lb lt parts =>
    if (spadLost s.team (labelWords la lb lt parts)).isSome then failOp s o 3
    else
      match parts.map (decidePart s.team o.early la lb lt) with
      | p :: ps => runPart { s with team := mendWords s.team (labelWords la lb lt parts) } o tile la lb lt p ps
      | [] => s
  | _ => s

/-- MX_KSTEP (R314): the engine of the core in focus chooses; a K-step runs where the choice is a multiply-accumulate. -/
def execMxKstep (s : State) : Out :=
  match chooseOp s with
  | some o => if isMma o then .next (atTeam (leaveCurrent s o.id) o.team fun s => runKstep s o) else .next s
  | none => .next s

/-! ## Single-step operations -/

/-- The exact value of a stored element (R325): the type's, under its scale. -/
def loadVal (mv : MxMove) (raw x : Nat) : Word :=
  match mv.fmt with
  | 0 => BitVec.ofNat 32 raw
  | 4 => BitVec.ofNat 32 raw
  | 2 => (BitVec.ofNat 8 raw).signExtend 32
  | 6 => BitVec.ofNat 32 raw
  | 15 => BitVec.ofNat 32 (fround fp32 (mxVal 7 (cbTable mv.table) raw x))
  | ty => BitVec.ofNat 32 (fround fp32 (if x = 255 then .nan else scaleV ((x : Int) - 127) (fdecode (fmtOfTy ty) false raw)))

/-- The position of the scale of a region element (R325). -/
def scalePos (mv : MxMove) (idx : Nat) : Nat :=
  let r := idx / 64 - mv.trow
  let c := idx % 64 - mv.tcol
  if mv.saxis then r / 32 * mv.e0 + c else r * mv.e0 / 32 + c / 32

/-- The value at the bytes of an element. -/
def elemRaw (s : State) (mv : MxMove) (e : MxElem) : Nat :=
  let x := ofLeBytes (readLocs s e.locs)
  if mv.fmt = 15 then x / 16 ^ e.nib % 16 else x

/-- `ACCLD` in its turn (R325): elements that are not present take FILL, and labels LVOID. -/
def runAccLoad (s : State) (tile : Nat) (mv : MxMove) : State :=
  let scales := readLocs s mv.scales
  let news := mv.elems.filterMap fun e =>
    e.idx.map fun i =>
      (i, if e.locs.isEmpty then loadVal mv mv.fill 127
          else loadVal mv (elemRaw s mv e) (if mv.scaled then (scales.getD (scalePos mv i) 0#8).toNat else 127))
  let lbls := mv.labels.map fun l => (l.1, if l.2.isEmpty then mv.lvoid else BitVec.ofNat 32 (ofLeBytes (readLocs s l.2)))
  let put (l : List Word) (ws : List (Nat × Word)) : List Word := ws.foldl (fun l w => l.set w.1 w.2) l
  onTile s tile fun t =>
    { t with
      data := put t.data news
      rowLbl := if mv.laxis then t.rowLbl else put t.rowLbl lbls
      colLbl := if mv.laxis then put t.colLbl lbls else t.colLbl
      rowAdmit := clearRows t.rowAdmit ((List.range mv.e1).map (mv.trow + ·)) }

/-- A tile word as an exact value (R325). -/
def storeVal (mv : MxMove) (w : Word) : FVal := if mv.itype then ofInt w.toInt else tileVal w

/-- The region elements of the block of a scale position (R33, R325). -/
def blockVals (mv : MxMove) (t : Tile) (k : Nat) : List FVal :=
  let at' (r c : Nat) : FVal := storeVal mv (t.data.getD (64 * (mv.trow + r) + mv.tcol + c) 0#32)
  if mv.saxis then (List.range 32).map fun i => at' (32 * (k / mv.e0) + i) (k % mv.e0)
  else (List.range 32).map fun i => at' (k / (mv.e0 / 32)) (32 * (k % (mv.e0 / 32)) + i)

/-- A tile word converted to the stored type (R30 to R33, R325). The C4 code that spec/ does not state is a free value (log 31). -/
def storeRaw (mv : MxMove) (x : Nat) (w : Word) : Nat :=
  let r : Rnd := { mode := mv.rnd }
  let tb := cbTable mv.table
  let open4 := Config.c4Open mv.table x w.toNat
  match mv.fmt with
  | 0 => w.toNat
  | 4 => w.toNat
  | 2 => (clampInt (-128) 127 w.toInt % 2 ^ 8).toNat
  | 6 => (clampInt 0 255 w.toInt).toNat
  | ty =>
    if mv.scaled then scaledElem ty tb x r (storeVal mv w) open4
    else if ty = 15 then c4Code tb (storeVal mv w) open4
    else fencode (fmtOfTy ty) r false mv.nosat (storeVal mv w)

/-- `ACCST` in its turn (R325): padding takes FILL; scratchpad words become full. It passes the lines `ks` by. -/
def runAccStore (s : State) (ks : List (Nat × Bool)) (tile : Nat) (mv : MxMove) : State :=
  let t := tileAt s.team tile
  let emax := emaxOf mv.fmt (cbTable mv.table)
  let scales := (List.range mv.scales.length).map fun k => blockScale emax (blockVals mv t k)
  let n := if mv.fmt = 15 then 1 else 2
  let s := mv.elems.foldl (fun s e =>
    let raw := match e.idx with
      | none => mv.fill
      | some i =>
        storeRaw mv (if mv.scaled then scales.getD (scalePos mv i) 127 else 127) (t.data.getD i 0#32)
    let bytes := if n = 1 then nibMerge (ofLeBytes (readLocs s e.locs)) e.nib 1 raw else leBytes e.locs.length raw
    passedWrite ks s e.locs bytes) s
  let s := mv.labels.foldl (fun s l => passedWrite ks s l.2 (leBytes 4 ((if mv.laxis then t.colLbl else t.rowLbl).getD l.1 0#32).toNat)) s
  passedWrite ks s mv.scales (scales.map (BitVec.ofNat 8))

/-- What `ACCRD` reads (R326). -/
def tileWords (t : Tile) (form row n : Nat) : List Word :=
  match form with
  | 0 => (t.data.drop (64 * row)).take (64 * n)
  | 1 => t.rowLbl
  | 2 => t.colLbl
  | _ => [lo32 t.rowAdmit, lo32 (t.rowAdmit >>> 32)]

/-- The places that an operation reads from memory or scratchpad. -/
def opReads (o : MxOp) : List Loc :=
  match o.work with
  | .accLoad _ mv => (mv.elems.map (·.locs)).flatten ++ (mv.labels.map (·.2)).flatten ++ mv.scales
  | .lblLoad _ _ ws => (ws.map (·.2)).flatten
  | _ => []

/-- Whether a single-step operation reads a tile with an uncorrectable error (R316; log 92). -/
def tileLost (t : Team) (o : MxOp) : Bool :=
  match o.work with
  | .accStore n _ => (tileAt t n).bad
  | .accRead n _ _ _ => (tileAt t n).bad
  | .accAdd a b _ => (tileAt t a).bad || (tileAt t b).bad
  | .lblStore n _ _ => (tileAt t n).bad
  | .tap n _ _ _ _ _ _ _ => (tileAt t n).bad
  | _ => false

/-- The RAS cause of an operation whose reads meet an uncorrectable error (R178, R316, R476, R509), or whose accesses a peer that no link reaches
(R502). -/
def opLost (s : State) (o : MxOp) : Option Nat :=
  let ls := opReads o
  if ls.any (lostAt (passBy s o.passBy)) || (ls ++ o.own).any (peerAt s) || tileLost s.team o then some 5
  else if ls.any (spadLostLoc s.team) then some 3
  else
    match o.work with
    | .tap tile tapn tcol nc c0 d probe steer =>
      if tapLost s { tile := tile, tapn := tapn, tcol := tcol, nc := nc, c0 := c0, desc := d } probe steer then some 5 else none
    | _ => none

/-- Words put at their places in a list. -/
def putWords (l : List Word) (ws : List (Nat × Word)) : List Word := ws.foldl (fun l w => l.set w.1 w.2) l

/-- A single-step operation takes effect, its team in focus, with its reads through the second-level cache (R195, R324 to R327, R348, R353,
R472). -/
def runSingle (s : State) (o : MxOp) : State :=
  let s := passedReads o.passBy s (opReads o)
  match o.work with
  | .accZero mask int semi =>
    (bitsBelow 8 mask).foldl (fun s n =>
      onTile s n fun t => { t with data := List.replicate 4096 (semiIdent int semi), rowAdmit := BitVec.allOnes 64 }) s
  | .accLoad tile mv => runAccLoad s tile mv
  | .accStore tile mv => runAccStore s o.passBy tile mv
  | .accRead tile form row n => onMember s o.issuer (answerWait o.id (.mxRead (tileWords (tileAt s.team tile) form row n) none))
  | .accWrite tile form rows ws =>
    onTile s tile fun t =>
      match form with
      | 0 => { t with data := putWords t.data ws, rowAdmit := clearRows t.rowAdmit rows }
      | 1 => { t with rowLbl := putWords t.rowLbl ws }
      | _ => { t with colLbl := putWords t.colLbl ws }
  | .setAdmit tile x => onTile s tile fun t => { t with rowAdmit := x }
  | .accAdd dst src int =>
    let r := tileAt s.team src
    onTile s dst fun t =>
      { t with
        data := (t.data.zip r.data).map fun e =>
          if int then e.1 + e.2 else BitVec.ofNat 32 (fround fp32 (addV 0 (tileVal e.1) (tileVal e.2)))
        rowAdmit := t.rowAdmit &&& r.rowAdmit }
  | .lblLoad tile cols ws =>
    let new := ws.map fun l => (l.1, BitVec.ofNat 32 (ofLeBytes (readLocs s l.2)))
    onTile s tile fun t => if cols then { t with colLbl := putWords t.colLbl new } else { t with rowLbl := putWords t.rowLbl new }
  | .lblStore tile cols ws =>
    let t := tileAt s.team tile
    ws.foldl (fun s l => passedWrite o.passBy s l.2 (leBytes 4 ((if cols then t.colLbl else t.rowLbl).getD l.1 0#32).toNat)) s
  | .tap tile tapn tcol nc c0 d probe steer =>
    let (s, hit) := runTap s { tile := tile, tapn := tapn, tcol := tcol, nc := nc, c0 := c0, desc := d } probe steer
    if probe then onMember s o.issuer (answerWait o.id (.mxRead [] hit)) else s
  | _ => s

/-- MX_QUEUED_OP (R314): the engine of the core in focus chooses; the choice runs where it is a single-step operation. -/
def execMxQueuedOp (s : State) : Out :=
  match chooseOp s with
  | some o =>
    if isMma o then .next s
    else
      .next (atTeam (leaveCurrent s o.id) o.team fun s =>
        match opLost s o with
        | some c => failOp s o c
        | none => finishOp (runSingle s o) o)
  | none => .next s

/-- MX_QUEUE_ROOM (R305): the member's sleep ends once the queue has room. One that sleeps so in a `TAP` stays asleep until its turn, so that PRE does
not come between (R476). -/
def execMxQueueRoom (s : State) : Out :=
  match s.m.wait with
  | some .mxRoom => if mxRoom s then .next (wake s) else .next s
  | _ => .next s

/-! ## The weight buffer -/

/-- The places of a range as the engine finds them, for a restored handle (R309), with the lines that it passes the L1 by for (R215), and the caches as
the translations leave them (R195). -/
def pieceLocs (s : State) (v : View) (va n : Nat) : Option (State × List Loc × List (Nat × Bool)) :=
  (pieces va n).foldlM (fun r p => do
    let va := p.1 % 2 ^ 64
    let ls ← (resolveAccess r.1 v .read va p.2).toOption
    return (l2Walks r.1 v va p.2, r.2.1 ++ ls, r.2.2 ++ passedBy r.1 v va ls)) (s, [], [])

/-- A restored handle with its presence array read and the places of its panel found again (R309); none while a page does not translate. -/
def findPanel (s : State) (priv : Bool) (w : Weight) : Option (State × Weight) :=
  if !w.stale then some (s, w)
  else do
    let v := ctxView s priv s.nextId
    let r := w.record
    let (s, ls, ks) ← if wrSparse r = 2 then pieceLocs s v (wrBm r) (wrNks r) else some (s, [], [])
    let s := passedReads ks s ls
    let pres := readLocs s ls
    let (s, src, ks) ← pieceLocs s v (wrData r) (panelOff r pres (wrNks r))
    return (s, { w with presence := pres, src := src, passBy := ks, stale := false })

/-- WB_PANEL_LOADED (R309, R323): the oldest panel of the team's handle that is on its way has been read. -/
def execWbPanelLoaded (h : BitVec 4) (s : State) : Out :=
  match (s.team.wbs.find? fun w => w.handle == h.toNat && !w.loaded).bind (findPanel s s.ctx.priv) with
  | none => .next s
  | some (s, w) =>
    match s.core.mxq.find? fun o => o.team == s.team.id && (match o.work with | .panel id => id == w.id | _ => false) with
    | none => .next s
    | some o =>
      if w.src.any (ownedBefore s o.id) then .next s
      else if w.src.any (lostAt (passBy s w.passBy)) || w.src.any (peerAt s) then .next (failOp s o 5)
      else
        let s := passedReads w.passBy s w.src
        let bs := readLocs s w.src
        let wbs := s.team.wbs.map fun x => if x.id == w.id then { w with loaded := true, bytes := bs } else x
        .next (dropOp { s with team := { s.team with wbs := wbs } } o.id)

/-- Whether an operation names a weight. -/
def namesWeight (id : Nat) (o : MxOp) : Bool :=
  match o.work with
  | .panel w => w == id
  | .mma _ _ _ _ ps => ps.any fun p => p.weight == some id
  | _ => false

/-- WB_SPACE_RETURN (R323): the space of freed handles that no operation names any more returns to the core. -/
def execWbSpaceReturn (h : BitVec 4) (s : State) : Out :=
  .next { s with team := { s.team with
    wbs := s.team.wbs.filter fun w => !(w.freed && w.handle == h.toNat && !s.core.mxq.any (namesWeight w.id)) } }

/-! ## The end of a team (R319) -/

/-- Whether the team in focus has an operation that its end waits for (R319). -/
def mxBusy (s : State) : Bool := s.core.mxq.any fun o => o.team == s.team.id && !isStalled s o

/-- The operations of the team in focus discarded (R319). -/
def mxDiscard (s : State) : State :=
  { s with core := { s.core with mxq := s.core.mxq.filter fun o => o.team != s.team.id } }

end Sys2Proof.Machine
end

