-- ==== Sys2Proof/Machine/Access.lean ====
section
/-!
DEFINITION. The access processor (spec/12_access.md R286 to R300): fetch streams, ramps, overlay chains, windows and queue status.
-/
namespace Sys2Proof.Machine

/-! ## Streams -/

/-- The queue that DST names (R291). -/
def queueOf (ic : Ic) : Nat := match ic.opnd ic.f.dst with | .q q => q | _ => 0

/-- The streams that the member has outstanding (R286). -/
def myStreams (s : State) : List Stream := s.team.streams.filter fun st => st.owner == s.m.id

/-- AFETCH (R292). -/
def execAfetch (f : Fields) (s : State) : Out :=
  issue eAfetch f s fun ic s =>
    let base := ic.u0 true
    let n := (lo32 (ic.u1 false)).toNat
    let stride := ic.u2 true
    if n == 0 then .ok s
    else if !aligned4 base || !aligned4 stride then .trap alignTrap
    else if 8 ≤ (myStreams s).length then .sleep .streams
    else
      let st : Stream := { id := s.nextId, owner := s.m.id, ap := s.m.apNum, queue := queueOf ic, base := base, stride := stride, count := n
                           priv := memberPriv s }
      .ok { s with team := { s.team with streams := s.team.streams ++ [st] }, nextId := s.nextId + 1 }

/-- The address of entry `i` of a stream (R286). -/
def entryAddr (st : Stream) (i : Nat) : Nat := (st.base + BitVec.ofNat 64 i * st.stride).toNat

/-- The words of a stream's next entry, with the lanes whose read fails (R286). -/
def streamRead (s : State) (st : Stream) : List Word × List (Nat × XFault) :=
  let v := ctxView s st.priv s.nextId
  (List.range 32).foldl (fun r l =>
    match resolveAccess s v .read ((entryAddr st st.pos + 4 * l) % 2 ^ 64) 4 with
    | .ok ls => (r.1 ++ [BitVec.ofNat 32 (ofLeBytes (readLocs s ls))], r.2)
    | .error f => (r.1, r.2 ++ [(l, f)])) ([], [])

/-- The caches as the reads of a stream's next entry find them: its access processor reads through the L1 of its core (R195, R199). -/
def streamPass (s : State) (st : Stream) : State :=
  let v := ctxView s st.priv s.nextId
  (List.range 32).foldl (fun s l =>
    let a := (entryAddr st st.pos + 4 * l) % 2 ^ 64
    match resolveAccess s v .read a 4 with | .ok ls => passCaches s v a ls false | .error _ => s) s

/-- The fault that stands for an entry, in the order of R205 and R223. -/
def streamFault (bad : List (Nat × XFault)) : Option XFault :=
  let bad := (bad.map (·.2)).filter fun f => f.cls == .mem || f.cls == .walk
  let first := (bad.map stepOf).foldl min 9
  let bad := bad.filter fun f => stepOf f == first
  (bad.find? fun f => f.cls == .walk).or bad.head?

/-- An entry of a stream in its queue: in the place of the stream's marker if it has one there, else at the end (R287, R288). -/
def placeEntry (q : List QEntry) (id : Nat) (e : QEntry) : List QEntry :=
  if q.contains (.marker id) then q.map fun x => if x == .marker id then e else x else q ++ [e]

/-- A stream without room for its next entry waits (R286). -/
def streamRoom (t : Team) (st : Stream) : Bool :=
  let q := t.queues.getD st.queue []
  q.contains (.marker st.id) || decide (q.length < 8)

/-- The team with a stream's next entry, or its fault marker, pushed (R286 to R288). -/
def pushStream (t : Team) (st : Stream) (e : QEntry) (fault : Option EngFault) : Team :=
  let pos := if fault.isSome then st.pos else st.pos + 1
  let keep := if pos < st.count then
      t.streams.map fun x => if x.id == st.id then { x with pos := pos, fault := fault } else x
    else t.streams.filter fun x => x.id != st.id
  { t with queues := modifyAt (fun q => placeEntry q st.id e) st.queue t.queues, streams := keep }

/-- The streams of a list, with their markers, cancelled (R288, R297). -/
def cancelStreams (t : Team) (ids : List Nat) : Team :=
  { t with
    streams := t.streams.filter fun st => !ids.contains st.id
    queues := t.queues.map fun q => q.filter fun e => match e with | .marker id => !ids.contains id | .data _ => true }

/-- STREAM_ENTRY_PUSH (R284, R286 to R288): a stream of the team in focus reads its next entry and pushes it, or pushes its marker. It waits
while its queue is full, while its marker is not resolved, and while an engine or the host has yet to answer (R225, R245); a stream that meets an
uncorrectable error ends, and its owner holds RAS (R18, R445). -/
def execStreamEntryPush (id : Nat) (s : State) : Out :=
  match s.team.streams.find? fun st => st.id == id with
  | none => .next s
  | some st =>
    if st.fault.isSome || !streamRoom s.team st then .next s
    else
      let bad := (streamRead s st).2
      match streamFault bad with
      | some f => .next { s with team := pushStream s.team st (.marker id) (some (engFaultOf f .read st.priv)) }
      | none =>
        match bad.head? with
        | none =>
          let s := streamPass s st
          .next { s with team := pushStream s.team st (.data (streamRead s st).1) none }
        | some (_, f) =>
          match f.cls with
          | .pri => .next (askPage s f.va)
          | .ras => .next (holdRas { s with team := cancelStreams s.team [id] } st.owner none f.cause)
          | _ => .next s

/-- The markers that a queue holds. -/
def markersIn (q : List QEntry) : List Nat := q.filterMap fun e => match e with | .marker id => some id | .data _ => none

/-- ASTOP (R297). -/
def execAstop (f : Fields) (s : State) : Out :=
  issue eAstop f s fun ic s =>
    let qs := bitsBelow 16 (ic.u0 true).toNat
    let mine := ((myStreams s).filter fun st => qs.contains st.queue).map (·.id)
    let t := cancelStreams s.team mine
    if modBits f 0 0 == 0 then .ok { s with team := t }
    else
      let t := cancelStreams t ((qs.map fun q => markersIn (t.queues.getD q [])).flatten)
      .ok { s with team := { t with queues := qs.foldl (fun l q => l.set q []) t.queues } }

/-- ASYNC (R300). -/
def execAsync (f : Fields) (s : State) : Out :=
  issue eAsync f s fun ic s =>
    let qs := bitsBelow 16 (ic.u0 true).toNat
    if (myStreams s).any fun st => qs.contains st.queue then .sleep .streams else .ok s

/-! ## Queues -/

/-- APUSH (R293). -/
def execApush (f : Fields) (s : State) : Out :=
  issue eApush f s fun ic s =>
    let q := queueOf ic
    let start := ic.u0 true
    let step := ic.u1 true
    if 8 ≤ (s.team.queues.getD q []).length then .sleep .queue
    else .ok (pushQueue s q (.data ((List.range 32).map fun l => lo32 (start + BitVec.ofNat 64 l * step))))

/-- The status of a queue (R298). -/
def queueStatus (t : Team) (q : Nat) : Dword :=
  let es := t.queues.getD q []
  let sts := t.streams.filter fun st => st.queue == q
  let remain := min ((sts.map fun st => st.count - st.pos).foldl (· + ·) 0) (2 ^ 32 - 1)
  BitVec.ofNat 64 (remain * 2 ^ 16 + bnat (!(markersIn es).isEmpty) * 2 ^ 8 + min sts.length 15 * 2 ^ 4 + es.length)

/-- QSTAT (R298). -/
def execQstat (f : Fields) (s : State) : Out :=
  issue eQstat f s fun ic s =>
    if !s.team.qset then .trap (bound bQueue)
    else .ok (ic.writeAll s false (queueStatus s.team ((ic.u0 false).toNat % 16)))

/-- The fields of the instruction at the member's cursor, if it can be fetched. -/
def fieldsHere (s : State) : Option Fields :=
  let pc := s.m.cursor.toNat
  match fetchPlace s (pc / 32 * 32) with
  | .error _ => none
  | .ok a =>
    let b := (cachedBlock s.cl a).getD (loadBlock s a)
    let bs := b.bytes.drop (pc % 32) ++ List.replicate 16 0#8
    let f := fieldsOf (BitVec.ofNat 64 (ofLeBytes (bs.take 8))) 0#64
    some { f with ext := BitVec.ofNat 64 (ofLeBytes ((bs.drop 8).take (lenBytes f - 8))) }

/-- Whether an instruction finds the queue entries that it pops and room for the one that it pushes (R57). -/
def queuesReady (e : Entry) (f : Fields) (s : State) : Bool :=
  (match popsOf s f (sourceFields e f) s.team.queues [] with | .empty => false | _ => true) && !pushFull { e with noPush := false } f s

/-- QUEUE_WAKE (R57, R84): the member's sleep ends once its instruction finds its entries and its room. -/
def execQueueWake (s : State) : Out :=
  match s.m.wait with
  | some .queue =>
    match fieldsHere s with
    | some f =>
      match entryOf f.opc.toNat with
      | some e => if queuesReady e f s then .next (wake s) else .next s
      | none => .next (wake s)
    | none => .next (wake s)
  | _ => .next s

/-! ## Overlays, windows, loops -/

/-- A read of an access processor, through the caches (R199). -/
def cachedRead (s : State) (ic : Ic) (va n : Nat) : Except Act (State × Nat) :=
  (resolveOne s ic .read va n).map fun ls =>
    let s := passCaches s (memberView ic.rd) va ls false
    (s, ofLeBytes (readLocs s ls))

/-- BLOCK of an overlay node's lowest entry from number `j` on for a logical block (R294, R295): the reads run in ascending order. -/
def findOverlay (s : State) (ic : Ic) (node b : Nat) : Nat → Nat → Except Act (State × Option Nat)
  | 0, _ => .ok (s, none)
  | n + 1, j =>
    match cachedRead s ic ((node + 16 + 8 * j) % 2 ^ 64) 8 with
    | .error a => .error a
    | .ok (s, e) => if e % 2 ^ 32 == b then .ok (s, some (e / 2 ^ 32)) else findOverlay s ic node b n (j + 1)

/-- OVL with its node in `sr.ovlva` (R295). -/
def ovlTrap (node : Nat) : Trap := { cls := cOvl, record := some (BitVec.ofNat 64 node) }

/-- The walk of R295 from a node, with `n` levels left: the state that its reads leave and the result, or the act of its first failing read or
check. -/
def walkOverlay (ic : Ic) (bs t : Nat) : Nat → Nat → State → Except Act (State × Dword)
  | 0, node, _ => .error (.trap (ovlTrap node))
  | n + 1, node, s =>
    if node % 16 != 0 then .error (.trap alignTrap)
    else
      match cachedRead s ic node 16 with
      | .error a => .error a
      | .ok (s, x) =>
        let h : BitVec 128 := BitVec.ofNat 128 x
        if 4096 < fld h 127 96 || fld h 63 48 != 0 then .error (.trap (ovlTrap node))
        else
          let b := t / 2 ^ (bs + 2)
          match findOverlay s ic node b (fld h 127 96) 0 with
          | .error a => .error a
          | .ok (s, some block) => .ok (s, BitVec.ofNat 64 (block * 2 ^ (bs + 2) + t % 2 ^ (bs + 2)))
          | .ok (s, none) =>
            if fld h 47 0 == 0 || fld h 95 64 ≤ b then .ok (s, BitVec.allOnes 64) else walkOverlay ic bs t n (fld h 47 0) s

/-- AOVL (R295): at most four levels. -/
def execAovl (f : Fields) (s : State) : Out :=
  issue eAovl f s fun ic s =>
    match walkOverlay ic (modBits f 2 0) (ic.u1 true).toNat 4 (ic.u0 true).toNat s with
    | .error a => a
    | .ok (s, x) => .ok (ic.writeAll s true x)

/-- WINREAD (R299). -/
def execWinread (f : Fields) (s : State) : Out :=
  issue eWinread f s fun ic s =>
    let n := (lo32 (ic.u0 false)).toNat
    match (if 15 < n then none else lookupKey n s.ctx.wins) with
    | none => .trap (winNumTrap ic.rd ic n)
    | some w =>
      if 8 < winEsize w then .trap (shape shWin)
      else
        let i := (ic.u1 true).toNat
        let es := winEsize w
        if winCount w ≤ i then .ok (ic.writeAll s true (BitVec.ofNat 64 (ofLeBytes ((List.range es).map (winFill w)))))
        else
          match cachedRead s ic ((s.ctx.winbase.toNat + n * 2 ^ 32 + i * es) % 2 ^ 64) es with
          | .error a => a
          | .ok (s, x) => .ok (ic.writeAll s true (BitVec.ofNat 64 x))

/-- ALOOP (R296). -/
def execAloop (f : Fields) (s : State) : Out :=
  issue eAloop f s fun ic s =>
    let tgt := ic.pc + disp1 f
    if !aligned4 tgt then .trap alignTrap
    else
      let x := ic.uD true - 1#64
      .go (setCursor (ic.writeAll s true x) (if x == 0#64 then ic.next else tgt))

end Sys2Proof.Machine
end

