-- ==== Sys2Proof/Machine/Pricking.lean ====
section
/-!
DEFINITION. Choreography programs (spec/16_pricking.md R385 to R398): laps and drift, hand-overs on channels, and the end of a member.
-/
namespace Sys2Proof.Machine

/-! ## CROSS -/

/-- Whether the member sends or receives in a `CROSS` (R387). -/
def crossSends (f : Fields) (s : State) : Bool := s.m.role.toNat == crossSr f
def crossRecvs (f : Fields) (s : State) : Bool := s.m.role.toNat == crossRr f

/-- The entry of `CROSS` for the member: the fields that its part does not use are not read (R394). -/
def crossEntry (f : Fields) (s : State) : Entry :=
  if nameReader s.m f.s0 == .imm then eCross
  else
    { eCross with
      ownBounds := false
      s0 := if crossSends f s then eCross.s0 else rawField
      s1 := if crossSends f s then eCross.s1 else rawField
      dst := if crossRecvs f s then eCross.dst else rawField }

/-- Whether every member of a role has retired (R389). -/
def roleGone (s : State) (role : Nat) : Bool := (unretired (teamMembers s)).all fun m => m.role.toNat != role

/-- PEERGONE set in `sr.prkstat` (R389). -/
def peerGone (s : State) : State := { s with team := { s.team with prkstat := s.team.prkstat ||| 1#64 } }

/-- The entries of a channel. -/
def chanOf (s : State) (ch : Nat) : List ChanEntry := s.team.chans.getD ch []

/-- A channel replaced. -/
def setChan (s : State) (ch : Nat) (es : List ChanEntry) : State := { s with team := { s.team with chans := s.team.chans.set ch es } }

/-- The kind of a `CROSS` (R388): 0 `.V`, 1 `.R`, 2 `.RT`. -/
def crossKind (f : Fields) : Nat := modBits f 2 0

/-- The check of a region (R388). -/
def regionTrap (s : State) (ic : Ic) (acc : Access) (off len : Nat) : Option Trap :=
  if off % 4 != 0 || len % 4 != 0 then some alignTrap
  else if s.team.share < off + len then some (spadTrap s acc (ic.lanes.map fun l => (l, off)))
  else none

/-- The words of a region. -/
def regionWords (off len : Nat) : List Nat := (List.range (len / 4)).map (off / 4 + ·)

/-- The words that a send pushes (R388): for `.V`, S0 in each active lane itself, whatever the destination. -/
def sentWords (ic : Ic) : List Word :=
  if crossKind ic.f = 0 then ic.entry fun l => lo32 (opndBits ic.rd ic.f (ic.opnd ic.f.s0) (ic.pops.getD 0 []) false l)
  else lo32 (ic.u0 false) :: lo32 (ic.u1 false) :: List.replicate 30 0#32

/-- What a send comes to: done with a state, or an act. -/
def crossSend (ic : Ic) (s : State) : Except Act State :=
  let f := ic.f
  let off := (lo32 (ic.u0 false)).toNat
  let len := (lo32 (ic.u1 false)).toNat
  let region := crossKind f != 0
  match (if region then regionTrap ic.rd ic .read off len else none) with
  | some t => .error (.trap t)
  | none =>
    match (if region then ic.waitWords s (regionWords off len) true else none) with
    | some w => .error (.sleep w)
    | none =>
      if roleGone s (crossRr f) then .ok (peerGone s)
      else if 4 ≤ (chanOf s (crossCh f)).length then .error (.sleep .chan)
      else
        let e : ChanEntry :=
          { srole := BitVec.ofNat 3 (crossSr f), rrole := BitVec.ofNat 3 (crossRr f), region := region, words := sentWords ic }
        .ok (setChan s (crossCh f) (chanOf s (crossCh f) ++ [e]))

/-- The value that a receive writes in a lane (R388): word l of the entry, word 0 in a uniform destination, or the offset. -/
def receivedLane (ic : Ic) (e : ChanEntry) (l : Nat) : Dword :=
  let i := if e.region || ic.uni then 0 else l
  (e.words.getD i 0#32).setWidth 64

/-- What a receive comes to (R387 to R389); `wait` is its sleep while the channel is empty. -/
def crossRecv (ic : Ic) (s : State) (wait : Act) : Act :=
  let f := ic.f
  match chanOf s (crossCh f) with
  | [] => if roleGone s (crossSr f) then .ok (peerGone (lateLast (crossEntry f ic.rd) ic s)) else wait
  | e :: es =>
    if e.srole.toNat != crossSr f || e.rrole.toNat != crossRr f || e.region != (crossKind f != 0) then .trap (shape shCross)
    else
      let off := (e.words.getD 0 0#32).toNat
      let len := (e.words.getD 1 0#32).toNat
      match (if crossKind f = 2 then regionTrap ic.rd ic .write off len else none) with
      | some t => .trap t
      | none =>
        let s := setChan s (crossCh f) es
        let s := if crossKind f = 2 then { s with team := (regionWords off len).foldl setEmpty s.team } else s
        match openDst (crossEntry f ic.rd) f (lateLast (crossEntry f ic.rd) ic s) ic.act with
        | .error t => .trap t
        | .ok s => .ok (ic.write s false (receivedLane ic e))

/-- CROSS (R387 to R390, R395). -/
def execCross (f : Fields) (s : State) : Out :=
  issue (crossEntry f s) f s fun ic s =>
    if crossKind f == 0 && s.m.kind == .wave && s.team.width != 32 then .trap (emuTrap .width)
    else
      match (if crossSends f s && ic.old != some .crossSent then crossSend ic s else .ok s) with
      | .error a => a
      | .ok s' =>
        if !crossRecvs f s then .ok (lateLast (crossEntry f s) ic s')
        else crossRecv ic s' (if crossSends f s then .hold s' .crossSent else .sleep .chan)

/-- Whether a member asleep in a `CROSS` finds what it waits for (R387, R389). -/
def crossReady (f : Fields) (s : State) : Bool :=
  let n := (chanOf s (crossCh f)).length
  if crossSends f s then n < 4 || roleGone s (crossRr f) else n != 0 || roleGone s (crossSr f)

/-- CROSS_WAKE (R387, R389): the member's sleep on a channel ends once it can go on. A member whose send is done keeps that mark, and its
receive issues again at its turn. -/
def execCrossWake (s : State) : Out :=
  match s.m.wait with
  | some .chan =>
    match fieldsHere s with
    | some f => if crossReady f s then .next (wake s) else .next s
    | none => .next (wake s)
  | _ => .next s

/-! ## LAP and DRIFT -/

/-- The smallest lap counter of the unretired members (R385). -/
def minLap (s : State) : Nat := ((unretired (teamMembers s)).map fun m => m.lc.toNat).foldl min s.m.lc.toNat

/-- Whether drift holds the member at a `LAP` (R386). -/
def drifted (s : State) : Bool := decide (s.team.drift < s.m.lc.toNat + 1 - minLap s)

/-- LAP (R386, R396). -/
def execLap (f : Fields) (s : State) : Out :=
  issue eLap f s fun ic s =>
    let tgt := ic.pc + disp1 f
    let n := if ic.opnd f.s0 == .none then fld f.ext 63 32 else (lo32 (ic.u0 false)).toNat
    let i := modBits f 1 0
    if s.m.kind == .wave && s.m.exec != s.m.live then .trap (bound bLap)
    else if !aligned4 tgt then .trap alignTrap
    else if drifted s then .sleep .drift
    else
      let c := s.m.lapit.getD i 0#32 + 1#32
      let again := decide (c.toNat < max n 1)
      let m := { s.m with lc := s.m.lc + 1#64, lapit := s.m.lapit.set i (if again then c else 0#32) }
      .go (setCursor { s with m := m } (if again then tgt else ic.next))

/-- DRIFT (R397). -/
def execDrift (f : Fields) (s : State) : Out :=
  issue eDrift f s fun ic s =>
    let n := (lo32 (ic.u0 false)).toNat
    let d := if 1 ≤ n && n ≤ 15 then min s.team.drift n else s.team.drift
    .ok (ic.writeAll { s with team := { s.team with drift := d } } false (BitVec.ofNat 64 d))

/-- DRIFT_WAKE (R386, R397): the member's sleep on drift ends once its `LAP` is within the bound. -/
def execDriftWake (s : State) : Out :=
  match s.m.wait with
  | some .drift => if drifted s then .next s else .next (wake s)
  | _ => .next s

/-- PRKEND (R398): every lane of LIVE leaves at once. -/
def execPrkend (f : Fields) (s : State) : Out := issue ePrkend f s fun _ s => .ok (dropLanes s s.m.live)

end Sys2Proof.Machine
end

