-- ==== Sys2Proof/Machine/Sync.lean ====
section
/-!
DEFINITION. Barriers, task queues, dependency counters and device launches (spec/17_sync.md R400 to R420).
-/
namespace Sys2Proof.Machine

/-! ## Barriers -/

/-- The barrier that MOD names (R413): route-tag or team, and its number. -/
def barRoute (f : Fields) : Bool := modBits f 4 4 == 1
def barNum (f : Fields) : Nat := modBits f 3 0

/-- The arrival units of the member at a route-tag barrier, which counts arrivals of every team (R404). -/
def routeUnits (s : State) : List Nat := (unitsOf s.team.width s.m).map (128 * s.team.id + ·)

/-- The barrier that the instruction names as both kinds have it: generation, arrivals, half-waves that arrived, EXPECT. -/
def barState (f : Fields) (s : State) : BitVec 16 × List Nat × List Nat × Nat :=
  if barRoute f then
    let b := s.part.bts.getD (barNum f) {}
    (b.gen, b.arrived, b.halves, b.expect)
  else
    let b := s.team.bars.getD (barNum f) {}
    (b.gen, b.arrived, b.halves, barExpect s (barNum f) b)

/-- The barrier's number among the team's and, from 16, the route-tag ones. -/
def barKey (f : Fields) : Nat := if barRoute f then 16 + barNum f else barNum f

/-- Whether the member has arrived in the current phase, a half-wave with its hardware wave (R400, R402). -/
def hasArrived (f : Fields) (s : State) : Bool :=
  (if barRoute f then routeUnits s else unitsOf s.team.width s.m).any (barState f s).2.1.contains

/-- Whether the member is a half-wave that has arrived while its hardware wave has not (R400). -/
def halfArrived (f : Fields) (s : State) : Bool := (barState f s).2.2.1.contains s.m.id

/-- The bound that an arrival breaks (R401, R403, R404). -/
def arrivalTrap (f : Fields) (s : State) : Option Trap :=
  let (_, _, _, expect) := barState f s
  if barRoute f then (if expect == 0 then some (shape shBar) else none)
  else if !inTbMask s.team (barNum f) s.m.role.toNat || expect == 0 then some (bound bBar) else none

/-- Whether the member is a half-wave (R400). -/
def isHalf (s : State) : Bool := s.team.width == 16 && s.m.kind == .wave

/-- The member's arrival at a route-tag barrier (R400, R404). The phase completes over the slath. -/
def arriveRoute (s : State) (n : Nat) : State :=
  let b := s.part.bts.getD n {}
  let put (b : RouteBarrier) : State := { s with part := { s.part with bts := s.part.bts.set n b } }
  if isHalf s then joinRoute (put { b with halves := b.halves ++ [s.m.id] }) n else put { b with arrived := b.arrived ++ routeUnits s }

/-- The member's arrival at a team barrier, which may complete its phase (R400, R402). -/
def arriveTeam (s : State) (n : Nat) : State :=
  let b := s.team.bars.getD n {}
  let b := if isHalf s then { b with halves := b.halves ++ [s.m.id] } else { b with arrived := b.arrived ++ unitsOf s.team.width s.m }
  settleBar { s with team := { s.team with bars := s.team.bars.set n b } } n

/-- An arrival (R400 to R404), a release at `.DV` at a route-tag barrier (R242): the state with it made and the generation of its phase, or what
holds it back. A phase of a route-tag barrier that is full takes no arrival until the slath has completed it (log 32). -/
def arrive (f : Fields) (s : State) : Except Act (State × BitVec 16) :=
  match arrivalTrap f s with
  | some t => .error (.trap t)
  | none =>
    let (gen, arrived, _, expect) := barState f s
    if hasArrived f s || halfArrived f s || (barRoute f && expect ≤ arrived.length) then .error (.sleep .arrive)
    else .ok (if barRoute f then l1Clean (arriveRoute s (barNum f)) else arriveTeam s (barNum f), gen)

/-- What a departure from a barrier does to the L1 (R199, R242): from a route-tag one, of scope `.DV`, it is an acquire. -/
def barAcquire (f : Fields) (s : State) : State := if barRoute f then l1Flush s else s

/-- A generation as a result (R414). -/
def genBits (g : BitVec 16) : Dword := g.setWidth 64

/-- BAR (R414): a member that sleeps in it has arrived (R406), but for a first half-wave (R400). -/
def execBar (f : Fields) (s : State) : Out :=
  issue eBar f s fun ic s =>
    let leave (s : State) (g : BitVec 16) : Act := .ok (ic.writeAll (barAcquire f s) false (genBits g))
    match ic.old with
    | some (.barrierDone g) => leave s g
    | some (.barrier n g) => if genPassed (barState f s).1 g then leave s g else .sleep (.barrier n g)
    | some (.half n) => .sleep (.half n)
    | _ =>
      match arrive f s with
      | .error a => a
      | .ok (s', g) =>
        if halfArrived f s' then .hold s' (.half (barKey f))
        else if genPassed (barState f s').1 g then leave s' g
        else .hold s' (.barrier (barKey f) g)

/-- BARARR (R414). -/
def execBararr (f : Fields) (s : State) : Out :=
  issue eBararr f s fun ic s =>
    match arrive f s with
    | .error a => a
    | .ok (s', g) => .ok (ic.writeAll s' false (genBits g))

/-- BARWAIT (R415). -/
def execBarwait (f : Fields) (s : State) : Out :=
  issue eBarwait f s fun ic s =>
    let done := lateLast eBarwait ic (barAcquire f s)
    match ic.old with
    | some (.barrierDone _) => .ok done
    | some (.barrier n g) => if genPassed (barState f s).1 g then .ok done else .sleep (.barrier n g)
    | _ =>
      let g : BitVec 16 := (ic.u0 false).setWidth 16
      if genPassed (barState f s).1 g then .ok done else .hold s (.barrier (barKey f) g)

/-- BARGEN (R415). -/
def execBargen (f : Fields) (s : State) : Out :=
  issue eBargen f s fun ic s =>
    let (gen, arrived, _, expect) := barState f s
    let x := bnat (hasArrived f s) * 2 ^ 56 + expect % 2 ^ 20 * 2 ^ 36 + arrived.length % 2 ^ 20 * 2 ^ 16 + gen.toNat
    .ok (ic.writeAll s false (if isUni (ic.opnd f.dst) then BitVec.ofNat 64 x else genBits gen))

/-- A change of every member of the partition in focus, resident or saved. -/
def mapPart (g : Member → Member) (s : State) : State :=
  let s := if s.team.part == s.part.num then mapTeam g s else s
  { s with
    teams := s.teams.map fun t => if t.1.part == s.part.num then (t.1, t.2.map g) else t
    part := { s.part with saved := s.part.saved.map fun e => (e.1, e.2.1, e.2.2.map g) } }

/-- SLATH_PHASE_COMPLETE (R402, R404, R405): the phase of a route-tag barrier whose expected arrivals have been made completes, and every
waiter is re-examined. -/
def execSlathPhaseComplete (n : BitVec 3) (s : State) : Out :=
  let b := s.part.bts.getD n.toNat {}
  let g := b.gen + 1#16
  if b.expect != 0 && b.expect ≤ b.arrived.length then
    let s := mapPart (mapWaits (wakeBarrier (16 + n.toNat) g)) s
    .next { s with part := { s.part with bts := s.part.bts.set n.toNat { b with gen := g, arrived := [] } } }
  else .next s

/-! ## Task records (R408) -/

abbrev TaskWord := BitVec 512

def tkDoneVa (r : TaskWord) : Nat := fld r 191 144
def tkDoneDc (r : TaskWord) : Nat := fld r 143 128
def tkDoneDcv (r : TaskWord) : Bool := bit r 127
def tkHome (r : TaskWord) : Nat := fld r 119 112
def tkLease (r : TaskWord) : Nat := fld r 111 88
def tkDc (r : TaskWord) : Nat := fld r 63 48
def tkDcv (r : TaskWord) : Bool := bit r 47
def tkAttempt (r : TaskWord) : Nat := fld r 31 0
def setAttempt (r : TaskWord) (n : Nat) : TaskWord := setFld r 31 0 n

/-- The check of a record (R416). -/
def taskBad (r : TaskWord) (nclus : Nat) : Bool :=
  fld r 126 120 != 0 || fld r 87 64 != 0 || fld r 46 32 != 0 || tkLease r == 0 || !(tkHome r == 0xFF || tkHome r < nclus) ||
    tkDoneVa r % 4 != 0

/-- The index of a cluster among the partition's granted clusters (R192). -/
def clusterIndex (p : Partition) (cl : Nat) : Nat := (p.clusters.findIdx? (· == cl)).getD 0

/-- The sub-queues of a queue, and one of them. -/
def subQueues (s : State) (q : Nat) : List (List TaskRec) := s.part.tqs.getD q []
def subQueue (s : State) (q c : Nat) : List TaskRec := (subQueues s q).getD c []

/-- A sub-queue replaced. -/
def setSub (s : State) (q c : Nat) (l : List TaskRec) : State :=
  { s with part := { s.part with tqs := s.part.tqs.set q ((subQueues s q).set c l) } }

/-- A record added at the end of a sub-queue; one that is ready becomes so now. -/
def addTask (s : State) (q c : Nat) (t : TaskRec) : State :=
  let s := setSub s q c (subQueue s q c ++ [{ t with order := s.part.taskClock }])
  { s with part := { s.part with taskClock := s.part.taskClock + 1 } }

/-- The trap of a partition without a queue store (R407). -/
def storeTrap (s : State) (ic : Ic) : Option Trap :=
  if s.part.vsplit = 8 then
    some { cls := cMem, cause := xVault, xl := xlAll ic.act (xlRecOf { cls := .mem, cause := xVault, va := 0 } .rmw (!memberPriv s)) }
  else none

/-- The checks of an instruction on the queue store: the store, then the number that it names (R407, R413). -/
def storeCheck (s : State) (ic : Ic) (n limit : Nat) : Option Trap :=
  firstTrap [storeTrap s ic, if limit ≤ n then some (shape shTq) else none]

/-! ## Dependency counters (R410, R419) -/

/-- COUNT of a counter. -/
def dcCount (s : State) (c : Nat) : Word := (lookupKey c s.part.dcs).getD 0#32

/-- The records of a sub-queue once a counter is released: those pending on it become ready, in enqueue order. -/
def releaseIn (c now : Nat) (l : List TaskRec) : List TaskRec :=
  let due (t : TaskRec) : Bool := !t.ready && tkDc t.record == c
  l.filter (fun t => !due t) ++ (l.filter due).map fun t => { t with ready := true, order := now }

/-- WAITDC, WAITDCV, DONEDC and DONEDCV of a launch record (R420). -/
def lnDoneDcv (r : BitVec 512) : Bool := bit r 272
def lnDoneDc (r : BitVec 512) : Nat := fld r 271 256
def lnWaitDcv (r : BitVec 512) : Bool := bit r 240
def lnWaitDc (r : BitVec 512) : Nat := fld r 239 224
def lnGrid (r : BitVec 512) : List Nat := [fld r 159 128, fld r 191 160, fld r 223 192]
def lnArg (r : BitVec 512) : Nat := fld r 127 64
def lnKd (r : BitVec 512) : Nat := fld r 63 0
def lnReserved (r : BitVec 512) : Bool := fld r 511 273 != 0 || fld r 255 241 != 0

/-- A counter is released (R410, R420). -/
def releaseDc (s : State) (c : Nat) : State :=
  { s with part := { s.part with
      tqs := s.part.tqs.map fun q => q.map (releaseIn c s.part.taskClock)
      taskClock := s.part.taskClock + 1
      launches := s.part.launches.map fun l => if lnWaitDcv l.record && lnWaitDc l.record == c then { l with released := true } else l } }

/-- COUNT of a counter set. -/
def setDc (s : State) (c : Nat) (x : Word) : State := { s with part := { s.part with dcs := insertKey c x s.part.dcs } }

/-- A counter counted down (R419). -/
def countDown (s : State) (c n : Nat) : State :=
  let old := (dcCount s c).toNat
  let s := setDc s c (BitVec.ofNat 32 (old - n))
  if old != 0 && old - n == 0 then releaseDc s c else s

/-- DCINIT (R419): a release at `.DV`. -/
def execDcinit (f : Fields) (s : State) : Out :=
  issue eDcinit f s fun ic s =>
    let c := (lo32 (ic.u0 false)).toNat
    let x := lo32 (ic.u1 false)
    match storeCheck ic.rd ic c 65536 with
    | some t => .trap t
    | none => .ok (l1Clean (if x == 0#32 then releaseDc (setDc s c x) c else setDc s c x))

/-- DCDEC (R419): a release at `.DV`. -/
def execDcdec (f : Fields) (s : State) : Out :=
  issue eDcdec f s fun ic s =>
    let c := (lo32 (ic.u0 false)).toNat
    match storeCheck ic.rd ic c 65536 with
    | some t => .trap t
    | none => .ok (ic.writeAll (l1Clean (countDown s c (lo32 (ic.u1 false)).toNat)) false ((dcCount s c).setWidth 64))

/-! ## Task queues -/

/-- The records that a sub-queue holds at most (R399). -/
def subLimit : Nat := 512

/-- The HOME sub-queue of a record that the team in focus enqueues (R408). -/
def homeOf (s : State) (r : TaskWord) : Nat := if tkHome r == 0xFF then clusterIndex s.part (s.team.core / 8) else tkHome r

/-- A record placed in its sub-queue, pending or ready, a release at `.DV`, or the sleep while that is full (R108, R410, R416). -/
def enqueueTask (ic : Ic) (s : State) (q h : Nat) (r : TaskWord) : Act :=
  if subLimit ≤ (subQueue s q h).length then .hold s (.taskRoom q h r)
  else .ok (addTask (l1Clean (lateLast eTqenq ic s)) q h { record := setAttempt r 0, home := h, ready := !tkDcv r || dcCount s (tkDc r) == 0#32 })

/-- TQENQ (R408, R416): the record is read once. -/
def execTqenq (f : Fields) (s : State) : Out :=
  issue eTqenq f s fun ic s =>
    match ic.old with
    | some (.taskRoom q h r) => enqueueTask ic s q h r
    | _ =>
      let q := (lo32 (ic.u0 false)).toNat
      let a := (ic.u1 true).toNat
      match storeCheck ic.rd ic q 16 with
      | some t => .trap t
      | none =>
        if a % 64 != 0 then .trap alignTrap
        else
          match readOne s ic a 64 with
          | .error e => e
          | .ok (s, bs) =>
            let r : TaskWord := BitVec.ofNat 512 (ofLeBytes bs)
            if taskBad r s.part.clusters.length then .trap (shape shTq) else enqueueTask ic s q (homeOf s r) r

/-- The sleeps in a `TQDEQ` of a queue among the resident members of the partition in focus, of the team in focus some: the cycle in which each
began, and the sub-queue of its cluster (R409). -/
def takers (s : State) (q : Nat) (ms : List Member) : List (Nat × Nat) :=
  ((s.team, ms) :: s.teams.filter fun t => t.1.part == s.part.num).flatMap fun t =>
    t.2.filterMap fun m =>
      match m.wait with
      | some (.tasks r c) => if r == q then some (c, clusterIndex s.part (t.1.core / 8)) else none
      | _ => none

/-- Whether a sub-queue holds a ready record. -/
def holdsReady (s : State) (q c : Nat) : Bool := (subQueue s q c).any (·.ready)

/-- Whether a sleep on a sub-queue can be served: it holds a ready record, or the engine can move one there; one that cannot holds back no other
(log 117). -/
def servable (s : State) (q c : Nat) : Bool := holdsReady s q c || decide ((subQueue s q c).length < subLimit)

/-- Whether another member began to sleep in a `TQDEQ` of the queue before a cycle, and can be served (R409). -/
def earlierTaker (s : State) (q since : Nat) : Bool := (takers s q s.peers).any fun e => decide (e.1 < since) && servable s q e.2

/-- Whether a sleep on another sub-queue, to which the engine can move a record, began before every sleep on `asks` (R409). -/
def servedFirst (s : State) (q asks : Nat) : Bool :=
  let ts := takers s q (s.m :: s.peers)
  let mine := (ts.filter fun e => e.2 == asks).map (·.1)
  !mine.isEmpty && ts.any fun e => e.2 != asks && !holdsReady s q e.2 && servable s q e.2 && mine.all fun c => decide (e.1 < c)

/-- The words that a `TQDEQ` gives its lanes for a task and a ticket (R417). -/
def taskLane (t : TaskRec) (ticket : Word) (l : Nat) : Word :=
  if l < 16 then BitVec.ofNat 32 (t.record.toNat / 2 ^ (32 * l)) else if l == 16 then ticket else 0#32

/-- A task taken (R411, R417): its lease starts. -/
def startLease (s : State) (q : Nat) (t : TaskRec) : State :=
  let k : Ticket := { num := BitVec.ofNat 32 s.part.nextTicket, queue := q, task := t, holder := s.m.id, core := s.team.core
                      ends := s.cycle + tkLease t.record * 1024 }
  { s with part := { s.part with tickets := s.part.tickets ++ [k], nextTicket := s.part.nextTicket + 1 } }

/-- The result of a `TQDEQ` written to the active lanes of the lowest hardware wave, after its last read (R108, R417). -/
def writeTask (ic : Ic) (s : State) (g : Nat → Word) : Except Trap State :=
  let s := lateLast eTqdeq ic s
  match ic.opnd ic.f.dst with
  | .v r => do
    let act := ic.act &&& allLanes 32
    let s ← openDst eTqdeq ic.f s act
    return writeV s r act g
  | _ => .ok s

/-- The ready record that has been ready longest (R409). -/
def oldestReady (l : List TaskRec) : Option TaskRec :=
  (l.filter (·.ready)).foldl (fun best t => match best with | some b => if t.order < b.order then some t else best | none => some t) none

/-- A steal request noted (R409). -/
def requestSteal (s : State) (q c : Nat) : State :=
  if s.part.steals.contains (q, c) then s else { s with part := { s.part with steals := s.part.steals ++ [(q, c)] } }

/-- TQDEQ (R409, R411, R417): one that takes a task is an acquire at `.DV`. Without a task, the lanes of the record and the ticket receive values
that the specification does not state (log 33). -/
def execTqdeq (f : Fields) (s : State) : Out :=
  issue eTqdeq f s fun ic s =>
    let (q, since) := match ic.old with | some (.tasks q c) => (q, c) | _ => ((lo32 (ic.u0 false)).toNat, s.cycle)
    let nb := modBits f 0 0 == 1
    if s.team.width == 16 then .trap (emuTrap .width)
    else
      match storeCheck ic.rd ic q 16 with
      | some t => .trap t
      | none =>
        let c := clusterIndex s.part (s.team.core / 8)
        let l := subQueue s q c
        match oldestReady l with
        | some t =>
          if !nb && earlierTaker s q since then .hold s (.tasks q since)
          else
            let num := BitVec.ofNat 32 s.part.nextTicket
            Act.of (writeTask ic (startLease (setSub (l1Flush s) q c (l.erase t)) q t) (taskLane t num))
        | none =>
          let s := requestSteal s q c
          if nb then
            Act.of ((writeTask ic s fun i => if i < 17 then Config.freeWord (s.free + i) else if i == 17 then 1#32 else 0#32).map fun s' =>
              { s' with free := s.free + 17 })
          else .hold s (.tasks q since)

/-- A record made ready again with ATTEMPT raised (R411, R418). -/
def retryTask (s : State) (q c : Nat) (t : TaskRec) : State :=
  addTask s q c { t with record := setAttempt t.record (tkAttempt t.record + 1), ready := true }

/-- A lease that ends. -/
def endLease (s : State) (num : Word) : State :=
  { s with part := { s.part with tickets := s.part.tickets.filter fun t => t.num != num } }

/-- The commit of a task (R418): ATTEMPT to DONEVA, then DONEDC. -/
def commitTask (s : State) (ic : Ic) (r : TaskWord) : Except Act State :=
  let dc (s : State) : State := if tkDoneDcv r then countDown s (tkDoneDc r) 1 else s
  if tkDoneVa r == 0 then .ok (dc s)
  else
    (resolveOne s ic .write (tkDoneVa r) 4).map fun ls =>
      dc (writeLocs (passCaches s (memberView s) (tkDoneVa r) ls true) ls (leBytes 4 (tkAttempt r)))

/-- TASKEND (R411, R418): a release at `.DV` (R243). -/
def execTaskend (f : Fields) (s : State) : Out :=
  issue eTaskend f s fun ic s =>
    let n := lo32 (ic.u0 false)
    match storeTrap ic.rd ic with
    | some t => .trap t
    | none =>
      match s.part.tickets.find? fun t => t.num == n with
      | none => .ok (ic.writeAll s false (if s.part.stale.contains n then 1#64 else 2#64))
      | some k =>
        if modBits f 0 0 == 1 then .ok (ic.writeAll (retryTask (endLease (l1Clean s) n) k.queue k.task.home k.task) false 0#64)
        else
          match commitTask s ic k.task.record with
          | .error a => a
          | .ok s => .ok (ic.writeAll (endLease (l1Clean s) n) false 0#64)

/-- The sub-queue that a steal takes from (R409): the one with the most ready records, the lowest of several, other than the requester's. -/
def stealFrom (qs : List (List TaskRec)) (requester : Nat) : Option Nat :=
  let ready (c : Nat) : Nat := ((qs.getD c []).filter (·.ready)).length
  (((List.range qs.length).filter fun c => c != requester && ready c != 0).foldl (fun best c =>
    match best with
    | none => some c
    | some b => if ready b < ready c then some c else some b) none)

/-- Ready records in the order in which they became ready. -/
def insertReady (t : TaskRec) : List TaskRec → List TaskRec
  | [] => [t]
  | u :: r => if t.order < u.order then t :: u :: r else u :: insertReady t r
def sortReady (l : List TaskRec) : List TaskRec := l.foldl (fun r t => insertReady t r) []

/-- QUEUE_ENGINE_STEAL (R409): the queue engine serves a steal request, that of the member that has slept longest first. It moves whole ready
records of another sub-queue to the requester's, in their order and as far as it has room: by the policy that firmware installs by default the
older half, rounded up, of the sub-queue with the most, or the records of a sub-queue that another policy of firmware picks, by their places
among its ready ones. -/
def execQueueEngineSteal (q : BitVec 4) (requester : StealRequest) (s : State) : Out :=
  let qs := subQueues s q.toNat
  let asks := requester.core
  if !s.part.steals.contains (q.toNat, asks) || qs.length ≤ asks || s.part.vsplit == 8 || servedFirst s q.toNat asks then .next s
  else
    match (match requester.policy with | some (c, _) => if c != asks then some c else none | none => stealFrom qs asks) with
    | none => .next s
    | some c =>
      let src := qs.getD c []
      let dst := qs.getD asks []
      let ready := sortReady (src.filter (·.ready))
      let picked := match requester.policy with
        | some (_, ks) => (ready.zipIdx.filter fun (e : TaskRec × Nat) => ks.contains e.2).map Prod.fst
        | none => ready.take ((ready.length + 1) / 2)
      let moved := picked.take (subLimit - dst.length)
      if moved.isEmpty then .next s
      else
        let s := setSub (setSub s q.toNat c (moved.foldl (fun l t => l.erase t) src)) q.toNat asks (dst ++ moved)
        .next { s with part := { s.part with steals := s.part.steals.erase (q.toNat, asks) } }

/-! ## Leases -/

/-- A change of a member, wherever it stands, resident or saved. -/
def onAnyMember (s : State) (id : Nat) (g : Member → Member) : State :=
  if s.m.id = id then { s with m := g s.m }
  else
    let h (m : Member) : Member := if m.id == id then g m else m
    { s with
      peers := s.peers.map h, teams := s.teams.map fun t => (t.1, t.2.map h)
      part := { s.part with saved := s.part.saved.map fun e => (e.1, e.2.1, e.2.2.map h) } }

/-- The core of a lease's holder as it expires: that of its team, where it still stands in one, else the one on which it took the lease. -/
def holderCore (s : State) (k : Ticket) : Nat :=
  let teams : List (Team × List Member) := (s.team, s.m :: s.peers) :: (s.teams ++ s.part.saved.map (·.2))
  match teams.find? fun t => t.2.any fun m => m.id == k.holder with
  | some t => t.1.core
  | none => k.core

/-- A tile with undefined contents (R411): free values, which begin at a number. -/
def freeTile (n : Nat) (t : Tile) : Tile :=
  { t with
    data := (List.range 4096).map fun i => Config.freeWord (n + i)
    rowLbl := (List.range 64).map fun i => Config.freeWord (n + 4096 + i)
    colLbl := (List.range 64).map fun i => Config.freeWord (n + 4160 + i)
    rowAdmit := Config.freeWord (n + 4224) ++ Config.freeWord (n + 4225) }

/-- How many free values a tile takes. -/
def freePerTile : Nat := 4226

/-- The tiles of a team that a mask names, with undefined contents. -/
def freeTiles (s : State) (team mask : Nat) : State :=
  let s' := onTeam s team fun t =>
    { t with tiles := t.tiles.zipIdx.map fun e => if mask.testBit e.2 then freeTile (s.free + freePerTile * e.2) e.1 else e.1 }
  { s' with free := s.free + 8 * freePerTile }

/-- A sleep on an operation that is lost ends, and its instruction issues again, also where an interruption holds the sleep. -/
def loseWait (ids : List Nat) (m : Member) : Member :=
  let lose (w : Option Wait) : Option Wait :=
    match w with
    | some (.mxResult id) => if ids.contains id then none else w
    | _ => w
  { m with wait := lose m.wait, pre := { m.pre with wait := lose m.pre.wait }, frames := m.frames.map fun f => { f with wait := lose f.wait } }

/-- The members of a resident team. -/
def membersOf (s : State) (team : Nat) : List Member :=
  if s.team.id = team then teamMembers s else ((s.teams.find? fun t => t.1.id == team).map (·.2)).getD []

/-- The member that holds the trap of a team for its lost operations (R411): the issuer of the first of which the issuer has not retired, else the
first member that has not (log 117). -/
def resetHolder (s : State) (team : Nat) (lost : List MxOp) : Option Nat :=
  let live := (unretired (membersOf s team)).map (·.id)
  match lost.find? fun o => live.contains o.issuer with
  | some o => some o.issuer
  | none => live.head?

/-- The reset of the matrix engine of a core (R411): its operations are discarded, the tiles they name hold undefined values, and each team
that loses one holds a LEASE trap with cause MXRESET. -/
def resetEngine (s : State) (core : Nat) : State :=
  let k := if s.core.num = core then s.core else (s.cores.find? fun k => k.num == core).getD { num := core }
  let ops := k.mxq
  let ids := ops.map (·.id)
  let clear (c : Core) : Core := if c.num == core then { c with mxq := [] } else c
  let s := { s with
    core := clear s.core, cores := s.cores.map clear, m := loseWait ids s.m, peers := s.peers.map (loseWait ids)
    teams := s.teams.map fun t => (t.1, t.2.map (loseWait ids)) }
  ((ops.map (·.team)).eraseDups).foldl (fun s t =>
    let mine := ops.filter fun o => o.team == t
    let mask := mine.foldl (fun m o => m ||| heldTiles o) 0
    let h : HeldTrap := { cls := cLease, cause := 0x02, tiles := some mask, data := BitVec.ofNat 64 (0x02 * 2 ^ 32) }
    let u := freeTiles s t (mask % 256)
    match resetHolder s t mine with
    | some id => onAnyMember u id fun m => { m with held := m.held ++ [h] }
    | none => u) s

/-- LEASE_EXPIRY (R411): a lease that has run out expires. -/
def execLeaseExpiry (ticket : Word) (s : State) : Out :=
  match s.part.tickets.find? fun t => t.num == ticket with
  | none => .next s
  | some k =>
    if s.cycle < k.ends then .next s
    else
      let n := s.part.clusters.length
      let core := holderCore s k
      let s := endLease s ticket
      let s := { s with part := { s.part with stale := s.part.stale ++ [ticket] } }
      let s := retryTask s k.queue ((clusterIndex s.part (core / 8) + 1) % max n 1) k.task
      let s := resetEngine s core
      let h : HeldTrap := { cls := cLease, cause := 0x01, tiles := none, data := BitVec.ofNat 64 (0x01 * 2 ^ 32 + ticket.toNat) }
      .next (onAnyMember s k.holder fun m => if m.status = .retired then m else { m with held := m.held ++ [h] })

/-! ## LAUNCH -/

/-- The accepted device launches that the queue of a partition holds (R421). -/
def deviceLaunches (s : State) : Nat := (s.part.launches.filter fun l => l.device && l.phase == .held).length

/-- A launch as the command processor takes it. -/
def newLaunch (s : State) (r : BitVec 512) (device : Bool) (port prio ctx : Nat) (cookie : Word) (handles : List (Nat × Nat))
    (after : List Nat) : Launch :=
  { id := s.nextId, record := r, handles := handles, port := port, device := device, prio := prio, cookie := cookie, ctx := ctx
    after := after, released := !lnWaitDcv r || dcCount s (lnWaitDc r) == 0#32 }

/-- A launch accepted. -/
def addLaunch (s : State) (l : Launch) : State :=
  { s with part := { s.part with launches := s.part.launches ++ [l] }, nextId := s.nextId + 1 }

/-- LAUNCH (R420): an accepted launch is a release at `.DV` (R243). -/
def execLaunch (f : Fields) (s : State) : Out :=
  issue eLaunch f s fun ic s =>
    let a := (ic.u0 true).toNat
    if a % 64 != 0 then .trap alignTrap
    else
      match readOne s ic a 64 with
      | .error e => e
      | .ok (s, bs) =>
        let r : BitVec 512 := BitVec.ofNat 512 (ofLeBytes bs)
        if 64 ≤ deviceLaunches s then .ok (ic.writeAll s false 1#64)
        else
          let l := newLaunch s r true s.part.homeport (fld f.ext 2 0) s.ctx.id 0xFFFFFFFF#32 [] []
          .ok (ic.writeAll (addLaunch (l1Clean s) l) false 0#64)

end Sys2Proof.Machine
end

