-- ==== Sys2Proof/Machine/Traps.lean ====
section
/-!
DEFINITION. The instructions of traps and handlers (spec/19_traps.md R459 to R465), and instructions that no opcode defines (R63).
-/
namespace Sys2Proof.Machine

/-- TRAP (R459). -/
def execTrap (f : Fields) (s : State) : Out :=
  issue eTrap f s fun ic _ => .trap { cls := cUser, cause := fld (ic.u0 false) 15 0, after := true }

/-- BKPT (R465). -/
def execBkpt (f : Fields) (s : State) : Out := issue eBkpt f s fun _ _ => .trap { cls := cUser, bk := true }

/-- The entry of an opcode that is not defined: every unit takes it to the emulation handler (R63, R282). -/
def eUndef : Entry :=
  { opc := 0x200, lens := [0, 1, 2], dst := rawField, s0 := rawField, s1 := rawField, s2 := rawField, mod := fun _ => true, ap := true
    mx := true }

/-- UNDEFINED_INSTRUCTION (R63, R451). -/
def execUndefinedInstruction (f : Fields) (s : State) : Out := issue eUndef f s fun _ _ => .trap (emuTrap .undef)

/-- Where a return from a frame goes (R460). -/
def returnPc (f : Frame) : Dword :=
  if f.cls == cEmu then (if f.pcWritten then f.bank.getD 15 0#64 else f.bank.getD 15 0#64 + f.bank.getD 16 0#64) else f.bank.getD 1 0#64

/-- A return that has set the member's sleep, or has ended it. -/
def returned (s : State) : Act :=
  match s.m.wait with
  | some w => .hold s w
  | none => .go s

/-- ERET (R460): an address that is not a multiple of 4 raises ALIGN (R61), but for a frame that ends the context (R445). -/
def execEret (f : Fields) (s : State) : Out :=
  issue eEret f s fun _ s =>
    match s.m.frames.head? with
    | none => .trap (bound bFrame)
    | some fr =>
      if fr.cls != cRas && !aligned4 (returnPc fr) then .trap alignTrap
      else
        match leaveFrame s with
        | none => .trap (bound bFrame)
        | some s' => returned s'

/-- EMUSET (R462, R463): the new vector is in force for every member at once. -/
def execEmuset (f : Fields) (s : State) : Out :=
  issue eEmuset f s fun ic s =>
    let a := ic.u0 true
    if !aligned4 a then .trap alignTrap
    else if fld a 63 48 != 0 then .trap (shape shVec)
    else if modBits f 0 0 == 0 then .ok (ic.writeAll { s with ctx := { s.ctx with emuVec := a } } false s.ctx.emuVec)
    else .ok (ic.writeAll { s with ctx := { s.ctx with trapVec := a } } false s.ctx.trapVec)

/-! ## The interrupted context (R461) -/

/-- SEL of `OWR` and `OWW`. -/
def owSel (f : Fields) : Nat := modBits f 2 0

/-- The name that the selector takes from the current frame (R461); none where it has none. -/
def owName (f : Fields) (s : State) : Option Name :=
  match s.m.frames.head? with
  | none => none
  | some fr =>
    if owSel f = 4 then some f.s0
    else if fr.cls == cEmu then some ((fr.bank.getD (10 + owSel f) 0#64).setWidth 9) else none

/-- A name that a kind of register has, or 511 where the register number passes its range. -/
def offsetName (base limit r : Nat) : Option Name := if r < limit then some (BitVec.ofNat 9 (base + r)) else none

/-- The operand of the interrupted context that an `OWR` or `OWW` reaches (R461), or BOUND with cause OWIN. -/
def owOperand (ic : Ic) (s : State) : Except Trap Operand :=
  let bad : Trap := bound bOwin
  match owName ic.f s, s.m.frames.head? with
  | some n, some fr =>
    let off := (lo32 (ic.u1 false)).toNat
    let found (x : Option Name) : Except Trap Operand := match x with | some n => .ok (operandOf n) | none => .error bad
    match operandOf n with
    | .v r => found (offsetName 0 fr.rf.budget (r + off))
    | .k r => found (offsetName 256 (max fr.rf.unif 1) (r + off))
    | .q r => found (offsetName 320 16 (r + off))
    | .p r => found (offsetName 336 8 (r + off))
    | o => if off == 0 then .ok o else .error bad
  | _, _ => .error bad

/-- The interrupted window, which the topmost frame holds. -/
def below (s : State) : RegFile := winRf s.m 1

/-- A mapped register of the interrupted window refilled where it is spilled; an unmapped one reads 0 without a mark (R461). -/
def refillBelow (s : State) (r : Nat) (hs : List Nat) : Except Trap State :=
  hs.foldlM (fun s h => if (vreg (below s) r h).isSome then touchReg s 1 [r] r h else .ok s) s

/-- An operand of the interrupted window meets a parity error (R114). -/
def owBad (s : State) (o : Operand) : Bool := unitBad (below s) o

/-- The entry that `OWR` pops from a queue of the team (R57, R284, R461). -/
def owPop (ic : Ic) (s : State) (q : Nat) : Except Act (List Word × State) :=
  if !s.team.qset then .error (.trap (bound bQueue))
  else if s.team.width != 32 then .error (.trap (emuTrap .width))
  else
    match popsOf s ic.f [(anySrc, BitVec.ofNat 9 (320 + q), false)] s.team.queues [] with
    | .all es qs => .ok (es.getD 0 [], { s with team := { s.team with queues := qs } })
    | .empty => .error (.sleep .queue)
    | .marker id => .error (match markerTrap s ic.act id with | some t => .trap t | none => .sleep .queue)

/-- The 64 bits that the interrupted operand supplies in a lane (R461). -/
def owValue (s : State) (o : Operand) (pop : List Word) (l : Nat) : Dword :=
  match o with
  | .v _ | .k _ | .p _ => opndBits { s with m := { s.m with rf := below s } } noFields o pop false l
  | .imm => ((s.m.frames.head?.map (·.bank)).getD []).getD 14 0#64
  | .special 6 => BitVec.ofNat 64 ((s.m.frames.drop 1).filter fun f => !f.sup).length
  | o => opndBits s noFields o pop false l

/-- A value as `MOV` writes it to a destination (R123). -/
def moveTo (dst : Operand) (x : Dword) : Dword := if isUni dst then x else (lo32 x).setWidth 64

/-- OWR (R461). -/
def execOwr (f : Fields) (s : State) : Out :=
  issue eOwr f s fun ic s =>
    match owOperand ic s with
    | .error t => .trap t
    | .ok o =>
      let dst := ic.opnd f.dst
      match o with
      | .q q =>
        match owPop ic s q with
        | .error a => a
        | .ok (ws, s) => .ok (ic.write s false fun l => moveTo dst (owValue s o ws (ic.at l)))
      | .v r =>
        match refillBelow s r (if ic.uni then [ic.lane / 32] else hwsOf s ic.act) with
        | .error t => .trap t
        | .ok s => .ok (ic.write s false fun l => moveTo dst (owValue s o [] (ic.at l)))
      | _ =>
        if owBad s o then .trap { cls := cRas, cause := 1 }
        else .ok (ic.write s false fun l => moveTo dst (owValue s o [] (ic.at l)))

/-- The interrupted operand written (R461): a vector register also in lanes that are not active, with ALL. -/
def owWrite (ic : Ic) (s : State) (o : Operand) : Act :=
  let x (l : Nat) : Dword := moveTo o (ic.srcD false (ic.at l))
  match o with
  | .v r =>
    let act := if modBits ic.f 3 3 == 1 then s.m.live else ic.act
    Act.of do
      let s ← (hwsOf s act).foldlM (fun s h => openReg s 1 [r] r h) s
      return setWin s 1 (writeV { s with m := { s.m with rf := below s } } r act fun l => lo32 (x l)).m.rf
  | .k r => .ok (setWin s 1 (putK (below s) r (x ic.lane)))
  | .p r => .ok (if r = 7 then s else setWin s 1 (putP (below s) r ic.act (maskOf ic.n fun l => x l != 0#64)))
  | .q q =>
    if !s.team.qset then .trap (bound bQueue)
    else if s.team.width != 32 then .trap (emuTrap .width)
    else if 8 ≤ (s.team.queues.getD q []).length then .sleep .queue
    else .ok (pushQueue s q (.data (ic.entry fun l => lo32 (x l))))
  | _ => .ok s

/-- OWW (R461): writes to read-only and reserved names are ignored. -/
def execOww (f : Fields) (s : State) : Out :=
  issue eOww f s fun ic s =>
    match owOperand ic s with
    | .error t => .trap t
    | .ok o => owWrite ic s o

end Sys2Proof.Machine
end

