-- ==== Sys2Proof/Machine/Image.lean ====
section
/-!
DEFINITION. Context images (spec/19_traps.md R454 to R457, R464; spec/18_scheduler.md R440): their layout, `CTXSAVE` and `CTXREST`.
-/
namespace Sys2Proof.Machine

/-! ## What an image describes -/

/-- The state of one level of a member: its window, cursor and EXEC (R448). -/
structure Level where
  rf : RegFile
  cursor : Dword
  exec : Mask
deriving DecidableEq, Repr

/-- The level that a frame interrupts. -/
def levelOf (f : Frame) : Level := { rf := f.rf, cursor := f.cursor, exec := f.exec }

/-- A frame that interrupts a level. -/
def ontoLevel (f : Frame) (l : Level) : Frame := { f with rf := l.rf, cursor := l.cursor, exec := l.exec }

/-- The frames below the supervisor frames, or below the current frame where there is none, under the frame that stands on them (R440,
R457; log 34). -/
def splitFrames (fs : List Frame) : Option (Frame × List Frame) :=
  match (fs.reverse.findIdx? fun f => f.sup) with
  | some i => (fs.drop (fs.length - 1 - i)).head?.map fun f => (f, fs.drop (fs.length - i))
  | none => match fs with | f :: r => some (f, r) | [] => none

/-! ## Sections -/

/-- Bytes padded with zeros to a multiple of 128 (R454). -/
def padded (bs : List Byte) : List Byte := bs ++ List.replicate (roundUp bs.length 128 - bs.length) 0#8

/-- The kind of a stack entry from its code (R74). -/
def kindOf (n : Nat) : EntryKind := if n = 0 then .a else if n = 1 then .j else if n = 2 then .p else .c

/-- A stack entry read from 32 bytes. -/
def entryFrom (bs : List Byte) : StackEntry :=
  let x : BitVec 256 := BitVec.ofNat 256 (ofLeBytes bs)
  { mask := BitVec.ofNat 128 (fld x 255 128), kind := kindOf (fld x 65 64), addr := BitVec.ofNat 48 (fld x 47 0) }

/-- A map entry (R454): MAPPED and the dead mask. -/
def mapBytes (rf : RegFile) (h r : Nat) : List Byte :=
  match vreg rf r h with
  | some v => leBytes 8 (v.dead.toNat * 2 ^ 32 + 1)
  | none => leBytes 8 0

/-- The 128 bytes of a register's lanes; an unmapped register is 0 (R454). -/
def laneBytes (rf : RegFile) (h r : Nat) : List Byte := bytesOfWords ((List.range 32).map fun l => vLane rf r (32 * h + l))

/-- The map and the values of `n` registers of `hs` hardware waves, wave after wave. -/
def mapSection (rf : RegFile) (hs n : Nat) : List Byte :=
  ((List.range hs).map fun h => ((List.range n).map (mapBytes rf h)).flatten).flatten
def valueSection (rf : RegFile) (hs n : Nat) : List Byte :=
  ((List.range hs).map fun h => ((List.range n).map (laneBytes rf h)).flatten).flatten

/-- The registers of `hs` hardware waves read from a map and from values: key, register. -/
def regsFrom (map vals : List Byte) (hs n : Nat) : List (Nat × VReg) :=
  ((List.range n).map fun r => (List.range hs).filterMap fun h =>
    let x := ofLeBytes ((map.drop (8 * (n * h + r))).take 8)
    if x % 2 = 1 then
      some (4 * r + h, ({ vals := wordsOfBytes 32 (vals.drop (128 * (n * h + r))), dead := BitVec.ofNat 32 (x / 2 ^ 32) } : VReg))
    else none).flatten

/-! ## The header (R455) -/

abbrev Header := BitVec 8192

def imgFrames (x : Header) : Nat := fld x 63 56
def imgUnif (x : Header) : Nat := fld x 55 48
def imgBudget (x : Header) : Nat := fld x 47 32
def imgVersion (x : Header) : Nat := fld x 31 0
def imgCursor (x : Header) : Dword := BitVec.ofNat 64 (fld x 127 64)
def imgExec (x : Header) : Mask := BitVec.ofNat 128 (fld x 255 128)
def imgLive (x : Header) : Mask := BitVec.ofNat 128 (fld x 383 256)
def imgWavepos (x : Header) : Nat := fld x 447 384
def imgDepth (x : Header) : Nat := fld x 511 448
def imgReg (x : Header) (i : Nat) : Dword := BitVec.ofNat 64 (fld x (64 * i + 63) (64 * i))
def imgLanes (x : Header) : Nat := fld x 959 896
def imgKreg (x : Header) (n : Nat) : Dword := BitVec.ofNat 64 (fld x (2048 + 64 * n + 63) (2048 + 64 * n))
def imgPred (x : Header) (n : Nat) : Mask := BitVec.ofNat 128 (fld x (1024 + 128 * n + 127) (1024 + 128 * n))

/-- The number of context frames of an image. -/
def imgCount (x : Header) : Nat := if imgFrames x = 3 then 2 else if imgFrames x = 1 then 1 else 0

/-- The bytes of a frame with `hs` hardware waves (R454). -/
def frameSize (hs : Nat) : Nat := 1024 + 4352 * hs

/-- Where the sections of an image begin, and its size (R454): stack, map, values, frames, end. -/
def imgStackAt (n : Nat) : Nat := 1024 + roundUp (8 * n) 128
def imgMapAt (n d : Nat) : Nat := imgStackAt n + roundUp (32 * d) 128
def imgValuesAt (n d b hs : Nat) : Nat := imgMapAt n d + roundUp (8 * b * hs) 128
def imgFramesAt (n d b hs : Nat) : Nat := imgValuesAt n d b hs + roundUp (128 * b * hs) 128
def imgSize (n d b hs frames : Nat) : Nat := imgFramesAt n d b hs + frames * frameSize hs

/-- How many of some frames are context frames, and supervisor frames. -/
def ctxFrames (fs : List Frame) : Nat := (fs.filter fun f => !f.sup).length
def supFrames (fs : List Frame) : Nat := (fs.filter fun f => f.sup).length

/-- FRAMES and DEPTHS of an image with some frames (R455). -/
def framesOf (fs : List Frame) : Nat := 4 * (2 ^ supFrames fs - 1) + 2 ^ ctxFrames fs - 1
def depthsOf (fs : List Frame) : Nat := 4 * supFrames fs + ctxFrames fs

/-- The header of the member's image over a level, a stack and the frames above the level. -/
def headerBytes (s : State) (l : Level) (depth : Nat) (frames : List Frame) : List Byte :=
  let put (x : Nat) (at' : Nat) : Nat := x * 2 ^ at'
  let regs := ((List.range 64).map fun i => put (kReg l.rf i).toNat (2048 + 64 * i)).foldl (· + ·) 0
  let preds := ((List.range 7).map fun i => put (pReg l.rf i &&& allLanes (nLanes s)).toNat (1024 + 128 * i)).foldl (· + ·) 0
  leBytes 1024 (regs + preds + put (nLanes s) 896 + put (depthsOf frames) 832 + put s.m.rskey.toNat 768 + put (s.m.rascnt.getD 0 0#64).toNat 704 +
    put (s.m.refillcnt.getD 0 0#64).toNat 640 + put (s.m.spillcnt.getD 0 0#64).toNat 576 + put s.m.regstat.toNat 512 + put depth 448 +
    put (wavepos s.team s.m).toNat 384 + put s.m.live.toNat 256 + put l.exec.toNat 128 + put l.cursor.toNat 64 +
    put (framesOf frames) 56 + put l.rf.unif 48 + put l.rf.budget 32 + 1)

/-- The records of translation faults in a supervisor frame's lanes (R456). -/
def xlBytes (s : State) (f : Frame) : List Byte :=
  let of (g : XlRec → Dword) : List Byte := ((List.range (nLanes s)).map fun l => leBytes 8 (g (f.xl.getD l {})).toNat).flatten
  if f.sup then of (·.va) ++ of (·.ipa) ++ of (·.info) else []

/-- A frame's bytes (R456): its banked registers, the level of its handler, and a supervisor frame's records. -/
def handlerBytes (s : State) (f : Frame) (l : Level) : List Byte :=
  let bank := ((List.range 31).map fun i => leBytes 8 (f.bank.getD i 0#64).toNat).flatten ++ leBytes 8 (bnat f.pcWritten)
  let ks := ((List.range 16).map fun i => leBytes 8 (kReg l.rf i).toNat).flatten
  let ps := ((List.range 7).map fun i => leBytes 16 (pReg l.rf i &&& allLanes (nLanes s)).toNat).flatten
  let block (h : Nat) : List Byte := ((List.range 32).map (mapBytes l.rf h)).flatten ++ ((List.range 32).map (laneBytes l.rf h)).flatten
  bank ++ ks ++ leBytes 8 l.cursor.toNat ++ leBytes 8 f.mark ++ leBytes 16 l.exec.toNat ++ ps ++ List.replicate 0x1F0 0#8 ++
    ((List.range (nHw s)).map block).flatten ++ xlBytes s f

/-- The frames' bytes, the lowest first, each with the level that the frame above it interrupts. -/
def handlersBytes (s : State) : List Frame → Level → List Byte
  | [], _ => []
  | f :: r, l => handlersBytes s r (levelOf f) ++ handlerBytes s f l

/-- The level of the program below some frames. -/
def programLevel : List Frame → Level → Level
  | [], l => l
  | f :: r, _ => programLevel r (levelOf f)

/-- The image of the state that a frame interrupts (R454, R457). -/
def imageBytes (s : State) (f : Frame) (below : List Frame) : List Byte :=
  let n := nLanes s
  let hs := nHw s
  let p := programLevel below (levelOf f)
  let stack := (s.m.stack.drop (s.m.stack.length - f.mark)).reverse
  headerBytes s p stack.length below ++
    padded (bytesOfWords ((List.range n).map fun l => s.m.rsctr.getD l 0#32) ++
      bytesOfWords ((List.range n).map fun l => s.m.lorig.getD l 0#32)) ++
    padded ((stack.map entryBytes).flatten) ++ padded (mapSection p.rf hs p.rf.budget) ++ padded (valueSection p.rf hs p.rf.budget) ++
    handlersBytes s below (levelOf f)

/-- The image that a save writes of the group in focus (R457): the state of the group, under no frame. -/
def groupImage (s : State) : List Byte :=
  imageBytes s { sup := false, cls := 0, rf := s.m.rf, cursor := s.m.cursor, exec := s.m.exec, mark := s.m.stack.length, wait := none
                 bank := [] } s.m.frames

/-! ## CTXSAVE -/

/-- An image written in pieces of 128 bytes, up to the first piece that cannot be (R440). -/
def putImage (ic : Ic) : Nat → Nat → List Byte → State → State × Option Act
  | 0, _, _, s => (s, none)
  | n + 1, a, bs, s =>
    match resolveOne s ic .write (a % 2 ^ 64) 128 with
    | .error e => (s, some e)
    | .ok ls =>
      let s := passCaches s (memberView s) (a % 2 ^ 64) ls true
      putImage ic n (a + 128) (bs.drop 128) (writeLocs s ls (bs.take 128))

/-- The windows that an image describes of the member: those below the frame that stands on it (R440). -/
def imageWins (s : State) (below : List Frame) : List Nat := (List.range (s.m.frames.length + 1)).drop (s.m.frames.length - below.length)

/-- CTXSAVE (R440, R457): a fault leaves the pieces before it written; the registers are read as any instruction reads them (R114). -/
def execCtxsave (f : Fields) (s : State) : Out :=
  issue eCtxsave f s fun ic s =>
    match splitFrames s.m.frames with
    | none => .trap (emuTrap .priv)
    | some (fr, below) =>
      if !memberPriv s then .trap (emuTrap .priv)
      else
        let a := (ic.u0 true).toNat
        if a % 128 != 0 then .trap alignTrap
        else
          match (imageWins s below).foldlM readWin s with
          | .error t => .trap t
          | .ok s =>
            let bs := imageBytes s fr below
            match putImage ic (bs.length / 128) a bs s with
            | (s', none) => .ok (ic.writeAll s' false (BitVec.ofNat 64 bs.length))
            | (s', some (.trap t)) =>
              .trapIn (fun g => { g with
                mem := s'.mem, vault := s'.vault, core := { g.core with l1 := s'.core.l1 }, part := { g.part with l2 := s'.part.l2 } }) t
            | (_, some e) => e

/-! ## CTXREST -/

/-- `n` pieces of 128 bytes of an image, with the caches as their reads leave them (R195). -/
def getImage (ic : Ic) : Nat → Nat → State → Except Act (State × List Byte)
  | 0, _, s => .ok (s, [])
  | n + 1, a, s => do
    let (s, bs) ← readOne s ic (a % 2 ^ 64) 128
    let (s, r) ← getImage ic n (a + 128) s
    return (s, bs ++ r)

/-- A window as an image has it, over the window that was saved: its marks of parity errors stay (R114; log 68). -/
def savedWin (old new : RegFile) (regs : List (Nat × VReg)) : RegFile :=
  { new with
    kbad := old.kbad, pbad := old.pbad
    vregs := regs.map fun e => (e.1, { e.2 with bad := ((lookupKey e.1 old.vregs).map (·.bad)).getD 0#32 }) }

/-- The window of the program below every frame. -/
def programWindow (s : State) : RegFile := (programLevel s.m.frames { rf := s.m.rf, cursor := s.m.cursor, exec := s.m.exec }).rf

/-- What step 3 of R464 asks of every header. -/
def headerOff (s : State) (x : Header) : Bool :=
  let w := programWindow s
  imgVersion x != 1 || imgLanes x != nLanes s || imgWavepos x / 2 ^ 13 % 8 != (wavepos s.team s.m).toNat / 2 ^ 13 % 8 ||
    imgBudget x != w.budget || imgUnif x != w.unif ||
    256 < imgDepth x || fld x 8191 6144 != 0 || fld x 2047 1920 != 0 || fld x 1023 960 != 0

/-- Step 3 of R464. -/
def headerBad (s : State) (x : Header) : Bool := headerOff s x || !(imgFrames x == 0 || imgFrames x == 1 || imgFrames x == 3)

/-- The program level of an image, without its vector registers. -/
def imageLevel (x : Header) : Level :=
  { rf := { kregs := (List.range 64).map (imgKreg x), preds := (List.range 7).map (imgPred x), budget := imgBudget x, unif := imgUnif x }
    cursor := imgCursor x, exec := imgExec x }

/-- The fields of `sr.trapinfo` that are not reserved (R450). -/
def trapinfoBits : Dword := 0xFF0FF000FFFF#64

/-- A context frame read from an image (R456), over the level that it interrupts. Reserved bits read as zero (R2). -/
def frameFrom (bs : List Byte) (l : Level) : Frame :=
  let words := (List.range 31).map (fun i => BitVec.ofNat 64 (ofLeBytes ((bs.drop (8 * i)).take 8))) ++ [0#64]
  let bank := words.set 0 (words.getD 0 0#64 &&& trapinfoBits)
  { sup := false, cls := fld (bank.getD 0 0#64) 47 40, rf := l.rf, cursor := l.cursor, exec := l.exec
    mark := ofLeBytes ((bs.drop 0x188).take 8), wait := none, bank := bank, pcWritten := ofLeBytes ((bs.drop 0xF8).take 8) % 2 == 1 }

/-- The level of a frame's handler, without its vector registers. -/
def handlerFrom (bs : List Byte) (n : Nat) : Level :=
  { rf := { kregs := (List.range n).map fun i => BitVec.ofNat 64 (ofLeBytes ((bs.drop (0x100 + 8 * i)).take 8))
            preds := (List.range 7).map fun i => BitVec.ofNat 128 (ofLeBytes ((bs.drop (0x1A0 + 16 * i)).take 16)), budget := 32, unif := 16 }
    cursor := BitVec.ofNat 64 (ofLeBytes ((bs.drop 0x180).take 8)), exec := BitVec.ofNat 128 (ofLeBytes ((bs.drop 0x190).take 16)) }

/-- The vector registers of a frame's handler. -/
def handlerRegs (bs : List Byte) (hs : Nat) : List (Nat × VReg) :=
  let blocks := (List.range hs).map fun h => (bs.drop (1024 + 4352 * h)).take 4352
  regsFrom ((blocks.map fun b => b.take 256).flatten) ((blocks.map fun b => b.drop 256).flatten) hs 32

/-- A register put into window `j`: in the pool while the map may take one, else in its slot of the backing store (R113, R457). -/
def placeReg (j : Nat) (s : State) (e : Nat × VReg) : State :=
  let r := e.1 / 4
  let h := e.1 % 4
  if mayTake s h then setWin s j (setVreg (winRf s.m j) r h { e.2 with spilled := false })
  else spillOut (setWin s j (setVreg (winRf s.m j) r h { e.2 with spilled := true })) j r h e.2.vals

/-- The frame that stands on the restored state: its return resumes that state (R464). -/
def resumeFrame (f : Frame) (l : Level) (mark : Nat) : Frame :=
  let lo := maskLo l.exec
  let hi := maskHi l.exec
  { ontoLevel f l with
    mark := mark, wait := none, pcWritten := true
    bank :=
      let bank := ((f.bank.set 1 l.cursor).set 4 lo).set 5 hi
      if f.cls == cEmu then bank.set 15 l.cursor else bank }

/-- The restored context (R464): the frames of an image below the frame that stands on it, then the registers. -/
def restoreImage (s : State) (f : Frame) (x : Header) (bs : List Byte) : State :=
  let n := nLanes s
  let hs := nHw s
  let d := imgDepth x
  let b := imgBudget x
  let lanes := bs.drop 1024
  let p := imageLevel x
  let piece (i : Nat) : List Byte := (bs.drop (imgFramesAt n d b hs + i * frameSize hs)).take (frameSize hs)
  let stack := ((List.range d).map fun i => entryFrom ((bs.drop (imgStackAt n + 32 * i)).take 32)).reverse
  let above := s.m.stack.take (s.m.stack.length - f.mark)
  let h1 := handlerFrom (piece 0) 16
  let h2 := handlerFrom (piece 1) 16
  let frames :=
    if imgCount x = 0 then [resumeFrame f p d]
    else if imgCount x = 1 then [resumeFrame f h1 d, frameFrom (piece 0) p]
    else [resumeFrame f h2 d, frameFrom (piece 1) h1, frameFrom (piece 0) p]
  let s := { s with m := { s.m with
    live := imgLive x, exec := s.m.exec &&& imgLive x, stack := above ++ stack, frames := frames
    regstat := imgReg x 8 &&& 7#64, spillcnt := s.m.spillcnt.set 0 (imgReg x 9), refillcnt := s.m.refillcnt.set 0 (imgReg x 10)
    rascnt := s.m.rascnt.set 0 (imgReg x 11), rskey := imgReg x 12
    rsctr := wordsOfBytes n lanes, lorig := wordsOfBytes n (lanes.drop (4 * n)) } }
  let regs := regsFrom (bs.drop (imgMapAt n d)) (bs.drop (imgValuesAt n d b hs)) hs b
  let s := regs.foldl (placeReg (imgCount x + 1)) s
  (List.range (imgCount x)).foldl (fun s i => (handlerRegs (piece i) hs).foldl (placeReg (imgCount x - i)) s) s

/-! ## Full saves -/

/-- The bytes of a supervisor frame in an image (R454). -/
def supSize (n hs : Nat) : Nat := frameSize hs + 24 * n

/-- The size of a group's image in a full save, by its header (R454, R457). -/
def fullSize (s : State) (x : Header) : Nat :=
  imgFramesAt (nLanes s) (imgDepth x) (imgBudget x) (nHw s) +
    (bitsBelow 2 (imgFrames x % 4)).length * frameSize (nHw s) + (bitsBelow 2 (imgFrames x / 4 % 4)).length * supSize (nLanes s) (nHw s)

/-- The fields of `sr.xlinfo` that are not reserved (R223). -/
def xlinfoBits : Dword := 0xFFFF#64

/-- The records of the lanes' translation faults in a supervisor frame (R456). Reserved bits read as zero (R2). -/
def xlFrom (n hs : Nat) (bs : List Byte) : List XlRec :=
  let w (k l : Nat) : Dword := BitVec.ofNat 64 (ofLeBytes ((bs.drop (frameSize hs + 8 * (k * n + l))).take 8))
  (List.range n).map fun l => { va := w 0 l, ipa := w 1 l, info := w 2 l &&& xlinfoBits }

/-- The saved frames with what the image says of them, from the lowest, and the level of the topmost handler (R456, R457): `bs` begins with the
bytes of the first of the frames, which interrupts level `l`, and `top` is the window that was saved above the last. -/
def framesFrom (n hs : Nat) (top : RegFile) : List Frame → List Byte → Level → List Frame × Level
  | [], _, l => ([], l)
  | f :: r, bs, l =>
    let read := frameFrom bs l
    let above := match r with | g :: _ => g.rf | [] => top
    let h := handlerFrom bs 16
    let h := { h with rf := savedWin above h.rf (handlerRegs bs hs) }
    let f := { ontoLevel f l with
      mark := read.mark, bank := read.bank, pcWritten := read.pcWritten, xl := if f.sup then xlFrom n hs bs else f.xl }
    let (fs, t) := framesFrom n hs top r (bs.drop (if f.sup then supSize n hs else frameSize hs)) h
    (fs ++ [f], t)

/-- The member in focus, as a full save kept it, with what its image says of it (R113, R428, R457). -/
def memberFrom (s : State) (bs : List Byte) : Member :=
  let n := nLanes s
  let hs := nHw s
  let x : Header := BitVec.ofNat 8192 (ofLeBytes (bs.take 1024))
  let d := imgDepth x
  let b := imgBudget x
  let lanes := bs.drop 1024
  let p := imageLevel x
  let p := { p with rf := savedWin (programWindow s) p.rf (regsFrom (bs.drop (imgMapAt n d)) (bs.drop (imgValuesAt n d b hs)) hs b) }
  let (frames, top) := framesFrom n hs s.m.rf s.m.frames.reverse (bs.drop (imgFramesAt n d b hs)) p
  { s.m with
    rf := top.rf, cursor := top.cursor, exec := top.exec &&& imgLive x, frames := frames, live := imgLive x
    stack := ((List.range d).map fun i => entryFrom ((bs.drop (imgStackAt n + 32 * i)).take 32)).reverse
    regstat := imgReg x 8 &&& 7#64, spillcnt := s.m.spillcnt.set 0 (imgReg x 9), refillcnt := s.m.refillcnt.set 0 (imgReg x 10)
    rascnt := s.m.rascnt.set 0 (imgReg x 11), rskey := imgReg x 12
    rsctr := wordsOfBytes n lanes, lorig := wordsOfBytes n (lanes.drop (4 * n)) }

/-- A window as a save takes it (R114; log 68): registers that have a duplicate are repaired from it, and no duplicate stays. -/
def mendWin (s : State) (m : Member) (rf : RegFile) : RegFile :=
  { rf with vregs := rf.vregs.map fun e => (e.1, { e.2 with bad := if hasDup s m (e.1 % 4) e.2 then 0#32 else e.2.bad, dup := false }) }

/-- A member as a save takes it (R114), with its repairs counted. -/
def mendMember (s : State) (m : Member) : Member :=
  let hit := ((windows m).map fun rf => rf.vregs.filter fun e => e.2.bad != 0#32 && hasDup s m (e.1 % 4) e.2).flatten
  { m with
    rf := mendWin s m m.rf, frames := m.frames.map fun f => { f with rf := mendWin s m f.rf }
    rascnt := hit.foldl (fun l e => bump (e.1 % 4) l) m.rascnt }

/-- CTXREST (R464). -/
def execCtxrest (f : Fields) (s : State) : Out :=
  issue eCtxrest f s fun ic s =>
    match s.m.frames.head? with
    | none => .trap (emuTrap .priv)
    | some fr =>
      if !fr.sup then .trap (emuTrap .priv)
      else
        let a := (ic.u0 true).toNat
        if a % 128 != 0 then .trap alignTrap
        else
          match getImage ic 8 a s with
          | .error e => e
          | .ok (s, hb) =>
            let x : Header := BitVec.ofNat 8192 (ofLeBytes hb)
            if headerBad s x then .trap (shape shImg)
            else
              let size := imgSize (nLanes s) (imgDepth x) (imgBudget x) (nHw s) (imgCount x)
              match getImage ic (size / 128) a s with
              | .error e => e
              | .ok (s, bs) => .ok (ic.writeAll (restoreImage s fr x bs) false (BitVec.ofNat 64 size))

end Sys2Proof.Machine
end

