-- ==== Sys2Proof/Machine/Shuttle.lean ====
section
/-!
DEFINITION. The format walker (spec/15_shuttle.md R354 to R378): its contexts, its own instructions, and the wave instructions that start a
context, wait for it and fix up carries.
-/
namespace Sys2Proof.Machine

/-! ## Start records (R357, R358) -/

abbrev StartRec := BitVec 512

def srFill (r : StartRec) : Word := BitVec.ofNat 32 (fld r 191 160)
def srPlen (r : StartRec) : Nat := fld r 138 128
def srProg (r : StartRec) : Nat := fld r 111 64
def srScaled (r : StartRec) : Bool := bit r 23
def srSparse (r : StartRec) : Bool := bit r 22
def srCols (r : StartRec) : Nat := if bit r 21 then 64 else 32
def srRows (r : StartRec) : Nat := fld r 20 15 + 1
def srTfmt (r : StartRec) : Nat := fld r 11 8
def srSfmt (r : StartRec) : Nat := fld r 7 4

/-- The bytes of an element of a format (R70). -/
def fmtBytes (ty : Nat) : Nat := if ty = 10 then 4 else if ty = 11 || ty = 12 then 2 else 1

/-- The check of a record (R357). -/
def startBad (r : StartRec) : Bool :=
  fld r 511 192 != 0 || fld r 159 139 != 0 || fld r 127 112 != 0 || fld r 63 24 != 0 || fld r 14 12 != 0 || fld r 3 0 != 0 ||
    srPlen r == 0 || 1024 < srPlen r || srProg r % 4 != 0 || !(10 ≤ srTfmt r && srTfmt r ≤ 14) ||
    !((10 ≤ srSfmt r && srSfmt r ≤ 14) || srSfmt r == 2 || srSfmt r == 6) || (srSparse r && srTfmt r == 10) ||
    (srScaled r && !(srTfmt r == 13 || srTfmt r == 14))

/-- The parts of a tile's footprint, and the footprint (R358). -/
def tileData (r : StartRec) : Nat := srRows r * (if srSparse r then srCols r / 2 else srCols r) * fmtBytes (srTfmt r)
def tileMeta (r : StartRec) : Nat := if srSparse r then srRows r * srCols r / 8 else 0
def tileScales (r : StartRec) : Nat := if srScaled r then srRows r * srCols r / 32 else 0
def tileFoot (r : StartRec) : Nat := roundUp (tileData r + tileMeta r + tileScales r) 128

/-! ## Running a word -/

/-- What a shuttle word comes to. -/
inductive ShAct where
  /-- it completes; the context goes on at the next word -/
  | ok (c : ShCtx)
  /-- it completes and has set the cursor -/
  | go (c : ShCtx)
  /-- it completes and has changed the machine too -/
  | put (s : State) (c : ShCtx)
  /-- it faults with an SHF cause (R366) -/
  | bad (cause : Nat)
  /-- an access of it fails (R366) -/
  | miss (f : XFault)
  /-- it waits -/
  | wait

/-- SHF causes (R366). -/
def shfOpc : Nat := 0x20
def shfRsv : Nat := 0x21
def shfAlign : Nat := 0x22
def shfRow : Nat := 0x23
def shfCol : Nat := 0x24
def shfOrder : Nat := 0x25
def shfFmt : Nat := 0x26
def shfTile : Nat := 0x27
def shfSpad : Nat := 0x28
def shfPcr : Nat := 0x29

/-- The context in focus replaced. -/
def setSh (s : State) (c : ShCtx) : State := { s with team := { s.team with sh := c } }

/-- The context stopped at a fault, before the word has any effect (R366). -/
def stopSh (c : ShCtx) (cause : Nat) (f : Option EngFault) : ShCtx := { c with phase := .faulted, cause := cause, fault := f }

/-- A word of the context in focus executes (R366, R371); a context that does not run is left alone. An access that waits for the host asks
for its page (R225), one that waits for an engine waits (R245), and an uncorrectable read ends the shuttle context, with RAS held by its issuer
(R18, R445). -/
def shuttleStep (s : State) (body : ShCtx → ShAct) : Out :=
  let c := s.team.sh
  if c.phase != .running then .next s
  else
    match body c with
    | .ok c' => .next (setSh s { c' with cursor := c.cursor + 1 })
    | .go c' => .next (setSh s c')
    | .put s' c' => .next (setSh s' { c' with cursor := c.cursor + 1 })
    | .bad cause => .next (setSh s (stopSh c cause none))
    | .wait => .next s
    | .miss f =>
      match f.cls with
      | .pri => .next (askPage s f.va)
      | .own => .next s
      | .ras => .next (holdRas (setSh s { c with phase := .ended, cancelled := true, isOpen := false }) c.issuer none f.cause)
      | _ => .next (setSh s (stopSh c f.cause (some (engFaultOf f .read c.priv))))

/-- A jump by a displacement in words (R370): a cursor below word 0 wraps, and so leaves the program. -/
def jumpBy {n : Nat} (c : ShCtx) (d : BitVec n) : ShCtx := { c with cursor := (((c.cursor : Int) + d.toInt) % 2 ^ 32).toNat }

/-- A result of two operands. -/
def hArith (d : BitVec 5) (g : ShCtx → Dword) (s : State) : Out := shuttleStep s fun c => .ok (setH c d (g c))

/-- `HSHL` (R371): the amount is the signed low seven bits. -/
def hShift (x b : Dword) : Dword :=
  let n := (BitVec.setWidth 7 b).toInt
  if 0 ≤ n then x <<< n.toNat else x >>> (-n).toNat

/-- The comparison of `HCMP` (R371). -/
def hCompare (c : BitVec 3) (x y : Dword) : Bool :=
  match c.toNat with
  | 0 => x == y
  | 1 => x != y
  | 2 => x.slt y
  | 3 => !x.slt y
  | 4 => x.ult y
  | _ => !x.ult y

/-- HADD_reg (R371). -/
def execHaddReg (d a b : BitVec 5) (s : State) : Out := hArith d (fun c => hReg c a + hReg c b) s
/-- HADD_imm (R371). -/
def execHaddImm (d a : BitVec 5) (i : BitVec 15) (s : State) : Out := hArith d (fun c => hReg c a + i.signExtend 64) s
/-- HSUB_reg (R371). -/
def execHsubReg (d a b : BitVec 5) (s : State) : Out := hArith d (fun c => hReg c a - hReg c b) s
/-- HSUB_imm (R371). -/
def execHsubImm (d a : BitVec 5) (i : BitVec 15) (s : State) : Out := hArith d (fun c => hReg c a - i.signExtend 64) s
/-- HSHL_reg (R371). -/
def execHshlReg (d a b : BitVec 5) (s : State) : Out := hArith d (fun c => hShift (hReg c a) (hReg c b)) s
/-- HSHL_imm (R371). -/
def execHshlImm (d a : BitVec 5) (i : BitVec 15) (s : State) : Out := hArith d (fun c => hShift (hReg c a) (i.signExtend 64)) s
/-- HAND_reg (R371). -/
def execHandReg (d a b : BitVec 5) (s : State) : Out := hArith d (fun c => hReg c a &&& hReg c b) s
/-- HAND_imm (R371). -/
def execHandImm (d a : BitVec 5) (i : BitVec 15) (s : State) : Out := hArith d (fun c => hReg c a &&& i.signExtend 64) s
/-- HCMP_reg (R371). -/
def execHcmpReg (d a : BitVec 5) (cc : BitVec 3) (b : BitVec 5) (s : State) : Out :=
  hArith d (fun c => BitVec.ofNat 64 (bnat (hCompare cc (hReg c a) (hReg c b)))) s
/-- HCMP_imm (R371). -/
def execHcmpImm (d a : BitVec 5) (cc : BitVec 3) (i : BitVec 12) (s : State) : Out :=
  hArith d (fun c => BitVec.ofNat 64 (bnat (hCompare cc (hReg c a) (i.signExtend 64)))) s
/-- HMOV (R371). -/
def execHmov (d : BitVec 5) (i : BitVec 20) (s : State) : Out := hArith d (fun _ => i.signExtend 64) s
/-- HMOV_H (R371). -/
def execHmovH (d : BitVec 5) (i : BitVec 20) (s : State) : Out := hArith d (fun c => (hReg c d <<< 20) ||| i.setWidth 64) s

/-- A branch taken where a condition holds. -/
def hBranch {n : Nat} (take : ShCtx → Bool) (d : BitVec n) (s : State) : Out :=
  shuttleStep s fun c => if take c then .go (jumpBy c d) else .ok c

/-- HBR (R371). -/
def execHbr (a : BitVec 5) (d : BitVec 20) (s : State) : Out := hBranch (fun c => hReg c a != 0#64) d s
/-- HBR_Z (R371). -/
def execHbrZ (a : BitVec 5) (d : BitVec 20) (s : State) : Out := hBranch (fun c => hReg c a == 0#64) d s
/-- HJMP (R371). -/
def execHjmp (d : BitVec 26) (s : State) : Out := hBranch (fun _ => true) d s
/-- HLOOP (R371). -/
def execHloop (a : BitVec 5) (d : BitVec 20) (s : State) : Out :=
  shuttleStep s fun c =>
    let c' := setH c a (hReg c a - 1#64)
    if hReg c' a != 0#64 then .go (jumpBy c' d) else .ok c'

/-! ## Reads -/

/-- The context's accesses (R365, R369). -/
def shView (s : State) (c : ShCtx) : View := ctxView s c.priv c.id

/-- The lines that the prefetch buffer of a shuttle holds (R354). -/
def prefLines : Nat := 64

/-- The caches as a demand fetch of a context finds them (R195): a line in the shuttle's prefetch buffer needs no second-level access. -/
def shPass (s : State) (v : View) (va : Nat) (ls : List Loc) : State :=
  if cacheUse s v va != .none && (lineKeys ls).all s.cl.pref.contains then seenAt (l2Walks s v va ls.length) v va ls
  else l2Pass s v va ls false

/-- HLD (R371). -/
def execHld (d a : BitVec 5) (w : BitVec 2) (i : BitVec 14) (s : State) : Out :=
  shuttleStep s fun c =>
    let size := 2 ^ w.toNat
    let va := (hReg c a + i.signExtend 64).toNat
    if va % size != 0 then .bad shfAlign
    else
      match resolveAccess s (shView s c) .read va size with
      | .ok ls =>
        let s := shPass s (shView s c) va ls
        .put s (setH c d (BitVec.ofNat 64 (ofLeBytes (readLocs s ls))))
      | .error f => .miss f

/-- One line of a prefetch (R365): it comes through the second-level cache into the shuttle's buffer, whose oldest line goes where it is full. A line
that fails a check or translation is dropped, and one that no cache may hold is not fetched. The buffer holds lines by their keys: it is coherent,
so what it supplies is what memory holds (R354; log 126). -/
def prefetchLine (v : View) (s : State) (va : Nat) : State :=
  match resolveAccess s v .read va 1 with
  | .error _ => s
  | .ok ls =>
    let ks := (lineKeys ls).filter fun k => !s.cl.pref.contains k
    if ks.isEmpty || cacheUse s v va == .none then s
    else
      let s := l2Pass s v va ls false
      { s with cl := { s.cl with pref := (s.cl.pref ++ ks).drop (s.cl.pref.length + ks.length - prefLines) } }

/-- HPREF (R365, R371): RD + 1 lines from ha + DISP14. -/
def execHpref (n a : BitVec 5) (d : BitVec 14) (s : State) : Out :=
  shuttleStep s fun c =>
    let va := (hReg c a + d.signExtend 64).toNat
    .put ((List.range (n.toNat + 1)).foldl (fun s i => prefetchLine (shView s c) s ((va + 128 * i) % 2 ^ 64)) s) c

/-- An element of the source format as FP32 (R362). -/
def sourceWord (ty x : Nat) : Word :=
  BitVec.ofNat 32 (
    if ty = 2 then fround fp32 (ofInt (BitVec.ofNat 8 x).toInt)
    else if ty = 6 then fround fp32 (ofInt x)
    else if ty = 10 then x
    else fround fp32 (fdecode (fmtOfTy ty) false x))

/-- The current row of the open tile. -/
def curRow (c : ShCtx) : Nat := c.rows - 1

/-- The trap of an instruction that needs an open tile with a row (R366, R371). -/
def rowNeed (c : ShCtx) : Option Nat := if !c.isOpen then some shfTile else if c.rows = 0 then some shfRow else none

/-- The address of element `i` that an `HLDV` reads from `va`. -/
def elemVa (c : ShCtx) (va i : Nat) : Nat := (va + i * fmtBytes (srSfmt c.record)) % 2 ^ 64

/-- One element that an `HLDV` reads at its places, after others. -/
def loadElem (c : ShCtx) (r : State × List Word) (va : Nat) (ls : List Loc) : State × List Word :=
  let s := shPass r.1 (shView r.1 c) va ls
  (s, r.2 ++ [sourceWord (srSfmt c.record) (ofLeBytes (readLocs s ls))])

/-- The elements that an `HLDV` reads with the caches as the reads leave them, or the fault that stands for those that fail (R195, R223, R365). -/
def loadElems (s : State) (c : ShCtx) (va n : Nat) : Except XFault (State × List Word) :=
  let es := fmtBytes (srSfmt c.record)
  let rs := (List.range n).map fun i => (i, resolveAccess s (shView s c) .read (elemVa c va i) es)
  let bad := rs.filterMap fun e => match e.2 with | .error f => some (e.1, f) | .ok _ => none
  match (streamFault bad).or (bad.head?.map (·.2)) with
  | some f => .error f
  | none =>
    .ok (rs.foldl (fun r e => match e.2 with | .ok ls => loadElem c r (elemVa c va e.1) ls | .error _ => r) (s, []))

/-- HLDV (R362, R371). -/
def execHldv (d a b : BitVec 5) (s : State) : Out :=
  shuttleStep s fun c =>
    match rowNeed c with
    | some e => .bad e
    | none =>
      let n := (hReg c d).toNat
      let col := (hReg c b).toNat
      let va := (hReg c a).toNat
      let r := curRow c
      if c.pruned.testBit r || c.scaled.testBit r then .bad shfOrder
      else if n = 0 then .ok c
      else if srCols c.record < col + n then .bad shfCol
      else if va % fmtBytes (srSfmt c.record) != 0 then .bad shfAlign
      else
        match loadElems s c va n with
        | .error f => .miss f
        | .ok (s, ws) => .put s { c with buf := c.buf.take (64 * r + col) ++ ws ++ c.buf.drop (64 * r + col + n) }

/-! ## Tiles and rows -/

/-- KIND VOID of a carry entry (R361). -/
def carryVoid : Word := 0xC0000000#32

/-- HTILE (R359, R371). -/
def execHtile (a b : BitVec 5) (s : State) : Out :=
  shuttleStep s fun c =>
    let off := (lo32 (hReg c a)).toNat
    let co := (lo32 (hReg c b)).toNat
    let has := co != 0xFFFFFFFF
    let foot := tileFoot c.record
    if off % 128 != 0 || (has && co % 128 != 0) then .bad shfAlign
    else if s.team.share < off + foot || (has && s.team.share < co + 256) then .bad shfSpad
    else if s.team.full.any fun w => (off / 4 ≤ w && w < (off + foot) / 4) || (has && co / 4 ≤ w && w < (co + 256) / 4) then .wait
    else
      .ok { c with
        buf := List.replicate 4096 (srFill c.record), pruned := 0, scaled := 0, scales := List.replicate 128 0, carry := [], rows := 0
        tileOff := off, carryOff := co, isOpen := true }

/-- HTILE_OPEN (R359): a tile opens in the context in focus whose `HTILE` waits, once the words that it needs are empty. -/
def execHtileOpen (s : State) : Out :=
  match fetchShuttle s with
  | some (.htile a b) => execHtile a b s
  | _ => .next s

/-- A row instruction (R360): the carry entry of the new row, and the last real row after it. -/
def hRow (kind : Nat) (real : ShCtx → Nat) (s : State) : Out :=
  shuttleStep s fun c =>
    if !c.isOpen then .bad shfTile
    else if srRows c.record ≤ c.rows then .bad shfRow
    else
      let x := real c % 2 ^ 30
      .ok { c with carry := c.carry ++ [BitVec.ofNat 32 (kind * 2 ^ 30 + x)], rows := c.rows + 1, lastReal := x }

/-- HROW (R360). -/
def execHrow (a : BitVec 5) (s : State) : Out := hRow 0 (fun c => (hReg c a).toNat) s
/-- HVROW (R360). -/
def execHvrow (s : State) : Out := hRow 1 (·.lastReal) s
/-- HEMPTY (R360). -/
def execHempty (a : BitVec 5) (s : State) : Out := hRow 2 (fun c => (hReg c a).toNat) s

/-- The working value of an element. -/
def workWord (c : ShCtx) (r col : Nat) : Word := c.buf.getD (64 * r + col) 0#32
def workVal (c : ShCtx) (r col : Nat) : FVal := fdecode fp32 false (workWord c r col).toNat

/-- Whether one magnitude is larger than another (R363): a NaN counts as the largest. -/
def largerMag (x y : FVal) : Bool :=
  match x, y with
  | .nan, .nan => false
  | .nan, _ => true
  | _, .nan => false
  | .inf _, .inf _ => false
  | .inf _, _ => true
  | _, .inf _ => false
  | .fin _ m e, .fin _ n k => ltV (.fin false n k) (.fin false m e)

/-- Whether `HPRUNE` keeps a column of a row (R363): fewer than two columns of its group come before it. -/
def keepsCol (c : ShCtx) (r col : Nat) : Bool :=
  let g := col / 4 * 4
  let x := workVal c r col
  let before := ((List.range 4).map (g + ·)).filter fun j =>
    j != col && (largerMag (workVal c r j) x || (j < col && !largerMag x (workVal c r j)))
  before.length < 2

/-- The columns of a row that pruning leaves. -/
def keptCols (c : ShCtx) (r lo n : Nat) : List Nat :=
  ((List.range n).map (lo + ·)).filter fun j => !c.pruned.testBit r || keepsCol c r j

/-- A row pruned (R363). -/
def pruneRow (c : ShCtx) (r : Nat) : ShCtx := { c with pruned := c.pruned ||| (1 <<< r) }

/-- The scale of a block of a row (R33, R34, R363). -/
def rowScale (c : ShCtx) (r h : Nat) : Nat := blockScale (emaxOf (srTfmt c.record) []) ((keptCols c r (32 * h) 32).map (workVal c r))

/-- A row scaled, after it is pruned under SPARSE (R363). -/
def scaleRow (c : ShCtx) (r : Nat) : ShCtx :=
  let c := if srSparse c.record then pruneRow c r else c
  { c with
    scaled := c.scaled ||| (1 <<< r)
    scales := (List.range (srCols c.record / 32)).foldl (fun l h => l.set (2 * r + h) (rowScale c r h)) c.scales }

/-- HPRUNE (R363, R371). -/
def execHprune (s : State) : Out :=
  shuttleStep s fun c =>
    match rowNeed c with
    | some e => .bad e
    | none => if srSparse c.record then .ok (pruneRow c (curRow c)) else .bad shfFmt

/-- HSCALE (R363, R371). -/
def execHscale (d : BitVec 5) (s : State) : Out :=
  shuttleStep s fun c =>
    match rowNeed c with
    | some e => .bad e
    | none =>
      if !srScaled c.record then .bad shfFmt
      else
        let r := curRow c
        let c := scaleRow c r
        let x1 := if srCols c.record = 64 then c.scales.getD (2 * r + 1) 0 else 0
        .ok (setH c d (BitVec.ofNat 64 (c.scales.getD (2 * r) 0 + x1 * 256)))

/-! ## Emission (R358, R364) -/

/-- Rows 0 to TROWS − 1 pruned and scaled as the tile needs (R364 step 1). -/
def finishRows (c : ShCtx) : ShCtx :=
  (List.range (srRows c.record)).foldl (fun c r =>
    let c := if srSparse c.record && !c.pruned.testBit r then pruneRow c r else c
    if srScaled c.record && !c.scaled.testBit r then scaleRow c r else c) c

/-- An element as the tile stores it (R364 step 2). -/
def emitted (c : ShCtx) (r col : Nat) : Nat :=
  let ty := srTfmt c.record
  let v := workVal c r col
  if srScaled c.record then scaledElem ty [] (c.scales.getD (2 * r + col / 32) 0) {} v 0
  else fround (fmtOfTy ty) v

/-- The data bytes of a tile. -/
def emitData (c : ShCtx) : List Byte :=
  ((List.range (srRows c.record)).map fun r => ((keptCols c r 0 (srCols c.record)).map fun j =>
    leBytes (fmtBytes (srTfmt c.record)) (emitted c r j)).flatten).flatten

/-- The metadata nibble of a group: the positions of its two kept values. -/
def emitNibble (c : ShCtx) (r g : Nat) : Nat :=
  let ks := keptCols c r (4 * g) 4
  ks.getD 0 0 % 4 + 4 * (ks.getD 1 0 % 4)

/-- The metadata and scale bytes of a tile. -/
def emitMeta (c : ShCtx) : List Byte :=
  if srSparse c.record then
    ((List.range (srRows c.record)).map fun r => (List.range (srCols c.record / 8)).map fun b =>
      BitVec.ofNat 8 (emitNibble c r (2 * b) + 16 * emitNibble c r (2 * b + 1))).flatten
  else []
def emitScales (c : ShCtx) : List Byte :=
  if srScaled c.record then
    ((List.range (srRows c.record)).map fun r => (List.range (srCols c.record / 32)).map fun h =>
      BitVec.ofNat 8 (c.scales.getD (2 * r + h) 0)).flatten
  else []

/-- The footprint of a tile with its zeros (R358, R364 step 3). -/
def tileBytes (c : ShCtx) : List Byte :=
  let bs := emitData c ++ emitMeta c ++ emitScales c
  bs ++ List.replicate (tileFoot c.record - bs.length) 0#8

/-- The carry table (R361). -/
def carryBytes (c : ShCtx) : List Byte := bytesOfWords (c.carry ++ List.replicate (64 - c.carry.length) carryVoid)

/-- The scratchpad places of a tile and its carry table. -/
def emitPlaces (c : ShCtx) : List Loc :=
  ((List.range (tileFoot c.record)).map fun i => .spad (c.tileOff + i)) ++
    (if c.carryOff == 0xFFFFFFFF then [] else (List.range 256).map fun i => .spad (c.carryOff + i))

/-- HEMIT (R364, R371): it waits until earlier operations have written what they own there (R245). -/
def execHemit (s : State) : Out :=
  shuttleStep s fun c =>
    if !c.isOpen then .bad shfTile
    else if (emitPlaces c).any (ownedBy s s.team.id c.id 0) then .wait
    else
      let c := finishRows c
      let t := fillSpadBytes s.team c.tileOff (tileBytes c)
      let t := if c.carryOff == 0xFFFFFFFF then t else fillSpadBytes t c.carryOff (carryBytes c)
      .put { s with team := t } { c with isOpen := false, tiles := c.tiles + 1 }

/-- HEND (R371, R377). -/
def execHend (s : State) : Out :=
  shuttleStep s fun c => .go { c with phase := .ended, reached := true, leftOpen := c.isOpen, isOpen := false }

/-- SHUTTLE_UNDEFINED_WORD (R366, R374): a cursor outside the program, an opcode that is not defined, or a reserved field. -/
def execShuttleUndefinedWord (w : Word) (s : State) : Out :=
  let op := w.toNat / 2 ^ 26
  shuttleStep s fun c => .bad (if c.prog.length ≤ c.cursor then shfPcr else if op == 0 || 0x14 < op then shfOpc else shfRsv)

/-! ## From a wave (R375 to R377) -/

/-- How many contexts the shuttle of a cluster holds (R354). -/
def shuttleHeld (s : State) (cl : Nat) : Nat :=
  (((s.team :: s.teams.map (·.1)).filter fun t => t.present && t.core / 8 == cl).map fun t => (teamShs t).length).foldl (· + ·) 0

/-- The handle that `SHSTART` takes: the lowest that the team does not use (log 116). -/
def freeHandle (t : Team) : Option Nat := (List.range 4).find? fun h => !((teamShs t).map (·.handle)).contains h

/-- The program words from an address (R376 step 6), with the caches as their reads leave them. -/
def loadProgram (ic : Ic) : Nat → State → Nat → Except Act (State × List Word)
  | 0, s, _ => .ok (s, [])
  | n + 1, s, va =>
    match readOne s ic (va % 2 ^ 64) 4 with
    | .error a => .error a
    | .ok (s, bs) => (loadProgram ic n s (va + 4)).map fun r => (r.1, BitVec.ofNat 32 (ofLeBytes bs) :: r.2)

/-- A context added to the team. -/
def addSh (s : State) (c : ShCtx) : State :=
  { s with team := { s.team with sh := c, shs := teamShs s.team }, nextId := s.nextId + 1 }

/-- SHSTART (R376). -/
def execShstart (f : Fields) (s : State) : Out :=
  issue eShstart f s fun ic s =>
    let a := (ic.u0 true).toNat
    let cl := s.team.core / 8
    if a % 64 != 0 then .trap alignTrap
    else if !s.part.shMask.getLsbD cl then .ok (ic.writeAll s false 0x101#64)
    else
      match readOne s ic a 64 with
      | .error e => e
      | .ok (s, bs) =>
        let r : StartRec := BitVec.ofNat 512 (ofLeBytes bs)
        if startBad r then .trap (shape shShrec)
        else
          match freeHandle s.team, decide (4 ≤ shuttleHeld s cl) with
          | none, _ => .ok (ic.writeAll s false 0x100#64)
          | _, true => .ok (ic.writeAll s false 0x100#64)
          | some h, false =>
            match loadProgram ic (srPlen r) s (srProg r) with
            | .error e => e
            | .ok (s, ws) =>
              let c : ShCtx :=
                { id := s.nextId, handle := h, cluster := cl, issuer := s.m.id, priv := memberPriv s, phase := .running
                  regs := (List.replicate 32 0#64).set 1 (ic.u1 true), prog := ws, record := r }
              .ok (ic.writeAll (addSh s c) false (BitVec.ofNat 64 h))

/-- The status of a context that has ended (R377). -/
def shStatus (c : ShCtx) : Dword :=
  BitVec.ofNat 64 (c.tiles % 2 ^ 16 * 2 ^ 32 + (if c.cancelled then c.cause % 2 ^ 8 else 0) * 2 ^ 24 + bnat c.leftOpen * 4 +
    bnat c.cancelled * 2 + bnat c.reached)

/-- The other members that wait on a handle are given its status (R377). -/
def tellWaiters (s : State) (h : Nat) (st : Dword) : State :=
  let sub (w : Option Wait) : Option Wait := if w == some (.shuttle h) then some (.shuttleDone st) else w
  { s with peers := s.peers.map fun m =>
      { m with wait := sub m.wait, pre := { m.pre with wait := sub m.pre.wait }, frames := m.frames.map fun f => { f with wait := sub f.wait } } }

/-- A context's slot released. -/
def dropSh (s : State) (id : Nat) : State :=
  let t := s.team
  { s with team := { t with sh := if t.sh.id == id then {} else t.sh, shs := t.shs.filter fun c => c.id != id } }

/-- SHWAIT (R366, R377): a fault that it delivers comes before anything of this (R447); one that another member's handler has is waited for. -/
def execShwait (f : Fields) (s : State) : Out :=
  issue eShwait f s fun ic s =>
    let h := (ic.u0 false).toNat % 4
    match ic.old with
    | some (.shuttleDone st) => .ok (ic.writeAll s false st)
    | _ =>
      match (teamShs s.team).find? fun c => c.handle == h with
      | none => .ok (ic.writeAll s false 0#64)
      | some c =>
        match c.phase with
        | .running => .sleep (.shuttle h)
        | .faulted => .sleep (.shuttle h)
        | .ended => .ok (ic.writeAll (tellWaiters (dropSh s c.id) h (shStatus c)) false (shStatus c))

/-! ## CFIX (R378) -/

/-- KIND of a carry entry in a table. -/
def carryKind (e : Word) : Nat := e.toNat / 2 ^ 30

/-- The operation and the identity of `CFIX`. -/
def cfixOp (op x y : Nat) : Nat :=
  let v (z : Nat) : FVal := fdecode fp32 false z
  match op with
  | 0 => fround fp32 (addV rndRN (v x) (v y))
  | 1 => (x + y) % 2 ^ 32
  | 2 => fround fp32 (maxV (v x) (v y))
  | _ => fround fp32 (minV (v x) (v y))
def cfixId (op : Nat) : Nat := if op = 2 then infBits fp32 true else if op = 3 then infBits fp32 false else 0

/-- The running values of the lanes: from the entries, the values and the value carried in. A value that no operation combines is taken as it is,
also a NaN (log 113). -/
def cfixRun (op : Nat) : List (Word × Nat) → Nat → List Nat
  | [], _ => []
  | (e, v) :: r, x =>
    let y := if carryKind e = 1 then cfixOp op x v else v
    y :: cfixRun op r y

/-- CFIX (R378). -/
def execCfix (f : Fields) (s : State) : Out :=
  issue eCfix f s fun ic s =>
    let op := modBits f 2 0
    let off := (lo32 (ic.u1 false)).toNat
    let ws := (List.range 32).map (off / 4 + ·)
    let word (o : Operand) (raw : Dword) : Nat := if op = 1 then (lo32 raw).toNat else floatBits 0 o raw
    if s.team.width != 32 then .trap (emuTrap .width)
    else if off % 4 != 0 then .trap alignTrap
    else if s.team.share < off + 128 then .trap (spadTrap ic.rd .read (ic.lanes.map fun l => (l, off)))
    else
      match spadLost s.team ws with
      | some t => .trap t
      | none =>
        match ic.waitWords s ws true with
        | some w => .sleep w
        | none =>
          let es := ws.map (spadWord s.team)
          let s := { s with team := mendWords s.team ws }
          let carry := if ic.opnd f.s2 == .none then cfixId op else word (ic.opnd f.s2) (ic.u2 false)
          let v (l : Nat) : Nat :=
            if ic.act.getLsbD l && carryKind (es.getD l 0#32) ≤ 1 then word (ic.opnd f.s0) (ic.src0 false l) else cfixId op
          let xs := cfixRun op ((List.range 32).map fun l => (es.getD l 0#32, v l)) carry
          let last (l : Nat) : Bool := l == 31 || carryKind (es.getD (l + 1) 0#32) != 1
          .ok (ic.write s false fun l => BitVec.ofNat 64 (if last l then xs.getD l 0 else cfixId op))

end Sys2Proof.Machine
end

