-- ==== Sys2Proof/Machine/Sched.lean ====
section
/-!
DEFINITION. Launches, kernel descriptors, bind records and pre-emption (spec/18_scheduler.md R421 to R440; spec/21_loading.md R485 to R488,
R492).
-/
namespace Sys2Proof.Machine

/-! ## Kernel descriptors (R485 to R488) -/

abbrev KDesc := BitVec 1024

def kdScratch (k : KDesc) : Nat := fld k 638 619
def kdUnif (k : KDesc) : Nat := fld k 618 612
def kdAcc (k : KDesc) : Nat := fld k 611 608
def kdDrift (k : KDesc) : Nat := fld k 607 604
def kdWidthCode (k : KDesc) : Nat := fld k 603 601
def kdOcc (k : KDesc) : Bool := bit k 599
def kdNrole (k : KDesc) : Nat := fld k 598 596
def kdIsa (k : KDesc) : Nat := fld k 595 592
def kdVersion (k : KDesc) : Nat := fld k 591 576
def kdRole (k : KDesc) (r : Nat) : Dword := BitVec.ofNat 64 (fld k (64 * r + 191) (64 * r + 128))
def kdPreempt (k : KDesc) : Dword := BitVec.ofNat 64 (fld k 127 64)
def kdEntry (k : KDesc) : Dword := BitVec.ofNat 64 (fld k 63 0)

def reShare (e : Dword) : Nat := fld e 49 30
def reRegs (e : Dword) : Nat := fld e 29 21
def reCount (e : Dword) : Nat := fld e 15 8
def reKind (e : Dword) : Nat := fld e 1 0

/-- The declared width in lanes (R82, R485); `free` is 32. -/
def kdWidth (k : KDesc) : Nat :=
  match kdWidthCode k with
  | 1 => 64 | 2 => 128 | 3 => 16 | _ => 32

/-- The role entries in use. -/
def kdRoles (k : KDesc) : List Dword := (List.range (kdNrole k)).map (kdRole k)

/-- The summed counts of the roles of a kind. -/
def kdCount (k : KDesc) (kind : Nat) : Nat := (((kdRoles k).filter fun e => reKind e == kind).map reCount).foldl (· + ·) 0

/-- Whether a role entry breaks R486 or R488. -/
def roleBad (width : Nat) (e : Dword) : Bool :=
  fld e 63 50 != 0 || fld e 20 16 != 0 || fld e 7 2 != 0 || 524288 < reShare e ||
    (match reKind e with
     | 0 => reCount e == 0 || 32 < reCount e || 256 < reRegs e || (width == 64 && reCount e % 2 != 0) || (width == 128 && reCount e % 4 != 0)
     | 1 => reCount e == 0 || 4 < reCount e || reRegs e != 0
     | 2 => reCount e != 1 || reRegs e != 0
     | _ => true)

/-- Whether an address breaks the rule for ENTRY and PREEMPT (R488). -/
def codeAddrBad (a : Dword) : Bool := a.toNat % 4 != 0 || fld a 63 48 != 0

/-- Whether a descriptor is invalid (R486, R488). -/
def kdBad (k : KDesc) : Bool :=
  kdVersion k != 1 || fld k 1023 648 != 0 || bit k 639 || fld k 647 644 != 0 ||
    codeAddrBad (kdEntry k) || codeAddrBad (kdPreempt k) || kdEntry k == 0#64 ||
    kdIsa k == 0 || kdDrift k == 0 || 8 < kdAcc k || 64 < kdUnif k || 524288 < kdScratch k || 4 < kdWidthCode k ||
    kdNrole k == 0 || kdCount k 0 == 0 || 1 < kdCount k 2 || 32 < kdCount k 0 || 4 < kdCount k 1 ||
    (kdRoles k).any (roleBad (kdWidth k)) ||
    ((List.range 7).drop (kdNrole k)).any (fun r => kdRole k r != 0#64) ||
    roundUp (kdScratch k) 128 < ((kdRoles k).map fun e => roundUp (reShare e) 128).foldl (· + ·) 0

/-- The bytes of some places as the dispatcher reads them, at their home; else whether it is an uncorrectable error that keeps it from them
(R18, R502, R509). -/
def homeRead (s : State) (r : Except XFault (List Loc)) : Except Bool (List Byte) :=
  match r with
  | .ok ls => if ls.any (lostHome s) || ls.any (peerAt s) then .error true else .ok (ls.map (homeByte s))
  | .error e => .error (e.cls == .ras)

/-- A descriptor read through the context in focus (R485); else whether an uncorrectable error keeps it from being read (R18). -/
def readKd (s : State) (va : Nat) : Except Bool KDesc :=
  if va % 128 != 0 then .error false
  else (homeRead s (resolveRange s (ctxView s s.ctx.priv 0) .read va 128)).map fun bs => BitVec.ofNat 1024 (ofLeBytes bs)

/-- A launch or record of the context in focus whose descriptor or image has an uncorrectable error ends the context (R18, R425; log 127). -/
def endRead (s : State) (lost : Bool) : State := if lost then endContext (parkTeam s) statusRas else s

/-! ## Bind records (R426) -/

abbrev BindRec := BitVec 256

def brKd (r : BindRec) : Nat := fld r 239 192
def brTeamId (r : BindRec) : Nat := fld r 191 160
def brQuantum (r : BindRec) : Nat := fld r 135 112
def brLines (r : BindRec) : Nat := fld r 88 76
def brBase (r : BindRec) : Nat := fld r 75 64
def brSlots (r : BindRec) : Nat := fld r 63 32
def brResume (r : BindRec) : Bool := bit r 22
def brAcc (r : BindRec) : Nat := fld r 20 13
def brQset (r : BindRec) : Nat := fld r 12 11
def brQsv (r : BindRec) : Bool := bit r 10
def brAps (r : BindRec) : Nat := fld r 9 6
def brMx (r : BindRec) : Bool := bit r 5
def brDecode (r : BindRec) : Bool := bit r 1
def brValid (r : BindRec) : Bool := bit r 0

/-- The outcome written into a record (R427): REFUSE, with V cleared where it is refused. -/
def refuse (r : BindRec) (code : Nat) : BindRec :=
  let r := setFld r 255 248 code
  if code = 0 then r else clearV r

/-- Whether a reserved field of a record is set (R426). -/
def brReserved (r : BindRec) : Bool := fld r 247 240 != 0 || fld r 159 152 != 0 || fld r 111 89 != 0 || fld r 31 23 != 0

/-- Whether two records name a resource in common (R427). -/
def overlap (a b : BindRec) : Bool :=
  brSlots a &&& brSlots b != 0 || brAcc a &&& brAcc b != 0 || brAps a &&& brAps b != 0 || (brMx a && brMx b) ||
    (brQsv a && brQsv b && brQset a == brQset b) ||
    (brBase a < brBase b + brLines b && brBase b < brBase a + brLines a && brLines a != 0 && brLines b != 0)

/-- The valid records of a core, those of one slot apart. -/
def validRecs (c : Core) (slot : Nat) : List BindRec := (c.recs.filter fun e => e.1 != slot && brValid e.2).map (·.2)

/-- The wave slots of an issue slot that a map names, as 8 × issue slot + slot. -/
def slotsIn (map i : Nat) : List Nat := (bitsBelow 8 (map / 2 ^ (8 * i))).map fun j => 8 * i + j

/-- The issue groups' wave slots in WAVEID order (R82); none where they break the coupling. -/
def slotGroups (width map : Nat) : Option (List (List Nat)) :=
  let a := slotsIn map 0
  let b := slotsIn map 1
  let c := slotsIn map 2
  let d := slotsIn map 3
  if width = 64 then
    if a.length = b.length && c.length = d.length then
      some ((a.zip b).map (fun p => [p.1, p.2]) ++ (c.zip d).map fun p => [p.1, p.2])
    else none
  else if width = 128 then
    if a.length = b.length && b.length = c.length && c.length = d.length then
      some ((a.zip (b.zip (c.zip d))).map fun p => [p.1, p.2.1, p.2.2.1, p.2.2.2])
    else none
  else some ((a ++ b ++ c ++ d).map fun x => [x])

/-- The set bits of a number below 64 in all. -/
def popBits (x : Nat) : Nat := (bitsBelow 64 x).length

/-- Whether a record's counts differ from a team's needs: waves, tiles, lines, access processors and sequencers (R427). -/
def countsDiffer (r : BindRec) (waves acc lines aps mxs : Nat) : Bool :=
  popBits (brSlots r) != waves || popBits (brAcc r) != acc || brLines r != lines || popBits (brAps r) != aps ||
    bnat (brMx r) != mxs || brQsv r != decide (0 < aps) || 4096 < brBase r + brLines r

/-! ## Launches -/

def statusBadGrid : Nat := 2
def statusBadKd : Nat := 3
def statusBadRec : Nat := 4
def statusNoRes : Nat := 1
def statusNoMem : Nat := 7

/-- A launch of the partition in focus, by its number. -/
def launchById (s : State) (id : Nat) : Option Launch := s.part.launches.find? fun l => l.id == id

/-- A launch of the partition in focus changed. -/
def onLaunch (s : State) (id : Nat) (g : Launch → Launch) : State :=
  { s with part := { s.part with launches := s.part.launches.map fun l => if l.id == id then g l else l } }

/-- The partition that holds a launch comes into focus. -/
def pickLaunch (s : State) (id : Nat) : State :=
  if (launchById s id).isSome then s
  else
    match s.parts.find? fun p => p.launches.any fun l => l.id == id with
    | some p => pickPart s p.num
    | none => s

/-- Whether a launch has completed (R425). -/
def launchOver (l : Launch) : Bool := l.phase == .done

/-- The handle entries of a packet (R422): MODE and number. -/
def packetHandles (x : BitVec 1024) : List Dword := (List.range 7).map fun e => BitVec.ofNat 64 (fld x (64 * e + 639) (64 * e + 576))

/-- Whether a packet is malformed (R422). -/
def packetBad (x : BitVec 1024) : Bool :=
  let nh := fld x 514 512
  fld x 543 518 != 0 || ((packetHandles x).drop nh).any (fun h => h != 0#64) ||
    ((packetHandles x).take nh).any fun h => fld h 63 62 == 0 || fld h 61 32 != 0

/-- The launches after which R247 orders a launch that names a handle in a mode (0b01 read; 0b10, 0b11 write): those of the newest writer, and
for a write every reader since. -/
def orderedAfter (ls : List Launch) (h mode : Nat) : List Nat :=
  let uses := ls.reverse.filterMap fun l => (lookupKey h l.handles).map fun m => (l.id, m)
  let readers := uses.takeWhile fun u => u.2 == 1
  let writer := (uses.drop readers.length).take 1
  (writer ++ (if mode == 1 then [] else readers)).map (·.1)

/-- The handles that launches which have not completed name (R423). -/
def liveHandles (ls : List Launch) : List Nat := (((ls.filter fun l => !launchOver l).map fun l => l.handles.map (·.1)).flatten).eraseDups

/-- A packet's handles with their modes; one named twice takes both modes. -/
def handleModes (hs : List Dword) : List (Nat × Nat) :=
  hs.foldl (fun acc h => insertKey (fld h 31 0) (fld h 63 62 ||| (lookupKey (fld h 31 0) acc).getD 0) acc) []

/-- The context that a packet's launch runs in is live in the partition in focus. -/
def launchCtxLive (s : State) (id : Nat) : Bool := (s.ctx :: s.ctxs).any fun c => c.alive && c.part == s.part.num && c.id == id

/-- A packet of a port's ring taken (R422, R423); none while its handles find no room. A launch whose context is gone fails (log 96). -/
def takePacket (s : State) (port ctx : Nat) (packet : List Byte) : Option State :=
  let x : BitVec 1024 := BitVec.ofNat 1024 (ofLeBytes packet)
  let r : BitVec 512 := BitVec.ofNat 512 (fld x 511 0)
  let cookie : Word := BitVec.ofNat 32 (fld x 575 544)
  let prio := fld x 517 515
  let failed (status : Nat) : Option State :=
    some (addLaunch s { newLaunch s r false port prio ctx cookie [] [] with phase := .failed status })
  if packetBad x then failed statusBadRec
  else if !launchCtxLive s ctx then failed statusTerm
  else
    let hs := handleModes ((packetHandles x).take (fld x 514 512))
    if 4096 < (liveHandles s.part.launches ++ hs.map (·.1)).eraseDups.length then none
    else
      let after := ((hs.map fun h => orderedAfter s.part.launches h.1 h.2).flatten).eraseDups
      some (addLaunch s (newLaunch s r false port prio ctx cookie hs after))

/-- The command ring of a port in the partition in focus, and the partition with one. -/
def cmdRing (s : State) (port : Nat) : CmdRing := s.part.cmds.getD port {}
def setCmdRing (s : State) (port : Nat) (r : CmdRing) : State := { s with part := { s.part with cmds := s.part.cmds.set port r } }

/-- The packet at the head of a ring with its context. -/
def ringHead (r : CmdRing) : Option (Nat × List Byte) := if r.taken = r.tail then none else lookupKey (r.taken % 2 ^ r.bits) r.slots

/-- The command processor takes the packets of a port's ring in order, up to one that waits at the head (R422, R423). -/
def drainRing (port : Nat) : Nat → State → State
  | 0, s => s
  | n + 1, s =>
    let r := cmdRing s port
    match ringHead r with
    | none => s
    | some (ctx, packet) =>
      match takePacket s port ctx packet with
      | none => s
      | some s => drainRing port n (setCmdRing s port { r with taken := r.taken + 1, slots := eraseKey (r.taken % 2 ^ r.bits) r.slots })

/-- Both rings of the partition in focus are looked at again. -/
def drainRings (s : State) : State :=
  let s := drainRing 0 ((cmdRing s 0).tail - (cmdRing s 0).taken) s
  drainRing 1 ((cmdRing s 1).tail - (cmdRing s 1).taken) s

/-- LAUNCH_PACKET (R422, R423): the host places a packet in the command ring of its function, where the ring has room, and advances the tail. -/
def execLaunchPacket (port : BitVec 1) (partNo : BitVec 3) (ctx : BitVec 16) (packet : List Byte) (s : State) : Out :=
  let s := pickPart s partNo.toNat
  let r := cmdRing s port.toNat
  if !(s.part.present && s.part.num == partNo.toNat) || packet.length != 128 || 2 ^ r.bits ≤ r.tail - r.taken then .next s
  else
    let slots := insertKey (r.tail % 2 ^ r.bits) (ctx.toNat, packet) r.slots
    .next (drainRings (setCmdRing s port.toNat { r with slots := slots, tail := r.tail + 1 }))

/-- The number of teams of a grid (R79). -/
def gridTeams (r : BitVec 512) : Nat := (lnGrid r).foldl (· * ·) 1

/-- How many teams of a kernel fit in what some valid records leave of a core (R78, R82, R85). -/
def fitOn (k : KDesc) (recs : List BindRec) : Nat :=
  let used (g : BindRec → Nat) : Nat := (recs.map g).foldl (· ||| ·) 0
  let slots := used brSlots
  let free (i : Nat) : Nat := 8 - (slotsIn slots i).length
  let waves := kdCount k 0
  let w := kdWidth k
  let byWaves :=
    if w = 64 then (min (free 0) (free 1) + min (free 2) (free 3)) / (waves / 2)
    else if w = 128 then min (min (free 0) (free 1)) (min (free 2) (free 3)) / (waves / 4)
    else (free 0 + free 1 + free 2 + free 3) / waves
  let lines := roundUp (kdScratch k) 128 / 128
  let line (l : Nat) : Bool := recs.any fun r => decide (brBase r ≤ l) && decide (l < brBase r + brLines r)
  let runs := (List.range 4096).foldl (fun (acc : Nat × Nat) l =>
    if line l then (acc.1, 0) else if acc.2 + 1 = lines then (acc.1 + 1, 0) else (acc.1, acc.2 + 1)) (0, 0)
  let aps := kdCount k 1
  let queues := 4 - (recs.filter brQsv).length
  let per (free need : Nat) (n : Nat) : Nat := if need = 0 then n else min n (free / need)
  let n := min byWaves (32 - recs.length)
  let n := if lines = 0 then n else min n runs.1
  let n := per (8 - popBits (used brAcc)) (kdAcc k) n
  let n := per (4 - popBits (used brAps)) aps n
  let n := if aps = 0 then n else min n queues
  if kdCount k 2 = 0 then n else min n (1 - bnat (recs.any brMx))

/-- The cores of the partition in focus that teams may run on (R12, R16). -/
def partCores (s : State) : List Nat := (s.part.coreMask.map fun e => (bitsBelow 8 e.2.toNat).map fun i => 8 * e.1 + i).flatten

/-- The core of a number, wherever it stands. -/
def coreOf (s : State) (n : Nat) : Core := if s.core.num == n then s.core else (s.cores.find? fun c => c.num == n).getD { num := n }

/-- How many teams of a kernel fit on the partition: when it is idle, or now (R85). -/
def fitPart (s : State) (k : KDesc) (idle : Bool) : Nat :=
  ((partCores s).map fun c => fitOn k (if idle then [] else validRecs (coreOf s c) 32)).foldl (· + ·) 0

/-- The check of a launch whose turn it is (R424, R425): a status it fails with, that it is still held (R85), or that it is ready. -/
def launchCheck (s : State) (l : Launch) : LaunchPhase :=
  let n := gridTeams l.record
  if lnReserved l.record then .failed statusBadRec
  else if n = 0 || 2 ^ 32 < n then .failed statusBadGrid
  else
    match readKd s (lnKd l.record) with
    | .error lost => .failed (if lost then statusRas else statusBadKd)
    | .ok k =>
      if kdBad k then .failed statusBadKd
      else if !kdOcc k then .ready
      else if fitPart s k true < n then .failed statusNoRes
      else if fitPart s k false < n then .held
      else .ready

/-- The L1 caches of some cores written back and discarded. -/
def flushCores (s : State) (cs : List Nat) : State :=
  let held := cs.filter fun c => (s.core :: s.cores).any fun k => k.num == c
  pickCore (held.foldl (fun s c => l1Flush (pickCore s c)) s) s.core.num

/-- The caches of the partition in focus written back and invalidated (R247, R423; log 97). -/
def flushPart (s : State) : State :=
  let s := flushCores s (partCores s)
  { s with part := { s.part with l2 := [] } }

/-- A launch becomes ready, behind those that are (R424); where others came before it under R247, their lines are flushed first (R423). -/
def becomeReady (s : State) (l : Launch) : State :=
  let s := if l.after.isEmpty then s else flushPart s
  let s := onLaunch s l.id fun l => { l with phase := .ready, order := s.part.readyClock }
  { s with part := { s.part with readyClock := s.part.readyClock + 1 } }

/-- LAUNCH_READY (R424, R425): a launch that nothing holds back passes its checks, or fails; an uncorrectable error in its descriptor ends its
context (R18). -/
def execLaunchReady (id : Nat) (s : State) : Out :=
  let s := pickLaunch s id
  match launchById s id with
  | none => .next s
  | some l =>
    let open_ := s.part.launches.filter fun o => !launchOver o
    if l.phase != .held || !l.released || l.after.any (fun a => open_.any fun o => o.id == a) then .next s
    else
      let s := pickCtx s s.part.num l.ctx
      match launchCheck s l with
      | .ready => .next (becomeReady s l)
      | p => .next (endRead (onLaunch s id fun l => { l with phase := p }) (p == .failed statusRas))

/-- Whether a team of a launch is resident or saved. -/
def hasTeams (s : State) (id : Nat) : Bool :=
  (s.team.present && s.team.launch == id) || s.teams.any (fun t => t.1.launch == id) || s.part.saved.any fun e => e.2.1.launch == id

/-- The completion entry of a launch (R425). -/
def completionOf (l : Launch) (status : Nat) : BitVec 128 :=
  BitVec.ofNat 128 ((l.last - l.first) % 2 ^ 64 * 2 ^ 64 + status * 2 ^ 32 + l.cookie.toNat)

/-- The status that a launch completes with, once it may (R425, R492). -/
def finalStatus (s : State) (l : Launch) : Option Nat :=
  match l.phase with
  | .failed st => if hasTeams s l.id then none else some st
  | .running => if l.ended == gridTeams l.record && !hasTeams s l.id then some 0 else none
  | _ => none

/-- A completion entry written into the ring of a port's function (R421, R425). -/
def putDone (s : State) (port : Nat) (entry : BitVec 128) : State :=
  let r : DoneRing := s.part.dones.getD port {}
  let r := { r with slots := insertKey (r.written % 2 ^ r.bits) entry r.slots, written := r.written + 1 }
  { s with part := { s.part with dones := s.part.dones.set port r } }

/-- LAUNCH_COMPLETE (R420, R425): the completion entry is written, DONEDC is counted down, and the command rings are looked at again (R423). -/
def execLaunchComplete (id : Nat) (s : State) : Out :=
  let s := pickLaunch s id
  match launchById s id with
  | none => .next s
  | some l =>
    match finalStatus s l with
    | none => .next s
    | some st =>
      let s := onLaunch s id fun l => { l with phase := .done }
      let s := putDone s l.port (completionOf l st)
      .next (drainRings (if lnDoneDcv l.record then countDown s (lnDoneDc l.record) 1 else s))

/-! ## Binding -/

/-- The position of a team in its grid (R79). -/
def teamPos (g : List Nat) (id : Nat) : List Nat :=
  let x := g.getD 0 1
  let y := g.getD 1 1
  [id % x, id / x % y, id / (x * y)]

/-- The window of a new member (R73, R280, R306). -/
def newWindow (kind : Kind) (budget unif : Nat) (arg : Dword) : RegFile :=
  { vregs := [], kregs := arg :: List.replicate 63 0#64, preds := List.replicate 7 0#128, budget := budget
    unif := if kind = .ap then 64 else unif }

/-- A new member of a role (R73, R280, R306, R380 to R382). -/
def newMember (p : Partition) (arg entry : Dword) (unif : Nat) (roles : List RoleDef) (role : Nat) (kind : Kind) (budget lanes : Nat) : Member :=
  { kind := kind, status := .running, role := BitVec.ofNat 3 role, cursor := entry, exec := allLanes lanes, live := allLanes lanes
    rf := newWindow kind budget unif arg, rsctr := List.replicate lanes 0#32
    xstat := BitVec.ofNat 64 (p.devId * 2 ^ 56)
    rspbase := BitVec.ofNat 64 (((roles.take role).map (·.share)).foldl (· + ·) 0) }

/-- The roles of a kernel as a team holds them (R81, R487). -/
def roleDefs (k : KDesc) : List RoleDef :=
  (kdRoles k).map fun e =>
    { kind := if reKind e = 0 then .wave else if reKind e = 1 then .ap else .mx, count := reCount e, budget := roundUp (reRegs e) 8
      share := roundUp (reShare e) 128 }

/-- The first WAVEID, or the first access processor among the team's, of a role (R380). -/
def roleFirst (roles : List RoleDef) (r : Nat) (kind : Kind) : Nat :=
  ((roles.take r).filter fun d => d.kind = kind).map (·.count) |>.foldl (· + ·) 0

/-- The members of a team (R380): the groups of the wave roles, the access processors and the sequencer, role by role. `sr.lorig` of a lane counts
from the lowest wave of its group (log 114). -/
def newMembers (p : Partition) (k : KDesc) (arg : Dword) (groups : List (List Nat)) (aps : List Nat) (stores : List Dword) : List Member :=
  let roles := roleDefs k
  let w := kdWidth k
  let per := max 1 (w / 32)
  let mk := newMember p arg (kdEntry k) (kdUnif k) roles
  let wave (r : Nat) (d : RoleDef) (g half : Nat) : Member :=
    let first := roleFirst roles r .wave
    let id := first + per * g
    let one := if w = 16 then 2 * id + half else id / per
    { mk r .wave d.budget w with
      memNo := per * g, waveId := id, slots := groups.getD (id / per) [], half := half, bsbase := stores.getD one 0#64
      lorig := (List.range w).map fun l => BitVec.ofNat 32 (32 * id + l) }
  let ofRole (e : RoleDef × Nat) : List Member :=
    match e.1.kind with
    | .wave =>
      ((List.range (e.1.count / per)).map fun g =>
        if w = 16 then [wave e.2 e.1 g 0, wave e.2 e.1 g 1] else [wave e.2 e.1 g 0]).flatten
    | .ap => (List.range e.1.count).map fun i =>
        { mk e.2 .ap 0 1 with memNo := i, apNum := aps.getD (roleFirst roles e.2 .ap + i) 0, rsctr := [0#32], lorig := [0#32] }
    | .mx => [{ mk e.2 .mx 0 1 with rsctr := [0#32], lorig := [0#32] }]
  (roles.zipIdx.map ofRole).flatten

/-- The team barriers' masks at binding: every declared role takes part (R401). -/
def newTbmask (n : Nat) : List Dword :=
  let byte := 2 ^ n - 1
  let x : Dword := BitVec.ofNat 64 ((List.range 8).foldl (fun a i => a + byte * 2 ^ (8 * i)) 0)
  [x, x]

/-- A new team (R73, R173, R284, R303, R331, R401). -/
def newTeam (s : State) (core : Nat) (r : BindRec) (l : Launch) (k : KDesc) : Team :=
  let g := lnGrid l.record
  let n := kdAcc k
  { present := true, id := s.nextId, teamId := BitVec.ofNat 32 (brTeamId r), part := s.part.num, ctx := l.ctx, core := core, launch := l.id
    roles := roleDefs k, width := kdWidth k, grid := g, pos := teamPos g (brTeamId r), entry := kdEntry k, handler := kdPreempt k
    share := roundUp (kdScratch k) 128, qset := brQsv r, queues := if brQsv r then List.replicate 16 [] else []
    chans := List.replicate 8 [], bars := List.replicate 16 {}, tbmask := newTbmask (kdNrole k), undeliv := List.replicate 64 0#8
    tiles := List.replicate n (newTile (brDecode r)), cbs := List.replicate (2 * n) (List.replicate 32 0#8)
    rels := List.replicate n (List.replicate 128 0#8), trees := List.replicate (n / 2) [], drift := kdDrift k, bindrec := r
    ranFrom := s.cycle }

/-- The members with their identifiers, from a first one. -/
def numbered (n : Nat) (ms : List Member) : List Member := ms.zipIdx.map fun e => { e.1 with id := n + e.2 }

/-- A record stored in the slot table of the core in focus. -/
def putRec (s : State) (slot : Nat) (r : BindRec) : State := { s with core := { s.core with recs := insertKey slot r s.core.recs } }

/-- An accepted record starts a new team (R428); the core holds no line of before (R199, R434). -/
def startTeam (s : State) (core slot : Nat) (r : BindRec) (l : Launch) (k : KDesc) (groups : List (List Nat)) (stores : List Dword) : State :=
  let r := refuse r 0
  let s := l1Flush s
  let t := newTeam s core r l k
  let ms := (numbered (s.nextId + 1) (newMembers s.part k (BitVec.ofNat 64 (lnArg l.record)) groups (bitsBelow 4 (brAps r)) stores)).map
    fun m => { m with ready := s.cycle }
  let s := onLaunch (putRec s slot r) l.id fun l =>
    { l with phase := .running, started := l.started + 1, first := if l.started = 0 then s.cycle else l.first }
  { s with teams := (t, ms) :: s.teams, nextId := s.nextId + 1 + ms.length }

/-! ## Restoring a saved team -/

/-- A window that holds no physical register yet. -/
def unplaced (rf : RegFile) : RegFile := { rf with vregs := rf.vregs.map fun e => (e.1, { e.2 with spilled := true }) }

/-- A restored member's registers on its new core, those of its program's window and of its handlers' windows (R113, R457). -/
def placeMember (s : State) (id : Nat) : State :=
  let s := swapTo s id
  let n := s.m.frames.length
  (List.range (n + 1)).foldl (fun s i => (winRf s.m (n - i)).vregs.foldl (placeReg (n - i)) s) s

/-- A saved member as it goes on (R97, R113, R392, R431): its slots on the new core, and its sleep taken up again. -/
def resumeMember (s : State) (groups : List (List Nat)) (per : Nat) (aps : List Nat) (apFirst : Nat) (m : Member) : Member :=
  let back (m : Member) : Member := { m with
    status := if m.status = Status.retired then .retired else .running, wait := thawWait s m.wait, rf := unplaced m.rf
    frames := m.frames.map fun f => { f with rf := unplaced f.rf }, ready := s.cycle }
  let m := back m
  match m.kind with
  | .wave => if m.status = .retired then m else { m with slots := groups.getD (m.waveId / per) [] }
  | .ap => { m with apNum := aps.getD (apFirst + m.memNo) 0 }
  | .mx => m

/-- The places of `n` pieces of 128 bytes of a save area (R457), or why one cannot be reached. -/
def areaLocs (s : State) (acc : Access) : Nat → Nat → Except XFault (List Loc)
  | 0, _ => .ok []
  | n + 1, a =>
    match resolveRange s (ctxView s true 0) acc (a % 2 ^ 64) 128 with
    | .ok ls => (areaLocs s acc n (a + 128)).map fun r => ls ++ r
    | .error e => .error e

/-- Bytes written into the save area, in pieces of 128. -/
def putArea (s : State) (a : Nat) (bs : List Byte) : State :=
  match areaLocs s .write (bs.length / 128) a with | .ok ls => engineWriteLocs s ls bs | .error _ => s

/-- The image of each group of the team in focus written into its save area, one behind the other, and behind them the number under which the
dispatcher keeps the rest (R457; log 68). -/
def putImages : List Nat → Nat → State → State
  | [], a, s => putArea s a (padded (leBytes 8 s.team.id))
  | id :: r, a, s =>
    let s := swapTo s id
    let bs := groupImage s
    putImages r (a + bs.length) (putArea s a bs)

/-- `n` pieces of a save area; else whether an uncorrectable error keeps them from being read (R427, R509). -/
def areaBytes (s : State) (n a : Nat) : Except Bool (List Byte) := homeRead s (areaLocs s .read n a)

/-- The images of groups of the team in focus, one behind the other from an address, and the address behind them. A stack deeper than 256 is no
image (R464). -/
def readImages : List Nat → Nat → State → Except Bool (List (Nat × List Byte) × Nat)
  | [], a, _ => .ok ([], a)
  | id :: r, a, s => do
    let s := swapTo s id
    let hb ← areaBytes s 8 a
    let x : Header := BitVec.ofNat 8192 (ofLeBytes hb)
    if 256 < imgDepth x then .error false
    else
      let bs ← areaBytes s (fullSize s x / 128) a
      let (is, n) ← readImages r (a + bs.length) s
      return ((id, bs) :: is, n)

/-- The groups of a team. -/
def groupIds (ms : List Member) : List Nat := (ms.filter fun m => m.kind = .wave).map (·.id)

/-- The state with a saved team in focus. -/
def atSaved (s : State) (t : Team) (ms : List Member) : State := { parkTeam s with team := t, m := ms.headD {}, peers := ms.tail }

/-- A saved team whose images, with its number behind them, stand at an address, and the images (R427, R457; log 68). -/
def savedHere (s : State) (a : Nat) (t : Team) (ms : List Member) : Except Bool (Team × List Member × List (Nat × List Byte)) := do
  let u := atSaved s t ms
  let (is, n) ← readImages (groupIds ms) a u
  let bs ← areaBytes u 1 n
  if ofLeBytes (bs.take 8) == t.id then return (t, ms, is) else .error false

/-- The team of a context that was saved at an address; else whether an uncorrectable error keeps it from being read (R18, R427). -/
def savedTeam (s : State) (a ctx : Nat) : Except Bool (Team × List Member × List (Nat × List Byte)) :=
  if a % 128 != 0 then .error false
  else
    let rs := (s.part.saved.filter fun e => e.2.1.ctx == ctx).map fun e => savedHere s a e.2.1 e.2.2
    match rs.findSome? Except.toOption with
    | some r => .ok r
    | none => .error (rs.any fun r => match r with | .error lost => lost | .ok _ => false)

/-- Whether the images of the team in focus pass the checks of R464 that apply to a full save (R427, R457). -/
def imagesOk (s : State) (is : List (Nat × List Byte)) : Bool :=
  is.all fun e =>
    let s := swapTo s e.1
    let x : Header := BitVec.ofNat 8192 (ofLeBytes (e.2.take 1024))
    !headerOff s x && imgFrames x == framesOf s.m.frames

/-- The members of the team in focus with what their images say of them (R428). -/
def fromImages (s : State) (ms : List Member) (is : List (Nat × List Byte)) : List Member :=
  ms.map fun m => match lookupKey m.id is with | some bs => memberFrom (swapTo s m.id) bs | none => m

/-- A weight record as a save keeps it (R309): its panel is to be loaded again. -/
def staleWeight (w : Weight) : Weight := { w with presence := [], src := [], bytes := [], loaded := false, stale := true }

/-- The loads of the panels of a restored team, before its saved operations (R309). -/
def reloads (s : State) (t : Team) : List MxOp :=
  let onItsWay (w : Weight) : Bool := t.savedOps.any fun o => match o.work with | .panel id => id == w.id | _ => false
  (t.wbs.filter fun w => !onItsWay w).zipIdx.map fun e =>
    { id := s.nextId + e.2, team := t.id, issuer := e.1.issuer, priv := s.ctx.priv, tiles := 0, decode := false, work := .panel e.1.id }

/-- The tiles of a resumed team (R303, R432): as a full save kept them, else in the grant state of the record. -/
def resumedTiles (t : Team) (r : BindRec) : List Tile := if bit t.prestat 0 then t.tiles else t.tiles.map fun _ => newTile (brDecode r)

/-- The gather windows of an image bound in its context (R212; log 98). -/
def rebind (c : Ctx) (t : Team) : Ctx := { c with wins := t.wins.foldl (fun l e => insertKey e.1 e.2 l) c.wins }

/-- A saved team restored on the core in focus (R428). -/
def restoreTeam (s : State) (core slot : Nat) (r : BindRec) (t : Team) (ms : List Member) (groups : List (List Nat)) : State :=
  let r := refuse r 0
  let per := max 1 (t.width / 32)
  let aps := bitsBelow 4 (brAps r)
  let cluster (c : ShCtx) : ShCtx := { c with cluster := core / 8 }
  let t' := { t with
    core := core, bindrec := r, preReq := false, ranFrom := s.cycle, told := false, savedOps := [], wins := [], sh := cluster t.sh
    shs := t.shs.map cluster, tiles := resumedTiles t r }
  let ms' := ms.map fun m => resumeMember s groups per aps (roleFirst t.roles m.role.toNat .ap) m
  let s := putRec (l1Flush s) slot r
  let again := reloads s t
  let s := { s with
    core := { s.core with mxq := s.core.mxq ++ again ++ t.savedOps }
    nextId := s.nextId + again.length
    ctx := rebind s.ctx t
    part := { s.part with saved := s.part.saved.filter fun e => e.2.1.id != t.id } }
  match ms' with
  | [] => s
  | m :: rest =>
    let s := { parkTeam s with team := t', m := m, peers := rest }
    (ms'.map (·.id)).foldl placeMember s

/-- The counts of a saved team: waves that still run stand with those that retired, for their slots were freed (R80, R427). -/
def wavesOf (t : Team) : Nat := ((t.roles.filter fun d => d.kind = .wave).map (·.count)).foldl (· + ·) 0
def apsOf (t : Team) : Nat := ((t.roles.filter fun d => d.kind = .ap).map (·.count)).foldl (· + ·) 0
def mxsOf (t : Team) : Nat := (t.roles.filter fun d => d.kind = .mx).length

/-- Whether a launch comes before another (R424): the level, then the order in which they became ready. -/
def launchBefore (a b : Launch) : Bool := b.prio < a.prio || (a.prio == b.prio && a.order < b.order)

/-- The launch of which a record starts a team (R424, R427): the first in its level, of the highest level, among those of its descriptor and
context whose next TEAMID it names. -/
def launchFor (s : State) (r : BindRec) : Option Launch :=
  let fits (l : Launch) : Bool :=
    lnKd l.record == brKd r && l.ctx == recCtx r && (l.phase == .ready || l.phase == .running) && l.started == brTeamId r &&
      decide (l.started < gridTeams l.record)
  (s.part.launches.filter fits).foldl (fun best l =>
    match best with
    | some b => if launchBefore l b then some l else best
    | none => some l) none

/-- The partition that holds a core (R12). -/
def corePart (s : State) (core : Nat) : Option Partition :=
  (s.part :: s.parts).find? fun p => p.present && p.coreMask.any fun e => e.1 == core / 8 && e.2.getLsbD (core % 8)

/-- The operating system's allocation for a team fails, and no record is written for it (R492): its launch fails with NOMEM. For an occupancy-bound
launch it has been made for every team before the first starts. -/
def noStores (s : State) (r : BindRec) : State :=
  match launchFor s r, readKd s (brKd r) with
  | some l, .ok k => if kdOcc k && l.started != 0 then s else onLaunch s l.id fun l => { l with phase := .failed statusNoMem }
  | _, _ => s

/-- The record of a new team is checked and carried out (R427, R428). -/
def bindNew (s : State) (core slot : Nat) (r : BindRec) (stores : List Dword) : State :=
  match readKd s (brKd r) with
  | .error lost => endRead (putRec s slot (refuse r 6)) lost
  | .ok k =>
    let lines := roundUp (kdScratch k) 128 / 128
    match launchFor s r with
    | none => putRec s slot (refuse r 4)
    | some l =>
      if countsDiffer r (kdCount k 0) (kdAcc k) lines (kdCount k 1) (kdCount k 2) then putRec s slot (refuse r 4)
      else
        match slotGroups (kdWidth k) (brSlots r) with
        | none => putRec s slot (refuse r 5)
        | some groups => startTeam s core slot r l k groups stores

/-- Whether the shuttle of a cluster can take the contexts of a team now (R17, R368). -/
def shuttleTakes (s : State) (cl : Nat) (t : Team) : Bool :=
  (teamShs t).isEmpty || (s.part.shMask.getLsbD cl && decide (shuttleHeld s cl + (teamShs t).length ≤ 4))

/-- The record that resumes a team is checked and carried out (R427, R428); it waits while the shuttle has too few free slots (R368). -/
def bindSaved (s : State) (core slot : Nat) (r : BindRec) : State :=
  match savedTeam s (brKd r) (recCtx r) with
  | .error lost => endRead (putRec s slot (refuse r 6)) lost
  | .ok (t, ms, is) =>
    if t.teamId.toNat != brTeamId r ||
        countsDiffer r (wavesOf t) t.tiles.length (t.share / 128) (apsOf t) (mxsOf t) then putRec s slot (refuse r 4)
    else
      match slotGroups t.width (brSlots r) with
      | none => putRec s slot (refuse r 5)
      | some groups =>
        if !imagesOk (atSaved s t ms) is then putRec s slot (refuse r 6)
        else if !shuttleTakes s (core / 8) t then s
        else restoreTeam s core slot r t (fromImages (atSaved s t ms) ms is) groups

/-- The partition that holds core `c`, the cluster and the context that a record names, in focus. -/
def recFocus (s : State) (p : Partition) (c : Nat) (r : BindRec) : State := pickCtx (pickCluster (pickPart s p.num) (c / 8)) p.num (recCtx r)

/-- BIND_RECORD (R426 to R428): firmware has written a record and sets V. A slot whose record is valid takes none; with no stores the allocation
for the team has failed (R492). -/
def execBindRecord (core : BitVec 9) (slot : BitVec 5) (rec : BitVec 256) (stores : List Dword) (s : State) : Out :=
  let c := core.toNat
  let n := slot.toNat
  let held := coreOf s c
  let r := setFld rec 0 0 1
  if (lookupKey n held.recs).any brValid then .next s
  else
    let s := pickCore (parkTeam s) c
    if stores.isEmpty && !brResume r then
      match corePart s c with
      | some p => .next (noStores (recFocus s p c r) r)
      | none => .next s
    else if brReserved r then .next (putRec s n (refuse r 1))
    else if (validRecs s.core n).any (overlap r) then .next (putRec s n (refuse r 2))
    else
      match corePart s c with
      | none => .next (putRec s n (refuse r 3))
      | some p =>
        let s := recFocus s p c r
        if !(s.ctx.alive && s.ctx.id == recCtx r && s.ctx.part == p.num) then .next (putRec s n (refuse r 4))
        else .next (if brResume r then bindSaved s c n r else bindNew s c n r stores)

/-! ## The end of a team -/

/-- V of the team's record cleared (R426). -/
def dropRec (s : State) : State :=
  let clear (c : Core) : Core :=
    { c with recs := c.recs.map fun e =>
        if brValid e.2 && brSlots e.2 == brSlots s.team.bindrec && brKd e.2 == brKd s.team.bindrec then (e.1, clearV e.2) else e }
  { s with core := clear s.core }

/-- The team leaves its core, which writes its lines back (R434): no team is in focus. -/
def leaveCore (s : State) : State := { dropRec (l1Clean s) with team := {}, m := {}, peers := [] }

/-- TEAM_END (R80, R257, R319): the team in focus ends once every member has retired and its copies and operations have completed. -/
def execTeamEnd (s : State) : Out :=
  if !s.team.present || !(unretired (teamMembers s)).isEmpty || !s.team.copies.isEmpty || mxBusy s then .next s
  else
    let id := s.team.launch
    let s := leaveCore (mxDiscard s)
    .next (onLaunch s id fun l => { l with ended := l.ended + 1, last := s.cycle })

/-! ## Pre-emption -/

/-- QUANTUM_EXPIRY (R430): firmware is told once that the team has run for longer than its quantum. -/
def execQuantumExpiry (s : State) : Out :=
  let q := brQuantum s.team.bindrec
  if s.team.present && q != 0 && decide (q * 1024 < s.cycle - s.team.ranFrom) && !s.team.told then
    .next { s with
      team := { s.team with told := true }
      part := { s.part with notices := s.part.notices ++ [.quantum s.team.id] } }
  else .next s

/-- `sr.prestat` after a pre-emption (R437). -/
def nextPrestat (x : Dword) (cut hw : Bool) : Dword :=
  BitVec.ofNat 64 ((fld x 63 32 + 1) % 2 ^ 32 * 2 ^ 32 + bnat cut * 2 + bnat hw)

/-- A member as a save keeps it (R97, R186, R392): it holds no slot, and its sleep stands still. -/
def saveMember (s : State) (m : Member) : Member :=
  { m with slots := [], wait := freezeWait s m.wait, pre := if m.pre.phase = .pending then { m.pre with phase := .idle } else m.pre }

/-- A wave that has executed `PRDONE` goes on at its resume point (R439). -/
def settlePre (m : Member) : Member :=
  if m.pre.phase = .done then { m with wait := m.pre.wait, pre := {} } else m

/-- The team in focus saved, and its resources returned (R432, R433, R457). -/
def saveTeam (s : State) (cut hw : Bool) : State :=
  let ms := (teamMembers s).map fun m => settlePre (saveMember s (mendMember s m))
  let ops := s.core.mxq.filter fun o => o.team == s.team.id
  let t := { s.team with
    savedOps := ops, preReq := false, prestat := nextPrestat s.team.prestat cut hw, wins := s.ctx.wins
    wbs := s.team.wbs.map staleWeight }
  let s := { s with
    core := { s.core with mxq := s.core.mxq.filter fun o => o.team != t.id }
    m := ms.headD {}
    peers := ms.tail }
  let s := leaveCore (putImages (groupIds ms) t.area s)
  { s with part := { s.part with
      saved := s.part.saved ++ [(t.area, t, ms)], notices := if cut then s.part.notices ++ [.cut t.id] else s.part.notices } }

/-- Whether every operation of the team stands where a full save may take it (R268, R319, R368). -/
def savable (s : State) : Bool := s.team.copies.all fun c => c.fault.isSome

/-- Every member of the team in focus stops (R433). -/
def stopAll (s : State) : State :=
  let stop (m : Member) : Member := if m.status = .running then { m with status := .stopped } else m
  { s with m := stop s.m, peers := s.peers.map stop }

/-- The pre-emption of the team in focus begins (R431). -/
def beginPre (s : State) : State :=
  let s := { s with team := { s.team with preReq := true, bindrec := setFld s.team.bindrec 21 21 1 } }
  if s.team.handler == 0#64 then
    let s := stopAll s
    if savable s then saveTeam s false true else s
  else
    let due (m : Member) : Member :=
      if m.kind != .wave || m.status != .running then m
      else if m.pre.phase = .handling then { m with pre := { m.pre with since := s.cycle } }
      else { m with pre := { m.pre with phase := .pending } }
    { s with m := due s.m, peers := s.peers.map due }

/-- PREEMPT_REQUEST (R431): firmware sets PRE in a bind record, and says where the save goes (R426; log 99); a second request has no effect. -/
def execPreemptRequest (core : BitVec 9) (slot : PreemptPlace) (s : State) : Out :=
  match lookupKey slot.slot.toNat (coreOf s core.toNat).recs with
  | none => .next s
  | some r =>
    if !brValid r then .next s
    else
      let teams := (s.team :: s.teams.map (·.1)).filter fun t => t.present && t.core == core.toNat && brSlots t.bindrec == brSlots r
      match teams.head? with
      | none => .next s
      | some t =>
        if t.preReq then .next s
        else
          let s := pickTeam s t.id
          .next (beginPre (putRec { s with team := { s.team with area := slot.area.toNat } } slot.slot.toNat (setFld r 21 21 1)))

/-- Whether the member sleeps in a `TAP`, which PRE does not interrupt (R476). -/
def inTap (s : State) : Bool :=
  match s.m.wait with
  | some (.mxResult id) => s.core.mxq.any fun o => o.id == id && (match o.work with | .tap .. => true | _ => false)
  | some (.mxRead [] _) => true
  | some .tapRoom => true
  | _ => false

/-- PRE_DELIVERY (R431): a member outside frames receives PRE at its instruction boundary, also while it sleeps. -/
def execPreDelivery (s : State) : Out :=
  if s.m.status = .running && preDue s.m && !inTap s then .next (deliverPre s) else .next s

/-- The state that a pre-emption by handler discards (R173, R432): the tiles take their grant state at the resumption (R303). -/
def discardGrants (t : Team) : Team :=
  { t with spad := [], full := [], tiles := t.tiles.map fun _ => newTile (brDecode t.bindrec), wbs := [], sh := {}, shs := []
           spadUpset := [] }

/-- PREEMPT_END (R432): every wave member has executed `PRDONE` or retired. -/
def execPreemptEnd (s : State) : Out :=
  let finished (m : Member) : Bool := m.kind != .wave || m.status == .retired || m.pre.phase == .done
  if !s.team.present || !s.team.preReq || s.team.handler == 0#64 || !(teamMembers s).all finished then .next s
  else
    let ids := (s.core.mxq.filter fun o => o.team == s.team.id).map (·.id)
    let s := s.team.copies.foldl (fun s c => abandonCopy s c.id) s
    let s := mxDiscard { s with m := loseWait ids s.m, peers := s.peers.map (loseWait ids) }
    .next (saveTeam { s with team := discardGrants s.team } false false)

/-- 100 µs in cycles of 0.94 GHz (R9, R433). -/
def preLimit : Nat := 94000

/-- PREEMPT_TIMEOUT (R433): a wave has not ended its handler 100 µs after PRE, or the team has no handler: the members stop, and the team is
saved whole once its copies have completed or suspended. -/
def execPreemptTimeout (s : State) : Out :=
  let late (m : Member) : Bool := m.kind = .wave && m.status != .retired && m.pre.phase == .handling && decide (m.pre.since + preLimit ≤ s.cycle)
  let none_ := s.team.handler == 0#64
  if !s.team.present || !s.team.preReq || !(none_ || (teamMembers s).any late) then .next s
  else
    let s := stopAll s
    .next (if savable s then saveTeam s (!none_) true else s)

/-- The resume point of the member in focus (R439). -/
def setResume (s : State) (point : Option Dword) : State :=
  let p := s.m.pre
  match point with
  | none => { s with m := { s.m with cursor := p.pc, exec := p.exec &&& s.m.live, stack := p.stack } }
  | some a => { s with m := { s.m with cursor := a, exec := s.m.live, stack := [], pre := { p with wait := none } } }

/-- PRDONE (R439): the wave stops, unless its team has been saved and resumed inside the handler, where it goes on at once. -/
def execPrdone (f : Fields) (s : State) : Out :=
  issue ePrdone f s fun ic s =>
    let point : Option Dword := if ic.opnd f.s0 == .none then none else some (ic.u0 true)
    if s.m.pre.phase != .handling || s.m.frames != [] then .ok s
    else if (point.getD 0#64).toNat % 4 != 0 then .trap alignTrap
    else
      let s := setResume s point
      if s.team.preReq then .go { s with m := { s.m with status := .stopped, pre := { s.m.pre with phase := .done } } }
      else
        let w := thawWait s s.m.pre.wait
        let s := { s with m := { s.m with pre := {} } }
        match w with
        | some w => .hold s w
        | none => .go s

end Sys2Proof.Machine
end

