-- ==== Sys2Proof/Machine/Fabric.lean ====
section
/-!
DEFINITION. The fabric: messages, collectives, accesses by peer devices and links (spec/22_system.md R500 to R506).
-/
namespace Sys2Proof.Machine

def xstTrunc : Nat := 1
def xstNoRoute : Nat := 2
def xstMismatch : Nat := 3
def xstNoGroup : Nat := 4

/-- The messages that a receive channel holds at most (R504). -/
def chanLimit : Nat := 16

/-- `sr.xstat` of an instruction with a status, and of an `XRECV` with its sender and the bytes delivered (R503). -/
def xstatOf (s : State) (st src spart len : Nat) : Dword :=
  BitVec.ofNat 64 (s.part.devId * 2 ^ 56 + src * 2 ^ 32 + spart * 2 ^ 29 + len * 2 ^ 16 + st)

/-- The status of a fabric instruction written to `sr.xstat` and to a k destination (R503). -/
def setXstat (ic : Ic) (s : State) (x : Dword) : State := ic.writeAll { s with m := { s.m with xstat := x } } false x

/-- The trap of a fabric instruction under a declared width that has none (R503). -/
def widthTrap (s : State) : Option Trap := if s.team.width != 32 then some (emuTrap .width) else none

/-- A range resolved in pieces of 4 bytes. -/
def resolveWords (s : State) (ic : Ic) (acc : Access) (va : Nat) : Nat → Except Act (List Loc)
  | 0 => .ok []
  | n + 1 =>
    match resolveOne s ic acc (va % 2 ^ 64) 4 with
    | .error a => .error a
    | .ok ls => (resolveWords s ic acc (va + 4) n).map fun r => ls ++ r

/-- The bytes of `n` pieces of 4 as the member reads them, with the caches as the reads leave them (R195, R199). -/
def readWords (ic : Ic) : Nat → Nat → State → Except Act (State × List Byte)
  | 0, _, s => .ok (s, [])
  | n + 1, va, s => do
    let (s, bs) ← readOne s ic (va % 2 ^ 64) 4
    let (s, r) ← readWords ic n (va + 4) s
    return (s, bs ++ r)

/-- The caches as the stores of `n` pieces of 4 find them. -/
def passWords : Nat → Nat → List Loc → State → State
  | 0, _, _, s => s
  | n + 1, va, ls, s => passWords n (va + 4) (ls.drop 4) (passCaches s (memberView s) (va % 2 ^ 64) (ls.take 4) true)

/-! ## Messages -/

/-- Whether the routing table names a device and partition, and a link that is up reaches them (R500, R504). -/
def routed (s : State) (dev part : Nat) : Bool :=
  match s.part.routes.find? fun r => r.1 == dev && r.2.1 == part with
  | some (_, _, ls) => dev == s.part.devId || ls &&& s.part.links &&& (~~~ s.mod.linksDown) != 0#32
  | none => false

/-- A message appended to a channel. -/
def putMessage (p : Partition) (chan : Nat) (m : Message) : Partition := { p with xchans := modifyAt (fun q => q ++ [m]) chan p.xchans }

/-- The partition of this device that a message is for. -/
def partOf (s : State) (n : Nat) : Option Partition := (s.part :: s.parts).find? fun p => p.present && p.num == n

/-- A partition of this device changed. -/
def onPart (s : State) (n : Nat) (g : Partition → Partition) : State :=
  if s.part.present && s.part.num == n then { s with part := g s.part }
  else { s with parts := s.parts.map fun p => if p.num == n then g p else p }

/-- The end of an `XSEND` (R503, R504). -/
def endXsend (ic : Ic) (s : State) (st : Nat) : Act := .ok (setXstat ic (lateLast eXsend ic s) (xstatOf s st 0 0 0))

/-- The sending of a message that has been read (R504), a release at `.SY`: a target on this device accepts it where its channel has room, and for one
elsewhere the member sleeps until it has been accepted. -/
def sendMessage (ic : Ic) (s : State) (dev part chan : Nat) (bytes : List Byte) : Act :=
  if !routed s dev part then endXsend ic s xstNoRoute
  else if dev != s.part.devId then
    let s := l1Clean s
    let o : Outgoing := { sender := s.m.id, dev := dev, part := part, chan := chan, bytes := bytes }
    .hold { s with part := { s.part with outgoing := s.part.outgoing ++ [o] } } .sent
  else
    match partOf s part with
    | none => endXsend ic s xstNoRoute
    | some p =>
      if chanLimit ≤ (p.xchans.getD chan []).length then .sleep .fabric
      else endXsend ic (onPart (l1Clean s) part fun p => putMessage p chan { dev := dev, part := s.part.num, bytes := bytes }) 0

/-- XSEND (R504). -/
def execXsend (f : Fields) (s : State) : Out :=
  issue eXsend f s fun ic s =>
    match ic.old with
    | some .sent => .sleep .sent
    | some .sentDone => endXsend ic s 0
    | _ =>
      let w := ic.u0 false
      let a := (ic.u1 true).toNat
      let n := (lo32 (ic.u2 false)).toNat
      match widthTrap s with
      | some t => .trap t
      | none =>
        if fld w 31 16 != 0 || bit w 11 || bit w 7 || n < 4 || 4096 < n || n % 4 != 0 || a % 4 != 0 then .trap (shape shGeom)
        else
          match readWords ic (n / 4) a s with
          | .error e => e
          | .ok (s, bs) => sendMessage ic s (fld w 6 0) (fld w 10 8) (fld w 15 12) bs

/-- A sleep of a member is answered, also where an interruption or a save holds it. -/
def answerSleep (old new : Wait) (m : Member) : Member :=
  let sub (x : Option Wait) : Option Wait := if x == some old then some new else x
  { m with wait := sub m.wait, pre := { m.pre with wait := sub m.pre.wait }, frames := m.frames.map fun f => { f with wait := sub f.wait } }

/-- A peer's channel accepts the `n`-th message that waits to leave a partition (R504): its sender, which sends no other before, wakes. -/
def acceptSent (s : State) (n : Nat) : State :=
  match s.part.outgoing[n]? with
  | some o =>
    onAnyMember { s with part := { s.part with outgoing := s.part.outgoing.eraseIdx n } } o.sender (answerSleep .sent .sentDone)
  | none => s

/-- XRECV (R504, R505): one that takes a message is an acquire at `.SY`. -/
def execXrecv (f : Fields) (s : State) : Out :=
  issue eXrecv f s fun ic s =>
    let chan := fld (ic.u0 false) 3 0
    let a := (ic.u1 true).toNat
    let cap := (lo32 (ic.u2 false)).toNat
    match widthTrap s with
    | some t => .trap t
    | none =>
      if a % 4 != 0 then .trap alignTrap
      else if cap % 4 != 0 || 4096 < cap then .trap (shape shGeom)
      else
        match s.part.xchans.getD chan [] with
        | [] => .sleep .fabric
        | m :: rest =>
          let n := min m.bytes.length cap
          match resolveWords s ic .write a (n / 4) with
          | .error e => e
          | .ok ls =>
            let s := writeLocs (passWords (n / 4) a ls (l1Flush s)) ls (m.bytes.take n)
            let s := { s with part := { s.part with xchans := s.part.xchans.set chan rest } }
            .ok (setXstat ic s (xstatOf s (if n < m.bytes.length then xstTrunc else 0) m.dev m.part n))

/-- FABRIC_MESSAGE_ARRIVAL (R504): a message for the partition in focus, which its channel accepts where it has room. -/
def execFabricMessageArrival (chan : BitVec 4) (dev : BitVec 7) (srcPart : BitVec 3) (bytes : List Byte) (s : State) : Out :=
  let n := bytes.length
  if !s.part.present || n < 4 || 4096 < n || n % 4 != 0 || chanLimit ≤ (s.part.xchans.getD chan.toNat []).length then .next s
  else .next { s with part := putMessage s.part chan.toNat { dev := dev.toNat, part := srcPart.toNat, bytes := bytes } }

/-! ## XRED -/

/-- The operand of a lane as its bits (R54, R506): an FP32 value under the floating operations. -/
def xredBits (ic : Ic) (op l : Nat) : Word :=
  if op = 0 || op = 2 || op = 3 then BitVec.ofNat 32 (floatBits 0 (ic.opnd ic.f.s0) (ic.src0 false l)) else lo32 (ic.src0 false l)

/-- The identity of an operation (R506). -/
def xredIdent (op : Nat) : Word :=
  match op with
  | 2 => 0xFF800000#32
  | 3 => 0x7F800000#32
  | 4 => 0x80000000#32
  | 5 => 0x7FFFFFFF#32
  | _ => 0#32

/-- Two values combined (R506): FP32 rounded to nearest even, integers modulo 2^32. -/
def xredPair (op : Nat) (x y : Word) : Word :=
  let fx := fdecode fp32 false x.toNat
  let fy := fdecode fp32 false y.toNat
  match op with
  | 0 => BitVec.ofNat 32 (fround fp32 (addF32 fx fy))
  | 1 => x + y
  | 2 => BitVec.ofNat 32 (fround fp32 (maxV fx fy))
  | 3 => BitVec.ofNat 32 (fround fp32 (minV fx fy))
  | 4 => if x.slt y then y else x
  | _ => if x.slt y then x else y

/-- The least power of two that is not below a number up to 128. -/
def ceilPow2 (n : Nat) : Nat := ((List.range 8).map (2 ^ ·)).find? (n ≤ ·) |>.getD 128

/-- A lane's result (R506): the ranks' values in ascending rank, identities beyond them; that of a group of one rank is its value as it is
(log 113). -/
def xredLane (op ranks : Nat) (cs : List XContribution) (l : Nat) : Word :=
  let leaf (r : Nat) : Word :=
    match cs.find? fun c => c.rank == r with
    | some c => if c.active.getLsbD l then c.values.getD l 0#32 else xredIdent op
    | none => xredIdent op
  (treeFold (xredPair op) 7 ((List.range (ceilPow2 ranks)).map leaf)).headD 0#32

/-- An XRED group of the partition. -/
def groupOf (s : State) (n : Nat) : Option XGroup := s.part.groups.find? fun g => g.num == n

/-- An XRED group replaced. -/
def setGroup (s : State) (g : XGroup) : State :=
  { s with part := { s.part with groups := s.part.groups.map fun h => if h.num == g.num then g else h } }

/-- The end of an `XRED` (R503, R506): the destination is written only where the ranks agreed. -/
def endXred (ic : Ic) (s : State) (st : Nat) (ws : List Word) : Act :=
  let s := lateLast eXred ic s
  let s := { s with m := { s.m with xstat := xstatOf s st 0 0 0 } }
  .ok (if st = 0 then ic.write s false fun l => (ws.getD l 0#32).setWidth 64 else s)

/-- XRED (R506): the rank gives its contribution, a release at `.SY`, and sleeps until the group completes, which is an acquire. -/
def execXred (f : Fields) (s : State) : Out :=
  issue eXred f s fun ic s =>
    match ic.old with
    | some (.xredDone st ws) => endXred ic (l1Flush s) st ws
    | some .xred => .sleep .xred
    | _ =>
      match widthTrap s with
      | some t => .trap t
      | none =>
        let op := modBits f 2 0
        match groupOf s (fld (ic.u1 false) 3 0) with
        | none => endXred ic s xstNoGroup []
        | some g =>
          match g.mine with
          | some _ => .sleep .fabric
          | none =>
            let c : XContribution :=
              { rank := g.rank, op := BitVec.ofNat 3 op, values := (List.range 32).map (xredBits ic op), active := hwMask ic.act 0
                reachable := true }
            .hold (setGroup (l1Clean s) { g with mine := some c, issuer := s.m.id }) .xred

/-- The status of a completed `XRED` (R506): a rank that cannot be reached, then operations that differ. -/
def xredStatus (cs : List XContribution) : Nat :=
  if cs.any fun c => !c.reachable then xstNoRoute
  else if cs.any fun c => cs.any fun d => c.op != d.op then xstMismatch
  else 0

/-- XRED_COMPLETE (R506): every other rank of a group has given its contribution, or cannot be reached. -/
def execXredComplete (group : BitVec 4) (ranks : List XContribution) (s : State) : Out :=
  match groupOf s group.toNat with
  | none => .next s
  | some g =>
    match g.mine with
    | none => .next s
    | some mine =>
      let others := (List.range g.ranks).filter (· != g.rank)
      if !(others.all fun r => (ranks.filter fun c => c.rank == r).length == 1) then .next s
      else
        let cs := mine :: ranks.filter fun c => others.contains c.rank
        let st := xredStatus cs
        let ws := if st = 0 then (List.range 32).map (xredLane mine.op.toNat g.ranks cs) else []
        .next (onAnyMember (setGroup s { g with mine := none }) g.issuer (answerSleep .xred (.xredDone st ws)))

/-! ## Peers and links -/

/-- The places of an outside agent's access to a partition's intermediate space (R218, R498, R502), byte by byte, in granted memory or host-port or
fabric space; none where the second stage or the grants refuse it, or no link reaches the peer that it names. -/
def outsidePlaces (s : State) (acc : Access) (ipa n : Nat) : Option (List Loc) :=
  (List.range n).mapM fun i =>
    match stage2 s true acc 0 (ipa + i) false with
    | .ok pa => if peerLost s pa then none else some (.pa pa)
    | .error _ => none

/-- The bytes of an outside agent stored, once no engine owns the places (R245). -/
def outsideStore (s : State) (ipa : Nat) (bytes : List Byte) : State :=
  match outsidePlaces s .write ipa bytes.length with
  | some ls => if ownedAny s ls then s else engineWriteLocs s ls bytes
  | none => s

/-- The lines of some places of device memory that the cores hold written back, as a step at the home of the places finds them (R249, R250). -/
def homeClean (s : State) (ls : List Loc) : State :=
  ls.foldl (fun s l => match l with | .pa a => cleanRange s a (a + 1) | _ => s) s

/-- The indivisible step of a peer on `size` bytes, aligned to their size, once no engine owns them (R188, R189, R500): it finds every store that a
core has made to them. One that meets an uncorrectable error does nothing, and its requester gets the error (R509; log 128). -/
def outsideStep (s : State) (ipa size : Nat) (step : Nat → Option Nat) : State :=
  match outsidePlaces s .rmw ipa size with
  | some ls =>
    if ipa % size != 0 || ownedAny s ls || ls.any (lostHome s) then s
    else
      let s := homeClean s ls
      match step (ofLeBytes (ls.map (homeByte s))) with
      | some x => engineWriteLocs s ls (leBytes size x)
      | none => l2Locs s ls false
  | none => s

/-- The bytes of a peer's access. -/
def peerSize (op : PeerOp) : Nat :=
  match op with
  | .load n => n
  | .store bytes => bytes.length
  | .atomic _ ty _ => tyWidth ty.toNat / 8
  | .cas wide _ _ => if wide then 8 else 4

/-- FABRIC_ACCESS (R500, R502): a peer's access, in the low 2^40 bytes of the partition's intermediate space, is translated by its second stage and
checked against its grants. A load changes no value here. -/
def execFabricAccess (a : PeerAccess) (s : State) : Out :=
  let s := pickPart s a.partNo.toNat
  if !(s.part.present && s.part.num == a.partNo.toNat) || 2 ^ 40 < a.poff.toNat + peerSize a.op then .next s
  else
    match a.op with
    | .load n => .next (match outsidePlaces s .read a.poff.toNat n with | some ls => l2Locs s ls false | none => s)
    | .store bytes => .next (outsideStore s a.poff.toNat bytes)
    | .atomic op ty x =>
      if !(atomTypes op.toNat).contains ty.toNat then .next s
      else .next (outsideStep s a.poff.toNat (tyWidth ty.toNat / 8) fun old => some (atomOp op.toNat ty.toNat old x.toNat))
    | .cas wide x y =>
      let n := if wide then 8 else 4
      .next (outsideStep s a.poff.toNat n fun old => if old == x.toNat % 2 ^ (8 * n) then some (y.toNat % 2 ^ (8 * n)) else none)

/-- FABRIC_REPLAY (R500): a link that fails 16 replays in a row is taken down; a replay that succeeds ends the row. -/
def execFabricReplay (link : BitVec 5) (failed : Bool) (s : State) : Out :=
  let l := link.toNat
  let n := (lookupKey l s.mod.replays).getD 0
  if s.mod.linksDown.getLsbD l then .next s
  else if !failed then .next { s with mod := { s.mod with replays := eraseKey l s.mod.replays } }
  else if 16 ≤ n + 1 then
    .next { s with mod := { s.mod with replays := eraseKey l s.mod.replays, linksDown := s.mod.linksDown ||| (1#32 <<< l) } }
  else .next { s with mod := { s.mod with replays := insertKey l (n + 1) s.mod.replays } }

end Sys2Proof.Machine
end

