-- ==== Sys2Proof/Machine/Agents.lean ====
section
/-!
DEFINITION. The turns of the units whose acts no instruction names (spec/00_scope.md R4; spec/01_device.md R7; spec/08_memory.md R195, R199;
spec/09_translation.md R220; spec/11_copy.md R255, R257; spec/22_system.md R504; log 103). Each leaves the focus where it was.
-/
namespace Sys2Proof.Machine

/-- A copy's last read returns (R255, R257). -/
def copyTurn (s : State) (team id : Nat) : State := atTeam s team fun s => copyRead s id

/-- The L1 of a core evicts a line (R199): the line goes back to the partition that holds the core. -/
def evictTurn (s : State) (core key : Nat) : State :=
  let me := s.core.num
  let p := s.part.num
  let s := match corePart s core with | some q => pickPart s q.num | none => s
  pickPart (pickCore (l1Evict (pickCore s core) key) me) p

/-- A cluster's instruction cache discards the block at a PA (R7; log 122). -/
def blockTurn (s : State) (cluster pa : Nat) : State :=
  let g (c : Cluster) : Cluster := if c.num == cluster then { c with icache := c.icache.filter fun b => b.pa != pa } else c
  { s with cl := g s.cl, cls := s.cls.map g }

/-- The engine of a core reads a label word of the operation that it would step next (R4, R344). -/
def labelAt (s : State) (core op word : Nat) : State :=
  let me := s.core.num
  pickCore (labelTurn (pickCore s core) op word) me

/-- The tap port of a core caches a granule of its partition's tap memory (R471). -/
def tapTurn (s : State) (core gran : Nat) : State :=
  let me := s.core.num
  let p := s.part.num
  let s := match corePart s core with | some q => pickPart s q.num | none => s
  pickPart (pickCore (fillTap (pickCore s core) gran) me) p

/-- A peer accepts a message of a partition (R504). -/
def peerTurn (s : State) (part n : Nat) : State :=
  let p := s.part.num
  let s := pickPart s part
  pickPart (if s.part.num == part then acceptSent s n else s) p

/-- Some other unit reads or writes a line of a partition's device memory through the second-level cache (R194, R195). -/
def l2Turn (s : State) (part line : Nat) (store : Bool) : State :=
  let g (p : Partition) : Partition := if p.present && p.num == part then l2Access p line store else p
  { s with part := g s.part, parts := s.parts.map g }

/-- The TLB of a team's core or cluster keeps a translation of its context, or discards one (R220). -/
def tlbTurn (s : State) (team va : Nat) (core wide : Bool) : State := atTeam s team fun s => fillTlb s va core wide
def tlbDropTurn (s : State) (team va : Nat) (core : Bool) : State := atTeam s team fun s => discardTlb s va core

/-- The walk cache of a team's die keeps a first-level entry, or discards one (R220). -/
def walkTurn (s : State) (team a : Nat) (second : Bool) : State := atTeam s team fun s => fillWalk s a second
def walkDropTurn (s : State) (team a : Nat) (second : Bool) : State := atTeam s team fun s => discardWalk s a second

end Sys2Proof.Machine
end

