-- ==== Sys2Proof/Machine/Boot.lean ====
section
/-!
DEFINITION. Reset, the boot ROM, and the control semaphore of the host ports (spec/22_system.md R499, R507; spec/01_device.md R19).
-/
namespace Sys2Proof.Machine

/-! ## Boot -/

/-- BOOTSTAT of a verification, 0 where it passes (R507): the signature over the header's digest, the rollback counter, and each stage's
digest before the stage starts. A flash that holds no image has no signature that verifies. -/
def bootStat (md : Mod) : Nat :=
  match md.flash with
  | none => 1
  | some img =>
    if !Config.falconVerify md.keyHash (Config.shake256 img.header) img.signature then 1
    else if Config.headerVersion img.header < md.minVersion then 2
    else if img.stages.length != (Config.headerDigests img.header).length ||
        (img.stages.zip (Config.headerDigests img.header)).any (fun e => Config.shake256 e.1 != e.2) then 3
    else 0

/-- The boot ROM (R507): the module runs with the measured stage digests, the KR ranges and the windows of its management firmware locked
(R216, R436), or presents only its physical functions. -/
def runBoot (s : State) : State :=
  let c := bootStat s.mod
  let booted := if c == 0 then s.mod.flash else none
  let header := (booted.map (·.header)).getD []
  { s with mod := { s.mod with
    boot := if c == 0 then .running else .halted c
    kr := match booted with | some i => (Config.firmwareKr i.stages).take 16 | none => []
    windows := match booted with | some i => Config.firmwareWindows i.stages | none => []
    measured := if booted.isSome then Config.headerDigests header else []
    booted := if booted.isSome then Config.headerVersion header else 0 } }

/-- A core after a reset: its number and its usable registers stay (R11, R104). -/
def resetCore (c : Core) : Core := { num := c.num, pool := c.pool }

/-- The module after a reset: as `State.reset`, with what a reset does not reach: the flash, the fuses, the registers that repair has taken out
of a core's pool, the memories (log 14), and the turns, cycle and counters of the model. -/
def afterReset (s : State) : State :=
  { State.reset with
    mod := { flash := s.mod.flash, minVersion := s.mod.minVersion, keyHash := s.mod.keyHash, badCores := s.mod.badCores
             badShuttles := s.mod.badShuttles, badOpcodes := s.mod.badOpcodes, upsets := s.mod.upsets, vupsets := s.mod.vupsets }
    core := resetCore s.core, cores := s.cores.map resetCore
    mem := s.mem, vault := s.vault, turns := s.turns, cycle := s.cycle, free := s.free, nextId := s.nextId }

/-! ## HSEM -/

/-- Whether a host port's link is up (R499). -/
def portUp (md : Mod) (p : Nat) : Bool := md.hostUp.getD p false

/-- The port that owns control: the one that drew the ticket equal to SERVING (R499). -/
def ownerPort (md : Mod) : Option Nat := (md.tickets.find? fun t => t.1 == md.serving).map (·.2)

/-- SERVING advanced by one, modulo 2^16 (R499). -/
def serveNext (md : Mod) : Mod :=
  { md with serving := (md.serving + 1#32) &&& 0xFFFF#32, tickets := md.tickets.filter fun t => t.1 != md.serving }

/-- Tickets whose turn comes while their port's link is down are passed over (R499). -/
def passOverDown : Nat → Mod → Mod
  | 0, md => md
  | n + 1, md =>
    match ownerPort md with
    | some p => if portUp md p then md else passOverDown n (serveNext md)
    | none => md

/-- SERVING settled after a change (R499). -/
def settleHsem (md : Mod) : Mod := passOverDown md.tickets.length md

/-- HSEMST as a port reads it (R499). -/
def hsemst (md : Mod) : Dword :=
  BitVec.ofNat 64 (md.next.toNat * 2 ^ 32 + md.serving.toNat * 2 ^ 16 +
    (match ownerPort md with | some p => 4 + 2 * p | none => 0))

/-- HSEMTK_READ (R499): the port draws NEXT. -/
def execHsemtkRead (port : BitVec 1) (s : State) : Out :=
  if portUp s.mod port.toNat then
    .next { s with mod := settleHsem { s.mod with
      next := (s.mod.next + 1#32) &&& 0xFFFF#32, tickets := s.mod.tickets ++ [(s.mod.next, port.toNat)] } }
  else .next s

/-- HSEMST_RELEASE (R499): ignored unless the port owns control. -/
def execHsemstRelease (port : BitVec 1) (s : State) : Out :=
  if ownerPort s.mod == some port.toNat then .next { s with mod := settleHsem (serveNext s.mod) } else .next s

/-- HOST_LINK_DOWN (R499). -/
def execHostLinkDown (port : BitVec 1) (s : State) : Out :=
  .next { s with mod := settleHsem { s.mod with hostUp := s.mod.hostUp.set port.toNat false } }

/-- A control operation (R499): without ownership it completes with NOTOWNER and no effect. -/
def control (port : Nat) (s : State) (op : State → State) : Out :=
  if ownerPort s.mod == some port then
    let s := op s
    .next { s with mod := { s.mod with ctl := s.mod.ctl ++ [(port, false)] } }
  else .next { s with mod := { s.mod with ctl := s.mod.ctl ++ [(port, true)] } }

/-- FIRMWARE_UPDATE (R499): the flash holds the new image, which the next reset verifies. -/
def execFirmwareUpdate (port : BitVec 1) (image : FlashImage) (s : State) : Out :=
  control port.toNat s fun s => { s with mod := { s.mod with flash := some image } }

/-- MODULE_RESET (R499, R507): the boot ROM runs in the next step. -/
def execModuleReset (port : BitVec 1) (s : State) : Out := control port.toNat s afterReset

/-- The events that reach a module whose boot failed: those of its physical functions (R499, R507). -/
def pfEvent : Instr → Bool
  | .hsemtkRead _ => true
  | .hsemstRelease _ => true
  | .hostLinkDown _ => true
  | .firmwareUpdate _ _ => true
  | .moduleReset _ => true
  | _ => false

end Sys2Proof.Machine
end

