-- ==== Sys2Proof/Machine/System.lean ====
section
/-!
DEFINITION. Partitions and their capabilities (spec/01_device.md R12 to R17), the host's functions, attestation and patrol (spec/22_system.md
R497 to R499, R508, R509; spec/09_translation.md R225), and the power clamp (R11).
-/
namespace Sys2Proof.Machine

/-! ## Capabilities (R12 to R17) -/

/-- The clusters of granted groups, ascending (R12, R192). -/
def clustersOf (groups : BitVec 16) : List Nat := ((bitsBelow 16 groups.toNat).map fun g => (List.range 4).map (4 * g + ·)).flatten

/-- Whether a core is usable (R14, R16): the fuses do not name it, and none of its issue slots has fewer than 256 registers (R104). -/
def usableCore (s : State) (n : Nat) : Bool := !s.mod.badCores.contains n && (List.range 4).all fun i => decide (256 ≤ (coreOf s n).pool.getD i 0)

/-- The usable cores of a cluster, as a mask (R16). -/
def usableCores (s : State) (c : Nat) : BitVec 8 :=
  BitVec.ofNat 8 ((List.range 8).foldl (fun m i => if usableCore s (8 * c + i) then m + 2 ^ i else m) 0)

/-- A mask with the bits that a list names. -/
def bitsOfList (l : List Nat) : Nat := l.eraseDups.foldl (fun m b => m + 2 ^ b) 0

/-- The granted clusters whose shuttle is usable (R14, R16). -/
def shuttlesOf (md : Mod) (cs : List Nat) : List Nat := cs.filter fun c => !md.badShuttles.contains c

/-- How many bits of a word are set. -/
def popW {w : Nat} (x : BitVec w) : Nat := (bitsBelow w x.toNat).length

/-- `sr.caps` (R15). -/
def capsOf (s : State) (g : Grants) : Dword :=
  let cs := clustersOf g.groups
  let hbmStacks := bitsOfList ((bitsBelow 64 g.hbm.toNat).map (· / 8))
  let cores := (cs.map fun c => popW (usableCores s c)).foldl (· + ·) 0
  BitVec.ofNat 64 (g.num.toNat * 2 ^ 61 + 3 * 2 ^ 57 + g.vsplit * 2 ^ 52 + hbmStacks * 2 ^ 44 + cs.length * 2 ^ 37 + cores * 2 ^ 27 +
    (shuttlesOf s.mod cs).length * 2 ^ 20 + popW g.links * 2 ^ 14 + g.taps * 2 ^ 9 + bitsOfList (cs.map (· / 16)) * 2 ^ 5)

/-- The opcodes that go to the emulation handler on a partition (R16, R17): those that no entry defines, `IDIV` and `IREM` (R155), and those
that fuses disable. -/
def emuOpcodes (md : Mod) : List Nat :=
  (List.range 512).filter fun n => (entryOf n).isNone || n == eIdiv.opc || n == eIrem.opc || md.badOpcodes.contains n

/-- The smallest number of physical registers in an issue slot among a cluster's usable cores (R16). The 512 of a cluster that has none is the
model's choice (log 100). -/
def pregMinOf (s : State) (c : Nat) : Nat :=
  let cores := (bitsBelow 8 (usableCores s c).toNat).map fun i => coreOf s (8 * c + i)
  (cores.map fun k => k.pool.foldl min 512).foldl min 512

/-- The capability block (R16). -/
def capBlock (s : State) (g : Grants) (port : Nat) : List Byte :=
  let cs := clustersOf g.groups
  let at' (b x : Nat) : Nat := x * 2 ^ b
  leBytes 512
    ((cs.map fun c => at' (2048 + 16 * c) (pregMinOf s c)).foldl (· + ·) 0 +
      (cs.map fun c => at' (896 + 8 * c) (usableCores s c).toNat).foldl (· + ·) 0 +
      at' 384 (bitsOfList (emuOpcodes s.mod)) + at' 320 (bitsOfList (shuttlesOf s.mod cs)) + at' 256 (bitsOfList cs) +
      at' 192 g.hbm.toNat + at' 160 port + at' 128 g.links.toNat + at' 96 512 + at' 64 1 + (capsOf s g).toNat)

/-- A context as the runtime sets it up (R192, R200, R214, R225, R443). -/
def newCtx (part : Nat) (c : ContextGrant) : Ctx :=
  { id := c.id.toNat, part := part, alive := true, priv := c.priv, capblk := c.capblk, vwbase := c.vwbase, winbase := c.winbase
    hwbase := c.hwbase, hwlimit := c.hwlimit, hwoff := c.hwoff, s1root := c.s1root, svmbase := c.svmbase, svmlimit := c.svmlimit }

/-- A partition as firmware creates it (R12 to R17, R218, R404, R407, R436, R504, R506). -/
def newPart (s : State) (g : Grants) (port : Nat) : Partition :=
  let cs := clustersOf g.groups
  { present := true, num := g.num.toNat, caps := capsOf s g, clusters := cs, coreMask := cs.map fun c => (c, usableCores s c)
    pregMin := cs.map fun c => (c, pregMinOf s c), emuOpc := emuOpcodes s.mod, shMask := BitVec.ofNat 64 (bitsOfList (shuttlesOf s.mod cs))
    hbm := g.hbm, links := g.links, taps := g.taps, vsplit := g.vsplit, homeport := port, prbase := g.prbase, prlim := g.prlim
    s2root := g.s2root, tapbase := g.tapbase, bts := List.replicate 8 {}
    tqs := List.replicate 16 (List.replicate cs.length []), devId := g.devId.toNat, routes := g.routes
    xchans := List.replicate 16 [], groups := g.xgroups.map fun x => { num := x.1, ranks := x.2.1, rank := x.2.2 } }

/-- The partitions of the module. -/
def allParts (s : State) : List Partition := (s.part :: s.parts).filter (·.present)

/-- The end of the device memory of a partition, or of a request (R218). -/
def hbmEnd (hbm : BitVec 64) (base : Dword) : Nat := base.toNat + popW hbm * 10 ^ 10

/-- Whether firmware can grant a request (R12, R13, R218, R467): its number and groups are free, its range limit is within its memory, its range of
physical addresses is no other partition's, and its ranges are in order. That no link and no eighth is granted twice is the model's choice
(log 101). -/
def grantOk (s : State) (g : Grants) : Bool :=
  let ps := allParts s
  let cs := clustersOf g.groups
  let apart (p : Partition) : Bool :=
    decide (hbmEnd g.hbm g.prbase ≤ p.prbase.toNat) || decide (hbmEnd p.hbm p.prbase ≤ g.prbase.toNat)
  g.groups != 0#16 && g.vsplit ≤ 8 && g.taps ≤ 16 && g.prbase.toNat % 2 ^ 18 == 0 && g.prlim.toNat % 2 ^ 18 == 0 &&
    g.tapbase.toNat % 2 ^ 26 == 0 && decide (g.tapbase.toNat + 2 ^ 26 ≤ g.prlim.toNat) && decide (g.prlim.toNat ≤ popW g.hbm * 10 ^ 10) &&
    ps.all fun p =>
      p.num != g.num.toNat && !(cs.any p.clusters.contains) && p.hbm &&& g.hbm == 0#64 && p.links &&& g.links == 0#32 && apart p

/-- A write of management firmware (R436): none outside the windows that boot has locked. -/
def firmwareStore (s : State) (a : Nat) (bs : List Byte) : State :=
  if s.mod.windows.any fun w => decide (w.1 ≤ a) && decide (a + bs.length ≤ w.2) then storeMem s a bs else s

/-- PARTITION_CREATE (R12 to R16, R499): firmware creates the partition that the port in control asks for, and writes its capability block. -/
def execPartitionCreate (port : BitVec 1) (g : Grants) (s : State) : Out :=
  control port.toNat s fun s =>
    if !grantOk s g then s
    else
      let p := newPart s g port.toNat
      let s := firmwareStore s g.capPa.toNat (capBlock s g port.toNat)
      { s with parts := s.parts.filter (·.present) ++ [p], ctxs := s.ctxs.filter (·.alive) ++ g.contexts.map (newCtx p.num) }

/-- The contexts of the partition in focus that are alive. -/
def liveCtxs (s : State) : List Nat := ((s.ctx :: s.ctxs).filter fun c => c.alive && c.part == s.part.num).map (·.id)

/-- Every context of the partition in focus terminated with launch status TERM (R445, R497). -/
def endAll (s : State) : State :=
  (liveCtxs s).foldl (fun s id =>
    let s := pickCtx s s.part.num id
    if s.ctx.alive && s.ctx.id == id && s.ctx.part == s.part.num then endContext s statusTerm else s) (parkTeam s)

/-- PARTITION_DESTROY (R499): the partition's contexts end, its caches are written back, and its grants are free again. -/
def execPartitionDestroy (port : BitVec 1) (partNo : BitVec 3) (s : State) : Out :=
  control port.toNat s fun s =>
    let s := pickPart s partNo.toNat
    if !(s.part.present && s.part.num == partNo.toNat) then s
    else
      let s := dropTlb (flushPart (endAll s)) 3 0 0
      let n := s.part.num
      { s with part := {}, ctx := {}, ctxs := (s.ctx :: s.ctxs).filter fun c => c.alive && c.part != n }

/-- FLR (R497): a reset of a virtual function terminates every context of its partition and keeps the grants. -/
def execFlr (_port : BitVec 1) (vf : BitVec 4) (s : State) : Out :=
  let n := vf.toNat - 1
  if vf == 0#4 || 8 < vf.toNat then .next s
  else
    let s := pickPart s n
    if s.part.present && s.part.num == n then .next (endAll s) else .next s

/-! ## Attestation (R508) -/

/-- The bytes of a report before its signature (R508). -/
def reportBody (s : State) (nonce : BitVec 256) : List Byte :=
  let kr := (s.mod.kr.map fun r => leBytes 8 r.1 ++ leBytes 8 r.2).flatten
  leBytes 32 nonce.toNat ++ leBytes 4 s.mod.booted ++ s.mod.measured.flatten ++ Config.shake256 kr ++
    ((allParts s).map fun p => leBytes 8 p.caps.toNat).flatten

/-- ATTESTATION_REPORT (R508). -/
def execAttestationReport (nonce : BitVec 256) (s : State) : Out :=
  let b := reportBody s nonce
  .next { s with mod := { s.mod with reports := s.mod.reports ++ [b ++ Config.falconSign b] } }

/-! ## Host memory (R225, R498) -/

/-- ATS_INVALIDATION (R225): the host withdraws translations of the context in focus, once the engine operations that hold places they gave have
completed. -/
def execAtsInvalidation (va : Dword) (pages : Nat) (s : State) : Out :=
  let p := va.toNat >>> 18
  if holdsPlaces s (· == s.ctx.id) then .next s
  else .next { s with ctx := { s.ctx with ats := s.ctx.ats.filter fun e => !(p ≤ e.1 && e.1 < p + pages) } }

/-- PRI_RESPONSE (R225): the host answers a page request of the context in focus, with a translation or a failure. -/
def execPriResponse (va : Dword) (reply : Option HostPage) (s : State) : Out :=
  let p := va.toNat >>> 18
  if !s.ctx.priOut.contains p then .next s
  else
    let c := { s.ctx with priOut := s.ctx.priOut.filter (· != p) }
    match reply with
    | some h => .next { s with ctx := { c with ats := insertKey p h c.ats } }
    | none => .next { s with ctx := { c with priFail := c.priFail ++ [p] } }

/-- HOST_BAR_ACCESS (R498): the host reads or writes device memory through a function of a partition. -/
def execHostBarAccess (partNo : BitVec 3) (ipa : Dword) (store : Option (List Byte)) (s : State) : Out :=
  let s := pickPart s partNo.toNat
  if !(s.part.present && s.part.num == partNo.toNat) then .next s
  else
    match store with
    | some bytes => .next (outsideStore s ipa.toNat bytes)
    | none => .next s

/-! ## Patrol and power -/

/-- The upsets that ECC cannot correct. -/
def lasting (l : List (Nat × Bool)) : List (Nat × Bool) := l.filter fun u => !u.2

/-- A team with the errors of its scratchpad words corrected where ECC can correct them (R178). -/
def scrubTeam (t : Team) : Team := { t with spadUpset := lasting t.spadUpset }

/-- PATROL_SCRUB (R178, R509): the patrol corrects every error of device memory, the vaults and the scratchpads that ECC can correct. -/
def execPatrolScrub (s : State) : Out :=
  .next { s with
    mod := { s.mod with upsets := lasting s.mod.upsets, vupsets := lasting s.mod.vupsets }
    team := scrubTeam s.team
    teams := s.teams.map fun t => (scrubTeam t.1, t.2) }

/-- POWER_CLAMP_WITHHOLD (R11): the clamp withholds a cycle of the core in focus. -/
def execPowerClampWithhold (s : State) : Out := .next { s with core := { s.core with clamp := s.core.clamp + 1#64 } }

end Sys2Proof.Machine
end

