-- ==== Sys2Proof/Machine/Dispatch.lean ====
section
/-!
DEFINITION. The dispatch of every instruction to its meaning: one arm per constructor of `Instr`, each one direct call.
-/
namespace Sys2Proof.Machine

def exec (i : Instr) (s : State) : Host.Outcome State Fault Refusal :=
  match i with
  | .nop f => Sys2Proof.Machine.execNop f s
  | .br f => Sys2Proof.Machine.execBr f s
  | .bru f => Sys2Proof.Machine.execBru f s
  | .brd f => Sys2Proof.Machine.execBrd f s
  | .join f => Sys2Proof.Machine.execJoin f s
  | .call f => Sys2Proof.Machine.execCall f s
  | .callx f => Sys2Proof.Machine.execCallx f s
  | .ret f => Sys2Proof.Machine.execRet f s
  | .exit f => Sys2Proof.Machine.execExit f s
  | .yield f => Sys2Proof.Machine.execYield f s
  | .sleep f => Sys2Proof.Machine.execSleep f s
  | .mskrd f => Sys2Proof.Machine.execMskrd f s
  | .mskwr f => Sys2Proof.Machine.execMskwr f s
  | .regroup f => Sys2Proof.Machine.execRegroup f s
  | .srd f => Sys2Proof.Machine.execSrd f s
  | .swr f => Sys2Proof.Machine.execSwr f s
  | .mcwinWrite n v => Sys2Proof.Machine.execMcwinWrite n v s
  | .tbmaskWrite n v => Sys2Proof.Machine.execTbmaskWrite n v s
  | .btexpWrite n v => Sys2Proof.Machine.execBtexpWrite n v s
  | .iadd f => Sys2Proof.Machine.execIadd f s
  | .iaddi f => Sys2Proof.Machine.execIaddi f s
  | .isub f => Sys2Proof.Machine.execIsub f s
  | .imul f => Sys2Proof.Machine.execImul f s
  | .imulh f => Sys2Proof.Machine.execImulh f s
  | .imad f => Sys2Proof.Machine.execImad f s
  | .imadw f => Sys2Proof.Machine.execImadw f s
  | .addc f => Sys2Proof.Machine.execAddc f s
  | .subb f => Sys2Proof.Machine.execSubb f s
  | .iabs f => Sys2Proof.Machine.execIabs f s
  | .ineg f => Sys2Proof.Machine.execIneg f s
  | .imin f => Sys2Proof.Machine.execImin f s
  | .imax f => Sys2Proof.Machine.execImax f s
  | .icmp f => Sys2Proof.Machine.execIcmp f s
  | .shl f => Sys2Proof.Machine.execShl f s
  | .shr f => Sys2Proof.Machine.execShr f s
  | .sar f => Sys2Proof.Machine.execSar f s
  | .rot f => Sys2Proof.Machine.execRot f s
  | .and f => Sys2Proof.Machine.execAnd f s
  | .or f => Sys2Proof.Machine.execOr f s
  | .xor f => Sys2Proof.Machine.execXor f s
  | .andn f => Sys2Proof.Machine.execAndn f s
  | .not f => Sys2Proof.Machine.execNot f s
  | .bfx f => Sys2Proof.Machine.execBfx f s
  | .bfi f => Sys2Proof.Machine.execBfi f s
  | .brev f => Sys2Proof.Machine.execBrev f s
  | .popc f => Sys2Proof.Machine.execPopc f s
  | .clz f => Sys2Proof.Machine.execClz f s
  | .ctz f => Sys2Proof.Machine.execCtz f s
  | .lea f => Sys2Proof.Machine.execLea f s
  | .idiv f => Sys2Proof.Machine.execIdiv f s
  | .irem f => Sys2Proof.Machine.execIrem f s
  | .fadd f => Sys2Proof.Machine.execFadd f s
  | .fsub f => Sys2Proof.Machine.execFsub f s
  | .fmul f => Sys2Proof.Machine.execFmul f s
  | .ffma f => Sys2Proof.Machine.execFfma f s
  | .fmin f => Sys2Proof.Machine.execFmin f s
  | .fmax f => Sys2Proof.Machine.execFmax f s
  | .fcmp f => Sys2Proof.Machine.execFcmp f s
  | .fclass f => Sys2Proof.Machine.execFclass f s
  | .frcp f => Sys2Proof.Machine.execFrcp f s
  | .frsq f => Sys2Proof.Machine.execFrsq f s
  | .fsqrt f => Sys2Proof.Machine.execFsqrt f s
  | .fexp2 f => Sys2Proof.Machine.execFexp2 f s
  | .flog2 f => Sys2Proof.Machine.execFlog2 f s
  | .fsin f => Sys2Proof.Machine.execFsin f s
  | .fcos f => Sys2Proof.Machine.execFcos f s
  | .ftanh f => Sys2Proof.Machine.execFtanh f s
  | .fdivs f => Sys2Proof.Machine.execFdivs f s
  | .frnd f => Sys2Proof.Machine.execFrnd f s
  | .dot4 f => Sys2Proof.Machine.execDot4 f s
  | .dot2 f => Sys2Proof.Machine.execDot2 f s
  | .mov f => Sys2Proof.Machine.execMov f s
  | .movi f => Sys2Proof.Machine.execMovi f s
  | .movhi f => Sys2Proof.Machine.execMovhi f s
  | .addpc f => Sys2Proof.Machine.execAddpc f s
  | .bcast f => Sys2Proof.Machine.execBcast f s
  | .shfl f => Sys2Proof.Machine.execShfl f s
  | .shflx f => Sys2Proof.Machine.execShflx f s
  | .shflup f => Sys2Proof.Machine.execShflup f s
  | .shfldn f => Sys2Proof.Machine.execShfldn f s
  | .vote f => Sys2Proof.Machine.execVote f s
  | .pfxsum f => Sys2Proof.Machine.execPfxsum f s
  | .lred f => Sys2Proof.Machine.execLred f s
  | .sample f => Sys2Proof.Machine.execSample f s
  | .sel f => Sys2Proof.Machine.execSel f s
  | .firstl f => Sys2Proof.Machine.execFirstl f s
  | .kill f => Sys2Proof.Machine.execKill f s
  | .plop f => Sys2Proof.Machine.execPlop f s
  | .cvt f => Sys2Proof.Machine.execCvt f s
  | .cvtsc f => Sys2Proof.Machine.execCvtsc f s
  | .pack f => Sys2Proof.Machine.execPack f s
  | .unpack f => Sys2Proof.Machine.execUnpack f s
  | .lds f => Sys2Proof.Machine.execLds f s
  | .sts f => Sys2Proof.Machine.execSts f s
  | .ldsTake f => Sys2Proof.Machine.execLdsTake f s
  | .ldsWait f => Sys2Proof.Machine.execLdsWait f s
  | .stsFill f => Sys2Proof.Machine.execStsFill f s
  | .sempty f => Sys2Proof.Machine.execSempty f s
  | .atoms f => Sys2Proof.Machine.execAtoms f s
  | .cass f => Sys2Proof.Machine.execCass f s
  | .ld f => Sys2Proof.Machine.execLd f s
  | .ldI12 f => Sys2Proof.Machine.execLdI12 f s
  | .st f => Sys2Proof.Machine.execSt f s
  | .stI12 f => Sys2Proof.Machine.execStI12 f s
  | .atom f => Sys2Proof.Machine.execAtom f s
  | .cas f => Sys2Proof.Machine.execCas f s
  | .red f => Sys2Proof.Machine.execRed f s
  | .fence f => Sys2Proof.Machine.execFence f s
  | .pref f => Sys2Proof.Machine.execPref f s
  | .cctl f => Sys2Proof.Machine.execCctl f s
  | .evload f => Sys2Proof.Machine.execEvload f s
  | .evstep f => Sys2Proof.Machine.execEvstep f s
  | .winbind f => Sys2Proof.Machine.execWinbind f s
  | .winfree f => Sys2Proof.Machine.execWinfree f s
  | .addrq f => Sys2Proof.Machine.execAddrq f s
  | .pgmap f => Sys2Proof.Machine.execPgmap f s
  | .pgpool f => Sys2Proof.Machine.execPgpool f s
  | .tlbinv f => Sys2Proof.Machine.execTlbinv f s
  | .cpy f => Sys2Proof.Machine.execCpy f s
  | .tcopy f => Sys2Proof.Machine.execTcopy f s
  | .tcopyMc f => Sys2Proof.Machine.execTcopyMc f s
  | .cpwait f => Sys2Proof.Machine.execCpwait f s
  | .cpany f => Sys2Proof.Machine.execCpany f s
  | .cpfirst f => Sys2Proof.Machine.execCpfirst f s
  | .cptest f => Sys2Proof.Machine.execCptest f s
  | .cpstat f => Sys2Proof.Machine.execCpstat f s
  | .copyQueueRoom => Sys2Proof.Machine.execCopyQueueRoom s
  | .copyComplete id => Sys2Proof.Machine.execCopyComplete id s
  | .copySuspend id => Sys2Proof.Machine.execCopySuspend id s
  | .mma f => Sys2Proof.Machine.execMma f s
  | .mmaQ f => Sys2Proof.Machine.execMmaQ f s
  | .wbload f => Sys2Proof.Machine.execWbload f s
  | .wbfree f => Sys2Proof.Machine.execWbfree f s
  | .acczero f => Sys2Proof.Machine.execAcczero f s
  | .accld f => Sys2Proof.Machine.execAccld f s
  | .accst f => Sys2Proof.Machine.execAccst f s
  | .accrd f => Sys2Proof.Machine.execAccrd f s
  | .accwr f => Sys2Proof.Machine.execAccwr f s
  | .accadd f => Sys2Proof.Machine.execAccadd f s
  | .mxclass f => Sys2Proof.Machine.execMxclass f s
  | .mxwait f => Sys2Proof.Machine.execMxwait f s
  | .mxQueueRoom => Sys2Proof.Machine.execMxQueueRoom s
  | .mxKstep => Sys2Proof.Machine.execMxKstep s
  | .mxQueuedOp => Sys2Proof.Machine.execMxQueuedOp s
  | .wbPanelLoaded h => Sys2Proof.Machine.execWbPanelLoaded h s
  | .wbSpaceReturn h => Sys2Proof.Machine.execWbSpaceReturn h s
  | .lblld f => Sys2Proof.Machine.execLblld f s
  | .relld f => Sys2Proof.Machine.execRelld f s
  | .reltest f => Sys2Proof.Machine.execReltest f s
  | .selv f => Sys2Proof.Machine.execSelv f s
  | .treeld f => Sys2Proof.Machine.execTreeld f s
  | .lblst f => Sys2Proof.Machine.execLblst f s
  | .tap f => Sys2Proof.Machine.execTap f s
  | .steer f => Sys2Proof.Machine.execSteer f s
  | .tapstat f => Sys2Proof.Machine.execTapstat f s
  | .tapclr f => Sys2Proof.Machine.execTapclr f s
  | .bar f => Sys2Proof.Machine.execBar f s
  | .bararr f => Sys2Proof.Machine.execBararr f s
  | .barwait f => Sys2Proof.Machine.execBarwait f s
  | .bargen f => Sys2Proof.Machine.execBargen f s
  | .slathPhaseComplete n => Sys2Proof.Machine.execSlathPhaseComplete n s
  | .tqenq f => Sys2Proof.Machine.execTqenq f s
  | .tqdeq f => Sys2Proof.Machine.execTqdeq f s
  | .taskend f => Sys2Proof.Machine.execTaskend f s
  | .dcinit f => Sys2Proof.Machine.execDcinit f s
  | .dcdec f => Sys2Proof.Machine.execDcdec f s
  | .queueEngineSteal q requester => Sys2Proof.Machine.execQueueEngineSteal q requester s
  | .leaseExpiry ticket => Sys2Proof.Machine.execLeaseExpiry ticket s
  | .launch f => Sys2Proof.Machine.execLaunch f s
  | .cross f => Sys2Proof.Machine.execCross f s
  | .lap f => Sys2Proof.Machine.execLap f s
  | .drift f => Sys2Proof.Machine.execDrift f s
  | .prkend f => Sys2Proof.Machine.execPrkend f s
  | .afetch f => Sys2Proof.Machine.execAfetch f s
  | .apush f => Sys2Proof.Machine.execApush f s
  | .aovl f => Sys2Proof.Machine.execAovl f s
  | .aloop f => Sys2Proof.Machine.execAloop f s
  | .astop f => Sys2Proof.Machine.execAstop f s
  | .qstat f => Sys2Proof.Machine.execQstat f s
  | .winread f => Sys2Proof.Machine.execWinread f s
  | .async f => Sys2Proof.Machine.execAsync f s
  | .streamEntryPush id => Sys2Proof.Machine.execStreamEntryPush id s
  | .shstart f => Sys2Proof.Machine.execShstart f s
  | .shwait f => Sys2Proof.Machine.execShwait f s
  | .cfix f => Sys2Proof.Machine.execCfix f s
  | .hld d a w imm => Sys2Proof.Machine.execHld d a w imm s
  | .hldv d a b => Sys2Proof.Machine.execHldv d a b s
  | .haddReg d a b => Sys2Proof.Machine.execHaddReg d a b s
  | .haddImm d a imm => Sys2Proof.Machine.execHaddImm d a imm s
  | .hsubReg d a b => Sys2Proof.Machine.execHsubReg d a b s
  | .hsubImm d a imm => Sys2Proof.Machine.execHsubImm d a imm s
  | .hshlReg d a b => Sys2Proof.Machine.execHshlReg d a b s
  | .hshlImm d a imm => Sys2Proof.Machine.execHshlImm d a imm s
  | .handReg d a b => Sys2Proof.Machine.execHandReg d a b s
  | .handImm d a imm => Sys2Proof.Machine.execHandImm d a imm s
  | .hcmpReg d a c b => Sys2Proof.Machine.execHcmpReg d a c b s
  | .hcmpImm d a c imm => Sys2Proof.Machine.execHcmpImm d a c imm s
  | .hbr a d => Sys2Proof.Machine.execHbr a d s
  | .hbrZ a d => Sys2Proof.Machine.execHbrZ a d s
  | .hjmp d => Sys2Proof.Machine.execHjmp d s
  | .hloop a d => Sys2Proof.Machine.execHloop a d s
  | .hpref n a d => Sys2Proof.Machine.execHpref n a d s
  | .hrow a => Sys2Proof.Machine.execHrow a s
  | .hemit => Sys2Proof.Machine.execHemit s
  | .htile a b => Sys2Proof.Machine.execHtile a b s
  | .htileOpen => Sys2Proof.Machine.execHtileOpen s
  | .hvrow => Sys2Proof.Machine.execHvrow s
  | .hscale d => Sys2Proof.Machine.execHscale d s
  | .hprune => Sys2Proof.Machine.execHprune s
  | .hempty a => Sys2Proof.Machine.execHempty a s
  | .hend => Sys2Proof.Machine.execHend s
  | .hmov d imm => Sys2Proof.Machine.execHmov d imm s
  | .hmovH d imm => Sys2Proof.Machine.execHmovH d imm s
  | .xsend f => Sys2Proof.Machine.execXsend f s
  | .xrecv f => Sys2Proof.Machine.execXrecv f s
  | .xred f => Sys2Proof.Machine.execXred f s
  | .fabricMessageArrival chan dev srcPart bytes => Sys2Proof.Machine.execFabricMessageArrival chan dev srcPart bytes s
  | .xredComplete group ranks => Sys2Proof.Machine.execXredComplete group ranks s
  | .fabricAccess a => Sys2Proof.Machine.execFabricAccess a s
  | .fabricReplay link failed => Sys2Proof.Machine.execFabricReplay link failed s
  | .prdone f => Sys2Proof.Machine.execPrdone f s
  | .ctxsave f => Sys2Proof.Machine.execCtxsave f s
  | .trap f => Sys2Proof.Machine.execTrap f s
  | .eret f => Sys2Proof.Machine.execEret f s
  | .owr f => Sys2Proof.Machine.execOwr f s
  | .oww f => Sys2Proof.Machine.execOww f s
  | .emuset f => Sys2Proof.Machine.execEmuset f s
  | .ctxrest f => Sys2Proof.Machine.execCtxrest f s
  | .bkpt f => Sys2Proof.Machine.execBkpt f s
  | .sleepExpiry => Sys2Proof.Machine.execSleepExpiry s
  | .driftWake => Sys2Proof.Machine.execDriftWake s
  | .queueWake => Sys2Proof.Machine.execQueueWake s
  | .crossWake => Sys2Proof.Machine.execCrossWake s
  | .teamEnd => Sys2Proof.Machine.execTeamEnd s
  | .icacheFill va => Sys2Proof.Machine.execIcacheFill va s
  | .launchPacket port partNo ctx packet => Sys2Proof.Machine.execLaunchPacket port partNo ctx packet s
  | .launchReady id => Sys2Proof.Machine.execLaunchReady id s
  | .launchComplete id => Sys2Proof.Machine.execLaunchComplete id s
  | .bindRecord core slot rec stores => Sys2Proof.Machine.execBindRecord core slot rec stores s
  | .quantumExpiry => Sys2Proof.Machine.execQuantumExpiry s
  | .preemptRequest core slot => Sys2Proof.Machine.execPreemptRequest core slot s
  | .preDelivery => Sys2Proof.Machine.execPreDelivery s
  | .preemptEnd => Sys2Proof.Machine.execPreemptEnd s
  | .preemptTimeout => Sys2Proof.Machine.execPreemptTimeout s
  | .hsemtkRead port => Sys2Proof.Machine.execHsemtkRead port s
  | .hsemstRelease port => Sys2Proof.Machine.execHsemstRelease port s
  | .hostLinkDown port => Sys2Proof.Machine.execHostLinkDown port s
  | .partitionCreate port g => Sys2Proof.Machine.execPartitionCreate port g s
  | .partitionDestroy port partNo => Sys2Proof.Machine.execPartitionDestroy port partNo s
  | .firmwareUpdate port image => Sys2Proof.Machine.execFirmwareUpdate port image s
  | .moduleReset port => Sys2Proof.Machine.execModuleReset port s
  | .attestationReport nonce => Sys2Proof.Machine.execAttestationReport nonce s
  | .flr port vf => Sys2Proof.Machine.execFlr port vf s
  | .atsInvalidation va pages => Sys2Proof.Machine.execAtsInvalidation va pages s
  | .priResponse va reply => Sys2Proof.Machine.execPriResponse va reply s
  | .patrolScrub => Sys2Proof.Machine.execPatrolScrub s
  | .undefinedInstruction f => Sys2Proof.Machine.execUndefinedInstruction f s
  | .shuttleUndefinedWord w => Sys2Proof.Machine.execShuttleUndefinedWord w s
  | .hostBarAccess partNo ipa store => Sys2Proof.Machine.execHostBarAccess partNo ipa store s
  | .powerClampWithhold => Sys2Proof.Machine.execPowerClampWithhold s

end Sys2Proof.Machine
end

