-- ==== Sys2Proof/Machine/Step.lean ====
section
/-!
DEFINITION. One step of the machine: the agent whose turn it is moves (log 3), and the cycle count advances.
-/
namespace Sys2Proof.Machine

/-- A member or shuttle turn, the event of another agent, or the act of a unit. -/
def turnOutcome (s : State) : Turn → Host.Outcome State Fault Refusal
  | .member id =>
    match fetchMember (takeTurn s id) with
    | .run i s => exec i s
    | .done s => .next s
  | .shuttle team id =>
    let s := pickShuttle (pickTeam s team) id
    match fetchShuttle s with
    | some i => exec i s
    | none => .next s
  | .event i => exec i s
  | .copyRead team id => .next (copyTurn s team id)
  | .l1Evict core key => .next (evictTurn s core key)
  | .l2Access part line store => .next (l2Turn s part line store)
  | .tlbFill team va core wide => .next (tlbTurn s team va core wide)
  | .tlbDrop team va core => .next (tlbDropTurn s team va core)
  | .walkFill team a second => .next (walkTurn s team a second)
  | .walkDrop team a second => .next (walkDropTurn s team a second)
  | .tapFill core gran => .next (tapTurn s core gran)
  | .peerAccept part n => .next (peerTurn s part n)
  | .blockEvict cluster pa => .next (blockTurn s cluster pa)
  | .labelRead core op word => .next (labelAt s core op word)

/-- The outcome with the cycle counted. -/
def counted : Host.Outcome State Fault Refusal → Host.Outcome State Fault Refusal
  | .next s => .next (tick s)
  | o => o

/-- One step: the boot ROM after a reset (R507), then one turn; with no turn listed, the member in focus moves. -/
def step (s : State) : Host.Outcome State Fault Refusal :=
  match s.mod.boot with
  | .pending => counted (.next (runBoot s))
  | .halted _ =>
    match s.turns with
    | .event i :: r => if pfEvent i then counted (exec i { s with turns := r }) else counted (.next { s with turns := r })
    | _ => counted (.next s)
  | .running =>
    match s.turns with
    | [] => counted (turnOutcome s (.member s.m.id))
    | t :: r => counted (turnOutcome { s with turns := r } t)

/-- The state with an instruction of the opcode table placed where the next step fetches: a shuttle word where the row has at most 32
bits, else a LIS-3 instruction with every bit above `nbits` zero. -/
def State.withFetchWord (s : State) (nbits w : Nat) : State :=
  if nbits ≤ 32 then withShuttleWord s (BitVec.ofNat 32 w) else withCode s (leBytes 16 (w % 2 ^ nbits))

end Sys2Proof.Machine
end

