-- ==== Sys2Proof/Safety.lean ====
section
/-!
DEFINITION. The terms in which claims about the machine are stated: its invariants, what it is for an instruction to be issued, and what it
is for its destination to hold a result.
-/
namespace Sys2Proof.Machine

/-! ## Invariants -/

/-- An L1 holds each line once, with all its bytes (R190, R199). -/
def L1Canonical (c : Core) : Prop := (c.l1.map (·.key)).Nodup ∧ ∀ ln ∈ c.l1, ln.data.length = 128

/-- The memories, and what the cores' L1 caches hold of them, have their canonical form. -/
def MemoryCanonical (s : State) : Prop :=
  Memory.wf s.mem = true ∧ Memory.wf s.vault = true ∧ ∀ c ∈ s.core :: s.cores, L1Canonical c

/-- EXEC lies within LIVE (R73). -/
def Member.execLive (m : Member) : Prop := m.exec &&& ~~~m.live = 0#128

/-- Every member of the machine: the one in focus, its peers, those of the other teams, and those of saved teams of every partition. -/
def State.members (s : State) : List Member :=
  (s.m :: s.peers) ++ (s.teams.map (·.2)).flatten ++ (((s.part :: s.parts).map fun p => (p.saved.map (·.2.2)).flatten).flatten)

/-- EXEC lies within LIVE in every member (R73). -/
def ExecWithinLive (s : State) : Prop := ∀ m ∈ s.members, m.execLive

/-! ## Issue -/

/-- What stands before the effect of an instruction of entry `e` and fields `f` at the cursor of the member in focus (R63, R447): its role is the
member's or ALL (R50), on a unit that has it; its length is not reserved and it lies in its 32-byte block (R61); PRE is not due; some
lane is active; and no step of R63 or R447 traps or waits. Then: what the instruction knows of itself, and the state with its operands read
and its destination registers mapped, in which its effect begins. -/
def started (e : Entry) (f : Fields) (s : State) : Option (Ic × State) :=
  if executes e f s && !malformedAt f s && activeLanes s f != 0#128 && !preDue s.m then
    match beginIssue e f s (activeLanes s f) with
    | (ic, .ok s') => some (ic, s')
    | (_, .error _) => none
  else none

/-- The cursor moved past the instruction. -/
def Ic.adv (ic : Ic) (s : State) : State := setCursor s ic.next

/-- An instruction of entry `e` completes with an effect: wherever it is issued and `ok` holds of its operands, `exec` answers the next state
that `eff` makes of the state in which its effect begins. -/
def Completes (e : Entry) (i : Fields → Instr) (ok : Ic → State → Prop) (eff : Ic → State → State) : Prop :=
  ∀ f s ic s', started e f s = some (ic, s') → ok ic s' → exec (i f) s = .next (complete (eff ic s'))

/-- An instruction of entry `e` writes `res` to its destination, and goes on at the next instruction. -/
def Writes (e : Entry) (i : Fields → Instr) (wide : Ic → Bool) (res : Ic → Nat → Dword) : Prop :=
  Completes e i (fun _ _ => True) fun ic s => ic.adv (ic.write s (wide ic) (res ic))

/-- An instruction of entry `e` traps: wherever it is issued and `ok` holds of its operands, `exec` answers the state that takes the trap,
with nothing of the instruction's effect (R446). -/
def Traps (e : Entry) (i : Fields → Instr) (ok : Ic → State → Prop) (t : Ic → Trap) : Prop :=
  ∀ f s ic s', started e f s = some (ic, s') → ok ic s' →
    exec (i f) s = .next (enterTrap s f s.m.cursor (lenBytes f) (activeLanes s f) (t ic))

/-- An instruction of entry `e` waits: wherever it is issued and `ok` holds of its operands, the member sleeps at it and nothing else changes
(R84). -/
def Sleeps (e : Entry) (i : Fields → Instr) (ok : Ic → State → Prop) (w : Ic → Wait) : Prop :=
  ∀ f s ic s', started e f s = some (ic, s') → ok ic s' → exec (i f) s = .next { s with m := { s.m with wait := some (w ic) } }

/-- What the destination of an instruction holds in `t`, where `s` is the state in which its effect began (R53, R56, R57, R59): each active
lane of a vector register, or of a pair when `wide`; the k register once; the queue's new last entry; each active lane of a predicate. -/
def Ic.holds (ic : Ic) (s t : State) (wide : Bool) (res : Nat → Dword) : Prop :=
  match ic.opnd ic.f.dst with
  | .v r => ∀ l, l < ic.n → ic.act.getLsbD l = true →
      vLane t.m.rf r l = lo32 (res l) ∧ (wide = true → vLane t.m.rf (r + 1) l = (res l >>> 32).setWidth 32)
  | .k r => r < s.m.rf.kregs.length → kReg t.m.rf r = res ic.lane
  | .q q => t.team.queues = modifyAt (fun es => es ++ [.data (ic.entry fun l => lo32 (res l))]) q s.team.queues
  | .p r => r < 7 → r < s.m.rf.preds.length → ∀ l, l < ic.n → ic.act.getLsbD l = true → (pReg t.m.rf r).getLsbD l = (res l != 0#64)
  | _ => True

/-- Whether the destination of an instruction covers vector register `r`. -/
def Ic.coversV (ic : Ic) (wide : Bool) (r : Nat) : Bool :=
  match ic.opnd ic.f.dst with
  | .v d => r == d || (wide && r == d + 1)
  | _ => false

/-- A lane of a register holds a value that a later instruction may read: the lane is live, and no last read has marked it (R107). -/
def keptLane (s : State) (r l : Nat) : Bool :=
  s.m.live.getLsbD l &&
    (match vreg s.m.rf r (l / 32) with | some v => decide (l % 32 < 32) && !v.dead.getLsbD (l % 32) | none => false)


/-- The frames of a member with the registers that last reads have freed taken out of the interrupted windows (R107). -/
def sweptFrames (m : Member) : List Frame := m.frames.map fun f => { f with rf := sweepWin m.live [] f.rf }

/-- Two states whose frames are the same, but for such registers. -/
def sameFrames (s t : State) : Prop := sweptFrames t.m = sweptFrames s.m

/-- No lookahead window has left a register for the end of the instruction to choose (R47). -/
def lookClear (s : State) : Prop := s.m.look.twice.isEmpty = true

/-! ## Results as bit vectors -/

/-- The result of an integer operation on S0 at the width of the instruction's type, extended to a k register by the type (R137, R138). -/
def Ic.bv1 (ic : Ic) (l : Nat) (g : (w : Nat) → BitVec w → BitVec w) : Dword :=
  if ic.wide then g 64 (ic.src0 true l) else ext32 ic.signed (g 32 (lo32 (ic.src0 false l)))

/-- The same on S0 and S1. -/
def Ic.bv2 (ic : Ic) (l : Nat) (g : (w : Nat) → BitVec w → BitVec w → BitVec w) : Dword :=
  if ic.wide then g 64 (ic.src0 true l) (ic.src1 true l) else ext32 ic.signed (g 32 (lo32 (ic.src0 false l)) (lo32 (ic.src1 false l)))

/-- A number from S0 at the width of the instruction's type, as a 32-bit result (R149, R153). -/
def Ic.num1 (ic : Ic) (l : Nat) (g : (w : Nat) → BitVec w → Nat) : Dword :=
  BitVec.ofNat 64 (if ic.wide then g 64 (ic.src0 true l) else g 32 (lo32 (ic.src0 false l)))

/-- The same on S0 and S1. -/
def Ic.num2 (ic : Ic) (l : Nat) (g : (w : Nat) → BitVec w → BitVec w → Nat) : Dword :=
  BitVec.ofNat 64
    (if ic.wide then g 64 (ic.src0 true l) (ic.src1 true l) else g 32 (lo32 (ic.src0 false l)) (lo32 (ic.src1 false l)))

/-- The double-width product by signedness. -/
def wideMul (signed : Bool) (w : Nat) (a b : BitVec w) : BitVec (2 * w) :=
  if signed then a.signExtend (2 * w) * b.signExtend (2 * w) else a.setWidth (2 * w) * b.setWidth (2 * w)

/-- A field of `n` bits from bit `off`, extended by signedness (R152). -/
def bitField (signed : Bool) (w off n : Nat) (a : BitVec w) : BitVec w :=
  if signed then (BitVec.ofNat n (a.toNat >>> off)).signExtend w else (BitVec.ofNat n (a.toNat >>> off)).setWidth w

/-- A word with bits `off + n - 1 : off` replaced by the low bits of another (R152). -/
def insertField (w off n : Nat) (a b : BitVec w) : BitVec w :=
  let m := BitVec.ofNat w ((2 ^ n - 1) <<< off)
  (a &&& ~~~m) ||| ((b <<< off) &&& m)

/-- Quotient and remainder on bit vectors (R155): a zero divisor gives all ones and the dividend. -/
def bvDiv (signed : Bool) (w : Nat) (a b : BitVec w) : BitVec w :=
  if b = 0#w then BitVec.allOnes w else if signed then a.sdiv b else a.udiv b
def bvRem (signed : Bool) (w : Nat) (a b : BitVec w) : BitVec w :=
  if b = 0#w then a else if signed then a.srem b else a.umod b

/-- The comparison of R149 on bit vectors. -/
def bvCond (signed : Bool) (c w : Nat) (a b : BitVec w) : Bool :=
  let lt (x y : BitVec w) : Bool := if signed then x.slt y else x.ult y
  match c with
  | 0 => a == b
  | 1 => a != b
  | 2 => lt a b
  | 3 => !lt b a
  | 4 => lt b a
  | _ => !lt a b

/-- Operands of a division, at its own width (R155). -/
def Ic.divRes (ic : Ic) (l : Nat) (g : (w : Nat) → BitVec w → BitVec w → BitVec w) : Dword :=
  if divWidth ic.f = 64 then g 64 (ic.src0 true l) (ic.src1 true l)
  else ext32 (modBits ic.f 0 0 == 0) (g 32 (lo32 (ic.src0 false l)) (lo32 (ic.src1 false l)))

/-- The signedness of a division (R155): MOD[0] is 0 for a signed type. -/
def Ic.divSigned (ic : Ic) : Bool := modBits ic.f 0 0 == 0

/-- S0 and S1 at the type's width with a carry in (R146), as exact numbers. -/
def Ic.sumCarry (ic : Ic) (l : Nat) : Nat := ic.n0 l + ic.n1 l + bnat (ic.cond2 l)

/-! ## Floating elements -/

/-- An operation on the elements of a lane: one of FP32, or the two halves of a packed type apart (R139). -/
def onHalves (ft : Nat) (g : Fmt → Nat → Nat → Nat) (x y : Nat) : Nat :=
  if ft = 0 then g fp32 x y else g (ftFmt ft) (x % 65536) (y % 65536) + g (ftFmt ft) (x / 65536) (y / 65536) * 65536

/-- The exact dot product of `n` integer elements of `w` bits (R165). -/
def dotInt (s0 s1 : Bool) (w n a b : Nat) : Int := ((List.range n).map fun i => wordElem s0 w i a * wordElem s1 w i b).sum

/-- The exact dot product of `n` floating elements of `w` bits (R165). -/
def dotFloat (fms : Fmt × Fmt) (w n a b : Nat) : FVal :=
  sumV ((List.range n).map fun i => mulV (fdecode fms.1 false (a / 2 ^ (w * i) % 2 ^ w)) (fdecode fms.2 false (b / 2 ^ (w * i) % 2 ^ w)))

/-! ## Control -/

/-- The address that the displacement of a branch gives (R87). -/
def Ic.target (ic : Ic) : Dword := ic.pc + disp1 ic.f

/-- The state with EXEC and the cursor set. -/
def atMask (s : State) (ex : Mask) (pc : Dword) : State := { s with m := { s.m with exec := ex, cursor := pc } }

/-- Whether that many entries fit on the stack (R74, R283), and none would move to a place of the stack extension that is lost (R509). -/
def fits (s : State) (n : Nat) : Prop := s.m.stack.length + n ≤ stackLimit s.m.kind ∧ moveLost s n = false

/-! ## Memory -/

/-- The balanced tree over 2^n leaves, each node of which joins the trees of its first and its second half (R39). -/
def pairTree {α : Type} (op : α → α → α) : Nat → (Nat → α) → α
  | 0, leaf => leaf 0
  | n + 1, leaf => op (pairTree op n leaf) (pairTree op n fun i => leaf (2 ^ n + i))

/-- A place is none of those of some resolved lanes. -/
def notIn (locs : List (Nat × List Loc)) (x : Loc) : Prop := ∀ e ∈ locs, x ∉ e.2

/-- Two states in which the core in focus reads every byte of memory, of the vaults and of its team's scratchpad alike (R199), with the same full
words. -/
def sameMemory (s t : State) : Prop := (∀ x, readLoc t x = readLoc s x) ∧ ∀ w, wordFull t.team w = wordFull s.team w

/-- Two states that differ at most in memory with its caches, in the team's scratchpad and in the member's cursor and sleep: every register, special
register, mask and stack is the same, but that a lane of a vector register that is no longer live or has been read for the last time is free
(R107). -/
def sameRegisters (s t : State) : Prop :=
  t.m.rf.kregs = s.m.rf.kregs ∧ t.m.rf.preds = s.m.rf.preds ∧ (∀ r l, keptLane s r l = true → vLane t.m.rf r l = vLane s.m.rf r l) ∧
    t.m.exec = s.m.exec ∧ t.m.live = s.m.live ∧ t.m.stack = s.m.stack ∧ sameFrames s t ∧ t.m.rskey = s.m.rskey ∧
    t.m.rsctr = s.m.rsctr ∧ t.m.lc = s.m.lc ∧ t.m.lapit = s.m.lapit ∧ t.m.regstat = s.m.regstat ∧ t.team.queues = s.team.queues ∧
    t.team.full = s.team.full ∧ t.peers = s.peers ∧ t.teams = s.teams ∧ t.ctx = s.ctx ∧ t.part = { s.part with l2 := t.part.l2 } ∧
    t.core = { s.core with l1 := t.core.l1 } ∧ t.mod = s.mod

/-- The value of lane `l`'s access to its places, as a little-endian number (R1). -/
def placesVal (s : State) (locs : List (Nat × List Loc)) (l : Nat) : Nat := ofLeBytes (readLocs s (locsOf locs l))

end Sys2Proof.Machine
end

