-- ==== Sys2Proof/Certificates/Slice0/Obligations.lean ====
section
/-!
DEFINITION. The statements for the provers, in the terms of Sys2Proof/Safety.lean. A statement about an instruction quantifies over every
field word and every state in which the instruction is issued (`started`), and its conclusion is the state that `exec` answers.
-/

open Sys2Proof Sys2Proof.Machine

/-! ## The machine as a whole -/

/-- What reset leaves (R11, R499): the control semaphore at 0, every core's clamp count at 0, and no partition; the boot ROM is yet to run
(R507). -/
def Obligations.ResetState : Prop :=
  State.reset.mod.next = 0#32 ∧ State.reset.mod.serving = 0#32 ∧ State.reset.core.clamp = 0#64 ∧ State.reset.cores = [] ∧
    (∀ n, (coreOf State.reset n).clamp = 0#64) ∧ State.reset.part.present = false ∧ State.reset.parts = [] ∧
    State.reset.mod.boot = .pending

/-- Both invariants hold at reset. -/
def Obligations.ResetKeepsInvariants : Prop := MemoryCanonical State.reset ∧ ExecWithinLive State.reset

/-- Every step keeps the canonical form of device memory, of the vaults, and of the lines that the L1 caches hold. -/
def Obligations.MemoryStaysCanonical : Prop := ∀ s t, MemoryCanonical s → step s = .next t → MemoryCanonical t

/-- Every step keeps EXEC within LIVE in every member (R73). -/
def Obligations.ExecStaysWithinLive : Prop := ∀ s t, ExecWithinLive s → step s = .next t → ExecWithinLive t

/-- A step in which a member's turn comes fetches the 32-byte block at the cursor of the member that the turn falls to (`takeTurn`, R429), and runs
`exec` of the instruction that the block's bytes from the cursor on decode to, in that state with the block held by the cluster's cache and the walk's
reads and the block's in the second-level cache; then one cycle is counted (R61, R62; log 3). A turn that is listed is taken off the list; with none
listed it is that of the member in focus. -/
def Obligations.StepRunsDecoded : Prop :=
  let blockVa (u : State) : Nat := u.m.cursor.toNat / 32 * 32
  let runs (s u : State) : Prop := ∀ a b i, u.m.status = .running → stopDue u = false → u.ctx.alive = true → fetchPoint u = .ok u →
    u.m.exec ≠ 0#128 → fetchPlace u (blockVa u) = .ok a → cachedBlock (fetchBlock u (blockVa u) a).cl a = some b →
    decode (b.bytes.drop (u.m.cursor.toNat % 32) ++ List.replicate 8 0#8) = some i →
    step s = counted (exec i (fetchBlock u (blockVa u) a))
  (∀ s, s.mod.boot = .running → s.turns = [] → runs s (takeTurn s s.m.id)) ∧
    ∀ s id r, s.mod.boot = .running → s.turns = .member id :: r → runs s (takeTurn { s with turns := r } id)

/-- A shuttle's turn runs `exec` of the instruction that the program word at its cursor decodes to, or of the undefined word past the
program's end (R354, R370, R374). -/
def Obligations.StepRunsShuttleWord : Prop :=
  ∀ s r, s.mod.boot = .running → s.turns = .shuttle s.team.id s.team.sh.id :: r → s.team.present = true → s.team.sh.phase = .running →
    step s = counted (exec (match s.team.sh.prog[s.team.sh.cursor]? with
      | some w => decodeShuttle w
      | none => .shuttleUndefinedWord 0#32) { s with turns := r })

/-- The boot ROM is the first step after a reset: its check decides whether the module runs or presents only its physical functions (R507). -/
def Obligations.StepBoots : Prop :=
  ∀ s, s.mod.boot = .pending → ∃ t, step s = .next t ∧
    t.mod.boot = (if bootStat s.mod = 0 then .running else .halted (bootStat s.mod)) ∧ t.mem = s.mem ∧ t.turns = s.turns

/-! ## Encoding -/

/-- Decoding an encoded instruction gives it back, whatever bytes follow it: every LIS-3 instruction that an encoding holds, and every
shuttle instruction (R45, R65, R370, R371). -/
def Obligations.DecodeEncode : Prop :=
  (∀ i rest, i.encodable = true → (coreEntry i).isSome = true → decode (encode i ++ rest) = some i) ∧
    ∀ i w, i.encodable = true → encodeShuttle i = some w → decodeShuttle w = i

/-- Encoding a decoded word gives the word back: no bit of a LIS-3 instruction whose length is not reserved, or of a shuttle word, is lost
(R45, R63, R370, R374). -/
def Obligations.EncodeDecode : Prop :=
  (∀ w ext : Dword, w.extractLsb' 0 2 ≠ 3#2 →
    encode (decodeWord w ext) =
      leBytes 8 w.toNat ++ (leBytes 8 ext.toNat).take (lenBytes (fieldsOf w ext) - 8)) ∧
    ∀ w : Word, encodeShuttle (decodeShuttle w) = some w

/-- Words written out from the encodings of the spec decode to the instructions that they stand for: `NOP`, `JOIN`, `ADDPC`, `ERET`, `PRDONE`,
and the shuttle's `HADD h5, h5, 8` and `HLOOP h3, -4`. -/
def Obligations.DecodesSpecWords : Prop :=
  (∃ f, decodeWord 0xFFFFFFFFF001F804#64 0#64 = .nop f ∧ f.role = 7#3 ∧ f.preg = 7#3 ∧ f.len = 0#2) ∧
    (∃ f, decodeWord 0xFFFFFFFFF001F814#64 0#64 = .join f) ∧
    (∃ f, decodeWord 0x000120103001FB0C#64 0#64 = .addpc f ∧ operandOf f.dst = .k 3 ∧ imm20 f = 0x12#20) ∧
    (∃ f, decodeWord 0xFFFFFFFFF001FF04#64 0#64 = .eret f) ∧
    (∃ f, decodeWord 0xFFFFFFFFF001FEC0#64 0#64 = .prdone f) ∧
    decodeShuttle 0x0CA58008#32 = .haddImm 5#5 5#5 8#15 ∧ decodeShuttle 0x286FFFFC#32 = .hloop 3#5 0xFFFFC#20

/-! ## Issue -/

/-- An instruction of another role, one of every role that a member's unit skips, and one with no active lane have no effect: the member goes on
behind it (R49, R50, R63), or at its next block where its length is reserved or it extends past its block, on every unit and for every instruction
of LIS-3; one of the member's role or of every role counts in each open lookahead window (R47). That a skipped one counts, and that a malformed
one is passed over too, are the model's choices (logs 86 and 24). A parity error in the guard predicate of an instruction that the member executes
raises RAS, whatever lanes are active (R114). -/
def Obligations.NoActiveLane : Prop :=
  let own (f : Fields) (s : State) : Prop := f.role = 7#3 ∨ f.role = s.m.role
  let skipped (e : Entry) (f : Fields) (s : State) : Prop := ¬own f s ∨ (s.m.kind ≠ .wave ∧ f.role = 7#3 ∧ implements s e = false)
  let whole (f : Fields) (s : State) : Prop := f.len ≠ 3#2 ∧ s.m.cursor.toNat % 32 + lenBytes f ≤ 32
  let goesOn (i : Instr) (f : Fields) (s : State) : Prop := ∀ at',
    (whole f s → at' = s.m.cursor + BitVec.ofNat 64 (lenBytes f)) →
    (¬whole f s → at' = s.m.cursor + BitVec.ofNat 64 (32 - s.m.cursor.toNat % 32)) →
    (own f s ∧ whole f s → exec i s = .next { s with
      m := { s.m with wait := none, cursor := at', look := { s.m.look with wins := s.m.look.counted } }, free := lookFree s }) ∧
    (¬(own f s ∧ whole f s) → exec i s = .next { s with m := { s.m with wait := none, cursor := at' } })
  (∀ i e f s, coreEntry i = some (e, f) → preDue s.m = false → skipped e f s → goesOn i f s) ∧
  (∀ i e f s, coreEntry i = some (e, f) → preDue s.m = false → ¬skipped e f s → activeLanes s f = 0#128 →
    unitBad s.m.rf (.p f.preg.toNat) = false → goesOn i f s) ∧
  (∀ i e f s, coreEntry i = some (e, f) → ¬skipped e f s → activeLanes s f = 0#128 → unitBad s.m.rf (.p f.preg.toNat) = true →
    exec i s = .next (enterTrap s f s.m.cursor (lenBytes f) s.m.exec { cls := cRas, cause := 1 })) ∧
  ∀ i e f s, coreEntry i = some (e, f) → e.opc ≠ eCross.opc → e.ownBounds = false → s.m.kind = .wave → s.m.held = [] → s.m.wait = none →
    own f s → whole f s → activeLanes s f ≠ 0#128 → e.wave = true → engineFault e f s (activeLanes s f) = none →
    fateOf e (s.part.emuOpc.contains e.opc) (nameReader s.m) s.team.roles.length f = none → boundsOf e f s = none →
    (∃ es qs, popsOf s f (sourceFields e f) s.team.queues [] = .all es qs) → pushFull e f s = false →
    unitBad s.m.rf (.p f.preg.toNat) = true →
    exec i s = .next (enterTrap s f s.m.cursor (lenBytes f) (activeLanes s f) { cls := cRas, cause := 1 })

/-- When a uniform instruction is issued: on a wave with nothing held, pending or struck, here and in the other half of a half-wave, and in no
lookahead window, an instruction of length 8 or more whose fields decode (R63 step 4), whose operands are k registers within the uniform count,
predicates, constants, special values, immediates or absent, and that delivers no fault of an engine (R447), begins its effect in the state that
it found, with the registers freed that no lane can read again (R107), where it does not take its last reads late, and the window opened that its
LA asks for (R47). -/
def Obligations.UniformIssues : Prop :=
  ∀ e f s, s.m.kind = .wave → s.m.held = [] → s.m.wait = none → preDue s.m = false → s.m.datapath = 0 → s.m.rf.kbad = 0#64 →
    (∀ r, s.m.rf.pbad.getD r 0#128 = 0#128) → (∀ m r, otherHalf s = some m → m.rf.pbad.getD r 0#128 = 0#128) → s.m.look.wins = [] →
    f.len ≠ 3#2 → s.m.cursor.toNat % 32 + lenBytes f ≤ 32 → (f.role = 7#3 ∨ f.role = s.m.role) → activeLanes s f ≠ 0#128 →
    engineFault e f s (activeLanes s f) = none → e.wave = true → e.ownBounds = false → e.dstSrc = false →
    fateOf e (s.part.emuOpc.contains e.opc) operandOf s.team.roles.length f = none →
    (∀ p ∈ [(e.s0, f.s0), (e.s1, f.s1), (e.s2, f.s2), (e.dst, f.dst)], p.1.raw f = true ∨
      (match operandOf p.2 with
       | .k r => r < max s.m.rf.unif 1
       | .const _ | .special _ | .imm | .none | .p _ => True
       | _ => False)) →
    ∃ ic, started e f s = some (ic, lookNext e f (destSet e f s) (activeLanes s f) s (if e.late then s else sweepRegs s [])) ∧
      ic.f = f ∧ ic.act = activeLanes s f ∧ ic.rd = s ∧ ic.pops = [[], [], []] ∧ ic.pc = s.m.cursor ∧ ic.one = false

/-- What the issue of an instruction leaves alone, where the vector registers that it names are mapped and none of them is in the backing store
(so nothing is spilled or refilled): memory, vaults, scratchpad, the uniform registers, the predicates, EXEC, LIVE, the stack, the frames and
the special registers; a lane of a register that the instruction does not read for the last time keeps its value (R57, R105 to R111). -/
def Obligations.IssueFrame : Prop :=
  ∀ e f s ic s', started e f s = some (ic, s') →
    (∀ r ∈ ((sourceFields e f).map fun p => fieldRegs s f p.1 p.2.1).flatten ++ fieldRegs s f e.dst f.dst,
      ∀ h, h < nHw s → ∃ v, vreg s.m.rf r h = some v ∧ v.spilled = false) →
    sameMemory s s' ∧ s'.mem = s.mem ∧ s'.vault = s.vault ∧ s'.peers = s.peers ∧ s'.teams = s.teams ∧ s'.ctx = s.ctx ∧ s'.part = s.part ∧
      s'.core = s.core ∧ s'.mod = s.mod ∧ s'.m.rf.kregs = s.m.rf.kregs ∧ s'.m.rf.preds = s.m.rf.preds ∧ s'.m.exec = s.m.exec ∧
      s'.m.live = s.m.live ∧ s'.m.stack = s.m.stack ∧ sameFrames s s' ∧ s'.m.cursor = s.m.cursor ∧ s'.m.rskey = s.m.rskey ∧
      s'.m.rsctr = s.m.rsctr ∧ s'.m.lc = s.m.lc ∧ s'.m.lapit = s.m.lapit ∧ s'.m.regstat = s.m.regstat ∧
      (∀ r l, keptLane s r l = true → (∀ p ∈ sourceFields e f, p.2.2 = true → r ∉ fieldRegs s f p.1 p.2.1) →
        vLane s'.m.rf r l = vLane s.m.rf r l)

/-- The destination of an instruction holds its result in the state after it (R53, R56, R57, R59, R138): `ic.write` then the end of the
instruction, where the active lanes lie within LIVE (R73) and no lookahead window chooses (R47). -/
def Obligations.DestinationHolds : Prop :=
  ∀ (ic : Ic) (s : State) (wide : Bool) (res : Nat → Dword), lookClear s → ic.n ≤ 128 → ic.n ≤ 32 * nHw s → ic.act &&& ~~~s.m.live = 0#128 →
    ic.act &&& ~~~allLanes ic.n = 0#128 → s.m.exec ≠ 0#128 → s.m.live ≠ 0#128 →
    ic.holds s (complete (ic.adv (ic.write s wide res))) wide res

/-- What writing a destination and ending the instruction leaves alone (R53, R57, R59): all of memory, the stack, the frames, EXEC, LIVE, the
special registers, every other uniform register, predicate and queue, the predicates' inactive lanes, and every kept lane of another vector
register or of an inactive lane; the cursor stands behind the instruction. -/
def Obligations.DestinationFrame : Prop :=
  ∀ (ic : Ic) (s : State) (wide : Bool) (res : Nat → Dword), lookClear s → s.m.exec ≠ 0#128 → s.m.live ≠ 0#128 →
    let t := complete (ic.adv (ic.write s wide res))
    t.m.cursor = ic.next ∧ t.mem = s.mem ∧ t.vault = s.vault ∧ t.team.spad = s.team.spad ∧ t.team.full = s.team.full ∧
      t.peers = s.peers ∧ t.teams = s.teams ∧ t.ctx = s.ctx ∧ t.part = s.part ∧ t.core = s.core ∧ t.mod = s.mod ∧
      t.m.exec = s.m.exec ∧ t.m.live = s.m.live ∧ t.m.stack = s.m.stack ∧ sameFrames s t ∧ t.m.rskey = s.m.rskey ∧
      t.m.rsctr = s.m.rsctr ∧ t.m.lc = s.m.lc ∧ t.m.lapit = s.m.lapit ∧ t.m.regstat = s.m.regstat ∧
      (∀ n, ic.opnd ic.f.dst ≠ .k n → kReg t.m.rf n = kReg s.m.rf n) ∧
      (∀ n, ic.opnd ic.f.dst ≠ .p n → pReg t.m.rf n = pReg s.m.rf n) ∧
      (∀ n l, ic.act.getLsbD l = false → (pReg t.m.rf n).getLsbD l = (pReg s.m.rf n).getLsbD l) ∧
      (∀ q, ic.opnd ic.f.dst ≠ .q q → t.team.queues.getD q [] = s.team.queues.getD q []) ∧
      ∀ r l, keptLane s r l = true → (ic.coversV wide r = false ∨ ic.act.getLsbD l = false) → vLane t.m.rf r l = vLane s.m.rf r l

/-- What taking a trap saves and where it goes (R442, R448, R449): the frame holds the interrupted window, EXEC and the stack's depth; the
banked registers hold `sr.trapinfo`, `sr.trappc`, `sr.trapmask`, `sr.trapexec` and the trap's data, and for EMU the fields of the
instruction; the handler starts at the vector with EXEC the handler mask, 16 uniform registers and 7 predicates of 0 and no vector register
mapped; memory, LIVE and the stack stay. -/
def Obligations.TrapEntry : Prop :=
  ∀ s f pc len act t r, routeTrap s t = some r →
    let u := enterTrap s f pc len act t
    let mask := (t.mask.getD act) &&& s.m.live
    (∃ fr, u.m.frames = fr :: s.m.frames ∧ fr.sup = r.sup ∧ fr.rf = s.m.rf ∧ fr.exec = s.m.exec ∧ fr.mark = s.m.stack.length ∧
      fr.bank.length = 32 ∧ fr.bank.getD 0 0#64 = trapInfo s t r ∧
      fr.bank.getD 1 0#64 = (if t.after then pc + BitVec.ofNat 64 len else pc) ∧
      fr.bank.getD 2 0#64 = maskLo mask ∧ fr.bank.getD 3 0#64 = maskHi mask ∧ fr.bank.getD 4 0#64 = maskLo s.m.exec ∧
      fr.bank.getD 5 0#64 = maskHi s.m.exec ∧ fr.bank.getD 6 0#64 = t.data0 ∧ fr.bank.getD 7 0#64 = t.data1 ∧
      (t.cls = cEmu → fr.bank.getD 8 0#64 = f.opc.setWidth 64 ∧ fr.bank.getD 10 0#64 = f.dst.setWidth 64 ∧ fr.bank.getD 15 0#64 = pc ∧
        fr.bank.getD 16 0#64 = BitVec.ofNat 64 len ∧ fr.bank.getD 19 0#64 = rawWord f)) ∧
      u.m.exec = mask ∧ u.m.cursor = r.vector ∧ u.m.live = s.m.live ∧ u.m.stack = s.m.stack ∧ u.m.wait = none ∧
      u.m.rf = freshWindow s.m.kind ∧ u.mem = s.mem ∧ u.vault = s.vault ∧ u.team = s.team ∧ u.part = s.part

/-- Where a trap goes (R443, R444): the supervisor's classes, and every trap inside a supervisor frame, to `sr.svvec`; another one to its vector,
to the supervisor with OVERFLOW at context depth 2; a trap whose vector is 0 has NOVEC wherever the supervisor takes it; and the context is
terminated where a trap bound for the supervisor, or one whose own vector is 0, finds `sr.svvec` 0, and at supervisor depth 2, with the lines of
its teams' cores written back (R425). -/
def Obligations.TrapRoute : Prop :=
  ∀ s t,
    let novec : Bool := !forSupervisor t && (if t.cls == cEmu then s.ctx.emuVec else s.ctx.trapVec) == 0#64
    (svDepth s.m ≥ 2 → routeTrap s t = none) ∧
    (svDepth s.m < 2 → s.part.svvec = 0#64 → (svDepth s.m = 1 ∨ forSupervisor t = true ∨ emuDepth s.m ≥ 2) → routeTrap s t = none) ∧
    (svDepth s.m = 0 → forSupervisor t = false → emuDepth s.m < 2 →
      (if t.cls = cEmu then s.ctx.emuVec else s.ctx.trapVec) = 0#64 → s.part.svvec = 0#64 → routeTrap s t = none) ∧
    (svDepth s.m < 2 → s.part.svvec ≠ 0#64 → (svDepth s.m = 1 ∨ forSupervisor t = true) →
      routeTrap s t = some { sup := true, novec := novec, vector := s.part.svvec }) ∧
    (svDepth s.m = 0 → forSupervisor t = false → emuDepth s.m ≥ 2 → s.part.svvec ≠ 0#64 →
      routeTrap s t = some { sup := true, overflow := true, novec := novec, vector := s.part.svvec }) ∧
    (svDepth s.m = 0 → forSupervisor t = false → emuDepth s.m < 2 →
      (if t.cls = cEmu then s.ctx.emuVec else s.ctx.trapVec) = 0#64 → s.part.svvec ≠ 0#64 →
      routeTrap s t = some { sup := true, novec := true, vector := s.part.svvec }) ∧
    (svDepth s.m = 0 → forSupervisor t = false → emuDepth s.m < 2 →
      (if t.cls = cEmu then s.ctx.emuVec else s.ctx.trapVec) ≠ 0#64 →
      routeTrap s t = some { sup := false, vector := if t.cls = cEmu then s.ctx.emuVec else s.ctx.trapVec }) ∧
    (routeTrap s t = none → ∀ f pc len act, (enterTrap s f pc len act t).ctx.alive = false ∧
      (enterTrap s f pc len act t).mem = (ctxClean s).mem)

/-- `ERET` returns to the interrupted context (R460): for EMU behind the emulated instruction unless its handler wrote `sr.emu_pc`, otherwise to
`sr.trappc`, with the lanes of `sr.trapexec` that are live, the interrupted window and the stack that the frame found. The copy, stream or shuttle
context whose fault entered the frame, and no other, is resumed where its fault stood, as a new issue of a copy (R246); or, where the handler
wrote CANCEL, a copy is abandoned with ABORT on its tag (R267), a stream goes with its marker (R288), and a shuttle context ends as cancelled, as
it does after an SHF fault (R367). A frame of RAS ends the context (R445), whose cores write their lines back, and outside every frame `ERET`
raises BOUND with cause FRAME. -/
def Obligations.TrapReturn : Prop :=
  let engines (fr : Frame) (s t : State) : Prop :=
    (fr.engine = none → t.team.copies = s.team.copies ∧ t.team.abort = s.team.abort ∧ t.team.streams = s.team.streams ∧
      t.team.queues = s.team.queues ∧ t.team.sh = s.team.sh ∧ t.team.shs = s.team.shs) ∧
    (∀ id, fr.engine = some (.copy id) → t.team.streams = s.team.streams ∧ t.team.sh = s.team.sh ∧ t.team.shs = s.team.shs ∧
      (bit s.m.cpfault 63 = false → t.nextId = s.nextId + 1 ∧ t.team.abort = s.team.abort ∧ t.team.copies = s.team.copies.map fun c =>
        if c.id = id then { c with id := s.nextId, fault := none, pos := match c.fault with | some x => x.elem | none => c.pos } else c) ∧
      (bit s.m.cpfault 63 = true → ∀ c, s.team.copies.find? (fun c => c.id == id) = some c →
        t.team.copies = s.team.copies.filter (fun c => c.id != id) ∧ t.team.abort = s.team.abort ||| (1#64 <<< c.tag))) ∧
    (∀ id, fr.engine = some (.stream id) → t.team.copies = s.team.copies ∧ t.team.sh = s.team.sh ∧ t.team.shs = s.team.shs ∧
      (bit s.m.qfault 63 = false → t.team.queues = s.team.queues ∧
        t.team.streams = s.team.streams.map fun x => if x.id = id then { x with fault := none } else x) ∧
      (bit s.m.qfault 63 = true → t.team.streams = s.team.streams.filter (fun x => x.id != id) ∧
        t.team.queues = s.team.queues.map fun q => q.filter fun x => x != .marker id)) ∧
    ∀ id, fr.engine = some (.shuttle id) → t.team.copies = s.team.copies ∧ t.team.streams = s.team.streams ∧
      (s.team.sh.id = id → s.team.sh.phase = .faulted →
        t.team.sh = if bit s.m.shfault 63 = true ∨ s.team.sh.fault = none then
          { s.team.sh with phase := .ended, cancelled := true, isOpen := false, fault := none }
        else { s.team.sh with phase := .running, fault := none, cause := 0 }) ∧
      (s.team.sh.id ≠ id → t.team.sh = s.team.sh) ∧ ∀ c ∈ s.team.shs, c.id ≠ id → c ∈ t.team.shs
  (∀ f s ic s' fr fs, started eEret f s = some (ic, s') → lookClear s' → s'.m.frames = fr :: fs → fr.cls ≠ cRas → aligned4 (returnPc fr) = true →
    ((fr.bank.getD 5 0#64) ++ (fr.bank.getD 4 0#64)) &&& s'.m.live ≠ 0#128 →
    ∃ t, exec (.eret f) s = .next t ∧ t.m.cursor = returnPc fr ∧
      t.m.exec = ((fr.bank.getD 5 0#64) ++ (fr.bank.getD 4 0#64)) &&& s'.m.live ∧ t.m.live = s'.m.live ∧
      sweptFrames t.m = sweptFrames { s'.m with frames := fs } ∧
      t.m.stack = s'.m.stack.drop (s'.m.stack.length - fr.mark) ∧ t.m.rf.kregs = fr.rf.kregs ∧ t.m.rf.preds = fr.rf.preds ∧
      t.m.rf.budget = fr.rf.budget ∧ t.m.wait = (if returnPc fr = fr.cursor then thawWait s' fr.wait else none) ∧ t.mem = s'.mem ∧
      engines fr s' t) ∧
  (∀ f s ic s' fr fs, started eEret f s = some (ic, s') → s'.m.frames = fr :: fs → fr.cls = cRas →
    ∃ t, exec (.eret f) s = .next t ∧ t.ctx.alive = false ∧ t.mem = (ctxClean s').mem) ∧
  Traps eEret .eret (fun _ s => s.m.frames = []) fun _ => bound bFrame

/-- `TRAP` raises USER with its code in the context vector, the return address behind it (R459). -/
def Obligations.TrapInstruction : Prop :=
  (Traps eTrap .trap (fun _ _ => True) fun ic => { cls := cUser, cause := fld (ic.u0 false) 15 0, after := true }) ∧
    ∀ c, forSupervisor { cls := cUser, cause := c, after := true } = false

/-- `BKPT` raises USER with BK and cause 0, the return address at itself (R465); BK sends it to the supervisor; with no active lane it has no
effect. -/
def Obligations.Breakpoint : Prop :=
  Traps eBkpt .bkpt (fun _ _ => True) (fun _ => { cls := cUser, bk := true }) ∧
    (∀ t : Trap, t.bk = true → forSupervisor t = true) ∧
    ∀ f s, f.len ≠ 3#2 → s.m.cursor.toNat % 32 + lenBytes f ≤ 32 → activeLanes s f = 0#128 → preDue s.m = false →
      unitBad s.m.rf (.p f.preg.toNat) = false →
      ∃ t, exec (.bkpt f) s = .next t ∧ { t with m := { t.m with look := s.m.look }, free := s.free } =
        { s with m := { s.m with wait := none, cursor := s.m.cursor + BitVec.ofNat 64 (lenBytes f) } }

/-- An instruction that no opcode defines goes to the emulation handler with cause UNDEF (R63, R451). An instruction that is not executed for a
reason of R63 step 4 goes to the emulation handler with the first cause, whatever it is: on a wave with nothing held and no fault of an engine to
deliver; that fault comes first (R447). `CROSS`, whose fields depend on the member, is not among them. -/
def Obligations.UndefinedAndDecodeFates : Prop :=
  (Traps eUndef .undefinedInstruction (fun _ _ => True) fun _ => { cls := cEmu, cause := 1 }) ∧
  (∀ i e f s c, coreEntry i = some (e, f) → e.opc ≠ eCross.opc → s.m.kind = .wave → s.m.held = [] → s.m.wait = none → preDue s.m = false →
    f.len ≠ 3#2 → s.m.cursor.toNat % 32 + lenBytes f ≤ 32 → (f.role = 7#3 ∨ f.role = s.m.role) → activeLanes s f ≠ 0#128 →
    e.wave = true → engineFault e f s (activeLanes s f) = none →
    fateOf e (s.part.emuOpc.contains e.opc) operandOf s.team.roles.length f = some c →
    exec i s = .next (enterTrap s f s.m.cursor (lenBytes f) (activeLanes s f) { cls := cEmu, cause := c.code })) ∧
  ∀ i e f s t, coreEntry i = some (e, f) → e.opc ≠ eCross.opc → s.m.kind = .wave → s.m.held = [] → (f.role = 7#3 ∨ f.role = s.m.role) →
    activeLanes s f ≠ 0#128 → engineFault e f s (activeLanes s f) = some t →
    exec i s = .next (enterTrap s f s.m.cursor (lenBytes f) (activeLanes s f) t)

/-! ## Control -/

/-- `NOP` and `YIELD` (R86, R96): neither changes the state but for the cursor, and `YIELD` counts its wave as ready from this cycle. `SLEEP`
(R97): the member sleeps for min(S0, 2^24 - 1) cycles from the cycle of its issue; a count of 0 has no effect; it completes once the cycle is
reached, or its expiry has been noted; its last read counts as it completes (R108). -/
def Obligations.IdlingInstructions : Prop :=
  let first (ic : Ic) : Prop := (∀ c, ic.old ≠ some (.sleep c)) ∧ ic.old ≠ some .slept
  (Completes eNop .nop (fun _ _ => True) (fun ic s => ic.adv s) ∧
    Completes eYield .yield (fun _ _ => True) fun ic s => ic.adv { s with m := { s.m with ready := s.cycle } }) ∧
  let last (ic : Ic) (s : State) : State := ic.adv (lateLast eSleep ic s)
  (Completes eSleep .sleep (fun ic _ => first ic ∧ ic.u0 false = 0#64) last ∧
    (∀ f s ic s', started eSleep f s = some (ic, s') → first ic → ic.u0 false ≠ 0#64 →
      exec (.sleep f) s =
        .next { s' with m := { s'.m with wait := some (.sleep (s.cycle + min (ic.u0 false).toNat (2 ^ 24 - 1))) } }) ∧
    (∀ c, Completes eSleep .sleep (fun ic s => ic.old = some (.sleep c) ∧ c ≤ s.cycle) last) ∧
    (∀ f s ic s' c, started eSleep f s = some (ic, s') → ic.old = some (.sleep c) → s.cycle < c → exec (.sleep f) s = .next s) ∧
    Completes eSleep .sleep (fun ic _ => ic.old = some .slept) last ∧
    (∀ (s : State) c, s.m.wait = some (.sleep c) → c ≤ s.cycle → exec .sleepExpiry s = .next { s with m := { s.m with wait := some .slept } }) ∧
    (∀ (s : State) c, s.m.wait = some (.sleep c) → s.cycle < c → exec .sleepExpiry s = .next s) ∧
    ∀ s : State, (∀ c, s.m.wait ≠ some (.sleep c)) → exec .sleepExpiry s = .next s)

/-- `BRU` moves the whole of EXEC to its target if any lane is taken (R88), and so does `BR` on a member of one lane (R282); a target that is not
a multiple of 4 raises ALIGN (R61). `BR` on a wave (R88): all of EXEC moves where every lane is taken, and goes on where none is. On a divergence
an A entry holds EXEC at the target of a forward branch, or behind a backward one, unless the top entry is that entry already; the untaken lanes
go on first in a forward branch, the taken lanes in a backward one; an entry that does not fit is BOUND with cause RSTK (R74), and one that would
move another to a place of the stack extension which is lost is RAS (R18). That the top entry is one which the current frame pushed is the model's
choice (log 27). -/
def Obligations.Branches : Prop :=
  let divides (ic : Ic) (s : State) : Prop :=
    ic.one = false ∧ aligned4 ic.target = true ∧ takenLanes ic ≠ 0#128 ∧ takenLanes ic ≠ s.m.exec ∧
      ∀ e, topEntry s.m = some e → ¬(e.kind = .a ∧ e.addr = (if ic.pc.toNat < ic.target.toNat then ic.target else ic.next).setWidth 48)
  (Completes eBru .bru (fun ic _ => aligned4 ic.target = true)
      (fun ic s => setCursor s (if takenLanes ic ≠ 0#128 then ic.target else ic.next)) ∧
    Completes eBr .br (fun ic _ => ic.one = true ∧ aligned4 ic.target = true)
      (fun ic s => setCursor s (if takenLanes ic ≠ 0#128 then ic.target else ic.next)) ∧
    Traps eBru .bru (fun ic _ => aligned4 ic.target = false) (fun _ => alignTrap) ∧
    Traps eBr .br (fun ic _ => aligned4 ic.target = false) fun _ => alignTrap) ∧
  (Completes eBr .br (fun ic s => ic.one = false ∧ aligned4 ic.target = true ∧ takenLanes ic = s.m.exec)
      (fun ic s => setCursor s ic.target) ∧
    Completes eBr .br (fun ic s => ic.one = false ∧ aligned4 ic.target = true ∧ takenLanes ic = 0#128 ∧ s.m.exec ≠ 0#128)
      (fun ic s => ic.adv s) ∧
    Completes eBr .br (fun ic s => ic.one = false ∧ aligned4 ic.target = true ∧ takenLanes ic ≠ 0#128 ∧ takenLanes ic ≠ s.m.exec ∧
        ic.pc.toNat < ic.target.toNat ∧ fits s 1 ∧
        ∀ e, topEntry s.m = some e → ¬(e.kind = .a ∧ e.addr = ic.target.setWidth 48))
      (fun ic s => atMask (pushed s [{ mask := s.m.exec, kind := .a, addr := ic.target.setWidth 48 }]) (s.m.exec &&& ~~~takenLanes ic) ic.next) ∧
    Completes eBr .br (fun ic s => ic.one = false ∧ aligned4 ic.target = true ∧ takenLanes ic ≠ 0#128 ∧ takenLanes ic ≠ s.m.exec ∧
        ¬ic.pc.toNat < ic.target.toNat ∧ fits s 1 ∧ ∀ e, topEntry s.m = some e → ¬(e.kind = .a ∧ e.addr = ic.next.setWidth 48))
      (fun ic s => atMask (pushed s [{ mask := s.m.exec, kind := .a, addr := ic.next.setWidth 48 }]) (takenLanes ic) ic.target) ∧
    Completes eBr .br (fun ic s => ic.one = false ∧ aligned4 ic.target = true ∧ takenLanes ic ≠ 0#128 ∧ takenLanes ic ≠ s.m.exec ∧
        ∃ e, topEntry s.m = some e ∧ e.kind = .a ∧
          e.addr = (if ic.pc.toNat < ic.target.toNat then ic.target else ic.next).setWidth 48)
      (fun ic s => if ic.pc.toNat < ic.target.toNat then atMask s (s.m.exec &&& ~~~takenLanes ic) ic.next else atMask s (takenLanes ic) ic.target) ∧
    Traps eBr .br (fun ic s => divides ic s ∧ s.m.stack.length ≥ stackLimit s.m.kind) (fun _ => bound bRstk) ∧
    Traps eBr .br (fun ic s => divides ic s ∧ s.m.stack.length < stackLimit s.m.kind ∧ moveLost s 1 = true) fun _ => extTrap)

/-- `BRD` (R89): a J entry holds EXEC at its join address; where every lane is taken it moves to the target, where none is it goes on, and where
some are, a P entry holds the taken lanes at the target and the others go on. An address that is not a multiple of 4 raises ALIGN, entries that
do not fit BOUND with cause RSTK, and entries that would move others to a lost place of the stack extension RAS (R18). -/
def Obligations.DivergentRegion : Prop :=
  let join (ic : Ic) (s : State) : StackEntry := { mask := s.m.exec, kind := .j, addr := (ic.pc + disp2 ic.f).setWidth 48 }
  let ok (ic : Ic) : Prop := aligned4 ic.target = true ∧ aligned4 (ic.pc + disp2 ic.f) = true
  Completes eBrd .brd (fun ic s => ok ic ∧ takenLanes ic = s.m.exec ∧ fits s 1)
      (fun ic s => setCursor (pushed s [join ic s]) ic.target) ∧
    Completes eBrd .brd (fun ic s => ok ic ∧ takenLanes ic = 0#128 ∧ s.m.exec ≠ 0#128 ∧ fits s 1)
      (fun ic s => ic.adv (pushed s [join ic s])) ∧
    Completes eBrd .brd (fun ic s => ok ic ∧ takenLanes ic ≠ 0#128 ∧ takenLanes ic ≠ s.m.exec ∧ fits s 2)
      (fun ic s => atMask (pushed s [{ mask := takenLanes ic, kind := .p, addr := ic.target.setWidth 48 }, join ic s])
        (s.m.exec &&& ~~~takenLanes ic) ic.next) ∧
    Traps eBrd .brd (fun ic _ => ¬ok ic) (fun _ => alignTrap) ∧
    (let most (ic : Ic) (s : State) : Nat := if takenLanes ic = 0#128 ∨ takenLanes ic = s.m.exec then 1 else 2
    Traps eBrd .brd (fun ic s => ok ic ∧ stackLimit s.m.kind < s.m.stack.length + most ic s) (fun _ => bound bRstk) ∧
      Traps eBrd .brd (fun ic s => ok ic ∧ s.m.stack.length + most ic s ≤ stackLimit s.m.kind ∧ moveLost s (most ic s) = true) fun _ => extTrap)

/-- `JOIN` (R90) pops the top entry, which must have KIND J or P: EXEC is its mask in LIVE and the cursor its address, going on under R76 if EXEC
is empty; the entry that the hardware then takes back from the stack extension passes the caches (R74), and where its place is lost `JOIN` raises RAS
(R18). With no entry, or an A or C entry on top, it raises BOUND with cause RSTK and changes nothing. That it sees only the entries which its own
frame pushed is the model's choice (log 27). -/
def Obligations.JoinPops : Prop :=
  (∀ f s ic s' e, started eJoin f s = some (ic, s') → topEntry s'.m = some e → (e.kind = .j ∨ e.kind = .p) → refillLost s' 1 = false →
    exec (.join f) s = .next (complete { refill s' 1 with m := { s'.m with
      exec := e.mask &&& s'.m.live, cursor := e.addr.setWidth 64, stack := s'.m.stack.tail } })) ∧
    (∀ s, s.m.stack.length ≤ heldLimit s → refillLost s 1 = false ∧ refill s 1 = s) ∧
    Traps eJoin .join (fun _ s => refillLost s 1 = true ∧ ∃ e, topEntry s.m = some e ∧ (e.kind = .j ∨ e.kind = .p)) (fun _ => extTrap) ∧
    Traps eJoin .join (fun _ s => ∀ e, topEntry s.m = some e → e.kind = .a ∨ e.kind = .c) fun _ => bound bRstk

/-- `CALL` (R91, R92): a C entry holds EXEC behind the call, and the active lanes go to the target. `CALLX` (R93): the lanes of the lowest target
go to it, and P entries hold the lanes of the others, the next address on top; under them a C entry holds EXEC behind a call, or, for a tail
call, a P entry holds the lanes that it leaves behind, if any. Targets that are not multiples of 4 raise ALIGN, entries that do not fit BOUND
with cause RSTK, and entries that would move others to a lost place of the stack extension RAS (R18). -/
def Obligations.Calls : Prop :=
  (Completes eCall .call (fun _ s => fits s 1)
      (fun ic s => atMask (pushed s [{ mask := s.m.exec, kind := .c, addr := (ic.pc + 8#64).setWidth 48 }]) ic.act
        (ic.pc + (disp24 ic.f).signExtend 64 * 4#64)) ∧
    Traps eCall .call (fun _ s => s.m.stack.length ≥ stackLimit s.m.kind) (fun _ => bound bRstk) ∧
    Traps eCall .call (fun _ s => s.m.stack.length < stackLimit s.m.kind ∧ moveLost s 1 = true) fun _ => extTrap) ∧
  (let targets (ic : Ic) : List Nat := ascending (ic.lanes.map (callTarget ic))
  let group (ic : Ic) (g : Nat) : Mask := ic.act &&& maskOf ic.n fun l => callTarget ic l == g
  let ret (ic : Ic) : BitVec 48 := (ic.pc + 8#64).setWidth 48
  let below (ic : Ic) (s : State) : List StackEntry :=
    if modBits ic.f 0 0 = 0 then [{ mask := s.m.exec, kind := .c, addr := ret ic }]
    else if s.m.exec &&& ~~~ic.act ≠ 0#128 then [{ mask := s.m.exec &&& ~~~ic.act, kind := .p, addr := ret ic }] else []
  let entries (ic : Ic) (s : State) : List StackEntry :=
    (targets ic).tail.map (fun g => { mask := group ic g, kind := EntryKind.p, addr := BitVec.ofNat 48 g }) ++ below ic s
  let ok (ic : Ic) : Prop := ∀ l ∈ ic.lanes, callTarget ic l % 4 = 0
  Completes eCallx .callx (fun ic s => ok ic ∧ fits s (entries ic s).length)
      (fun ic s => atMask (pushed s (entries ic s)) (group ic ((targets ic).headD 0)) (BitVec.ofNat 64 ((targets ic).headD 0))) ∧
    Traps eCallx .callx (fun ic _ => ¬ok ic) (fun _ => alignTrap) ∧
    Traps eCallx .callx (fun ic s => ok ic ∧ entries ic s ≠ [] ∧ stackLimit s.m.kind < s.m.stack.length + (entries ic s).length)
      (fun _ => bound bRstk) ∧
    Traps eCallx .callx (fun ic s => ok ic ∧ s.m.stack.length + (entries ic s).length ≤ stackLimit s.m.kind ∧
      moveLost s (entries ic s).length = true) fun _ => extTrap)

/-- `RET` takes the active lanes out of EXEC and out of every entry above the topmost C entry of its own, and acts as `EXIT` where it has none
(R94); `EXIT` takes them out of LIVE (R95), as `PRKEND` does with every lane of LIVE (R398). With LIVE empty the member retires, and what it holds
is free but where the team's last member waits for its copies (R80, R257); with EXEC empty it resumes from its stack (R76), or takes RAS where an
entry of the stack extension that it would take back is lost (R18), with every live lane in EXEC (log 115). `MSKRD` gives half of EXEC, and
`MSKWR` writes EXEC from a half within the lanes that may run at this point (R98). That `RET` and `MSKWR` see only the entries which their own
frame pushed, and that `MSKWR` reads 32 bits of a vector source, are the model's choices (logs 27 and 44). -/
def Obligations.LaneMasks : Prop :=
  (let own (s : State) : Nat := s.m.stack.length - frameMark s.m
  Completes eExit .exit (fun _ _ => True) (fun ic s => ic.adv (dropLanes s ic.act)) ∧
    Completes ePrkend .prkend (fun _ _ => True) (fun ic s => ic.adv (dropLanes s s.m.live)) ∧
    Completes eRet .ret (fun ic s => leaveCall ic.act (s.m.stack.take (own s)) = none) (fun ic s => ic.adv (dropLanes s ic.act)) ∧
    (∀ f s ic s' st, started eRet f s = some (ic, s') → leaveCall ic.act (s'.m.stack.take (own s')) = some st →
      exec (.ret f) s = .next (complete (ic.adv { s' with m := { s'.m with
        stack := st ++ s'.m.stack.drop (own s'), exec := s'.m.exec &&& ~~~ic.act } }))) ∧
    (∀ s : State, s.m.live = 0#128 → (complete s).m.status = .retired ∧ (complete s).m.stack = [] ∧
      (s.team.copies = [] ∨ (∃ p ∈ s.peers, p.status = .running) → (complete s).m.rf.vregs = [] ∧ (complete s).m.slots = [])) ∧
    ∀ (s : State) e r, s.m.live ≠ 0#128 → s.m.exec = 0#128 → resumeEntry s.m.live (frameMark s.m) s.m.stack = some (e, r) →
      let u := sweepRegs (lookEnd s) []
      let u := { u with m := { u.m with wait := none } }
      let pops := s.m.stack.length - r.length
      (refillLost u pops = false →
        (complete s).m.exec = e.mask &&& s.m.live ∧ (complete s).m.cursor = e.addr.setWidth 64 ∧ (complete s).m.stack = r) ∧
      (refillLost u pops = true → complete s =
        enterTrap { u with m := { u.m with exec := s.m.live } } noFields s.m.cursor 0 s.m.live { extTrap with mask := some s.m.live })) ∧
  (Writes eMskrd .mskrd (fun _ => false)
      (fun ic _ => if modBits ic.f 0 0 = 1 then (ic.rd.m.exec >>> 64).setWidth 64 else ic.rd.m.exec.setWidth 64) ∧
    Completes eMskwr .mskwr (fun _ _ => True) fun ic s =>
      ic.adv { s with m := { s.m with
        exec := (if modBits ic.f 0 0 = 1 then (ic.u0 false).setWidth 128 <<< 64 else (ic.u0 false).setWidth 128) &&&
          runnable s.m.live (s.m.stack.take (s.m.stack.length - frameMark s.m)) } })

/-- `REGROUP` (R99): a range that runs backwards or past the budget is BOUND with cause REG, and another width than 32 goes to the emulation
handler; the waves that wait at a `REGROUP` naming this one, but for its own partner, end with status 4; a partner that is no unretired wave of
the role gives status 3; a partner that does not wait at a `REGROUP` is waited for; one that waits with another cursor or another partner named
gives both status 4, with a stack or with lanes that are not in EXEC status 5, and with more live lanes than 32 in all status 2; else the wave
with the lower WAVEID takes the live lanes of the other, which retires, or a register that cannot be moved traps, whichever of the two is the
host. Last reads count as the instruction completes (R108). The order 4, 5, 2 of the statuses, and which registers are named while one is moved,
are the model's choices (logs 29 and 108). -/
def Obligations.RegroupOutcomes : Prop :=
  let fresh (ic : Ic) : Prop := ∀ n, ic.old ≠ some (.regrouped n)
  let third (ic : Ic) (s : State) : List Nat := fieldRegs s ic.f eRegroup.s2 ic.f.s2
  let last (ic : Ic) (s : State) : List Nat := lastRegs eRegroup ic.f s
  let inRange (ic : Ic) (s : State) : Prop := ic.f.s0.toNat ≤ ic.f.s1.toNat ∧ ic.f.s1.toNat < s.m.rf.budget
  let ready (ic : Ic) (s : State) : Prop := fresh ic ∧ inRange ic s ∧ s.team.width = 32
  let named (ic : Ic) : Nat := match ic.old with | some (.regroup _ _ n _ _) => n | _ => (ic.u2 false).toNat % 2 ^ 32
  let partner (ic : Ic) (s : State) : Option Member :=
    s.peers.find? fun p => p.kind = .wave && p.waveId == named ic && p.role == s.m.role && p.status != .retired
  let alone (ic : Ic) (s : State) (st : Nat) : State := ic.adv (ic.writeAll (lateLast eRegroup ic s) false (BitVec.ofNat 64 st))
  let kept (s : State) (p : Member) : State := releaseNamed s (some p.id)
  (Completes eRegroup .regroup (fun ic _ => ic.old = some (.regrouped 0)) fun ic s => ic.adv (ic.writeAll s false 0#64)) ∧
    (∀ n, n ≠ 0 → Completes eRegroup .regroup (fun ic _ => ic.old = some (.regrouped n)) fun ic s => alone ic s n) ∧
    Traps eRegroup .regroup (fun ic s => fresh ic ∧ ¬inRange ic s) (fun _ => bound bReg) ∧
    Traps eRegroup .regroup (fun ic s => fresh ic ∧ inRange ic s ∧ s.team.width ≠ 32) (fun _ => emuTrap .width) ∧
    (∀ s keep, ∃ g : Member → Member, releaseNamed s keep = { s with peers := s.peers.map g } ∧
      (∀ p, some p.id = keep → g p = p) ∧
      (∀ p a b l x, some p.id ≠ keep → p.wait = some (.regroup a b s.m.waveId l x) → (g p).wait = some (.regrouped 4)) ∧
      ∀ p, (∀ a b l x, p.wait ≠ some (.regroup a b s.m.waveId l x)) → (g p).wait = p.wait) ∧
    Completes eRegroup .regroup (fun ic s => ready ic s ∧ partner ic s = none) (fun ic s => alone ic (releaseNamed s none) 3) ∧
    (∀ f s ic s' p, started eRegroup f s = some (ic, s') → ready ic s' → partner ic s' = some p →
      (∀ a b n l x, p.wait ≠ some (.regroup a b n l x)) →
      exec (.regroup f) s = .next { kept s' p with
        m := { s'.m with wait := some (.regroup f.s0.toNat f.s1.toNat (named ic) (last ic s') ic.act) } }) ∧
    (∀ f s ic s' p a b n l x, started eRegroup f s = some (ic, s') → ready ic s' → partner ic s' = some p →
      p.wait = some (.regroup a b n l x) → regroupStatus s'.m p (named ic) n ≠ 0 →
      exec (.regroup f) s = .next (complete (alone ic
        (modifyPeer (kept s' p) p.id fun p => { p with wait := some (.regrouped (regroupStatus s'.m p (named ic) n)) })
        (regroupStatus s'.m p (named ic) n)))) ∧
    (∀ f s ic s' p a b n l x u, started eRegroup f s = some (ic, s') → ready ic s' → partner ic s' = some p →
      p.wait = some (.regroup a b n l x) → regroupStatus s'.m p (named ic) n = 0 → s'.m.waveId < p.waveId →
      fuseInto (kept s' p) p (third ic s') f.s0.toNat f.s1.toNat (last ic s') ic.act = .ok u →
      exec (.regroup f) s =
        .next (complete (ic.adv (swapTo (retire (swapTo (ic.writeAll u false 0#64) p.id)) (ic.writeAll u false 0#64).m.id)))) ∧
    (∀ f s ic s' p a b n l x u, started eRegroup f s = some (ic, s') → ready ic s' → partner ic s' = some p →
      p.wait = some (.regroup a b n l x) → regroupStatus s'.m p (named ic) n = 0 → p.waveId ≤ s'.m.waveId →
      fuseInto (swapTo (kept s' p) p.id) s'.m (third ic s') f.s0.toNat f.s1.toNat l x = .ok u →
      exec (.regroup f) s = .next (complete (
        let t := swapTo { u with m := { u.m with wait := some (.regrouped 0) } } s'.m.id
        { t with m := { t.m with live := 0#128, exec := 0#128 } }))) ∧
    (∀ f s ic s' p a b n l x tr, started eRegroup f s = some (ic, s') → ready ic s' → partner ic s' = some p →
      p.wait = some (.regroup a b n l x) → regroupStatus s'.m p (named ic) n = 0 →
      (if s'.m.waveId < p.waveId then fuseInto (kept s' p) p (third ic s') f.s0.toNat f.s1.toNat (last ic s') ic.act
       else fuseInto (swapTo (kept s' p) p.id) s'.m (third ic s') f.s0.toNat f.s1.toNat l x) = .error tr →
      exec (.regroup f) s = .next (enterTrap s f s.m.cursor (lenBytes f) (activeLanes s f) tr)) ∧
    ∀ (me other : Member) a b, regroupStatus me other a b =
      if other.cursor ≠ me.cursor ∨ b ≠ me.waveId ∨ a ≠ other.waveId then 4
      else if me.stack ≠ [] ∨ other.stack ≠ [] ∨ me.exec ≠ me.live ∨ other.exec ≠ other.live then 5
      else if 32 < countLanes me.live + countLanes other.live then 2 else 0

/-! ## Special registers -/

/-- `SRD` reads a special register that exists and that the member may read, uniform or by lanes; `SWR` writes a uniform one, with HI its high
half alone, and `sr.rsctr` lane by lane; a number that no register has, a write of a read-only one and a missing privilege go to the emulation
handler with cause SREG or PRIV (R100, R101). A register that has been written holds the value with its reserved bits 0. Writes of a multicast
window, of a half of the team barriers' masks and of a route-tag barrier's EXPECT by their own steps (R269, R401, R404): the new value with its
reserved bits 0 where the write is allowed, SHAPE with cause MCWIN or BAR where it is not. `sr.mxskip` and `sr.mxpre` read a value that holds every
advance of which an `MXWAIT` of the member has made sure, and none beyond the count (R517). That a 1 written to a sticky status bit sets it, and
that `SWR` of a 64-bit register reads a pair of a vector source, are the model's choices (logs 45 and 44). -/
def Obligations.SpecialRegisters : Prop :=
  let part (ic : Ic) (x : Dword) : Dword := if modBits ic.f 0 0 = 1 then x >>> 32 else x
  let num (ic : Ic) : Nat := ic.f.s1.toNat
  let src (ic : Ic) (l : Nat) : Dword :=
    if ic.opnd ic.f.s0 = .imm then BitVec.ofNat 64 (fld ic.f.ext 31 0) else ic.src0 (swrSpan ic.f == 2) l
  let put (ic : Ic) (old : Dword) : Dword := if modBits ic.f 0 0 = 1 then (lo32 (src ic ic.lane)) ++ (lo32 old) else src ic ic.lane
  let spent (s : State) (n : Nat) : State := if n = 0x0C2 ∨ n = 0x0C3 then { s with free := s.free + 2 } else s
  let window (v : Dword) : Dword := setFld (setFld (setFld v 47 44 0) 23 20 0) 6 0 0
  let mcOk (s : State) (n : Nat) (v : Dword) : Prop :=
    mcBase (window v) + 128 * mcSize (window v) ≤ s.team.share ∧
      (mcKey (window v) = 0 ∨ ∀ e ∈ s.team.mcwin.zipIdx, e.2 ≠ n → mcKey e.1 ≠ mcKey (window v)) ∧
      (mcKey (s.team.mcwin.getD n 0#64) = 0 ∨ mcInFlight s (mcKey (s.team.mcwin.getD n 0#64)) = false)
  let mask (v : Dword) : Dword := v &&& 0x7F7F7F7F7F7F7F7F#64
  let tbOk (s : State) (n : Nat) (v : Dword) : Prop := ∀ i, i < 8 →
    fld (mask v) (8 * i + 7) (8 * i) = fld (s.team.tbmask.getD n 0#64) (8 * i + 7) (8 * i) ∨ (s.team.bars.getD (8 * n + i) {}).arrived = []
  let btOk (s : State) (n : Nat) : Prop := (s.part.bts.getD n {}).arrived = []
  let refused (s : State) (i : Instr) (c : Nat) : Prop := ∃ f, exec i s = .next (enterTrap s f s.m.cursor 8 s.m.exec (shape c))
  ((∀ f s ic s' x, started eSrd f s = some (ic, s') → srFault ic.rd (num ic) false = none → srRead ic.rd (num ic) = some (.uni x) →
      exec (.srd f) s = .next (complete (ic.adv (ic.writeAll (spent s' (num ic)) false (part ic x))))) ∧
    (∀ f s ic s' g, started eSrd f s = some (ic, s') → srFault ic.rd (num ic) false = none → srRead ic.rd (num ic) = some (.lanes g) →
      exec (.srd f) s = .next (complete (ic.adv (ic.write s' false fun l => part ic (g l))))) ∧
    (∀ c, Traps eSrd .srd (fun ic _ => srFault ic.rd (num ic) false = some c) fun _ => emuTrap c) ∧
    (∀ f s ic s' old u, started eSwr f s = some (ic, s') → srFault ic.rd (num ic) true = none → srRead ic.rd (num ic) = some (.uni old) →
      srWriteUni s' (num ic) (put ic old) = .ok u → exec (.swr f) s = .next (complete (ic.adv u))) ∧
    (∀ f s ic s' old tr, started eSwr f s = some (ic, s') → srFault ic.rd (num ic) true = none → srRead ic.rd (num ic) = some (.uni old) →
      srWriteUni s' (num ic) (put ic old) = .error tr →
      exec (.swr f) s = .next (enterTrap s f s.m.cursor (lenBytes f) (activeLanes s f) tr)) ∧
    (∀ f s ic s' g, started eSwr f s = some (ic, s') → srFault ic.rd (num ic) true = none → srRead ic.rd (num ic) = some (.lanes g) →
      exec (.swr f) s = .next (complete (ic.adv { s' with m := { s'.m with
        rsctr := (List.range ic.n).map fun l => if ic.act.getLsbD l then lo32 (src ic l) else s'.m.rsctr.getD l 0#32 } }))) ∧
    ∀ c, Traps eSwr .swr (fun ic _ => srFault ic.rd (num ic) true = some c) fun _ => emuTrap c) ∧
  (∀ s n w, srFault s n w =
    if srRead s n = none then some .sreg
    else if srPriv n = true ∧ memberPriv s = false then some .priv
    else if w = true ∧ srWritable n = false then some .sreg else none) ∧
  (∀ s n x t, srWriteUni s n x = .ok t →
    let reads (y : Dword) : Prop := srRead t n = some (.uni y)
    (n = 0x020 ∨ n = 0x164 ∨ (0x084 ≤ n ∧ n ≤ 0x087) ∨ (0x08C ≤ n ∧ n ≤ 0x090) → reads x) ∧
      (n = 0x030 → reads (if fld x 7 0 = 0 then setFld s.m.xstat 7 0 0 else s.m.xstat)) ∧
      (n = 0x040 → reads (x &&& 7#64)) ∧
      (n = 0x094 → reads (setFld s.m.cpfault 63 63 (fld x 63 63))) ∧
      (n = 0x09A → reads (setFld s.m.qfault 63 63 (fld x 63 63))) ∧
      (n = 0x09C → reads (setFld s.m.shfault 63 63 (fld x 63 63))) ∧
      (n = 0x0C1 ∨ n = 0x106 → reads (x &&& 1#64)) ∧
      (n = 0x0C7 → reads (if bit x 0 then s.team.lblstat else 0#64)) ∧
      (n = 0x0CA → reads (x &&& 3#64)) ∧
      (0x101 ≤ n → n ≤ 0x104 → s.m.lapit.length = 4 → reads ((lo32 x).setWidth 64)) ∧
      (0x095 ≤ n → n ≤ 0x098 → s.team.mcwin.length = 4 → mcOk s (n - 0x095) x ∧ reads (window x)) ∧
      (n = 0x109 ∨ n = 0x10A → s.team.tbmask.length = 2 → tbOk s (n - 0x109) x ∧ reads (mask x)) ∧
      (0x10B ≤ n → n ≤ 0x112 → s.part.bts.length = 8 → btOk s (n - 0x10B) ∧ reads (x &&& 0xFFFFF#64)) ∧
      ∀ fr fs, s.m.frames = fr :: fs → fr.bank.length = 32 →
        (n = 0x141 ∨ n = 0x144 ∨ n = 0x145 → reads x) ∧ (n = 0x14F → reads (if fr.cls = cEmu then x else 0#64))) ∧
  (∀ s : State, ∃ x y, srRead s 0x0C2 = some (.uni x) ∧ (x - s.m.sureSkip).toNat ≤ (s.team.mxskip - s.m.sureSkip).toNat ∧
    srRead s 0x0C3 = some (.uni y) ∧ (y - s.m.surePre).toNat ≤ (s.team.mxpre - s.m.surePre).toNat) ∧
  ((∀ n v s, mcOk s n.toNat v →
      exec (.mcwinWrite n v) s = .next { s with team := { s.team with mcwin := s.team.mcwin.set n.toNat (window v) } }) ∧
    (∀ n v s, ¬mcOk s n.toNat v → refused s (.mcwinWrite n v) shMcwin) ∧
    (∀ n v s, tbOk s n.toNat v →
      exec (.tbmaskWrite n v) s = .next { s with team := { s.team with tbmask := s.team.tbmask.set n.toNat (mask v) } }) ∧
    (∀ n v s, ¬tbOk s n.toNat v → refused s (.tbmaskWrite n v) shBar) ∧
    (∀ n v s, btOk s n.toNat →
      exec (.btexpWrite n v) s = .next { s with part := { s.part with
        bts := s.part.bts.set n.toNat { s.part.bts.getD n.toNat {} with expect := v.toNat % 2 ^ 20 } } }) ∧
    ∀ n v s, ¬btOk s n.toNat → refused s (.btexpWrite n v) shBar)

/-! ## Integers -/

/-- Integer sums and products (R142 to R145, R147, R154): the bit-vector result at the type's width, clamped to the type's range where SAT is
set; the high half of the double-width product; and the address of `LEA` from a 64-bit base, a scaled 32-bit index and a 32-bit offset. -/
def Obligations.IntegerArithmetic : Prop :=
  let sat (exact : Ic → Nat → Int) (wrapped : Ic → Nat → Dword) (ic : Ic) (l : Nat) : Dword :=
    if ic.sat then intRes ic.w ic.signed (clampInt (tyMin ic.w ic.signed) (tyMax ic.w ic.signed) (exact ic l)) else wrapped ic l
  let mad (ic : Ic) (l : Nat) : Dword :=
    if ic.wide then ic.src0 true l * ic.src1 true l + ic.src2 true l
    else ext32 ic.signed (lo32 (ic.src0 false l) * lo32 (ic.src1 false l) + lo32 (ic.src2 false l))
  Writes eIadd .iadd Ic.wide (sat (fun ic l => ic.i0 l + ic.i1 l) fun ic l => ic.bv2 l fun _ a b => a + b) ∧
    Writes eIsub .isub Ic.wide (sat (fun ic l => ic.i0 l - ic.i1 l) fun ic l => ic.bv2 l fun _ a b => a - b) ∧
    Writes eIaddi .iaddi Ic.wide
      (sat (fun ic l => ic.i0 l + (imm12 ic.f).toInt) fun ic l => ic.bv1 l fun w a => a + (imm12 ic.f).signExtend w) ∧
    Writes eIneg .ineg Ic.wide (sat (fun ic l => -(ic.i0 l)) fun ic l => ic.bv1 l fun _ a => -a) ∧
    Writes eIabs .iabs Ic.wide
      (sat (fun ic l => (ic.i0 l).natAbs) fun ic l => ic.bv1 l fun _ a => if a.msb then -a else a) ∧
    Writes eImul .imul Ic.wide (fun ic l => ic.bv2 l fun _ a b => a * b) ∧
    Writes eImulh .imulh Ic.wide (fun ic l => ic.bv2 l fun w a b => (wideMul ic.signed w a b).extractLsb' w w) ∧
    Writes eImad .imad Ic.wide mad ∧
    Writes eImadw .imadw (fun _ => true) (fun ic l =>
      (wideMul ic.signed 32 (lo32 (ic.src0 false l)) (lo32 (ic.src1 false l))).setWidth 64 + ic.src2 true l) ∧
    Writes eLea .lea (fun _ => true) (fun ic l =>
      ic.src0 true l + ext32 ic.signed (lo32 (ic.src1 false l)) <<< modBits ic.f 6 4 + (lo32 (ic.src2 false l)).signExtend 64)

/-- Sums with a carry, minima, comparisons, counts and divisions (R146, R148, R149, R153, R155): a carry or borrow goes to the predicate that MOD
names, after the sum (log 43); a comparison or a count is a 32-bit number at every width; a division by zero gives all ones and leaves the dividend.
Shifts, logic and bit fields (R150 to R153): a shift by the width or more gives 0, or the sign for `SAR`; `ROT` takes its amount modulo the width; a
field is clipped to the word. -/
def Obligations.IntegerChoicesAndBits : Prop :=
  (Completes eAddc .addc (fun _ _ => True) (fun ic s =>
      ic.adv (setP (ic.write s ic.wide fun l => ic.bv2 l fun w a b => a + b + BitVec.ofNat w (bnat (ic.cond2 l))) (modBits ic.f 6 4) ic.act
        (maskOf ic.n fun l => decide (2 ^ ic.w ≤ ic.n0 l + ic.n1 l + bnat (ic.cond2 l))))) ∧
    Completes eSubb .subb (fun _ _ => True) (fun ic s =>
      ic.adv (setP (ic.write s ic.wide fun l => ic.bv2 l fun w a b => a - b - BitVec.ofNat w (bnat (ic.cond2 l))) (modBits ic.f 6 4) ic.act
        (maskOf ic.n fun l => decide (ic.n0 l < ic.n1 l + bnat (ic.cond2 l))))) ∧
    Writes eImin .imin Ic.wide (fun ic l => ic.bv2 l fun _ a b => if (if ic.signed then a.sle b else a.ule b) then a else b) ∧
    Writes eImax .imax Ic.wide (fun ic l => ic.bv2 l fun _ a b => if (if ic.signed then a.sle b else a.ule b) then b else a) ∧
    Writes eIcmp .icmp (fun _ => false) (fun ic l => ic.num2 l fun w a b => bnat (bvCond ic.signed (modBits ic.f 6 4) w a b)) ∧
    Writes ePopc .popc (fun _ => false) (fun ic l => ic.num1 l fun w a => ((List.range w).filter fun i => a.getLsbD i).length) ∧
    Writes eClz .clz (fun _ => false) (fun ic l => ic.num1 l fun w a => ((List.range w).takeWhile fun i => !a.getMsbD i).length) ∧
    Writes eCtz .ctz (fun _ => false) (fun ic l => ic.num1 l fun w a => ((List.range w).takeWhile fun i => !a.getLsbD i).length) ∧
    Writes eIdiv .idiv (fun ic => divWidth ic.f == 64) (fun ic l => ic.divRes l fun w a b => bvDiv ic.divSigned w a b) ∧
    Writes eIrem .irem (fun ic => divWidth ic.f == 64) (fun ic l => ic.divRes l fun w a b => bvRem ic.divSigned w a b)) ∧
  (let xoff (ic : Ic) (l : Nat) : Nat := ic.amount l % 256
  let xlen (ic : Ic) (l : Nat) : Nat := clipField ic.w (xoff ic l) ((ic.src2 false l).toNat % 256)
  let ioff (ic : Ic) (l : Nat) : Nat := (ic.src2 false l).toNat % 256
  let ilen (ic : Ic) (l : Nat) : Nat := clipField ic.w (ioff ic l) ((ic.src2 false l).toNat / 256 % 256)
  Writes eShl .shl Ic.wide (fun ic l => ic.bv1 l fun _ a => a <<< ic.amount l) ∧
    Writes eShr .shr Ic.wide (fun ic l => ic.bv1 l fun _ a => a >>> ic.amount l) ∧
    Writes eSar .sar Ic.wide (fun ic l => ic.bv1 l fun _ a => a.sshiftRight (ic.amount l)) ∧
    Writes eRot .rot Ic.wide (fun ic l => ic.bv1 l fun _ a => a.rotateLeft (ic.amount l)) ∧
    Writes eAnd .and Ic.wide (fun ic l => ic.bv2 l fun _ a b => a &&& b) ∧
    Writes eOr .or Ic.wide (fun ic l => ic.bv2 l fun _ a b => a ||| b) ∧
    Writes eXor .xor Ic.wide (fun ic l => ic.bv2 l fun _ a b => a ^^^ b) ∧
    Writes eAndn .andn Ic.wide (fun ic l => ic.bv2 l fun _ a b => a &&& ~~~b) ∧
    Writes eNot .not Ic.wide (fun ic l => ic.bv1 l fun _ a => ~~~a) ∧
    Writes eBfx .bfx Ic.wide (fun ic l => ic.bv1 l fun w a => bitField ic.signed w (xoff ic l) (xlen ic l) a) ∧
    Writes eBfi .bfi Ic.wide (fun ic l => ic.bv2 l fun w a b => insertField w (ioff ic l) (ilen ic l) a b) ∧
    Writes eBrev .brev Ic.wide (fun ic l => ic.bv1 l fun _ a => a.reverse))

/-! ## Floating point -/

/-- Floating-point arithmetic (R139, R156 to R161, R163 to R165): each element of a lane on its own; one rounding of the exact result by RND, or
to nearest; SAT to [+0, 1.0]; FTZ on the operands; the comparison's or the class's truth values; and the dot products. -/
def Obligations.FloatArithmetic : Prop :=
  let v (ic : Ic) (fm : Fmt) (x : Nat) : FVal := fdecode fm ic.ftz x
  let arith (ic : Ic) (fm : Fmt) (x : FVal) : Nat :=
    let r := fencode fm { mode := ic.rnd } ic.ftz false x
    if ic.top then fsat fm r else r
  let num (ic : Ic) (g : FVal → FVal → FVal) (x y : FVal) : FVal :=
    if ic.top && isNan x then y else if ic.top && isNan y then x else g x y
  let out (g : Ic → Nat → Nat) (ic : Ic) (l : Nat) : Dword := BitVec.ofNat 64 (g ic l)
  let two (g : Ic → Fmt → Nat → Nat → Nat) : Ic → Nat → Dword := out fun ic l => onHalves ic.ft (g ic) (ic.f0 ic.ft l) (ic.f1 ic.ft l)
  let cmp (ic : Ic) (fm : Fmt) (x y : Nat) : Nat := bnat (floatCond ic.rnd (v ic fm x) (v ic fm y))
  let cls (fm : Fmt) (x mask : Nat) : Nat := if (mask % 1024).testBit (classBit fm x) then 2 ^ classBit fm x else 0
  Writes eFadd .fadd (fun _ => false) (two fun ic fm x y => arith ic fm (addV ic.rnd (v ic fm x) (v ic fm y))) ∧
    Writes eFsub .fsub (fun _ => false) (two fun ic fm x y => arith ic fm (addV ic.rnd (v ic fm x) (negV (v ic fm y)))) ∧
    Writes eFmul .fmul (fun _ => false) (two fun ic fm x y => arith ic fm (mulV (v ic fm x) (v ic fm y))) ∧
    Writes eFfma .ffma (fun _ => false) (out fun ic l =>
      let g (fm : Fmt) (x y z : Nat) : Nat := arith ic fm (addV ic.rnd (mulV (v ic fm x) (v ic fm y)) (v ic fm z))
      let (x, y, z) := (ic.f0 ic.ft l, ic.f1 ic.ft l, ic.f2 ic.ft l)
      if ic.ft = 0 then g fp32 x y z
      else g (ftFmt ic.ft) (x % 65536) (y % 65536) (z % 65536) + g (ftFmt ic.ft) (x / 65536) (y / 65536) (z / 65536) * 65536) ∧
    Writes eFmin .fmin (fun _ => false) (two fun ic fm x y => fround fm (num ic minV (v ic fm x) (v ic fm y))) ∧
    Writes eFmax .fmax (fun _ => false) (two fun ic fm x y => fround fm (num ic maxV (v ic fm x) (v ic fm y))) ∧
    Writes eFcmp .fcmp (fun _ => false) (out fun ic l =>
      if ic.ft = 0 then cmp ic fp32 (ic.f0 0 l) (ic.f1 0 l)
      else cmp ic (ftFmt ic.ft) (ic.f0 ic.ft l % 65536) (ic.f1 ic.ft l % 65536) +
        2 * cmp ic (ftFmt ic.ft) (ic.f0 ic.ft l / 65536) (ic.f1 ic.ft l / 65536)) ∧
    Writes eFclass .fclass (fun _ => false) (out fun ic l =>
      onHalves ic.ft cls (ic.f0 ic.ft l) (lo32 (ic.src1 false l)).toNat) ∧
    Writes eFdivs .fdivs (fun _ => false) (out fun ic l =>
      onHalves ic.ftLo (fun fm x y => fencode fm {} ic.ftzLo false (divV (fdecode fm ic.ftzLo x) (fdecode fm ic.ftzLo y)))
        (ic.f0 ic.ftLo l) (ic.f1 ic.ftLo l)) ∧
    Writes eFrnd .frnd (fun _ => false) (out fun ic l =>
      onHalves ic.ft (fun fm x _ => match v ic fm x with
        | .fin neg m e => fround fm (.fin neg (roundMag { mode := ic.rnd } neg m e) 0)
        | x => fround fm x) (ic.f0 ic.ft l) 0) ∧
    Writes eDot4 .dot4 (fun _ => false) (fun ic l => BitVec.ofNat 64 (if ic.rnd < 4 then
        let sum := dotInt (ic.rnd != 1) (ic.rnd == 0) 8 4 (lo32 (ic.src0 false l)).toNat (lo32 (ic.src1 false l)).toNat +
          (lo32 (ic.src2 false l)).toInt
        (BitVec.ofInt 32 (if modBits ic.f 3 3 == 1 then clampInt (-(2 ^ 31)) (2 ^ 31 - 1) sum else sum)).signExtend 64 |>.toNat
      else
        fround fp32 (addV 0 (fdecode fp32 false (ic.f2 0 l)) (dotFloat (dotFmts true ic.rnd) 8 4
          (lo32 (ic.src0 false l)).toNat (lo32 (ic.src1 false l)).toNat)))) ∧
    Writes eDot2 .dot2 (fun _ => false) (fun ic l => BitVec.ofNat 64 (if ic.rnd < 4 then
        let sum := dotInt (ic.rnd != 1) (ic.rnd == 0) 16 2 (lo32 (ic.src0 false l)).toNat (lo32 (ic.src1 false l)).toNat +
          (lo32 (ic.src2 false l)).toInt
        (BitVec.ofInt 32 (if modBits ic.f 3 3 == 1 then clampInt (-(2 ^ 31)) (2 ^ 31 - 1) sum else sum)).signExtend 64 |>.toNat
      else
        fround fp32 (addV 0 (fdecode fp32 false (ic.f2 0 l)) (dotFloat (dotFmts false ic.rnd) 16 2
          (ic.f0 (ic.rnd - 3) l) (ic.f1 (ic.rnd - 3) l)))))

/-- The special functions and the conversions (R33, R140, R162, R166 to R170): a special function acts on each element widened to FP32, is NaN for
NaN, and is exact at the points of R162's table; `CVT` converts one element, an inexact integer constant rounded to the source type first (log
104), and counts the lanes that drew a random value under `.RS`; `CVTSC` gives each block of 32 lanes the scale of its active lanes' largest
magnitude, 0xFF where one of them is no number and 127 where all are zero, and each lane its value over that scale, saturated, or the code of the
nearest finite entry of a codebook, the lower of two, with an unknown function of the codebook, the scale and the source for a code that the spec
leaves open (log 31); `PACK` and `UNPACK` move fields. -/
def Obligations.FloatConversions : Prop :=
  let special (op : Nat) (ic : Ic) (l : Nat) : Dword :=
    BitVec.ofNat 64 (onHalves ic.ftLo (fun _ x _ => specialElem ic.ftLo op ic.ftzLo x) (ic.f0 ic.ftLo l) 0)
  let cvtSrc (ic : Ic) (l : Nat) : Nat :=
    match ic.opnd ic.f.s0 with
    | .const i =>
      if isIntTy (cvtS ic.f) then (ic.src0 (tyBits (cvtS ic.f) == 64) l).toNat % 2 ^ tyBits (cvtS ic.f) else constIn (fmtOfTy (cvtS ic.f)) i
    | _ => (ic.src0 (tyBits (cvtS ic.f) == 64) l).toNat % 2 ^ tyBits (cvtS ic.f)
  let at' (x : Nat) (neg : Bool) (m : Nat) (e : Int) : Prop := fdecode fp32 false x = .fin neg m e
  let equals (neg : Bool) (m : Nat) (e n : Int) (d : Nat) : Prop :=
    (if neg then -(m : Int) else m) * d * 2 ^ e.toNat = n * 2 ^ (-e).toNat
  let sp (op x : Nat) : Nat := specialElem 0 op false x
  let val (ic : Ic) (l : Nat) : FVal := fdecode fp32 false (ic.f0 0 l)
  let block (ic : Ic) (b : Nat) : List Nat := ic.lanes.filter fun l => l / 32 == b
  let real (v : FVal) : Prop := isFin v = true ∧ isZero v = false
  let scaleOf (ic : Ic) (emax : Int) (b X : Nat) : Prop :=
    ((∃ l ∈ block ic b, isFin (val ic l) = false) → X = 255) ∧
    ((∀ l ∈ block ic b, isZero (val ic l) = true) → X = 127) ∧
    ∀ k, (∀ l ∈ block ic b, isFin (val ic l) = true) → (∃ l ∈ block ic b, real (val ic l) ∧ flog2 (val ic l) = k) →
      (∀ l ∈ block ic b, real (val ic l) → flog2 (val ic l) ≤ k) → (X : Int) = max 0 (min 254 (k - emax + 127))
  let emaxIs (ty : Nat) (tb : List FVal) (emax : Int) : Prop :=
    (ty = 13 → emax = 8) ∧ (ty = 14 → emax = 15) ∧ (ty = 15 → (∀ v ∈ tb, ¬real v) → emax = 0) ∧
    (ty = 15 → (∃ v ∈ tb, real v) → (∃ v ∈ tb, real v ∧ flog2 v = emax) ∧ ∀ v ∈ tb, real v → flog2 v ≤ emax)
  let saturated (fm : Fmt) (r : Rnd) (v : FVal) : Nat :=
    if isNan v then nanBits fm else if isFin (fdecode fm false (fencode fm r false false v)) then fencode fm r false false v
    else maxBits fm (isNeg v)
  let field (signed : Bool) (w i x : Nat) : Word :=
    if signed then (BitVec.ofNat w (x >>> (w * i))).signExtend 32 else (BitVec.ofNat w (x >>> (w * i))).setWidth 32
  Writes eFrcp .frcp (fun _ => false) (special 0x088) ∧ Writes eFrsq .frsq (fun _ => false) (special 0x089) ∧
    Writes eFsqrt .fsqrt (fun _ => false) (special 0x08A) ∧ Writes eFexp2 .fexp2 (fun _ => false) (special 0x08B) ∧
    Writes eFlog2 .flog2 (fun _ => false) (special 0x08C) ∧ Writes eFsin .fsin (fun _ => false) (special 0x08D) ∧
    Writes eFcos .fcos (fun _ => false) (special 0x08E) ∧ Writes eFtanh .ftanh (fun _ => false) (special 0x08F) ∧
    (∀ op ft ftz x, isNan (fdecode (ftFmt ft) ftz x) = true → specialElem ft op ftz x = nanBits (ftFmt ft)) ∧
    Completes eCvt .cvt (fun _ _ => True) (fun ic s =>
      let s := ic.write s (tyBits (tyCode ic.f) == 64) fun l => convertedLane (tyCode ic.f)
        (convert (cvtS ic.f) (tyCode ic.f) (ic.laneRnd (modBits ic.f 6 4) l) (cvtFtz ic.f) (cvtSb ic.f) (cvtSrc ic l))
      ic.adv (if modBits ic.f 6 4 = rndRS then advanceCtr ic.once s else s)) ∧
    (∀ (ftz : Bool) x neg, fdecode fp32 ftz x = .inf neg →
      let q (op : Nat) : Nat := specialElem 0 op ftz x
      q 0x088 = signBit fp32 neg ∧ q 0x089 = (if neg then nanBits fp32 else 0) ∧ q 0x08A = (if neg then nanBits fp32 else infBits fp32 false) ∧
        q 0x08B = (if neg then 0 else infBits fp32 false) ∧ q 0x08C = (if neg then nanBits fp32 else infBits fp32 false) ∧
        q 0x08D = nanBits fp32 ∧ q 0x08E = nanBits fp32 ∧ q 0x08F = if neg then 0xBF800000 else 0x3F800000) ∧
    (∀ (ftz : Bool) x neg e, fdecode fp32 ftz x = .fin neg 0 e →
      let q (op : Nat) : Nat := specialElem 0 op ftz x
      q 0x088 = infBits fp32 neg ∧ q 0x089 = infBits fp32 neg ∧ q 0x08A = signBit fp32 neg ∧ q 0x08B = 0x3F800000 ∧
        q 0x08C = infBits fp32 true ∧ q 0x08D = signBit fp32 neg ∧ q 0x08E = 0x3F800000 ∧ q 0x08F = signBit fp32 neg) ∧
    (∀ x m e, at' x true m e → 0 < m → sp 0x089 x = nanBits fp32 ∧ sp 0x08A x = nanBits fp32 ∧ sp 0x08C x = nanBits fp32) ∧
    (∀ x neg m e n, at' x neg m e → 0 < m → equals neg m e n 1 →
      (-149 ≤ n → n ≤ 127 → sp 0x08B x = fround fp32 (.fin false 1 n)) ∧ (128 ≤ n → sp 0x08B x = infBits fp32 false) ∧
        sp 0x08D x = 0 ∧ sp 0x08E x = if n % 2 = 0 then 0x3F800000 else 0xBF800000) ∧
    (∀ x neg m e n, at' x neg m e → equals neg m e (2 * n + 1) 2 →
      sp 0x08D x = (if n % 2 = 0 then 0x3F800000 else 0xBF800000) ∧ sp 0x08E x = 0) ∧
    (∀ x (k : Nat) e, at' x false (2 ^ k) e → sp 0x08C x = fround fp32 (ofInt (e + k))) ∧
    (∀ f s ic s', started eCvtsc f s = some (ic, s') →
      let ty := tyCode f
      let slot := cbSlot s'.team ((ic.u1 false).toNat % 16)
      let cb := slot.getD []
      let mode := modBits f 6 4
      (ty = 15 → slot.isSome = true) → ∃ (X : Nat → Nat) (emax : Int), emaxIs ty (cbTable cb) emax ∧ (∀ b, scaleOf ic emax b (X b)) ∧
        let elem (l : Nat) : Nat :=
          let v := scaleV (127 - (X (l / 32) : Int)) (val ic l)
          if ty = 13 then saturated e4m3 (ic.laneRnd mode l) v
          else if ty = 14 then saturated e5m2 (ic.laneRnd mode l) v
          else c4Code (cbTable cb) v (Config.c4Open cb (X (l / 32)) (ic.f0 0 l))
        let u := ic.write s' false fun l => BitVec.ofNat 64 (X (l / 32) * 256 + elem l)
        exec (.cvtsc f) s = .next (complete (ic.adv (if ty ≠ 15 ∧ mode = rndRS then advanceCtr ic.lanes u else u)))) ∧
    (∀ (tb : List FVal) v o, isFin v = true → (∃ c, c < 16 ∧ isFin (tb.getD c .nan) = true) →
      let k := c4Code tb v o
      k < 16 ∧ isFin (tb.getD k .nan) = true ∧ ∀ c, c < 16 → isFin (tb.getD c .nan) = true →
        ltV (distV v (tb.getD c .nan)) (distV v (tb.getD k .nan)) = false ∧
          (c < k → ltV (distV v (tb.getD k .nan)) (distV v (tb.getD c .nan)) = true)) ∧
    Traps eCvtsc .cvtsc (fun ic s => tyCode ic.f = 15 ∧ cbSlot s.team ((ic.u1 false).toNat % 16) = none) (fun _ => bound bCb) ∧
    Writes ePack .pack (fun _ => false) (fun ic l => BitVec.ofNat 64 (((List.range (packCount ic.f)).map fun i =>
      (vLane ic.rd.m.rf (ic.f.s0.toNat + i) (ic.at l)).toNat % 2 ^ (32 / packCount ic.f) * 2 ^ (32 / packCount ic.f * i)).sum)) ∧
    Writes eUnpack .unpack (fun _ => false) (fun ic l => (field (modBits ic.f 2 2 == 1) (32 / packCount ic.f)
      ((ic.u1 false).toNat % packCount ic.f) (lo32 (ic.src0 false l)).toNat).setWidth 64)

/-- Decoding a pattern of a floating format and rounding its value to the format again gives the pattern back, unless it is NaN, whose
canonical pattern results; and rounding by any code is exact where the value has a pattern (R20, R21, R27). -/
def Obligations.RoundingIsExact : Prop :=
  ∀ fm ∈ [fp32, fp16, bf16, e4m3, e5m2], ∀ x, x < 2 ^ (1 + fm.ew + fm.fw) → ∀ r nosat,
    fencode fm r false nosat (fdecode fm false x) = if isNan (fdecode fm false x) then nanBits fm else x

/-! ## Moves and the lane crossbar -/

/-- The moves, selections and lane crossbar (R121 to R135): what each active lane takes, from itself, from another lane (0 outside LIVE), or from
a vote, a prefix, a reduction or a draw over the active lanes; `KILL` takes lanes out of LIVE and gives those that remain their number. That a NaN
which lane 0 of an inclusive `PFXSUM.f32` gives is the canonical one (log 113), and what a queue entry, a mask or a special value supplies in a source
lane outside LIVE (log 41), are the model's choices. -/
def Obligations.MovesAndCrossbar : Prop :=
  let fit (ic : Ic) (x : Dword) : Dword := if isUni (ic.opnd ic.f.dst) then x else x &&& 0xFFFFFFFF#64
  let word (w : Word) : Dword := w.setWidth 64
  let up (ic : Ic) : Dword := (imm20 ic.f).signExtend 64 * 4096#64
  let above (ic : Ic) (l : Nat) : Nat → Bool := fun j => if modBits ic.f 4 4 = 1 then j < l else j ≤ l
  let tree (ic : Ic) : List FVal := prefixTree addF32 (ic.lanesF zeroV)
  Writes eMov .mov (fun _ => false) (fun ic l => fit ic (ic.src0 false l)) ∧
    Writes eMovi .movi (fun _ => false) (fun ic l => word (lo32 (ic.u0 false) + BitVec.ofNat 32 l * lo32 (ic.u1 false))) ∧
    Writes eMovhi .movhi (fun _ => false) (fun ic _ => fit ic (up ic)) ∧
    Writes eAddpc .addpc (fun _ => false) (fun ic _ =>
      if isUni (ic.opnd ic.f.dst) then ic.pc + up ic
      else if modBits ic.f 0 0 = 1 then (ic.pc + up ic) >>> 32 else fit ic (ic.pc + up ic)) ∧
    Writes eSel .sel (fun _ => false) (fun ic l => fit ic (if ic.cond2 l then ic.src0 false l else ic.src1 false l)) ∧
    Writes ePlop .plop (fun _ => false) (fun ic l =>
      if ic.f.mod.getLsbD ((if ic.cond0 l then 2 else 0) + if ic.cond1 l then 1 else 0) then 1#64 else 0#64) ∧
    Writes eBcast .bcast (fun _ => false) (fun ic _ => word (ic.lane0 (ic.dist % ic.n))) ∧
    Writes eShfl .shfl (fun _ => false) (fun ic l => word (ic.lane0 ((lo32 (ic.src1 false l)).toNat % ic.n))) ∧
    Writes eShflx .shflx (fun _ => false) (fun ic l => word (ic.lane0 (l ^^^ (ic.dist % ic.n)))) ∧
    Writes eShflup .shflup (fun _ => false) (fun ic l => word (ic.lane0 (if ic.dist ≤ l then l - ic.dist else l))) ∧
    Writes eShfldn .shfldn (fun _ => false) (fun ic l => word (ic.lane0 (if l + ic.dist < ic.n then l + ic.dist else l))) ∧
    Writes eVote .vote (fun _ => false) (fun ic _ => BitVec.ofNat 64 (match modBits ic.f 1 0 with
      | 0 => bnat (ic.lanes.any ic.laneCond0)
      | 1 => bnat (ic.lanes.all ic.laneCond0)
      | 2 =>
        let b := ((ic.lanes.filter ic.laneCond0).map fun l => 2 ^ l).sum
        if isUni (ic.opnd ic.f.dst) then b / 2 ^ (64 * modBits ic.f 3 2) else b / 2 ^ (32 * modBits ic.f 3 2) % 2 ^ 32
      | _ => bnat (ic.lanes.all fun l => lo32 (opndBits ic.rd ic.f (ic.opnd ic.f.s0) [] false l) ==
          lo32 (opndBits ic.rd ic.f (ic.opnd ic.f.s0) [] false ic.lane)))) ∧
    Writes eFirstl .firstl (fun _ => false) (fun ic _ =>
      match (if modBits ic.f 0 0 = 1 then ic.lanes.reverse.find? ic.laneCond0 else ic.lanes.find? ic.laneCond0) with
      | some l => BitVec.ofNat 64 l
      | none => BitVec.allOnes 64) ∧
    (∀ f s ic s', started ePfxsum f s = some (ic, s') → tyCode f ≠ 10 →
      exec (.pfxsum f) s = .next (complete (ic.adv (ic.write s' false fun l =>
        word ((ic.lanes.filter (above ic l)).foldl (fun x j => x + ic.lane0 j) 0#32))))) ∧
    (∀ f s ic s', started ePfxsum f s = some (ic, s') → tyCode f = 10 →
      exec (.pfxsum f) s = .next (complete (ic.adv (ic.write s' false fun l => BitVec.ofNat 64
        (if modBits f 4 4 = 1 then (if l = 0 then 0 else (((tree ic).map (fround fp32)).getD (l - 1) 0))
         else ((tree ic).map (fround fp32)).getD l 0))))) ∧
    (∀ f s ic s', started eLred f s = some (ic, s') → tyCode f ≠ 10 →
      let val (l : Nat) : Int := if tyCode f = 4 then (ic.lane0 l).toInt else (ic.lane0 l).toNat
      exec (.lred f) s = .next (complete (ic.adv (ic.writeAll s' false (ext32 (tyCode f == 4) (match modBits f 5 4 with
        | 0 => ic.lanes.foldl (fun x l => x + ic.lane0 l) 0#32
        | 1 => BitVec.ofInt 32 ((ic.lanes.map val).foldl min (if tyCode f = 4 then 2 ^ 31 - 1 else 2 ^ 32 - 1))
        | _ => BitVec.ofInt 32 ((ic.lanes.map val).foldl max (if tyCode f = 4 then -(2 ^ 31) else 0)))))))) ∧
    (∀ f s ic s', started eLred f s = some (ic, s') → tyCode f = 10 →
      exec (.lred f) s = .next (complete (ic.adv (ic.writeAll s' false (BitVec.ofNat 64 (fround fp32 (match modBits f 5 4 with
        | 0 => (tree ic).getLastD zeroV
        | 1 => (ic.lanesF (.inf false)).foldl minV (.inf false)
        | _ => (ic.lanesF (.inf true)).foldl maxV (.inf true)))))))) ∧
    Completes eSample .sample (fun _ _ => True) (fun ic s =>
      let bad (v : FVal) : Bool := isNan v || ltV v zeroV
      let r := sampleDraw (fun l => ic.act.getLsbD l) ((ic.lanesF zeroV).map fun v => if bad v then zeroV else v)
        (sampleU (fdecode fp32 false (floatBits 0 (ic.opnd ic.f.s1) (ic.u1 false))))
      let st (s : State) : State := if (ic.lanesF zeroV).any bad then stickReg s bitSbadw else s
      ic.adv (ic.writeAll (if r = -1 then stickReg (st s) bitSzero else st s) false (BitVec.ofInt 32 r |>.signExtend 64))) ∧
    (∀ f s ic s', started eKill f s = some (ic, s') →
      let gone : Mask := ic.act &&& maskOf ic.n ic.laneCond0
      let left : Mask := ic.act &&& ~~~gone
      (s'.m.live &&& ~~~gone = 0#128 → exec (.kill f) s = .next (complete (ic.adv (dropLanes s' gone)))) ∧
        (∀ u, s'.m.live &&& ~~~gone ≠ 0#128 → openDst eKill f (dropLanes s' gone) left = .ok u →
          exec (.kill f) s = .next (complete (ic.adv
            ({ ic with act := left }.writeAll u false (BitVec.ofNat 64 (countLanes u.m.live)))))) ∧
        ∀ tr, s'.m.live &&& ~~~gone ≠ 0#128 → openDst eKill f (dropLanes s' gone) left = .error tr →
          exec (.kill f) s = .next (enterTrap s f s.m.cursor (lenBytes f) (activeLanes s f) tr))

/-! ## Scratchpad -/

/-- The scratchpad accesses (R178, R181 to R187, R245): a load gives each lane the little-endian number at its offset; `LDS_WAIT` and `LDS_TAKE` wait
until the words are full, and `LDS_TAKE` leaves them empty; `STS` writes the lanes' bytes in ascending order of lanes, so that the highest lane's
stay, and leaves the full bits; `STS_FILL` waits until the words are empty and leaves them full; each waits for an engine that has yet to write
there; `SEMPTY` empties a range. An offset that is no multiple of the size raises ALIGN, one past the share MEM with cause SPAD, and the read of a
word with an uncorrectable error RAS with cause USPAD, with no effect; a read corrects the errors of its words that can be corrected, and so does the
patrol of every word. That a waiter tests its words again at its turn (log 89), that the handler's mask has every lane past the share and one record
serves them (log 39), and that `SEMPTY` past the share is recorded as a write and `STS_FILL` raises no USPAD (log 111), are the model's choices. -/
def Obligations.ScratchpadAccesses : Prop :=
  let size (ic : Ic) : Nat := wBytes (wCode ic.f)
  let offs (ic : Ic) : List (Nat × Nat) := ic.spadOffs true
  let words (ic : Ic) : List Nat := wordSet (size ic) (offs ic)
  let aligned (ic : Ic) : Prop := ∀ e ∈ offs ic, e.2 % size ic = 0
  let inShare (ic : Ic) : Prop := ∀ e ∈ offs ic, e.2 + size ic ≤ ic.rd.team.share
  let fine (ic : Ic) : Prop := aligned ic ∧ inShare ic
  let sound (ic : Ic) (s : State) : Prop := ∀ w ∈ words ic, spadHurt s.team w = false
  let unowned (ic : Ic) (s : State) : Prop := ∀ e ∈ offs ic, ∀ i, i < size ic → ownedBefore s s.nextId (.spad (e.2 + i)) = false
  let since (ic : Ic) (s : State) : Nat := match ic.old with | some (.words _ _ c) => c | _ => s.cycle
  let met (full : Bool) (ic : Ic) (s : State) : Prop :=
    (∀ w ∈ words ic, wordFull s.team w = full ∧ ∀ i, i < 4 → ownedBefore s s.nextId (.spad (4 * w + i)) = false) ∧
      earlierReady s (words ic) (since ic s) = false
  let val (ic : Ic) (s : State) (l : Nat) : Nat := ofLeBytes (spadBytes s.team (ic.spadOff true (ic.at l)) (size ic))
  let load (ic : Ic) (s : State) (t : Team) : State := ic.adv (ic.writeLoad { s with team := t } (wCode ic.f) (val ic s))
  let mended (ic : Ic) (s : State) : Team := mendWords s.team (words ic)
  let stored (ic : Ic) (s : State) : Team := (offs ic).foldl (fun t e => setSpadBytes t e.2 (ic.storeBytes (wCode ic.f) e.1)) s.team
  let beyond (acc : Access) (ic : Ic) : Trap :=
    let t := spadTrap ic.rd acc ((offs ic).filter fun e => decide (ic.rd.team.share < e.2 + size ic))
    { t with xl := t.xl.take 1 }
  let loads (e : Entry) (i : Fields → Instr) : Prop :=
    Traps e i (fun ic _ => ¬aligned ic) (fun _ => alignTrap) ∧ Traps e i (fun ic _ => aligned ic ∧ ¬inShare ic) (beyond .read) ∧
      Traps e i (fun ic s => fine ic ∧ ¬sound ic s) fun _ => { cls := cRas, cause := 3 }
  let stores (e : Entry) (i : Fields → Instr) : Prop :=
    Traps e i (fun ic _ => ¬aligned ic) (fun _ => alignTrap) ∧ Traps e i (fun ic _ => aligned ic ∧ ¬inShare ic) (beyond .write)
  let waits (e : Entry) (i : Fields → Instr) (full : Bool) (ok : Ic → State → Prop) : Prop :=
    ∀ f s ic s', started e f s = some (ic, s') → fine ic → ok ic s' → ¬met full ic s' →
      exec (i f) s = .next { s with m := { s.m with wait := some (.words (words ic) full (since ic s')) } }
  let base (ic : Ic) : Nat := ic.spadOff false ic.lane
  (Completes eLds .lds (fun ic s => fine ic ∧ sound ic s ∧ unowned ic s) (fun ic s => load ic s (mended ic s)) ∧
    Completes eLdsWait .ldsWait (fun ic s => fine ic ∧ sound ic s ∧ met true ic s) (fun ic s => load ic s (mended ic s)) ∧
    Completes eLdsTake .ldsTake (fun ic s => fine ic ∧ sound ic s ∧ met true ic s)
      (fun ic s => load ic s ((words ic).foldl setEmpty (mended ic s))) ∧
    Completes eSts .sts (fun ic s => fine ic ∧ unowned ic s) (fun ic s => ic.adv { s with team := stored ic s }) ∧
    Completes eStsFill .stsFill (fun ic s => fine ic ∧ met false ic s)
      (fun ic s => ic.adv { s with team := (words ic).foldl setFull (stored ic s) }) ∧
    Completes eSempty .sempty (fun ic s => base ic % 4 = 0 ∧ ic.dist % 4 = 0 ∧ base ic + ic.dist ≤ s.team.share)
      fun ic s => ic.adv { s with team := { s.team with full := s.team.full.filter fun w =>
        !(decide (base ic ≤ 4 * w) && decide (4 * w < base ic + ic.dist)) } }) ∧
  (Sleeps eLds .lds (fun ic s => fine ic ∧ sound ic s ∧ ¬unowned ic s) (fun _ => .owned) ∧
    Sleeps eSts .sts (fun ic s => fine ic ∧ ¬unowned ic s) (fun _ => .owned) ∧
    waits eLdsWait .ldsWait true sound ∧ waits eLdsTake .ldsTake true sound ∧ waits eStsFill .stsFill false fun _ _ => True) ∧
  (loads eLds .lds ∧ loads eLdsWait .ldsWait ∧ loads eLdsTake .ldsTake ∧ stores eSts .sts ∧ stores eStsFill .stsFill ∧
    Traps eSempty .sempty (fun ic _ => base ic % 4 ≠ 0 ∨ ic.dist % 4 ≠ 0) (fun _ => alignTrap) ∧
    Traps eSempty .sempty (fun ic s => base ic % 4 = 0 ∧ ic.dist % 4 = 0 ∧ s.team.share < base ic + ic.dist)
      fun ic => spadTrap ic.rd .write [(ic.lane, base ic)]) ∧
  (∀ ic s x, (stored ic s).full = s.team.full ∧ (stored ic s).queues = s.team.queues ∧
    ((∀ e ∈ offs ic, ∀ i, i < (ic.storeBytes (wCode ic.f) e.1).length → x ≠ e.2 + i) → spadByte (stored ic s) x = spadByte s.team x)) ∧
  ∀ (t : Team) (ws : List Nat) w, (wordFull (ws.foldl setFull t) w = true ↔ w ∈ ws ∨ wordFull t w = true) ∧
    (wordFull (ws.foldl setEmpty t) w = true ↔ w ∉ ws ∧ wordFull t w = true) ∧
    (∀ sure, (w, sure) ∈ (mendWords t ws).spadUpset ↔ (w, sure) ∈ t.spadUpset ∧ ¬(sure = true ∧ w ∈ ws)) ∧
    (mendWords t ws).spad = t.spad ∧ (mendWords t ws).full = t.full ∧ spadHurt (mendWords t ws) w = spadHurt t w

/-- The atomic operations on scratchpad and memory (R188, R189, R199, R207, R245): the lanes act in ascending order, each on the value that the lanes
before it leave; every lane takes the old value of its step, and `RED` takes none. Those on memory act at the lines' home, after the ordering that
their address word asks for: outside the lanes' places the core reads what it read, or, of a line that has left its L1, what lies at its home. -/
def Obligations.AtomicOperations : Prop :=
  let spad (ic : Ic) (indexed : Bool) (n : Nat) (s : State) (step : Nat → Nat → Option Nat) : Team × List (Nat × Nat) :=
    atomSteps (fun t l => ofLeBytes (spadBytes t (ic.spadOff indexed l) n)) (fun t l x => setSpadBytes t (ic.spadOff indexed l) (leBytes n x))
      step ic.once s.team
  let ordered (ic : Ic) (s : State) : State := orderL1 s (awOrd ic.f) (awScope ic.f)
  let home (ic : Ic) (indexed : Bool) (n : Nat) (locs : List (Nat × List Loc)) (s : State) : State :=
    ((ic.memAddrs indexed).zip locs).foldl (fun s e =>
      let s := atHome (l2Walks s (memberView ic.rd) e.1.2 n) e.2.2
      if cacheUse s (memberView ic.rd) e.1.2 = .none then s else l2Locs s e.2.2 true) (ordered ic s)
  let mem (locs : List (Nat × List Loc)) (n : Nat) (s : State) (step : Nat → Nat → Option Nat) : State × List (Nat × Nat) :=
    atomSteps (fun s l => ofLeBytes (readLocs s (locsOf locs l))) (fun s l x => writeLocs s (locsOf locs l) (leBytes n x)) step
      (locs.map (·.1)) s
  let op (ic : Ic) (x : Nat → Nat) (l old : Nat) : Option Nat := some (atomOp (modBits ic.f 2 0) (awType ic.f) old (x l))
  let opnd2 (ic : Ic) (l : Nat) : Nat := atomOperand ic.f (ic.opnd ic.f.s2) (ic.src2 (atomBytes ic.f == 8) l)
  let opndD (ic : Ic) (l : Nat) : Nat := atomOperand ic.f (ic.opnd ic.f.dst) (ic.srcD (atomBytes ic.f == 8) l)
  let out (ic : Ic) (n : Nat) (signed : Bool) (s : State) (olds : List (Nat × Nat)) : State :=
    ic.adv (ic.write s (n == 8) fun l => intRes (8 * n) signed (laneOr olds (ic.at l) : Nat))
  let fine (ic : Ic) (indexed : Bool) (n : Nat) (s : State) : Prop :=
    spadCheck ic.rd .rmw n (ic.spadOffs indexed) = none ∧ spadLost s.team (wordSet n (ic.spadOffs indexed)) = none ∧
      ic.spadWait s n (ic.spadOffs indexed) none = none
  let cn (ic : Ic) : Nat := wBytes (wCode ic.f)
  Completes eAtoms .atoms (fun ic s => fine ic true (atomBytes ic.f) s) (fun ic s =>
      let r := spad ic true (atomBytes ic.f) s (op ic (opnd2 ic))
      out ic (atomBytes ic.f) (awType ic.f == 4) { s with team := mendWords r.1 (wordSet (atomBytes ic.f) (ic.spadOffs true)) } r.2) ∧
    Completes eCass .cass (fun ic s => fine ic false (cn ic) s) (fun ic s =>
      let r := spad ic false (cn ic) s (casStep ic (cn ic))
      out ic (cn ic) false { s with team := mendWords r.1 (wordSet (cn ic) (ic.spadOffs false)) } r.2) ∧
    (∀ f s ic s' locs, started eAtom f s = some (ic, s') → memResolve ic .rmw true (atomBytes f) (ic.memAddrs true) = .ok locs →
      exec (.atom f) s = .next (complete (let r := mem locs (atomBytes f) (home ic true (atomBytes f) locs s') (op ic (opnd2 ic))
        out ic (atomBytes f) (awType f == 4) r.1 r.2))) ∧
    (∀ f s ic s' locs, started eCas f s = some (ic, s') → memResolve ic .rmw true (cn ic) (ic.memAddrs false) = .ok locs →
      exec (.cas f) s = .next (complete (let r := mem locs (cn ic) (home ic false (cn ic) locs s') (casStep ic (cn ic))
        out ic (cn ic) false r.1 r.2))) ∧
    (∀ f s ic s' locs, started eRed f s = some (ic, s') → memResolve ic .rmw true (atomBytes f) (ic.memAddrs true) = .ok locs →
      exec (.red f) s = .next (complete (ic.adv (mem locs (atomBytes f) (home ic true (atomBytes f) locs s') (op ic (opndD ic))).1))) ∧
    ∀ (ic : Ic) indexed locs n s step x, MemoryCanonical s → notIn locs x →
      let t := (mem locs n (home ic indexed n locs s) step).1
      readLoc t x = readLoc (ordered ic s) x ∨ readLoc t x = homeByte (ordered ic s) x

/-! ## Memory -/

/-- Reading after a write gives the byte written at its address, and elsewhere what was there (R191), whatever the memory lists. -/
def Obligations.MemoryReadsBack : Prop :=
  (∀ m a b x, Memory.wf m = true → readCell (writeCell m a b) x = if x = a then b else readCell m x) ∧
    (∀ m a n x, Memory.wf m = true → n ≤ 16 → readNat (writeNat m a n x) a n = x % 2 ^ (8 * n)) ∧
    ∀ m m', Memory.wf m = true → Memory.wf m' = true → (∀ a, readCell m a = readCell m' a) → m = m'

/-- Loads and stores (R199, R205, R206): where every lane's address is a multiple of the size and resolves, a load gives each lane the little-endian
number at its places, as the core reads them after the ordering that the instruction asks for; a store writes the lanes' bytes in ascending order of
lanes, and orders afterwards; to the core every byte of a line that no lane accesses reads as after the ordering alone, the other bytes of the lanes'
lines so or, where the line has left the L1 for an access that passes it by, as they lie at their home, and every register stays. An address that is
no multiple of the size raises ALIGN with no effect. -/
def Obligations.LoadsAndStores : Prop :=
  let size (f : Fields) : Nat := wBytes (wCode f)
  let strict (ord : Nat × Nat) : Bool := ordAcq ord.1 && decide (2 ≤ ord.2)
  let near (ic : Ic) : List (Nat × Nat) := ic.once.map fun l => (l, ic.memAddr false 1 (imm12 ic.f).toInt l)
  let load (ic : Ic) (ord : Nat × Nat) (as : List (Nat × Nat)) (locs : List (Nat × List Loc)) (s : State) : State :=
    let u := passLanes ic (orderL1 s ord.1 ord.2) as locs false
    ic.adv (ic.writeLoad u (wCode ic.f) fun l => placesVal u locs (ic.at l))
  let stores (ic : Ic) (as : List (Nat × Nat)) (locs : List (Nat × List Loc)) (s : State) : State :=
    locs.foldl (fun s e => writeLocs s e.2 (ic.storeBytes (wCode ic.f) e.1)) (passLanes ic s as locs true)
  let store (ic : Ic) (ord : Nat × Nat) (as : List (Nat × Nat)) (locs : List (Nat × List Loc)) (s : State) : State :=
    ic.adv (orderL1 (stores ic as locs s) ord.1 ord.2)
  let reads (s t : State) (locs : List (Nat × List Loc)) (x : Loc) : Prop :=
    (readLoc t x = readLoc s x ∨ readLoc t x = homeByte s x) ∧
      ((∀ e ∈ locs, ∀ y ∈ e.2, ∀ k i j, lineOf y = some (k, i) → lineOf x ≠ some (k, j)) → readLoc t x = readLoc s x)
  (∀ f s ic s' locs, started eLd f s = some (ic, s') → memResolve ic .read (strict (ordOf f)) (size f) (ic.memAddrs true) = .ok locs →
      exec (.ld f) s = .next (complete (load ic (ordOf f) (ic.memAddrs true) locs s'))) ∧
    (∀ f s ic s' locs, started eLdI12 f s = some (ic, s') → memResolve ic .read (strict (ordI12 f)) (size f) (near ic) = .ok locs →
      exec (.ldI12 f) s = .next (complete (load ic (ordI12 f) (near ic) locs s'))) ∧
    (∀ f s ic s' locs, started eSt f s = some (ic, s') → memResolve ic .write false (size f) (ic.memAddrs true) = .ok locs →
      exec (.st f) s = .next (complete (store ic (ordOf f) (ic.memAddrs true) locs s'))) ∧
    (∀ f s ic s' locs, started eStI12 f s = some (ic, s') → memResolve ic .write false (size f) (near ic) = .ok locs →
      exec (.stI12 f) s = .next (complete (store ic (ordI12 f) (near ic) locs s'))) ∧
    Traps eLd .ld (fun ic _ => ∃ e ∈ ic.memAddrs true, e.2 % size ic.f ≠ 0) (fun _ => alignTrap) ∧
    Traps eLdI12 .ldI12 (fun ic _ => ∃ e ∈ near ic, e.2 % size ic.f ≠ 0) (fun _ => alignTrap) ∧
    Traps eSt .st (fun ic _ => ∃ e ∈ ic.memAddrs true, e.2 % size ic.f ≠ 0) (fun _ => alignTrap) ∧
    Traps eStI12 .stI12 (fun ic _ => ∃ e ∈ near ic, e.2 % size ic.f ≠ 0) (fun _ => alignTrap) ∧
    (∀ (ic : Ic) ord as locs s, MemoryCanonical s → lookClear s → s.m.exec ≠ 0#128 → s.m.live ≠ 0#128 →
      let t := complete (store ic ord as locs s)
      sameRegisters s t ∧ (∀ x, notIn locs x → reads (orderL1 s ord.1 ord.2) t locs x) ∧
        ((∀ e ∈ locs, ∀ a, Loc.spad a ∉ e.2) → t.team = s.team)) ∧
    (∀ (ic : Ic) ord as (pre post : List (Nat × List Loc)) l (ls : List Loc) i x s, MemoryCanonical s → lookClear s → s.m.exec ≠ 0#128 →
      s.m.live ≠ 0#128 → notIn post x → ls.Nodup → ls[i]? = some x → (lineOf x).isSome = true → i < (ic.storeBytes (wCode ic.f) l).length →
      readLoc (complete (store ic ord as (pre ++ (l, ls) :: post) s)) x = (ic.storeBytes (wCode ic.f) l).getD i 0#8) ∧
    ∀ (ic : Ic) ord as locs s, MemoryCanonical s → lookClear s → s.m.exec ≠ 0#128 → s.m.live ≠ 0#128 →
      let t := complete (load ic ord as locs s)
      (∀ x, reads (orderL1 s ord.1 ord.2) t locs x) ∧ (∀ w, wordFull t.team w = wordFull s.team w) ∧ (∀ n, ic.opnd ic.f.dst ≠ .k n → kReg t.m.rf n = kReg s.m.rf n) ∧
        (∀ r l, keptLane s r l = true →
          (ic.act.getLsbD l = false ∨ ∀ d, ic.opnd ic.f.dst = .v d → r < d ∨ d + wSpan (wCode ic.f) ≤ r) →
          vLane t.m.rf r l = vLane s.m.rf r l)

/-- Ordering, caches, the eviction schedule and gather windows (R199, R208 to R212). `FENCE` does to the core's L1 what its ordering and scope ask: a
release of scope `.CL` or wider leaves every line clean with its dirty bytes at their home, and an acquire leaves none. `PREF` changes no value.
`CCTL` acts on the lines of its widened range: `.L1WB` and `.IINV` leave the L1's lines clean, `.L1INV` leaves only dirty ones, `.L1WBI` none, `.L2WB`
and `.L2WBI` do the like in the second-level cache and change no value, `.IINV` takes the range's blocks out of the instruction caches of the
partition, and `.L1ALL` empties the L1; a byte whose line leaves the L1 reads as it lies at its home. `EVLOAD` and `EVSTEP` read a step of the
schedule into `sr.evstat` and into the ranges that count; a fault reading step 0 leaves no schedule. (`EVSTEP` takes its amount from S0, log 21, and
`EVLOAD` of more than 65,535 steps is EMU with cause RSV, log 48.) `WINBIND` binds a descriptor that passes its checks and answers the window's
address, and `WINFREE` frees it. What `EVLOAD`, `EVSTEP` and `WINBIND` read passes the caches, and they see what the core sees (R195, R199). -/
def Obligations.OrderingAndWindows : Prop :=
  let rng (ic : Ic) : Nat × Nat := cctlLines (ic.u0 true).toNat (lo32 (ic.u1 false)).toNat
  let num (ic : Ic) : Nat := (lo32 (ic.u0 false)).toNat
  let steps (ic : Ic) : Nat := (ic.u1 false).toNat
  let step (ic : Ic) (s : State) : Nat := (fld s.part.evstat 31 16 + (ic.u0 false).toNat % 2 ^ 16) % fld s.part.evstat 47 32
  let out (s : State) : Prop := ∀ ln ∈ s.core.l1, ln.dirty = 0#128
  let landed (s t : State) (p : L1Line → Prop) : Prop := ∀ ln ∈ s.core.l1, p ln → ∀ i x, ln.dirty.getLsbD i = true →
    (lineLocs ln.key)[i]? = some x → homeByte t x = ln.data.getD i 0#8
  let inRange (s : State) (lo hi : Nat) (ln : L1Line) : Prop := keyInLines s lo hi ln.key = true
  (Completes eFence .fence (fun _ _ => True) (fun ic s => ic.adv (orderL1 s (modBits ic.f 4 3) (modBits ic.f 2 0))) ∧
    Completes ePref .pref (fun _ _ => True)
      (fun ic s => ic.adv (((ic.memAddrs true).map (·.2)).foldl (prefLane (memberView ic.rd) (modBits ic.f 1 0)) s)) ∧
    Completes eCctl .cctl (fun _ _ => True) (fun ic s => ic.adv (cctlOp s (modBits ic.f 2 0) (rng ic).1 (rng ic).2))) ∧
  (∀ s ord scope, MemoryCanonical s →
    let t := orderL1 s ord scope
    (scope < 2 → t = s) ∧ (2 ≤ scope → ordAcq ord = true → t.core.l1 = [] ∧ landed s t fun _ => True) ∧
      (2 ≤ scope → ordRel ord = true → out t ∧ landed s t fun _ => True) ∧ (ordAcq ord = false → ∀ x, readLoc t x = readLoc s x) ∧
      ∀ x, readLoc t x = readLoc s x ∨ readLoc t x = homeByte s x) ∧
  (∀ s v level va x, readLoc (prefLane v level s va) x = readLoc s x) ∧
  (∀ s op lo hi, MemoryCanonical s →
    let t := cctlOp s op lo hi
    (op = 0 ∨ op = 5 → (∀ ln ∈ t.core.l1, inRange s lo hi ln → ln.dirty = 0#128) ∧ landed s t (inRange s lo hi)) ∧
      (op = 1 → t.mem = s.mem ∧ t.vault = s.vault ∧ ∀ ln, ln ∈ t.core.l1 ↔ ln ∈ s.core.l1 ∧ (inRange s lo hi ln → ln.dirty ≠ 0#128)) ∧
      (op = 2 → (∀ ln ∈ t.core.l1, ¬inRange s lo hi ln) ∧ landed s t (inRange s lo hi)) ∧
      (op = 3 → ∀ x ∈ t.part.l2, pInLines s lo hi x.line = true → x.dirty = false) ∧
      (op = 4 → ∀ x ∈ t.part.l2, pInLines s lo hi x.line = false) ∧
      (op = 5 → ∀ c ∈ t.cl :: t.cls, s.part.clusters.contains c.num = true → ∀ b ∈ c.icache, blockInLines s lo hi b = false) ∧
      (op = 6 → t.core.l1 = [] ∧ landed s t fun _ => True) ∧
      (op = 0 ∨ op = 3 ∨ op = 4 ∨ op = 5 → ∀ x, readLoc t x = readLoc s x) ∧ ∀ x, readLoc t x = readLoc s x ∨ readLoc t x = homeByte s x) ∧
  (Completes eEvload .evload (fun ic _ => (ic.u0 true).toNat % 128 = 0 ∧ steps ic = 0)
      (fun ic s => ic.adv { s with part := { s.part with evAddr := 0#64, evstat := 0#64, evStep := [] } }) ∧
    (∀ f s ic s' u bs, started eEvload f s = some (ic, s') → (ic.u0 true).toNat % 128 = 0 → 0 < steps ic → steps ic ≤ 65535 →
      evRead s' ic (ic.u0 true).toNat 0 = .ok (u, bs) →
      exec (.evload f) s = .next (complete (ic.adv { u with part := { u.part with
        evAddr := ic.u0 true, evCtx := s'.ctx.id, evStep := evRanges ic.rd bs
        evstat := evFlags ic.rd bs (BitVec.ofNat 64 (steps ic * 2 ^ 32)) } }))) ∧
    (∀ f s ic s' tr, started eEvload f s = some (ic, s') → (ic.u0 true).toNat % 128 = 0 → 0 < steps ic → steps ic ≤ 65535 →
      evRead s' ic (ic.u0 true).toNat 0 = .error (.trap tr) →
      exec (.evload f) s = .next (enterTrap
        { s with part := { s.part with evAddr := 0#64, evstat := 0#64, evStep := [] } } f s.m.cursor (lenBytes f) (activeLanes s f) tr)) ∧
    Traps eEvload .evload (fun ic _ => steps ic ≤ 65535 ∧ (ic.u0 true).toNat % 128 ≠ 0) (fun _ => alignTrap) ∧
    Traps eEvload .evload (fun ic _ => 65535 < steps ic) (fun _ => emuTrap .rsv) ∧
    Completes eEvstep .evstep (fun _ s => fld s.part.evstat 47 32 = 0) (fun ic s => ic.adv (ic.writeAll s false 0#64)) ∧
    (∀ f s ic s' u bs, started eEvstep f s = some (ic, s') → fld s'.part.evstat 47 32 ≠ 0 →
      evRead (asContext s' s'.part.evCtx) ic s'.part.evAddr.toNat (step ic s') = .ok (u, bs) →
      let x := asContext ic.rd s'.part.evCtx
      exec (.evstep f) s = .next (complete (ic.adv (ic.writeAll { s' with
        core := u.core, mem := u.mem, vault := u.vault
        part := { u.part with
          evstat := evFlags x bs (setFld s'.part.evstat 31 16 (step ic s')), evStep := evRanges x bs } } false
        (BitVec.ofNat 64 (step ic s'))))))) ∧
  (∀ f s ic s' u bs, started eWinbind f s = some (ic, s') → num ic ≤ 15 → readSpread s' ic (ic.u1 true).toNat 64 = .ok (u, bs) →
      winOk (BitVec.ofNat 512 (ofLeBytes bs)) = true →
      exec (.winbind f) s = .next (complete (ic.adv (ic.writeAll { u with ctx := { s'.ctx with
        wins := insertKey (num ic) (BitVec.ofNat 512 (ofLeBytes bs)) s'.ctx.wins } } false
        (s'.ctx.winbase + BitVec.ofNat 64 (num ic * 2 ^ 32)))))) ∧
    (∀ f s ic s' u bs, started eWinbind f s = some (ic, s') → num ic ≤ 15 → readSpread s' ic (ic.u1 true).toNat 64 = .ok (u, bs) →
      winOk (BitVec.ofNat 512 (ofLeBytes bs)) = false →
      exec (.winbind f) s = .next (enterTrap s f s.m.cursor (lenBytes f) (activeLanes s f) (shape shWin))) ∧
    Traps eWinbind .winbind (fun ic _ => 15 < num ic) (fun ic => winNumTrap ic.rd ic (num ic)) ∧
    (∀ s t ic va n bs, readOne s ic va n = .ok (t, bs) → ∃ ls, resolveAccess s (accessView s) .read va n = .ok ls ∧
      bs = readLocs t ls ∧ ∃ mem vault spad l1 l2, t = { s with
        mem := mem, vault := vault, team := { s.team with spad := spad }, core := { s.core with l1 := l1 }
        part := { s.part with l2 := l2 } }) ∧
    Completes eWinfree .winfree (fun ic _ => num ic ≤ 15)
      (fun ic s => ic.adv { s with ctx := { s.ctx with wins := eraseKey (num ic) s.ctx.wins } }) ∧
    Traps eWinfree .winfree (fun ic _ => 15 < num ic) (fun ic => winNumTrap ic.rd ic (num ic))

/-! ## Translation -/

/-- The translation instructions (R228 to R232): `ADDRQ` answers each lane's query, or raises RAS for a walk that meets an uncorrectable error;
`PGMAP`, `PGPOOL` and `TLBINV` raise EMU with cause PRIV in a member that is not privileged; otherwise `PGMAP` maps the lanes' pages from the pool,
with status 4 for a malformed attribute word and the trap of a second-stage fault, once no engine operation has yet to write what it reads or writes
(R245); `PGPOOL` counts, takes and gives frames, a full pool answering
before the frame is looked at (log 49); and `TLBINV` waits while engine operations hold places that were translated before, then removes the
translations and table entries held that it covers, and those alone, and publishes the member's writes of context registers with `.CTX`. -/
def Obligations.TranslationInstructions : Prop :=
  let priv (ic : Ic) : Prop := memberPriv ic.rd = true
  let mode (ic : Ic) : Nat := modBits ic.f 1 0
  let cnt (s : State) : Nat := s.part.poolcnt.toNat
  let ctxNo (ic : Ic) : Nat := (ic.u1 false).toNat % 2 ^ 16
  let covers (ic : Ic) : Nat → Bool := coversCtx (modBits ic.f 2 0) (ctxNo ic)
  let drop (ic : Ic) (s : State) : State := dropTlb s (modBits ic.f 2 0) (ic.u0 true).toNat (ctxNo ic)
  let query (ic : Ic) (l : Nat) : Except XFault (Loc × Nat × Region) :=
    resolveByte ic.rd (accessView ic.rd) (queryAccess (modBits ic.f 2 0)) (ic.src0 true l).toNat winFuel
  let meets (c : XClass) (ic : Ic) : Prop := ∃ l ∈ ic.once, ∃ e, query ic l = .error e ∧ e.cls = c
  Completes eAddrq .addrq (fun ic _ => ¬meets .ras ic ∧ ¬meets .own ic) (fun ic s =>
      ic.adv (ic.write s true fun l => queryResult ic.rd (queryAccess (modBits ic.f 2 0)) (ic.src0 true l).toNat)) ∧
    Traps eAddrq .addrq (fun ic _ => meets .ras ic) (fun _ => { cls := cRas, cause := 5 }) ∧
    Sleeps eAddrq .addrq (fun ic _ => ¬meets .ras ic ∧ meets .own ic) (fun _ => .owned) ∧
    Traps ePgmap .pgmap (fun ic _ => ¬priv ic) (fun _ => emuTrap .priv) ∧
    Traps ePgpool .pgpool (fun ic _ => ¬priv ic) (fun _ => emuTrap .priv) ∧
    Traps eTlbinv .tlbinv (fun ic _ => ¬priv ic) (fun _ => emuTrap .priv) ∧
    Completes ePgmap .pgmap (fun ic _ => priv ic ∧ attrBad (lo32 (ic.u1 false)).toNat = true) (fun ic s => ic.adv (ic.writeAll s false 4#64)) ∧
    (∀ f s ic s' t sts, started ePgmap f s = some (ic, s') → priv ic → attrBad (lo32 (ic.u1 false)).toNat = false →
      mapLanes ic (lo32 (ic.u1 false)).toNat s' = .ok (t, sts) →
      exec (.pgmap f) s = .next (complete (ic.adv (ic.write t false fun l => BitVec.ofNat 64 (laneOr sts (ic.at l)))))) ∧
    Completes ePgpool .pgpool (fun ic _ => priv ic ∧ mode ic = 0) (fun ic s => ic.adv (ic.writeAll s false s.part.poolcnt)) ∧
    Completes ePgpool .pgpool (fun ic s => priv ic ∧ mode ic = 1 ∧ s.part.poolcap.toNat ≤ cnt s) (fun ic s => ic.adv (ic.writeAll s false 1#64)) ∧
    Completes ePgpool .pgpool
      (fun ic s => priv ic ∧ mode ic = 1 ∧ cnt s < s.part.poolcap.toNat ∧ poolFrameOk s (ic.u0 true).toNat = .ok false)
      (fun ic s => ic.adv (ic.writeAll s false 2#64)) ∧
    (∀ f s ic s' t, started ePgpool f s = some (ic, s') → priv ic → mode ic = 1 → cnt s' < s'.part.poolcap.toNat →
      poolFrameOk s' (ic.u0 true).toNat = .ok true → writeIpa s' (ic.u0 true).toNat (s'.part.poolbase.toNat + 8 * cnt s') (ic.u0 true).toNat = .ok t →
      exec (.pgpool f) s = .next (complete (ic.adv (ic.writeAll
        { t with part := { t.part with poolcnt := BitVec.ofNat 64 (cnt s' + 1) } } false 0#64)))) ∧
    Completes ePgpool .pgpool (fun ic s => priv ic ∧ 2 ≤ mode ic ∧ cnt s = 0) (fun ic s => ic.adv (ic.writeAll s false 0#64)) ∧
    (∀ f s ic s' u e, started ePgpool f s = some (ic, s') → priv ic → 2 ≤ mode ic → 0 < cnt s' →
      readIpa s' false 0 (s'.part.poolbase.toNat + 8 * (cnt s' - 1)) = .ok (u, e) →
      exec (.pgpool f) s = .next (complete (ic.adv (ic.writeAll { u with part := { u.part with poolcnt := BitVec.ofNat 64 (cnt s' - 1) } }
        false (BitVec.ofNat 64 (fld (BitVec.ofNat 64 e) 47 18 * 2 ^ 18)))))) ∧
    (∀ f s ic s' l e acc, started ePgmap f s = some (ic, s') → priv ic → attrBad (lo32 (ic.u1 false)).toNat = false →
      mapLanes ic (lo32 (ic.u1 false)).toNat s' = .error (l, e, acc) → e.cls = .walk →
      ∃ tr, faultAct ic.rd acc [(l, e)] = .trap tr ∧ tr.cls = cWalk ∧
        exec (.pgmap f) s = .next (enterTrap s f s.m.cursor (lenBytes f) (activeLanes s f) tr)) ∧
    (∀ f s ic s' l e acc, started ePgmap f s = some (ic, s') → priv ic → attrBad (lo32 (ic.u1 false)).toNat = false →
      mapLanes ic (lo32 (ic.u1 false)).toNat s' = .error (l, e, acc) → e.cls = .own →
      exec (.pgmap f) s = .next { s with m := { s.m with wait := some .owned } }) ∧
    (∀ s table va ipa pa, walkerPa s table .read va ipa = .ok pa → ownedPa s s.nextId pa (pa + 8) = true →
      ∃ e acc, readIpa s table va ipa = .error (e, acc) ∧ e.cls = .own) ∧
    Sleeps eTlbinv .tlbinv (fun ic s => priv ic ∧ holdsPlaces s (covers ic) = true) (fun _ => .owned) ∧
    Completes eTlbinv .tlbinv (fun ic s => priv ic ∧ holdsPlaces s (covers ic) = false ∧ modBits ic.f 2 0 ≠ 1) (fun ic s => ic.adv (drop ic s)) ∧
    Completes eTlbinv .tlbinv (fun ic s => priv ic ∧ holdsPlaces s (covers ic) = false ∧ modBits ic.f 2 0 = 1)
      (fun ic s => ic.adv { drop ic s with ctx := publish (drop ic s).ctx s.m.ctxOv, m := { s.m with ctxOv := [] } }) ∧
    ∀ (ic : Ic) s,
      let gone (t : TlbEntry) : Prop := t.part = s.part.num ∧ coversEntry (modBits ic.f 2 0) (ic.u0 true).toNat (ctxNo ic) t = true
      let goneWalk (w : WalkEntry) : Prop := w.part = s.part.num ∧ coversWalk (modBits ic.f 2 0) (ic.u0 true).toNat (ctxNo ic) w = true
      (∀ t, t ∈ (drop ic s).cl.tlb ↔ t ∈ s.cl.tlb ∧ ¬gone t) ∧ (∀ t, t ∈ (drop ic s).core.tlb ↔ t ∈ s.core.tlb ∧ ¬gone t) ∧
        (∀ w, w ∈ (drop ic s).mod.walkc ↔ w ∈ s.mod.walkc ∧ ¬goneWalk w) ∧
        ∀ k ∈ (drop ic s).cores, ∀ t ∈ k.tlb, ¬gone t

/-! ## Copies -/

/-- The copies (R255 to R267, R274 to R276): a `CPY` or `TCOPY` that passes its checks is issued on its tag, or its member sleeps until the engine
has room; a tag above 63 is SHAPE with cause TAG; a `TCOPY` checks its record in order, RSV, ALIGN, GEOM and the share's bounds, and one of no
element completes as soon as it is issued. The last read of a `CPY` moves it to the store queue with the bytes that it read, all in one step (log
22; GEOM of `TCOPY.MC` stands at step 5, log 51); the engine's completion makes the writes and ends the copy; a fault of a `TCOPY` stops it at the
fault's element. -/
def Obligations.CopiesIssueAndRun : Prop :=
  let tag (ic : Ic) : Nat := (ic.u1 false).toNat
  let lanes (sp : Bool) (src : Bool → Nat → Dword) (ic : Ic) : List (Nat × Nat) :=
    ic.once.map fun l => (l, if sp then (lo32 (src false l)).toNat else (src true l).toNat)
  let dst (ic : Ic) : Nat := sideAddr (tcDstSp ic.f.ext) ic.srcD ic.lane
  let src (ic : Ic) : Nat := sideAddr (tcSrcSp ic.f.ext) ic.src0 ic.lane
  let tiled (ic : Ic) (r : Layout) : Nat := if tcDir r then src ic else dst ic
  let strided (ic : Ic) (r : Layout) : Nat := if tcDir r then dst ic else src ic
  let read (ic : Ic) (s u : State) (bs : List Byte) : Prop :=
    (tcSelv ic.f.ext = true → tcRslot ic.f.ext < s.team.rels.length) ∧ (ic.u1 true).toNat % 64 = 0 ∧
      readOne s ic (ic.u1 true).toNat 64 = .ok (u, bs)
  let reads (ic : Ic) : List (Nat × Nat) := sideTouches (cpySrcSpad ic.f) (cpySize ic.f) (lanes (cpySrcSpad ic.f) ic.src0 ic)
  let writes (ic : Ic) : List (Nat × Nat) := sideTouches (cpyDstSpad ic.f) (cpySize ic.f) (lanes (cpyDstSpad ic.f) ic.srcD ic)
  let misaligned (ic : Ic) (r : Layout) : Bool := tcMisaligned r ic.f.ext (tiled ic r) (strided ic r)
  let full (r : Layout) : Prop := tcE0 r ≠ 0 ∧ tcE1 r ≠ 0 ∧ tcE2 r ≠ 0
  let geom (mc : Bool) (ic : Ic) (r : Layout) : Bool := tcGeometry r ic.f.ext || (mc && (!tcDstSp ic.f.ext || tcDir r))
  let beyond (mc : Bool) (ic : Ic) (s : State) (r : Layout) : Option (Nat × Access) := tcBeyond s r ic.f.ext mc (tiled ic r) (strided ic r)
  let sample (mc : Bool) (ic : Ic) (s : State) (foot : Nat) : List (Nat × Nat) × BitVec 8 :=
    if mc then mcSample s ic.f.ext (dst ic) foot else ([(s.team.id, dst ic)], 0#8)
  let tcIssue (mc : Bool) (ic : Ic) (s : State) (r : Layout) : State :=
    let d := ic.f.ext
    let to' := sample mc ic s (tcE2 r * tcPitch r)
    noteUndeliv (issueCopy s (tcTag d) (.tensor r d (BitVec.ofNat 64 (dst ic)) (BitVec.ofNat 64 (src ic)) to'.1
      (if tcSelv d then s.team.rels.getD (tcRslot d) [] else [])) []) (tcTag d) to'.2
  let trapped (i : Fields → Instr) (f : Fields) (s : State) (t : Trap) : Prop :=
    exec (i f) s = .next (enterTrap s f s.m.cursor (lenBytes f) (activeLanes s f) t)
  let issues (e : Entry) (i : Fields → Instr) (mc : Bool) : Prop :=
    ∀ f s ic s' u bs, started e f s = some (ic, s') → read ic s' u bs →
      let r : Layout := BitVec.ofNat 512 (ofLeBytes bs)
      let ends (t : State) : Prop := exec (i f) s = .next (if copyRoom u (tcTag f.ext) = true then complete (ic.adv t)
        else { s with m := { s.m with wait := some .copyRoom } })
      (tcReserved r = true → trapped i f s (shape shRsv)) ∧
      (tcReserved r = false → misaligned ic r = true → trapped i f s alignTrap) ∧
      (tcReserved r = false → misaligned ic r = false →
        (¬full r → ends (noteUndeliv (passTag u (tcTag f.ext)) (tcTag f.ext) (sample mc ic u 0).2)) ∧
        (full r → geom mc ic r = true → trapped i f s (shape shGeom)) ∧
        (full r → geom mc ic r = false → ∀ off acc, beyond mc ic u r = some (off, acc) →
          trapped i f s (spadTrap ic.rd acc (ic.lanes.map fun l => (l, off)))) ∧
        (full r → geom mc ic r = false → beyond mc ic u r = none → ends (tcIssue mc ic u r)))
  (∀ f s ic s' ls ld, started eCpy f s = some (ic, s') → tag ic ≤ 63 →
      cpySide ic.rd (cpySrcSpad f) .read (cpySize f) (lanes (cpySrcSpad f) ic.src0 ic) = .ok (ls, []) →
      cpySide ic.rd (cpyDstSpad f) .write (cpySize f) (lanes (cpyDstSpad f) ic.srcD ic) = .ok (ld, []) →
      exec (.cpy f) s = .next (if copyRoom s' (tag ic) = true then
          complete (ic.adv (issueCopy (walkAll s' (reads ic ++ writes ic)) (tag ic) (.lanes (ic.once.map fun l => (locsOf ls l, locsOf ld l)))
            (passedAll s' .read (reads ic) ++ passedAll s' .write (writes ic))))
        else { s with m := { s.m with wait := some .copyRoom } })) ∧
    Traps eCpy .cpy (fun ic _ => 63 < tag ic) (fun _ => shape shTag) ∧
    issues eTcopy .tcopy false ∧ issues eTcopyMc .tcopyMc true ∧
    (∀ (s : State) id c l, copyOf s id = some c → c.fault = none → c.stored = false → storeRoom s = true → c.op = .lanes l →
      copyHeld s c l = false → (∀ e ∈ l, ∀ x ∈ e.1, lostAt (passBy s c.passBy) x = false ∧ spadLostLoc s.team x = false) →
      (∀ e ∈ l, ∀ x ∈ e.1 ++ e.2, peerAt s x = false) →
      let u := passedReads c.passBy s (l.flatMap (·.1))
      let out := l.map fun e => (e.2, readLocs u e.1)
      exec (.copyComplete id) s = .next (dropCopy (writeOut c out u) id) ∧
        copyRead s id = setCopy u { c with stored := true, out := out, labelsDone := true }) ∧
    (∀ (s : State) id c, copyOf s id = some c → c.fault = none → c.stored = true →
      exec (.copyComplete id) s = .next (dropCopy (writeOut c c.out s) id)) ∧
    (∀ (s : State) id c r d a b ts rel t k done, copyOf s id = some c → c.fault = none → c.stored = false → storeRoom s = true →
      c.op = .tensor r d a b ts rel → runTensor (tcRunOf s c r d a b ts rel) c.labelsDone c.pos s = (t, k, done, .whole) →
      exec (.copyComplete id) s = .next (dropCopy (writeOut c [] t) id)) ∧
    (∀ (s : State) (p : CopyStop) c r d a b ts rel t k done side x, copyOf s p.id = some c → c.fault = none → c.stored = false →
      c.op = .tensor r d a b ts rel → runTensor (tcRunOf s c r d a b ts rel) c.labelsDone c.pos s = (t, k, done, .stop side x) →
      x.cls = .mem ∨ x.cls = .walk → waveLeft t = true →
      ∃ u, exec (.copySuspend p) s = .next u ∧ (p.ahead = [] → u.mem = t.mem ∧ u.vault = t.vault) ∧
        u.team.copies = t.team.copies.map fun y => if y.id = p.id then { c with
          fault := some { side := side, elem := k, fault := engFaultOf x (if side % 2 = 0 then .read else .write) c.priv }
          pos := k, labelsDone := done } else y) ∧
    ∀ s : State, s.m.wait = some .copyRoom → loadRoom s = true →
      exec .copyQueueRoom s = .next { s with m := { s.m with wait := none, ready := s.cycle } }

/-- The instructions on copy tags (R256, R273, R277, R278): a pending fault of a tag comes first, before the instruction starts; then `CPWAIT` waits
until no copy on a tag of the mask is outstanding, `CPANY` until one tag is clear, and `CPFIRST`, `CPTEST` and `CPSTAT` answer at once; a tag of
`CPSTAT` above 63 is SHAPE with cause TAG. -/
def Obligations.CopyTags : Prop :=
  let clear (ic : Ic) (s : State) : Dword := ic.u0 true &&& tagMask s.team
  let tag (ic : Ic) : Nat := (ic.u0 false).toNat
  Completes eCpwait .cpwait (fun ic s => clear ic s = ic.u0 true) (fun ic s => ic.adv s) ∧
    Sleeps eCpwait .cpwait (fun ic s => clear ic s ≠ ic.u0 true) (fun _ => .tags) ∧
    Completes eCpany .cpany (fun ic s => clear ic s ≠ 0#64 ∨ ic.u0 true = 0#64) (fun ic s => ic.adv (ic.writeAll s false (clear ic s))) ∧
    Sleeps eCpany .cpany (fun ic s => clear ic s = 0#64 ∧ ic.u0 true ≠ 0#64) (fun _ => .tags) ∧
    Completes eCpfirst .cpfirst (fun _ _ => True) (fun ic s => ic.adv (ic.writeAll s false
      (match (List.range 64).find? fun t => (clear ic s).getLsbD t with | some t => BitVec.ofNat 64 t | none => BitVec.allOnes 64))) ∧
    Completes eCptest .cptest (fun _ _ => True) (fun ic s => ic.adv (ic.writeAll s false
      (if isPred (ic.opnd ic.f.dst) then (if clear ic s = ic.u0 true then 1#64 else 0#64) else clear ic s))) ∧
    Completes eCpstat .cpstat (fun ic _ => tag ic ≤ 63)
      (fun ic s => ic.adv (ic.writeAll s false (tagStatus s.team (tag ic)))) ∧
    Traps eCpstat .cpstat (fun ic _ => 63 < tag ic) (fun _ => shape shTag) ∧
    ∀ (t : Team) i, i < 64 → ((tagMask t).getLsbD i = true ↔ ∀ c ∈ t.copies, c.tag ≠ i)

/-! ## The matrix engine -/

/-- Matrix and label operations at issue (R303, R305, R310, R323 to R329, R348, R353): a tile that is not granted is BOUND with cause ACC; an
operation that passes its checks enters the core's queue with its tiles, or its member sleeps until the queue has room; `MXCLASS` and `MXWAIT` do not
enter it. `ACCRD` sleeps until the engine has read its words, and then writes them (its destination is opened at issue, log 38; `WBLOAD.CB` stores its
codebook at issue, log 36). -/
def Obligations.MatrixIssue : Prop :=
  let room (s : State) : Prop := s.core.mxq.length < 32
  let mask (ic : Ic) : Nat := (ic.u0 false).toNat % 2 ^ 8
  let granted (s : State) (m : Nat) : Prop := ∀ n, n < 8 → m.testBit n = true → n < s.team.tiles.length
  let t0 (ic : Ic) : Nat := (lo32 (ic.u0 false)).toNat
  let t1 (ic : Ic) : Nat := (lo32 (ic.u1 false)).toNat
  let group (ic : Ic) : VoteGroup :=
    { q := 0, fws := ic.lanes.map fun l => (l, lo32 (ic.src0 false l)), a := t1 ic, b := if mmaBwb ic.f then 0 else (lo32 (ic.u2 false)).toNat }
  let work (ic : Ic) (parts : List MmaPart) : MxWork := .mma (mmaTile ic.f) (mmaLbla ic.f) (mmaLblb ic.f) (mmaLt ic.f) parts
  let mmaOk (ic : Ic) : Prop :=
    mmaChecks ic.rd ic.f [group ic] true (if (group ic).a % 128 != 0 || (group ic).b % 128 != 0 then some alignTrap else none) = none
  let trapped (i : Fields → Instr) (f : Fields) (s : State) (t : Trap) : Prop :=
    exec (i f) s = .next (enterTrap s f s.m.cursor (lenBytes f) (activeLanes s f) t)
  let asleep (s : State) (w : Wait) : State := { s with m := { s.m with wait := some w } }
  let enters (i : Fields → Instr) (f : Fields) (s : State) (ic : Ic) (u t : State) : Prop :=
    (room u → exec (i f) s = .next (complete (ic.adv t))) ∧ (¬room u → exec (i f) s = .next (asleep s .mxRoom))
  let queued (e : Entry) (i : Fields → Instr) (ok : Ic → State → Prop) (t : Ic → State → State) : Prop :=
    ∀ f s ic s', started e f s = some (ic, s') → ok ic s' → enters i f s ic s' (t ic s')
  (queued eMma .mma (fun ic _ => mmaOk ic) (fun ic s => enqueue s (2 ^ mmaTile ic.f) (work ic [mmaPart ic.rd ic.f (group ic) 0 64 none]) []) ∧
    Traps eMma .mma (fun ic _ => ic.rd.team.tiles.length ≤ mmaTile ic.f) (fun _ => bound bAcc) ∧
    (∀ f s ic s' jc u, started eMmaQ f s = some (ic, s') → ownIssue eMmaQ ic s' = .ok (jc, u) → s'.team.width = 32 →
      let gs := quarters jc
      let regs := (gs.map fun g => quarterLen g.fw / 32).foldl max 0
      (jc.rd.team.tiles.length ≤ mmaTile f → trapped .mmaQ f s (bound bAcc)) ∧
      ∀ v, mmaChecks jc.rd f gs false (if f.s1.toNat % 8 != 0 || s'.m.rf.budget < f.s1.toNat + regs then some (bound bReg)
          else if !mmaBwb f && gs.any fun g => g.b % 128 != 0 then some alignTrap else none) = none →
        touchRange u (fieldRegs s' f eMmaQ.s0 f.s0 ++ fieldRegs s' f eMmaQ.s2 f.s2) ((List.range (regs - 1)).map fun i => f.s1.toNat + 1 + i)
          [0] = .ok v → f.lr.getLsbD 1 = false →
        enters .mmaQ f s jc u (enqueue v (2 ^ mmaTile f) (work jc (gs.map fun g =>
          mmaPart jc.rd f g (16 * g.q) 16 (some ((List.range (quarterLen g.fw)).map (quarterByte jc.rd f.s1.toNat g.q))))) []))) ∧
  ((∀ f s ic s' t, started eWbload f s = some (ic, s') → modBits f 0 0 = 0 → loadPanel ic s' = .ok t →
      exec (.wbload f) s = .next (complete (ic.adv t))) ∧
    (∀ f s ic s' u bs, started eWbload f s = some (ic, s') → modBits f 0 0 = 1 → t0 ic < s'.team.cbs.length → (ic.u1 true).toNat % 32 = 0 →
      readMany s' ic (ic.u1 true).toNat 32 = .ok (u, bs) →
      enters .wbload f s ic u (enqueue { u with team := { u.team with cbs := u.team.cbs.set (t0 ic) bs } } 0 (.plain true) [])) ∧
    queued eWbfree .wbfree (fun _ _ => True) (fun ic s => enqueue { s with team := { s.team with
      wbs := s.team.wbs.map fun w => if ((ic.u0 false).toNat % 2 ^ 16).testBit w.handle then { w with freed := true } else w } } 0
        (.plain false) [])) ∧
  (queued eAcczero .acczero (fun ic s => granted s (mask ic)) (fun ic s =>
      enqueue s (mask ic) (.accZero (mask ic) (modBits ic.f 3 3 == 1) (modBits ic.f 2 0)) []) ∧
    Traps eAcczero .acczero (fun ic s => ¬granted s (mask ic)) (fun _ => bound bAcc) ∧
    queued eAccadd .accadd (fun ic s => t0 ic < s.team.tiles.length ∧ t1 ic < s.team.tiles.length) (fun ic s =>
      enqueue s (2 ^ t0 ic ||| 2 ^ t1 ic) (.accAdd (t0 ic) (t1 ic) (modBits ic.f 0 0 == 1)) []) ∧
    Traps eAccadd .accadd (fun ic s => s.team.tiles.length ≤ t0 ic ∨ s.team.tiles.length ≤ t1 ic) (fun _ => bound bAcc) ∧
    Completes eMxclass .mxclass (fun ic s => granted s (mask ic)) (fun ic s => ic.adv { s with team := { s.team with
      tiles := s.team.tiles.zipIdx.map fun e => if (mask ic).testBit e.2 then { e.1 with decode := modBits ic.f 0 0 == 1 } else e.1 } }) ∧
    Traps eMxclass .mxclass (fun ic s => ¬granted s (mask ic)) (fun _ => bound bAcc) ∧
    Completes eMxwait .mxwait (fun ic s => granted s (mask ic) ∧ mxPending s ((ic.u0 false).toNat % 2 ^ 9) = false)
      (fun ic s => ic.adv { s with m := sureAdvs s.m ((ic.u0 false).toNat % 2 ^ 9) }) ∧
    Sleeps eMxwait .mxwait (fun ic s => granted s (mask ic) ∧ mxPending s ((ic.u0 false).toNat % 2 ^ 9) = true) (fun _ => .mxDone) ∧
    Traps eMxwait .mxwait (fun ic s => ¬granted s (mask ic)) (fun _ => bound bAcc)) ∧
  ((∀ f s ic s' ws h t, started eAccrd f s = some (ic, s') → s.m.wait = some (.mxRead ws h) → accComplete ic s' ws = .ok t →
      exec (.accrd f) s = .next (complete (ic.adv t))) ∧
    (∀ f s ic s' id, started eAccrd f s = some (ic, s') → s.m.wait = some (.mxResult id) → exec (.accrd f) s = .next s) ∧
    (∀ f s ic s' jc u, started eAccrd f s = some (ic, s') → s.m.wait = none →
      ownIssue eAccrd { ic with f := { ic.f with lr := 0#3 } } s' = .ok (jc, u) →
      (u.team.tiles.length ≤ t0 jc → trapped .accrd f s (bound bAcc)) ∧
      ∀ t row n, accArgs jc u = .ok (some (t, row, n)) →
        (room u → exec (.accrd f) s =
          .next (asleep (enqueue (lookSet eAccrd f (accSet f n u) s' u) (2 ^ t) (.accRead t (accForm f) row n) []) (.mxResult u.nextId))) ∧
          (¬room u → exec (.accrd f) s = .next (asleep s .mxRoom))) ∧
    (∀ f s ic s' jc u, started eAccwr f s = some (ic, s') → ownIssue eAccwr ic s' = .ok (jc, u) →
      (u.team.tiles.length ≤ t0 jc → trapped .accwr f s (bound bAcc)) ∧
      ∀ t row n, accArgs jc u = .ok (some (t, row, n)) →
        let regs := (List.range (accRegs (accForm f) n)).map (f.dst.toNat + ·)
        (accForm f = 3 → enters .accwr f s jc u (enqueue u (2 ^ t) (.setAdmit t (jc.uD true)) [])) ∧
        ∀ v, accForm f ≠ 3 → touchRange u (sourceRegs { eAccwr with dstSrc := false } f u) regs (hwsOf u (accLanes jc)) = .ok v →
          enters .accwr f s jc v (enqueue v (2 ^ t)
            (.accWrite t (accForm f) (if accForm f = 0 then (List.range n).map (row + ·) else []) (accWords jc row n)) []))) ∧
  (∀ (e : Entry) (i : Fields → Instr) (st : Bool), (e = eAccld ∧ i = .accld ∧ st = false) ∨ (e = eAccst ∧ i = .accst ∧ st = true) →
      Traps e i (fun ic s => s.team.tiles.length ≤ accTile ic.f) (fun _ => bound bAcc) ∧
      ∀ f s ic s' u bs, started e f s = some (ic, s') → accTile f < s'.team.tiles.length →
        (accFmt f = 15 → accCb f < 2 * s'.team.tiles.length) → (ic.u1 true).toNat % 64 = 0 →
        readMany s' ic (ic.u1 true).toNat 64 = .ok (u, bs) →
        let r : Layout := BitVec.ofNat 512 (ofLeBytes bs)
        let base := sideAddr (accSp f) ic.src0 ic.lane
        let sbase := sideAddr (accSp f) ic.src2 ic.lane
        let touches := accTouches f st r base sbase
        tcReserved r = false → base % 16 = 0 → (tcDir r = false → tcSwz r ≠ 0 → base % 128 = 0) → (accLbl f = true → tcLblPtr r % 4 = 0) →
        accGeometry f st r = false →
        (tcE0 r = 0 ∨ tcE1 r = 0 → enters i f s ic u (enqueue u (2 ^ accTile f) (.plain false) [])) ∧
        ∀ mv, tcE0 r ≠ 0 → tcE1 r ≠ 0 → accPlan ic ic.rd st r base sbase = .ok mv →
          enters i f s ic (walkAll u touches) (enqueue (walkAll u touches) (2 ^ accTile f) (if st then .accStore (accTile f) mv else .accLoad (accTile f) mv)
            (if st then (mv.elems.map (·.locs)).flatten ++ (mv.labels.map (·.2)).flatten ++ mv.scales else [])
            (passedAll u (if st then .write else .read) touches))) ∧
  (∀ (e : Entry) (i : Fields → Instr) (st : Bool), (e = eLblld ∧ i = .lblld ∧ st = false) ∨ (e = eLblst ∧ i = .lblst ∧ st = true) →
      Traps e i (fun ic s => s.team.tiles.length ≤ lblTile ic.f) (fun _ => bound bAcc) ∧
      ∀ f s ic s' ws, started e f s = some (ic, s') → lblTile f < s'.team.tiles.length → lblFirst f + lblCount f ≤ 64 →
        let a := sideAddr (lblSp f) ic.src0 ic.lane
        a % 4 = 0 → (lblSp f = true → a + 4 * lblCount f ≤ s'.team.share) → lblPlaces ic ic.rd (if st then .write else .read) a = .ok ws →
        (lblCount f = 0 → exec (i f) s = .next (complete (ic.adv s'))) ∧
        (lblCount f ≠ 0 → enters i f s ic (walkAll s' (lblTouches f a)) (enqueue (walkAll s' (lblTouches f a)) (2 ^ lblTile f)
          (if st then .lblStore (lblTile f) (lblCols f) ws else .lblLoad (lblTile f) (lblCols f) ws)
          (if st then (ws.map (·.2)).flatten else []) (passedAll s' (if st then .write else .read) (lblTouches f a))))) ∧
  ∀ s : State, s.m.wait = some .mxRoom → room s → exec .mxQueueRoom s = .next { s with m := { s.m with wait := none, ready := s.cycle } }

/-- The matrix engine's steps (R305, R311, R314 to R318, R323): it steps only the operations whose tiles have no earlier unfinished one; a K-step or a
single-step operation of the chosen operation runs in its team; a panel is read under its handle; the space of a freed handle returns. A pair that
the relation does not admit, or that has no live leaf, leaves its accumulator; one that is admitted and has a live leaf takes the step of the root
of a balanced tree over the K-step's leaves, with the identity where a leaf is dead (R39); a quarter of `MMA.Q` gives what the same rows of a whole
part give (R41); and a K-step leaves every row outside its part. -/
def Obligations.MatrixEngineSteps : Prop :=
  (∀ s o, chooseOp s = some o → isMma o = true →
      exec .mxKstep s = .next (atTeam (leaveCurrent s o.id) o.team fun s => runKstep s o)) ∧
    (∀ s o, chooseOp s = some o → isMma o = false →
      exec .mxQueuedOp s = .next (atTeam (leaveCurrent s o.id) o.team fun s =>
        match opLost s o with
        | some c => failOp s o c
        | none => finishOp (runSingle s o) o)) ∧
    (∀ s o, chooseOp s = some o → o ∈ s.core.mxq ∧
      ∃ pre post, s.core.mxq = pre ++ o :: post ∧ ∀ b ∈ pre, b.team = o.team → b.tiles &&& o.tiles = 0) ∧
    (∀ (s : State) h w' u w o, s.team.wbs.find? (fun w => w.handle == h.toNat && !w.loaded) = some w' → findPanel s s.ctx.priv w' = some (u, w) →
      u.core.mxq.find? (fun o => o.team == u.team.id && (match o.work with | .panel id => id == w.id | _ => false)) = some o →
      (∀ x ∈ w.src, ownedBefore u o.id x = false ∧ lostAt (passBy u w.passBy) x = false ∧ peerAt u x = false) →
      let v := passedReads w.passBy u w.src
      exec (.wbPanelLoaded h) s = .next { v with
        core := { v.core with mxq := v.core.mxq.filter fun p => p.id != o.id }
        team := { v.team with wbs := v.team.wbs.map fun x => if x.id = w.id then { w with loaded := true, bytes := readLocs v w.src } else x } }) ∧
    (∀ (s : State) w, w.stale = false → findPanel s s.ctx.priv w = some (s, w)) ∧
    (∀ (s : State) h, exec (.wbSpaceReturn h) s = .next { s with team := { s.team with
      wbs := s.team.wbs.filter fun w => !(w.freed && w.handle == h.toNat && !s.core.mxq.any (namesWeight w.id)) } }) ∧
    (∀ (q : KStep) i j acc, q.rowAdmit i j = false → q.elem i j acc = acc) ∧
    (∀ (q : KStep) i j acc, (∀ k, q.bAt k j = none) → q.elem i j acc = acc) ∧
    (∀ (q : KStep) i j acc k, q.rowAdmit i j = true → k < mxKs (fwA q.p.fw) → (q.bAt k j).isSome = true →
      let w := q.p.fw
      let tb := cbTable q.p.table
      let depth := if mxKs (fwA w) = 64 then 6 else 5
      let a (k : Nat) : Nat × Nat := aElem w q.p.rows q.a i k
      (fwInt w = true → q.elem i j acc = nodeI (fwSemi w) acc (pairTree (nodeI (fwSemi w)) depth fun k => match q.bAt k j with
        | some b => leafI (fwSemi w) (mxInt (fwA w) (a k).1) (mxInt (fwB w) b.1)
        | none => semiIdent true (fwSemi w))) ∧
        (fwInt w = false → q.elem i j acc = BitVec.ofNat 32 (fround fp32 (nodeF (fwSemi w) (tileVal acc)
          (pairTree (nodeF (fwSemi w)) depth fun k => match q.bAt k j with
            | some b => leafF (fwSemi w) (mxVal (fwA w) tb (a k).1 (a k).2) (mxVal (fwB w) tb b.1 b.2)
            | none => tileVal (semiIdent false (fwSemi w))))))) ∧
    (∀ (q q' : KStep) g i j acc, q'.p.fw = q.p.fw → q'.p.table = q.p.table → q'.b = q.b → q'.pres = q.pres →
      q'.rowAdmit i j = q.rowAdmit (16 * g + i) j →
      (∀ k, aElem q.p.fw q'.p.rows q'.a i k = aElem q.p.fw q.p.rows q.a (16 * g + i) k) → q'.elem i j acc = q.elem (16 * g + i) j acc) ∧
    ∀ (q : KStep) (t : Tile) n, (n / 64 < q.p.row ∨ q.p.row + q.p.rows ≤ n / 64) → (q.run t).data[n]? = t.data[n]?

/-! ## Labels, relations and taps -/

/-- Relation slots, tree slots, tests, selvedges and taps (R333 to R340, R349 to R352, R472 to R482): `RELLD` and `TREELD` fill a granted slot from
memory; `RELTEST` gives each lane its pair's verdict, or two selvedges' verdict; `SELV` gives a group's selvedge, once no engine owns its words; `TAP`
and `STEER` enter the queue, or answer the status that says why not, and a `TAP` waits for its operation and answers 0 once that is done and has
marked no row; `TAPSTAT` answers score slots, or raises RAS where one has an uncorrectable error, and `TAPCLR` clears the slots of one sequence or of
all, or has the tap ports hold nothing of the tap, also of a disabled one (log 20), where it may; its tap is the low four bits of S0 (log 65). What
reads tap memory sees what the tap's own ports and every core's L1 hold of it (R470), and waits while an engine has yet to write it (R245). A void
label admits no pair. -/
def Obligations.LabelsAndTaps : Prop :=
  let n0 (ic : Ic) : Nat := (lo32 (ic.u0 false)).toNat
  let n1 (ic : Ic) : Nat := (lo32 (ic.u1 false)).toNat
  let n2 (ic : Ic) : Nat := (lo32 (ic.u2 false)).toNat
  let rel (s : State) (n : Nat) : Rel := relOf (s.team.rels.getD n [])
  let pairs (ic : Ic) : List (Nat × Nat × Nat) :=
    ic.once.map fun l => (l, (lo32 (ic.src0 false l)).toNat, (lo32 (ic.src1 false l)).toNat)
  let group (ic : Ic) : Nat := if modBits ic.f 0 0 = 1 then 16 else 64
  let c0 (ic : Ic) : Nat := tapCol0 ic.f + n0 ic
  let names (ic : Ic) : List (Nat × Nat × Nat) := ic.once.map (tapName ic)
  let seen (ic : Ic) (s : State) : State := ((names ic).map (·.1)).eraseDups.foldl tapSeen s
  let slotOwned (s : State) (n : Nat × Nat × Nat) : Prop := ∃ r ∈ (0, 64, true) :: tapSlotReads s n, tapOwned s s.nextId n.1 r.1 r.2.1 = true
  let tapWork (ic : Ic) (s : State) (probe steer : Bool) : MxWork :=
    .tap (tapTile ic.f) (tapTapn ic.f) (tapTcol ic.f) (tapNc ic.f) (c0 ic) (tapDesc s (tapTapn ic.f)) probe steer
  let at' (ic : Ic) (s : State) : State := tapSeen s (tapTapn ic.f)
  let held (ic : Ic) (s : State) : Prop := tapOwned (at' ic s) (at' ic s).nextId (tapTapn ic.f) 0 64 = true
  let status (ic : Ic) (s : State) : Nat := tapStatus (at' ic s) ic.f (c0 ic)
  let fresh (ic : Ic) : Prop := ic.old = none ∨ ic.old = some .tapRoom
  let clr (ic : Ic) : Nat := (ic.u0 false).toNat % 16
  let known (ic : Ic) (s : State) : Prop :=
    modBits ic.f 1 0 ≠ 2 ∧ tapUpset (tapSeen s (clr ic)) (clr ic) 0 64 true = false ∧
      tapOwned (tapSeen s (clr ic)) (tapSeen s (clr ic)).nextId (clr ic) 0 64 = false
  let may (ic : Ic) (s : State) : Prop := memberPriv (tapSeen s (clr ic)) = true ∨ tdClrperm (tapDesc (tapSeen s (clr ic)) (clr ic)) = true
  let void (ic : Ic) (s : State) : Prop := let u := tapSeen s (clr ic)
    tapDisabled u (clr ic) (tapDesc u (clr ic)) = true ∨ (modBits ic.f 1 0 = 0 ∧ tdNseq (tapDesc u (clr ic)) ≤ n1 ic)
  let seqs (ic : Ic) : List Nat := if modBits ic.f 1 0 = 0 then [n1 ic] else List.range 1024
  let words (ic : Ic) : List Nat := (List.range (group ic)).map (n0 ic / 4 + ·)
  let selvOk (ic : Ic) (s : State) : Prop :=
    n0 ic % 4 = 0 ∧ n0 ic + 4 * group ic ≤ s.team.share ∧ n1 ic < s.team.rels.length ∧ ∀ i ∈ words ic, spadHurt s.team i = false
  (∀ f s ic s' u bs, started eRelld f s = some (ic, s') → n0 ic < s'.team.rels.length → (ic.u1 true).toNat % 128 = 0 →
      readMany s' ic (ic.u1 true).toNat 128 = .ok (u, bs) → relOk (relOf bs) = true → relTreesOk (relOf bs) u.team.trees.length = true →
      exec (.relld f) s = .next (complete (ic.adv { u with team := { u.team with rels := u.team.rels.set (n0 ic) bs } }))) ∧
    Traps eRelld .relld (fun ic s => s.team.rels.length ≤ n0 ic) (fun _ => bound bRel) ∧
    (∀ f s ic s' u bs, started eTreeld f s = some (ic, s') → n0 ic < s'.team.trees.length → 0 < n2 ic → n2 ic ≤ 256 →
      readMany s' ic (ic.u1 true).toNat (n2 ic) = .ok (u, bs) →
      exec (.treeld f) s = .next (complete (ic.adv (ic.writeAll
        { u with team := { u.team with trees := u.team.trees.set (n0 ic) bs } } false
        (BitVec.ofNat 64 ((treeValid bs).filter fun v => !v).length))))) ∧
    Traps eTreeld .treeld (fun ic s => n0 ic < s.team.trees.length ∧ (n2 ic = 0 ∨ 256 < n2 ic)) (fun _ => shape shRel) ∧
    (∀ f s ic s', started eReltest f s = some (ic, s') → n2 ic < s'.team.rels.length → modBits f 2 0 = 0 →
      let fine : Prop := ∀ p ∈ pairs ic, (pairVerdict (rel s' (n2 ic)) s'.team.trees p.2.1 p.2.2).2 = none
      fine ∨ relTrapBad (rel s' (n2 ic)) = false →
      ∃ st, (fine → st = s'.team.lblstat) ∧
        exec (.reltest f) s = .next (complete (ic.adv (ic.write { s' with team := { s'.team with lblstat := st } } false fun l =>
          if (pairVerdict (rel s' (n2 ic)) s'.team.trees (lo32 (ic.src0 false (ic.at l))).toNat (lo32 (ic.src1 false (ic.at l))).toNat).1
          then 1#64 else 0#64)))) ∧
    Completes eReltest .reltest (fun ic s => n2 ic < s.team.rels.length ∧ modBits ic.f 2 0 ≠ 0)
      (fun ic s => ic.adv (ic.writeAll s false (BitVec.ofNat 64
        (selvVerdict (rel s (n2 ic)) (selvIn ic.rd ic.f.s0.toNat) (selvIn ic.rd ic.f.s1.toNat))))) ∧
    Completes eSelv .selv (fun ic s => selvOk ic s ∧ wordsOwned s (words ic) = false)
      (fun ic s =>
        let u := { s with team := mendWords s.team (words ic) }
        let sv := selvOf (rel u (n1 ic)) ((words ic).map fun i => (spadWord s.team i).toNat)
        ic.adv (ic.write u false fun l => if l % 32 < 16 then (sv >>> (32 * (l % 32))).setWidth 64 &&& 0xFFFFFFFF#64 else 0#64)) ∧
    Sleeps eSelv .selv (fun ic s => selvOk ic s ∧ wordsOwned s (words ic) = true) (fun _ => .owned) ∧
    (∀ f s ic s', started eTap f s = some (ic, s') → fresh ic → tapTile f < s'.team.tiles.length → ¬held ic s' → status ic s' = 0 →
      (at' ic s').core.mxq.length < 32 →
      exec (.tap f) s = .next (let w := enqueue (at' ic s') (2 ^ tapTile f) (tapWork ic (at' ic s') true (tapSs f)) []
        { w with m := { w.m with wait := some (.mxResult (at' ic s').nextId) } })) ∧
    Sleeps eTap .tap
      (fun ic s => fresh ic ∧ tapTile ic.f < (at' ic s).team.tiles.length ∧ (held ic s ∨ (status ic s = 0 ∧ 32 ≤ (at' ic s).core.mxq.length)))
      (fun _ => .tapRoom) ∧
    (∀ f s ic s' id, started eTap f s = some (ic, s') → s.m.wait = some (.mxResult id) → exec (.tap f) s = .next s) ∧
    (∀ ws, Completes eTap .tap (fun ic _ => ic.old = some (.mxRead ws none)) (fun ic s => ic.adv (ic.writeAll (lateLast eTap ic s) false 0#64))) ∧
    Completes eTap .tap (fun ic s => fresh ic ∧ tapTile ic.f < (at' ic s).team.tiles.length ∧ ¬held ic s ∧ status ic s ≠ 0)
      (fun ic s => ic.adv (ic.writeAll (lateLast eTap ic (at' ic s)) false (BitVec.ofNat 64 (status ic s)))) ∧
    Completes eSteer .steer
      (fun ic s => tapTile ic.f < (at' ic s).team.tiles.length ∧ ¬held ic s ∧ status ic s = 0 ∧ (at' ic s).core.mxq.length < 32)
      (fun ic s => ic.adv (ic.writeAll (enqueue (at' ic s) (2 ^ tapTile ic.f) (tapWork ic (at' ic s) false true) []) false 0#64)) ∧
    Completes eSteer .steer (fun ic s => tapTile ic.f < (at' ic s).team.tiles.length ∧ ¬held ic s ∧ status ic s ≠ 0)
      (fun ic s => ic.adv (ic.writeAll (at' ic s) false (BitVec.ofNat 64 (status ic s)))) ∧
    Sleeps eSteer .steer (fun ic s => tapTile ic.f < (at' ic s).team.tiles.length ∧ held ic s) (fun _ => .owned) ∧
    Completes eTapstat .tapstat
      (fun ic s => ∀ n ∈ names ic, tapSlotLost (seen ic s) n.1 n.2.1 n.2.2 = false ∧ ¬slotOwned (seen ic s) n)
      (fun ic s =>
        let u := (names ic).foldl (fun s n => tapL2 s n.1 (tapSlotReads s n)) (seen ic s)
        ic.adv (ic.write u true fun l => tapSlot u ((ic.src0 false l).toNat % 16) (lo32 (ic.src1 false l)).toNat (lo32 (ic.src2 false l)).toNat)) ∧
    Traps eTapstat .tapstat (fun ic s => ∃ n ∈ names ic, tapSlotLost (seen ic s) n.1 n.2.1 n.2.2 = true) (fun _ => { cls := cRas, cause := 5 }) ∧
    Sleeps eTapstat .tapstat
      (fun ic s => (∀ n ∈ names ic, tapSlotLost (seen ic s) n.1 n.2.1 n.2.2 = false) ∧ ∃ n ∈ names ic, slotOwned (seen ic s) n) (fun _ => .owned) ∧
    Completes eTapclr .tapclr
      (fun ic s => known ic s ∧ may ic s ∧ ¬void ic s ∧ ∀ q ∈ seqs ic,
        tapOwned (tapSeen s (clr ic)) (tapSeen s (clr ic)).nextId (clr ic) (tapSlotOff q 0) 512 = false)
      (fun ic s => ic.adv ((seqs ic).foldl (fun u q => clearSlots u (clr ic) q) (tapSeen s (clr ic)))) ∧
    Completes eTapclr .tapclr (fun ic s => known ic s ∧ may ic s ∧ void ic s) (fun ic s => ic.adv (tapSeen s (clr ic))) ∧
    Completes eTapclr .tapclr (fun ic s => modBits ic.f 1 0 = 2 ∧ memberPriv s = true) (fun ic s => ic.adv (dropTap s (clr ic))) ∧
    Traps eTapclr .tapclr (fun ic s => (modBits ic.f 1 0 = 2 ∧ memberPriv s = false) ∨ (known ic s ∧ ¬may ic s)) (fun _ => emuTrap .priv) ∧
    Sleeps eTapclr .tapclr (fun ic s => modBits ic.f 1 0 ≠ 2 ∧ tapUpset (tapSeen s (clr ic)) (clr ic) 0 64 true = false ∧
      tapOwned (tapSeen s (clr ic)) (tapSeen s (clr ic)).nextId (clr ic) 0 64 = true) (fun _ => .owned) ∧
    (∀ (s : State) t q, (clearSlots s t q).mem = (clearMem s (tapPa s t (tapSlotOff q 0)) 512).mem) ∧
    ∀ r trees a b, labelVoid r a = true ∨ labelVoid r b = true → pairVerdict r trees a b = (false, none)

/-- The verdict on two selvedges is sound (R338, R339): for label words of a descriptor that passes its checks and that has no ancestor atom, NONE
says that no pair of their labels is admitted, and ALL that every pair is. -/
def Obligations.SelvedgeVerdictSound : Prop :=
  ∀ (r : Rel) (trees : List (List Byte)) (rows cols : List Nat), relOk r = true →
    (∀ c, c < 4 → ∀ a, a < 3 → atKind (relAtom r c a) ≠ 4) → rows.length ≤ 64 → cols.length ≤ 64 →
    (selvVerdict r (selvOf r rows) (selvOf r cols) = 0 → ∀ a ∈ rows, ∀ b ∈ cols, (pairVerdict r trees a b).1 = false) ∧
      (selvVerdict r (selvOf r rows) (selvOf r cols) = 2 → ∀ a ∈ rows, ∀ b ∈ cols, (pairVerdict r trees a b).1 = true)

/-! ## Barriers, tasks and choreography -/

/-- The barriers (R400 to R406, R413 to R415): an arrival of a role outside a team barrier's mask is BOUND with cause BAR, and so is one at a team
barrier that expects none; one at a route-tag barrier that expects none is SHAPE with cause BAR; a member that has arrived in the phase waits, and
so does one whose route-tag barrier's phase is full (log 32); else it arrives, `BARARR` answers the generation, and `BAR` sleeps until the
generation has passed, or as a first half-wave until the second has arrived; `BARWAIT` waits for a generation; a route-tag barrier's arrival is a
release at `.DV` and its departure an acquire (R242), and its phase completes over the slath, which wakes its waiters. -/
def Obligations.Barriers : Prop :=
  let passed (gen g : BitVec 16) : Prop := 1 ≤ (gen - g).toNat ∧ (gen - g).toNat ≤ 32767
  let gen (f : Fields) (s : State) : BitVec 16 := (barState f s).1
  let busy (f : Fields) (s : State) : Prop := hasArrived f s = true ∨ halfArrived f s = true ∨
    (barRoute f = true ∧ (barState f s).2.2.2 ≤ (barState f s).2.1.length)
  let noTeam (f : Fields) (s : State) : Prop := barRoute f = false ∧
    ((s.team.tbmask.getD (barNum f / 8) 0#64).getLsbD (8 * (barNum f % 8) + s.m.role.toNat) = false ∨
      barExpect s (barNum f) (s.team.bars.getD (barNum f) {}) = 0)
  let noRoute (f : Fields) (s : State) : Prop := barRoute f = true ∧ (s.part.bts.getD (barNum f) {}).expect = 0
  let fresh (f : Fields) (s : State) : Prop := arrivalTrap f s = none ∧ ¬busy f s
  let done (ic : Ic) (s : State) : State := lateLast eBarwait ic (if barRoute ic.f then l1Flush s else s)
  let arrived (f : Fields) (s : State) : State := if barRoute f then l1Clean (arriveRoute s (barNum f)) else arriveTeam s (barNum f)
  let leave (f : Fields) (s : State) : State := if barRoute f then l1Flush s else s
  let word (g : BitVec 16) : Dword := g.setWidth 64
  let asleep (s : State) (w : Wait) : State := { s with m := { s.m with wait := some w } }
  let route (s : State) (n : BitVec 3) : RouteBarrier := s.part.bts.getD n.toNat {}
  (Completes eBararr .bararr (fun ic s => fresh ic.f s) (fun ic s => ic.adv (ic.writeAll (arrived ic.f s) false (word (gen ic.f s)))) ∧
    Traps eBararr .bararr (fun ic s => noTeam ic.f s) (fun _ => bound bBar) ∧ Traps eBararr .bararr (fun ic s => noRoute ic.f s) (fun _ => shape shBar) ∧
    (∀ f s, arrivalTrap f s = none ↔ ¬noTeam f s ∧ ¬noRoute f s) ∧
    Sleeps eBararr .bararr (fun ic s => arrivalTrap ic.f s = none ∧ busy ic.f s) (fun _ => .arrive)) ∧
  (Traps eBar .bar (fun ic s => ic.old = none ∧ noTeam ic.f s) (fun _ => bound bBar) ∧
    Traps eBar .bar (fun ic s => ic.old = none ∧ noRoute ic.f s) (fun _ => shape shBar) ∧
    Sleeps eBar .bar (fun ic s => ic.old = none ∧ arrivalTrap ic.f s = none ∧ busy ic.f s) (fun _ => .arrive) ∧
    (∀ f s ic s', started eBar f s = some (ic, s') → s.m.wait = none → fresh f s' →
      let u := arrived f s'
      (halfArrived f u = true → exec (.bar f) s = .next (asleep u (.half (barKey f)))) ∧
      (halfArrived f u = false → ¬passed (gen f u) (gen f s') → exec (.bar f) s = .next (asleep u (.barrier (barKey f) (gen f s')))) ∧
      (halfArrived f u = false → passed (gen f u) (gen f s') →
        exec (.bar f) s = .next (complete (ic.adv (ic.writeAll (leave f u) false (word (gen f s'))))))) ∧
    (∀ n g, Completes eBar .bar (fun ic s => ic.old = some (.barrier n g) ∧ passed (gen ic.f s) g)
      fun ic s => ic.adv (ic.writeAll (leave ic.f s) false (word g))) ∧
    (∀ n g, Sleeps eBar .bar (fun ic s => ic.old = some (.barrier n g) ∧ ¬passed (gen ic.f s) g) fun _ => .barrier n g) ∧
    (∀ g, Completes eBar .bar (fun ic _ => ic.old = some (.barrierDone g))
      fun ic s => ic.adv (ic.writeAll (leave ic.f s) false (word g))) ∧
    ∀ n, Sleeps eBar .bar (fun ic _ => ic.old = some (.half n)) fun _ => .half n) ∧
  (Completes eBarwait .barwait (fun ic s => ic.old = none ∧ passed (gen ic.f s) ((ic.u0 false).setWidth 16)) (fun ic s => ic.adv (done ic s)) ∧
    (∀ f s ic s', started eBarwait f s = some (ic, s') → s.m.wait = none → ¬passed (gen f s') ((ic.u0 false).setWidth 16) →
      exec (.barwait f) s = .next (asleep s' (.barrier (barKey f) ((ic.u0 false).setWidth 16)))) ∧
    (∀ n g, Completes eBarwait .barwait (fun ic s => ic.old = some (.barrier n g) ∧ passed (gen ic.f s) g) fun ic s => ic.adv (done ic s)) ∧
    (∀ n g, Sleeps eBarwait .barwait (fun ic s => ic.old = some (.barrier n g) ∧ ¬passed (gen ic.f s) g) fun _ => .barrier n g) ∧
    (∀ g, Completes eBarwait .barwait (fun ic _ => ic.old = some (.barrierDone g)) fun ic s => ic.adv (done ic s)) ∧
    Completes eBargen .bargen (fun _ _ => True) (fun ic s => ic.adv (ic.writeAll s false
      (if isUni (ic.opnd ic.f.dst) then BitVec.ofNat 64 (bnat (hasArrived ic.f s) * 2 ^ 56 + (barState ic.f s).2.2.2 % 2 ^ 20 * 2 ^ 36 +
          (barState ic.f s).2.1.length % 2 ^ 20 * 2 ^ 16 + (gen ic.f s).toNat)
        else word (gen ic.f s))))) ∧
  (∀ n (s : State), (route s n).expect ≠ 0 → (route s n).expect ≤ (route s n).arrived.length →
      exec (.slathPhaseComplete n) s = .next
        (let g := (route s n).gen + 1#16
         let u := mapPart (mapWaits (wakeBarrier (16 + n.toNat) g)) s
         { u with part := { u.part with bts := u.part.bts.set n.toNat { route s n with gen := g, arrived := [] } } })) ∧
    (∀ n (s : State), (route s n).arrived.length < (route s n).expect → exec (.slathPhaseComplete n) s = .next s) ∧
    ∀ k gen g, wakeBarrier k gen (.barrier k g) = (if genPassed gen g then .barrierDone g else .barrier k g)

/-- Task queues, leases, dependency counters and device launches (R407 to R412, R416 to R420): `TQENQ` reads a record once and enqueues it, or
sleeps with it while the sub-queue is full; `TQDEQ` takes the record that has been ready longest with a ticket, or asks for a steal and sleeps, or
answers 1 with `.NB`, whose first words are then free values (log 33); `TASKEND` ends a lease, also where the record goes back to a full sub-queue
(log 57); the queue engine serves the steals that were asked for, that of the longest sleep first (log 117); a lease that has run out makes its
record ready again, with ATTEMPT raised by 1, in the sub-queue of the next granted cluster after the holder's, resets the holder's matrix engine,
whose tiles then hold free values and whose teams hold a LEASE trap with cause MXRESET, and its holder holds one with cause EXPIRED; the counters
count and release; `LAUNCH` answers 1 where 64 device launches stand in the partition, held ones among them (log 59). What releases at `.DV`
leaves the L1 clean, and what acquires leaves it empty (R242, R243). -/
def Obligations.TasksAndCounters : Prop :=
  let n0 (ic : Ic) : Nat := (lo32 (ic.u0 false)).toNat
  let n1 (ic : Ic) : Word := lo32 (ic.u1 false)
  let stored (s : State) : Prop := s.part.vsplit ≠ 8
  let words (bs : List Byte) : BitVec 512 := BitVec.ofNat 512 (ofLeBytes bs)
  let mine (s : State) : Nat := clusterIndex s.part (s.team.core / 8)
  let nb (ic : Ic) : Prop := modBits ic.f 0 0 = 1
  let asleep (s : State) (w : Wait) : State := { s with m := { s.m with wait := some w } }
  let enq (ic : Ic) (s' : State) (q h : Nat) (r : TaskWord) : State :=
    if (subQueue s' q h).length < 512 then complete (ic.adv (addTask (l1Clean (lateLast eTqenq ic s')) q h
      { record := setAttempt r 0, home := h, ready := !tkDcv r || dcCount s' (tkDc r) == 0#32 }))
    else asleep s' (.taskRoom q h r)
  ((∀ f s ic s' u bs, started eTqenq f s = some (ic, s') → s.m.wait = none → stored ic.rd → n0 ic < 16 → (ic.u1 true).toNat % 64 = 0 →
      readOne s' ic (ic.u1 true).toNat 64 = .ok (u, bs) → taskBad (words bs) u.part.clusters.length = false →
      exec (.tqenq f) s = .next (enq ic u (n0 ic) (homeOf u (words bs)) (words bs))) ∧
    (∀ f s ic s' q h r, started eTqenq f s = some (ic, s') → s.m.wait = some (.taskRoom q h r) →
      exec (.tqenq f) s = .next (enq ic s' q h r))) ∧
  ((∀ f s ic s' t u, started eTqdeq f s = some (ic, s') → s.m.wait = none → s'.team.width ≠ 16 → stored ic.rd → n0 ic < 16 →
      oldestReady (subQueue s' (n0 ic) (mine s')) = some t → (nb ic ∨ earlierTaker s' (n0 ic) s'.cycle = false) →
      writeTask ic (startLease (setSub (l1Flush s') (n0 ic) (mine s') ((subQueue s' (n0 ic) (mine s')).erase t)) (n0 ic) t)
        (taskLane t (BitVec.ofNat 32 s'.part.nextTicket)) = .ok u →
      exec (.tqdeq f) s = .next (complete (ic.adv u))) ∧
    (∀ f s ic s', started eTqdeq f s = some (ic, s') → s.m.wait = none → s'.team.width ≠ 16 → stored ic.rd → n0 ic < 16 →
      oldestReady (subQueue s' (n0 ic) (mine s')) = none →
      (¬nb ic → exec (.tqdeq f) s = .next (asleep (requestSteal s' (n0 ic) (mine s')) (.tasks (n0 ic) s'.cycle))) ∧
      (nb ic → ∃ g : Nat → Word, g 17 = 1#32 ∧ (∀ l, 17 < l → g l = 0#32) ∧
        ∀ u, writeTask ic (requestSteal s' (n0 ic) (mine s')) g = .ok u →
          exec (.tqdeq f) s = .next (complete (ic.adv { u with free := s'.free + 17 })))) ∧
    (∀ (s : State) q c, (q, c) ∈ (requestSteal s q c).part.steals) ∧
    ∀ l t, oldestReady l = some t → t ∈ l ∧ t.ready = true ∧ ∀ x ∈ l, x.ready = true → t.order ≤ x.order) ∧
  (Completes eTaskend .taskend
      (fun ic s => stored ic.rd ∧ ∀ k ∈ s.part.tickets, k.num ≠ lo32 (ic.u0 false))
      (fun ic s => ic.adv (ic.writeAll s false (if lo32 (ic.u0 false) ∈ s.part.stale then 1#64 else 2#64))) ∧
    ∀ f s ic s' k, started eTaskend f s = some (ic, s') → stored ic.rd → s'.part.tickets.find? (fun t => t.num == lo32 (ic.u0 false)) = some k →
      (modBits f 0 0 = 1 → exec (.taskend f) s = .next (complete (ic.adv (ic.writeAll
        (retryTask (endLease (l1Clean s') (lo32 (ic.u0 false))) k.queue k.task.home k.task) false 0#64)))) ∧
      ∀ t, modBits f 0 0 = 0 → commitTask s' ic k.task.record = .ok t →
        exec (.taskend f) s = .next (complete (ic.adv (ic.writeAll (endLease (l1Clean t) (lo32 (ic.u0 false))) false 0#64)))) ∧
  (Completes eDcinit .dcinit (fun ic _ => stored ic.rd ∧ n0 ic < 65536) (fun ic s =>
      ic.adv (l1Clean (if n1 ic = 0#32 then releaseDc (setDc s (n0 ic) 0#32) (n0 ic) else setDc s (n0 ic) (n1 ic)))) ∧
    Completes eDcdec .dcdec (fun ic _ => stored ic.rd ∧ n0 ic < 65536) (fun ic s =>
      ic.adv (ic.writeAll (l1Clean
        (let t := setDc s (n0 ic) (if (n1 ic).toNat ≤ (dcCount s (n0 ic)).toNat then dcCount s (n0 ic) - n1 ic else 0#32)
         if dcCount s (n0 ic) ≠ 0#32 ∧ (dcCount s (n0 ic)).toNat ≤ (n1 ic).toNat then releaseDc t (n0 ic) else t)) false
        ((dcCount s (n0 ic)).setWidth 64))) ∧
    Traps eDcdec .dcdec (fun ic _ => stored ic.rd ∧ 65536 ≤ n0 ic) (fun _ => shape shTq)) ∧
  ((∀ q (req : StealRequest) (s : State), servedFirst s q.toNat req.core = true → exec (.queueEngineSteal q req) s = .next s) ∧
    (∀ q (req : StealRequest) (s : State), ((q.toNat, req.core) ∉ s.part.steals ∨
      (req.policy = none ∧ stealFrom (subQueues s q.toNat) req.core = none)) → exec (.queueEngineSteal q req) s = .next s) ∧
    ∀ q (req : StealRequest) (s : State) c, stored s → (q.toNat, req.core) ∈ s.part.steals → req.core < (subQueues s q.toNat).length →
      req.policy = none → stealFrom (subQueues s q.toNat) req.core = some c →
      ((subQueues s q.toNat).getD req.core []).length < 512 → servedFirst s q.toNat req.core = false →
      c ≠ req.core ∧ ((subQueues s q.toNat).getD c []).any (·.ready) = true ∧
      exec (.queueEngineSteal q req) s = .next
        (let src := (subQueues s q.toNat).getD c []
         let dst := (subQueues s q.toNat).getD req.core []
         let ready := sortReady (src.filter (·.ready))
         let moved := ready.take (min ((ready.length + 1) / 2) (512 - dst.length))
         let u := setSub (setSub s q.toNat c (moved.foldl (fun l t => l.erase t) src)) q.toNat req.core (dst ++ moved)
         { u with part := { u.part with steals := s.part.steals.erase (q.toNat, req.core) } })) ∧
  ((∀ (s : State) t k, s.part.tickets.find? (fun x => x.num == t) = some k → s.cycle < k.ends → exec (.leaseExpiry t) s = .next s) ∧
    ∀ (s : State) t k, s.part.tickets.find? (fun x => x.num == t) = some k → k.ends ≤ s.cycle →
      let core := holderCore s k
      let home := (clusterIndex s.part (core / 8) + 1) % s.part.clusters.length
      let mine (o : MxOp) : List MxOp := s.core.mxq.filter fun p => p.team == o.team
      ∃ u, exec (.leaseExpiry t) s = .next u ∧ u.mem = s.mem ∧ t ∈ u.part.stale ∧ (∀ x ∈ u.part.tickets, x.num ≠ t) ∧
        (k.holder = s.m.id → core = s.team.core) ∧
        (k.queue < s.part.tqs.length → home < (subQueues s k.queue).length → s.part.clusters ≠ [] →
          subQueue u k.queue home = subQueue s k.queue home ++
            [{ k.task with record := setAttempt k.task.record (tkAttempt k.task.record + 1), ready := true, order := s.part.taskClock }]) ∧
        (u.core.num = core → u.core.mxq = []) ∧ (∀ c ∈ u.cores, c.num = core → c.mxq = []) ∧
        (s.core.num = core → ∀ o ∈ s.core.mxq,
          (o.team = s.team.id → isPanel o = false → ∀ i x, i < 8 → o.tiles.testBit i = true → u.team.tiles[i]? = some x →
            ∃ n, x.data = (List.range 4096).map fun j => Config.freeWord (n + j)) ∧
          (resetHolder s o.team (mine o) = some s.m.id →
            ({ cls := cLease, cause := 0x02, tiles := some ((mine o).foldl (fun m o => m ||| heldTiles o) 0), data := BitVec.ofNat 64 (2 * 2 ^ 32) } :
              HeldTrap) ∈ u.m.held)) ∧
        (k.holder = s.m.id → s.m.status ≠ .retired →
          ({ cls := cLease, cause := 0x01, tiles := none, data := BitVec.ofNat 64 (2 ^ 32 + t.toNat) } : HeldTrap) ∈ u.m.held)) ∧
  (∀ f s ic s' u bs, started eLaunch f s = some (ic, s') → (ic.u0 true).toNat % 64 = 0 → readOne s' ic (ic.u0 true).toNat 64 = .ok (u, bs) →
      (64 ≤ deviceLaunches u → exec (.launch f) s = .next (complete (ic.adv (ic.writeAll u false 1#64)))) ∧
      (deviceLaunches u < 64 → exec (.launch f) s = .next (complete (ic.adv (ic.writeAll
        (addLaunch (l1Clean u) (newLaunch u (words bs) true u.part.homeport (fld f.ext 2 0) u.ctx.id 0xFFFFFFFF#32 [] [])) false 0#64))))) ∧
    Traps eLaunch .launch (fun ic _ => (ic.u0 true).toNat % 64 ≠ 0) fun _ => alignTrap

/-- Choreography (R385 to R390, R395 to R397): a `CROSS` of a sender pushes its entry, or sleeps at a full channel; one of a receiver pops the
channel's first and takes its words, or, for `.RT`, empties the region, and sleeps while there is none; one of a member that is both sends, and then
receives without sending again; one whose peers have all retired sets PEERGONE and has no effect; `LAP` with EXEC equal to LIVE (log 55) counts the
lap and the loop where drift allows it and goes back while iterations remain; `DRIFT` lowers the bound. -/
def Obligations.Choreography : Prop :=
  let wide (f : Fields) (s : State) : Prop := crossKind f = 0 → s.m.kind = .wave → s.team.width = 32
  let ch (f : Fields) (s : State) : List ChanEntry := s.team.chans.getD (crossCh f) []
  let put (f : Fields) (s : State) (es : List ChanEntry) : State := { s with team := { s.team with chans := s.team.chans.set (crossCh f) es } }
  let pushedEntry (ic : Ic) : ChanEntry :=
    { srole := BitVec.ofNat 3 (crossSr ic.f), rrole := BitVec.ofNat 3 (crossRr ic.f), region := crossKind ic.f != 0, words := sentWords ic }
  let sendOk (ic : Ic) (s : State) : Prop := crossKind ic.f = 0 ∨
    (regionTrap ic.rd ic .read (lo32 (ic.u0 false)).toNat (lo32 (ic.u1 false)).toNat = none ∧
      ic.waitWords s (regionWords (lo32 (ic.u0 false)).toNat (lo32 (ic.u1 false)).toNat) true = none)
  let gone (s : State) : State := { s with team := { s.team with prkstat := s.team.prkstat ||| 1#64 } }
  let woken (s : State) : State := { s with m := { s.m with wait := none, ready := s.cycle } }
  let last (ic : Ic) (s : State) : State := lateLast (crossEntry ic.f ic.rd) ic s
  let off (e : ChanEntry) : Nat := (e.words.getD 0 0#32).toNat
  let len (e : ChanEntry) : Nat := (e.words.getD 1 0#32).toNat
  let taken (f : Fields) (s : State) (e : ChanEntry) (es : List ChanEntry) : State :=
    let u := put f s es
    if crossKind f = 2 then { u with team := (regionWords (off e) (len e)).foldl setEmpty u.team } else u
  let matching (f : Fields) (e : ChanEntry) : Prop :=
    e.srole.toNat = crossSr f ∧ e.rrole.toNat = crossRr f ∧ e.region = (crossKind f != 0)
  let received (f : Fields) (s : State) (ic : Ic) (v : State) : Prop := ∀ e es u, ch f v = e :: es → matching f e →
    (crossKind f = 2 → regionTrap ic.rd ic .write (off e) (len e) = none) →
    openDst (crossEntry f ic.rd) f (last ic (taken f v e es)) ic.act = .ok u →
    exec (.cross f) s = .next (complete (ic.adv (ic.write u false fun l =>
      (e.words.getD (if e.region || ic.uni then 0 else l) 0#32).setWidth 64)))
  let count (ic : Ic) (s : State) : Word := s.m.lapit.getD (modBits ic.f 1 0) 0#32 + 1#32
  let bnd (ic : Ic) : Nat := max 1 (if ic.opnd ic.f.s0 = .none then fld ic.f.ext 63 32 else (lo32 (ic.u0 false)).toNat)
  (∀ f s ic s', started (crossEntry f s) f s = some (ic, s') → wide f s' → crossSends f s' = true → crossRecvs f s' = false → sendOk ic s' →
      ic.old ≠ some .crossSent →
      (roleGone s' (crossRr f) = false → (ch f s').length < 4 →
        exec (.cross f) s = .next (complete (ic.adv (lateLast (crossEntry f s') ic (put f s' (ch f s' ++ [pushedEntry ic])))))) ∧
      (roleGone s' (crossRr f) = false → 4 ≤ (ch f s').length → exec (.cross f) s = .next { s with m := { s.m with wait := some .chan } }) ∧
      (roleGone s' (crossRr f) = true → exec (.cross f) s = .next (complete (ic.adv (lateLast (crossEntry f s') ic (gone s')))))) ∧
    (∀ f s ic s', started (crossEntry f s) f s = some (ic, s') → wide f s' → crossSends f s' = false → crossRecvs f s' = true →
      received f s ic s') ∧
    (∀ f s ic s', started (crossEntry f s) f s = some (ic, s') → wide f s' → crossSends f s' = true → crossRecvs f s' = true →
      (ic.old ≠ some .crossSent → sendOk ic s' → roleGone s' (crossRr f) = false →
        ((ch f s').length < 4 → received f s ic (put f s' (ch f s' ++ [pushedEntry ic]))) ∧
        (4 ≤ (ch f s').length → exec (.cross f) s = .next { s with m := { s.m with wait := some .chan } })) ∧
      (ic.old = some .crossSent → received f s ic s' ∧ (ch f s' = [] → roleGone s' (crossSr f) = false →
        exec (.cross f) s = .next { s' with m := { s'.m with wait := some .crossSent } }))) ∧
    (∀ f s ic s', started (crossEntry f s) f s = some (ic, s') → wide f s' → crossSends f s' = false → crossRecvs f s' = false →
      exec (.cross f) s = .next (complete (ic.adv (lateLast (crossEntry f s') ic s')))) ∧
    (∀ f s ic s', started (crossEntry f s) f s = some (ic, s') → wide f s' → crossSends f s' = false → crossRecvs f s' = true → ch f s' = [] →
      (roleGone s' (crossSr f) = false → exec (.cross f) s = .next { s with m := { s.m with wait := some .chan } }) ∧
      (roleGone s' (crossSr f) = true → exec (.cross f) s = .next (complete (ic.adv (gone (last ic s')))))) ∧
    Completes eLap .lap
      (fun ic s => (s.m.kind = .wave → s.m.exec = s.m.live) ∧ aligned4 ic.target = true ∧ drifted s = false)
      (fun ic s =>
        let again := (count ic s).toNat < bnd ic
        setCursor { s with m := { s.m with lc := s.m.lc + 1#64, lapit := s.m.lapit.set (modBits ic.f 1 0) (if again then count ic s else 0#32) } }
          (if again then ic.target else ic.next)) ∧
    Sleeps eLap .lap (fun ic s => (s.m.kind = .wave → s.m.exec = s.m.live) ∧ aligned4 ic.target = true ∧ drifted s = true) (fun _ => .drift) ∧
    Traps eLap .lap (fun _ s => s.m.kind = .wave ∧ s.m.exec ≠ s.m.live) (fun _ => bound bLap) ∧
    Completes eDrift .drift (fun _ _ => True) (fun ic s =>
      let n := (lo32 (ic.u0 false)).toNat
      let d := if 1 ≤ n ∧ n ≤ 15 then min s.team.drift n else s.team.drift
      ic.adv (ic.writeAll { s with team := { s.team with drift := d } } false (BitVec.ofNat 64 d))) ∧
    (∀ s : State, s.m.wait = some .drift → exec .driftWake s = .next (if drifted s then s else woken s)) ∧
    (∀ (s : State) f, s.m.wait = some .chan → fieldsHere s = some f →
      exec .crossWake s = .next (if crossReady f s then woken s else s)) ∧
    ∀ s : State, drifted s = true ↔ s.team.drift + minLap s < s.m.lc.toNat + 1

/-! ## Access processors -/

/-- The access processor (R284 to R300): `AFETCH` starts a stream and its engine pushes its entries in order, or a marker at a fault; `APUSH`
pushes a ramp; `AOVL` walks an overlay chain, each link of which gives the block of its lowest entry for the logical block, or no block where it
has no parent or inherits none, or goes on at the parent, a fifth of which is OVL; `ALOOP` counts down; `ASTOP` and `ASYNC` end and await the
member's streams; `QSTAT` answers a queue's status, and `WINREAD` an element of a bound window. -/
def Obligations.AccessProcessors : Prop :=
  let streams (ic : Ic) (s : State) : List Nat := ((myStreams s).filter fun st => (ic.u0 true).getLsbD st.queue && decide (st.queue < 16)).map (·.id)
  let n1 (ic : Ic) : Nat := (lo32 (ic.u1 false)).toNat
  let es (ic : Ic) (s : State) : List QEntry := s.team.queues.getD (queueOf ic) []
  let win (ic : Ic) (s : State) : Option Window :=
    if (lo32 (ic.u0 false)).toNat ≤ 15 then lookupKey (lo32 (ic.u0 false)).toNat s.ctx.wins else none
  let ovl (node : Nat) : Trap := { cls := cOvl, record := some (BitVec.ofNat 64 node) }
  Completes eAfetch .afetch (fun ic _ => n1 ic = 0) (fun ic s => ic.adv s) ∧
    Completes eAfetch .afetch
      (fun ic s => n1 ic ≠ 0 ∧ aligned4 (ic.u0 true) = true ∧ aligned4 (ic.u2 true) = true ∧ (myStreams s).length < 8)
      (fun ic s =>
        let st : Stream := { id := s.nextId, owner := s.m.id, ap := s.m.apNum, queue := queueOf ic, base := ic.u0 true, stride := ic.u2 true
                             count := n1 ic, priv := memberPriv s }
        ic.adv { s with team := { s.team with streams := s.team.streams ++ [st] }, nextId := s.nextId + 1 }) ∧
    (∀ (s : State) id st ws, s.team.streams.find? (fun t => t.id == id) = some st → st.fault = none → streamRoom s.team st = true →
      streamRead s st = (ws, []) →
      let u := streamPass s st
      exec (.streamEntryPush id) s = .next { u with team := pushStream u.team st (.data (streamRead u st).1) none }) ∧
    (∀ (s : State) id st ws bad x, s.team.streams.find? (fun t => t.id == id) = some st → st.fault = none → streamRoom s.team st = true →
      streamRead s st = (ws, bad) → streamFault bad = some x →
      exec (.streamEntryPush id) s = .next { s with team := pushStream s.team st (.marker id) (some (engFaultOf x .read st.priv)) }) ∧
    Completes eApush .apush (fun ic s => (es ic s).length < 8)
      (fun ic s => ic.adv (pushQueue s (queueOf ic) (.data ((List.range 32).map fun l => lo32 (ic.u0 true) + BitVec.ofNat 32 l * lo32 (ic.u1 true))))) ∧
    (∀ f s ic s' u x, started eAovl f s = some (ic, s') →
      walkOverlay ic (modBits f 2 0) (ic.u1 true).toNat 4 (ic.u0 true).toNat s' = .ok (u, x) →
      exec (.aovl f) s = .next (complete (ic.adv (ic.writeAll u true x)))) ∧
    (∀ t, Traps eAovl .aovl
      (fun ic s => walkOverlay ic (modBits ic.f 2 0) (ic.u1 true).toNat 4 (ic.u0 true).toNat s = .error (.trap t)) fun _ => t) ∧
    (∀ ic bs t node s, walkOverlay ic bs t 0 node s = .error (.trap (ovl node))) ∧
    (∀ ic bs t n node s, node % 16 ≠ 0 → walkOverlay ic bs t (n + 1) node s = .error (.trap alignTrap)) ∧
    (∀ ic bs t n node s u x, node % 16 = 0 → cachedRead s ic node 16 = .ok (u, x) →
      let count := x / 2 ^ 96 % 2 ^ 32
      let cut := x / 2 ^ 64 % 2 ^ 32
      let parent := x % 2 ^ 48
      let b := t / 2 ^ (bs + 2)
      (4096 < count ∨ x / 2 ^ 48 % 2 ^ 16 ≠ 0 → walkOverlay ic bs t (n + 1) node s = .error (.trap (ovl node))) ∧
      (count ≤ 4096 → x / 2 ^ 48 % 2 ^ 16 = 0 →
        (∀ v k, findOverlay u ic node b count 0 = .ok (v, some k) →
          walkOverlay ic bs t (n + 1) node s = .ok (v, BitVec.ofNat 64 (k * 2 ^ (bs + 2) + t % 2 ^ (bs + 2)))) ∧
        ∀ v, findOverlay u ic node b count 0 = .ok (v, none) → walkOverlay ic bs t (n + 1) node s =
          if parent = 0 ∨ cut ≤ b then .ok (v, BitVec.allOnes 64) else walkOverlay ic bs t n parent v)) ∧
    (∀ ic node b n j s u e, cachedRead s ic ((node + 16 + 8 * j) % 2 ^ 64) 8 = .ok (u, e) → findOverlay s ic node b (n + 1) j =
      if e % 2 ^ 32 = b then .ok (u, some (e / 2 ^ 32)) else findOverlay u ic node b n (j + 1)) ∧
    (∀ ic node b j s, findOverlay s ic node b 0 j = .ok (s, none)) ∧
    Completes eAloop .aloop (fun ic _ => aligned4 ic.target = true) (fun ic s =>
      setCursor (ic.writeAll s true (ic.uD true - 1#64)) (if ic.uD true = 1#64 then ic.next else ic.target)) ∧
    Traps eAloop .aloop (fun ic _ => aligned4 ic.target = false) (fun _ => alignTrap) ∧
    Completes eAstop .astop (fun ic _ => modBits ic.f 0 0 = 0) (fun ic s => ic.adv { s with team := cancelStreams s.team (streams ic s) }) ∧
    (∀ f s ic s', started eAstop f s = some (ic, s') → modBits f 0 0 ≠ 0 →
      ∃ t, exec (.astop f) s = .next t ∧ t.mem = s'.mem ∧ ∀ q, q < 16 → (ic.u0 true).getLsbD q = true → t.team.queues.getD q [] = []) ∧
    Completes eAsync .async (fun ic s => streams ic s = []) (fun ic s => ic.adv s) ∧
    Sleeps eAsync .async (fun ic s => streams ic s ≠ []) (fun _ => .streams) ∧
    Completes eQstat .qstat (fun _ s => s.team.qset = true)
      (fun ic s => ic.adv (ic.writeAll s false (queueStatus s.team ((ic.u0 false).toNat % 16)))) ∧
    Traps eQstat .qstat (fun _ s => s.team.qset = false) (fun _ => bound bQueue) ∧
    (∀ f s ic s' w ls, started eWinread f s = some (ic, s') → win ic s' = some w → winEsize w ≤ 8 → (ic.u1 true).toNat < winCount w →
      let va := (s'.ctx.winbase.toNat + (lo32 (ic.u0 false)).toNat * 2 ^ 32 + (ic.u1 true).toNat * winEsize w) % 2 ^ 64
      resolveOne s' ic .read va (winEsize w) = .ok ls →
      let u := passCaches s' (memberView ic.rd) va ls false
      exec (.winread f) s = .next (complete (ic.adv (ic.writeAll u true (BitVec.ofNat 64 (ofLeBytes (readLocs u ls))))))) ∧
    (∀ f s ic s' w, started eWinread f s = some (ic, s') → win ic s' = some w → winEsize w ≤ 8 → winCount w ≤ (ic.u1 true).toNat →
      exec (.winread f) s = .next (complete (ic.adv (ic.writeAll s' true
        (BitVec.ofNat 64 (ofLeBytes ((List.range (winEsize w)).map (winFill w)))))))) ∧
    ∀ (s : State) f e, s.m.wait = some .queue → fieldsHere s = some f → entryOf f.opc.toNat = some e →
      exec .queueWake s = .next (if queuesReady e f s then { s with m := { s.m with wait := none, ready := s.cycle } } else s)

/-! ## The shuttle -/

/-- The words of the format walker on a context that runs (R354, R366, R370, R371, R374): the arithmetic words write h[D] and go on, h0 reads 0
and ignores writes, the branches set the cursor by their displacement, `HLD` reads memory little-endian, `HPREF` fetches its lines and faults on
none, and a word that is not defined, a cursor outside the program and a misaligned address stop the context with their cause before any effect.
Nothing but the context and, at a read, the caches changes; a prefetched line that fails its checks is dropped, and the buffer holds at most 64
(R354; log 126); and a context that does not run is left alone by every word. -/
def Obligations.ShuttleWords : Prop :=
  (∀ (s : State), s.team.sh.phase = .running →
    let c := s.team.sh
    let h := hReg c
    let goes (c' : ShCtx) : Out := .next (setSh s { c' with cursor := c.cursor + 1 })
    let stops (cause : Nat) : Out := .next (setSh s (stopSh c cause none))
    let compares (cc : BitVec 3) (p : Dword → Dword → Bool) : Prop :=
      (∀ d a b, exec (.hcmpReg d a cc b) s = goes (setH c d (if p (h a) (h b) then 1#64 else 0#64))) ∧
        ∀ d a i, exec (.hcmpImm d a cc i) s = goes (setH c d (if p (h a) (i.signExtend 64) then 1#64 else 0#64))
    (∀ d a b, exec (.haddReg d a b) s = goes (setH c d (h a + h b))) ∧
    (∀ d a i, exec (.haddImm d a i) s = goes (setH c d (h a + i.signExtend 64))) ∧
    (∀ d a b, exec (.hsubReg d a b) s = goes (setH c d (h a - h b))) ∧
    (∀ d a i, exec (.hsubImm d a i) s = goes (setH c d (h a - i.signExtend 64))) ∧
    (∀ d a b, exec (.handReg d a b) s = goes (setH c d (h a &&& h b))) ∧
    (∀ d a i, exec (.handImm d a i) s = goes (setH c d (h a &&& i.signExtend 64))) ∧
    (∀ d a b n, n < 64 → (h b).setWidth 7 = BitVec.ofNat 7 n → exec (.hshlReg d a b) s = goes (setH c d (h a <<< n))) ∧
    (∀ d a b n, 0 < n → n ≤ 64 → (h b).setWidth 7 = BitVec.ofNat 7 (128 - n) →
      exec (.hshlReg d a b) s = goes (setH c d (h a >>> n))) ∧
    (∀ d a (i : BitVec 15) n, n < 64 → i.setWidth 7 = BitVec.ofNat 7 n → exec (.hshlImm d a i) s = goes (setH c d (h a <<< n))) ∧
    (∀ d a (i : BitVec 15) n, 0 < n → n ≤ 64 → i.setWidth 7 = BitVec.ofNat 7 (128 - n) →
      exec (.hshlImm d a i) s = goes (setH c d (h a >>> n))) ∧
    compares 0#3 (· == ·) ∧ compares 1#3 (· != ·) ∧ compares 2#3 BitVec.slt ∧ compares 3#3 (fun x y => y.sle x) ∧
    compares 4#3 BitVec.ult ∧ compares 5#3 (fun x y => y.ule x) ∧
    (∀ d i, exec (.hmov d i) s = goes (setH c d (i.signExtend 64))) ∧
    (∀ d i, exec (.hmovH d i) s = goes (setH c d ((h d <<< 20) ||| i.setWidth 64))) ∧
    (∀ a d, exec (.hbr a d) s = if h a ≠ 0#64 then .next (setSh s (jumpBy c d)) else goes c) ∧
    (∀ a d, exec (.hbrZ a d) s = if h a = 0#64 then .next (setSh s (jumpBy c d)) else goes c) ∧
    (∀ d, exec (.hjmp d) s = .next (setSh s (jumpBy c d))) ∧
    (∀ a d, a ≠ 0#5 → c.regs.length = 32 → exec (.hloop a d) s =
      if h a - 1#64 ≠ 0#64 then .next (setSh s (jumpBy (setH c a (h a - 1#64)) d)) else goes (setH c a (h a - 1#64))) ∧
    (∀ d, exec (.hloop 0#5 d) s = goes c) ∧
    (∀ (n a : BitVec 5) (d : BitVec 14), exec (.hpref n a d) s =
      .next (setSh ((List.range (n.toNat + 1)).foldl (fun u i =>
        prefetchLine (shView u c) u (((h a + d.signExtend 64).toNat + 128 * i) % 2 ^ 64)) s) { c with cursor := c.cursor + 1 })) ∧
    (∀ d a (w : BitVec 2) i ls, (h a + i.signExtend 64).toNat % 2 ^ w.toNat = 0 →
      resolveAccess s (shView s c) .read (h a + i.signExtend 64).toNat (2 ^ w.toNat) = .ok ls →
      let u := shPass s (shView s c) (h a + i.signExtend 64).toNat ls
      exec (.hld d a w i) s = .next (setSh u { setH c d (BitVec.ofNat 64 (ofLeBytes (readLocs u ls))) with cursor := c.cursor + 1 })) ∧
    (∀ d a (w : BitVec 2) i x, (h a + i.signExtend 64).toNat % 2 ^ w.toNat = 0 →
      resolveAccess s (shView s c) .read (h a + i.signExtend 64).toNat (2 ^ w.toNat) = .error x → x.cls = .mem ∨ x.cls = .walk →
      exec (.hld d a w i) s = .next (setSh s (stopSh c x.cause (some (engFaultOf x .read c.priv))))) ∧
    (∀ d a (w : BitVec 2) i, (h a + i.signExtend 64).toNat % 2 ^ w.toNat ≠ 0 → exec (.hld d a w i) s = stops 0x22) ∧
    (∀ w, c.prog.length ≤ c.cursor → exec (.shuttleUndefinedWord w) s = stops 0x29) ∧
    (∀ w, c.cursor < c.prog.length → (w.toNat / 2 ^ 26 = 0 ∨ 0x14 < w.toNat / 2 ^ 26) →
      exec (.shuttleUndefinedWord w) s = stops 0x20) ∧
    (∀ w, c.cursor < c.prog.length → 0 < w.toNat / 2 ^ 26 → w.toNat / 2 ^ 26 ≤ 0x14 →
      exec (.shuttleUndefinedWord w) s = stops 0x21)) ∧
  (∀ s i, s.team.sh.phase ≠ .running → (encodeShuttle i).isSome = true → exec i s = .next s) ∧
  (∀ v (s : State) va x, resolveAccess s v .read va 1 = .error x → prefetchLine v s va = s) ∧
  (∀ v (s : State) va ls k, resolveAccess s v .read va 1 = .ok ls → lineKeys ls = [k] → k ∉ s.cl.pref → cacheUse s v va ≠ .none →
    prefetchLine v s va =
      (let u := l2Pass s v va ls false
       { u with cl := { u.cl with pref := (s.cl.pref ++ [k]).drop (s.cl.pref.length + 1 - 64) } })) ∧
  (∀ v (s : State) va, s.cl.pref.length ≤ 64 → (prefetchLine v s va).cl.pref.length ≤ 64) ∧
  (∀ v (s : State) va ls, (∃ k ∈ lineKeys ls, k ∉ s.cl.pref) → shPass s v va ls = l2Pass s v va ls false) ∧
  (∀ c : ShCtx, hReg c 0#5 = 0#64 ∧ ∀ x, setH c 0#5 x = c) ∧
  (∀ (c : ShCtx) d x r, c.regs.length = 32 → d ≠ 0#5 → hReg (setH c d x) r = if r = d then x else hReg c r) ∧
  ∀ (c : ShCtx) n (d : BitVec n), 0 ≤ (c.cursor : Int) + d.toInt → (c.cursor : Int) + d.toInt < 2 ^ 32 →
    (((jumpBy c d).cursor : Nat) : Int) = c.cursor + d.toInt

/-- The words that build a tile (R358 to R364, R366, R371, R377): `HTILE` opens one where its words are empty and the range lies in the share, and
waits else; `HROW`, `HVROW` and `HEMPTY` add a carry entry; `HLDV` loads elements into the current row; `HPRUNE` and `HSCALE` need a tile of
their kind; `HEMIT` fills the tile's footprint and its carry table in the share, once no earlier
operation owns a byte there; the causes come in the order of log 62; and a word out of its place stops the context with its cause.
Pruning keeps two columns of each group of four, and a finished tile fills its footprint. -/
def Obligations.ShuttleTiles : Prop :=
  (∀ (s : State), s.team.sh.phase = .running →
    let c := s.team.sh
    let h := hReg c
    let goes (c' : ShCtx) : Out := .next (setSh s { c' with cursor := c.cursor + 1 })
    let stops (cause : Nat) : Out := .next (setSh s (stopSh c cause none))
    let off (a : BitVec 5) : Nat := (h a).toNat % 2 ^ 32
    let foot := tileFoot c.record
    let has (b : BitVec 5) : Prop := off b ≠ 2 ^ 32 - 1
    let placed (a b : BitVec 5) : Prop :=
      off a % 128 = 0 ∧ (has b → off b % 128 = 0) ∧ off a + foot ≤ s.team.share ∧ (has b → off b + 256 ≤ s.team.share)
    let empty (a b : BitVec 5) : Prop :=
      ∀ w ∈ s.team.full, ¬(off a / 4 ≤ w ∧ w < (off a + foot) / 4) ∧ (has b → ¬(off b / 4 ≤ w ∧ w < (off b + 256) / 4))
    let opened (a b : BitVec 5) : ShCtx := { c with
      buf := List.replicate 4096 (srFill c.record), pruned := 0, scaled := 0, scales := List.replicate 128 0, carry := [], rows := 0
      tileOff := off a, carryOff := off b, isOpen := true }
    let row (kind x : Nat) : ShCtx :=
      { c with carry := c.carry ++ [BitVec.ofNat 32 (kind * 2 ^ 30 + x)], rows := c.rows + 1, lastReal := x }
    let mayAdd : Prop := c.isOpen = true ∧ c.rows < srRows c.record
    let inRow : Prop := c.isOpen = true ∧ 0 < c.rows
    (∀ a b, placed a b → empty a b → exec (.htile a b) s = goes (opened a b)) ∧
    (∀ a b, placed a b → ¬empty a b → exec (.htile a b) s = .next s) ∧
    (∀ a b, fetchShuttle s = some (.htile a b) → placed a b → empty a b → exec .htileOpen s = goes (opened a b)) ∧
    (∀ a b, (off a % 128 ≠ 0 ∨ (has b ∧ off b % 128 ≠ 0)) → exec (.htile a b) s = stops 0x22) ∧
    (∀ a b, off a % 128 = 0 → (has b → off b % 128 = 0) → (s.team.share < off a + foot ∨ (has b ∧ s.team.share < off b + 256)) →
      exec (.htile a b) s = stops 0x28) ∧
    (mayAdd → (∀ a, exec (.hrow a) s = goes (row 0 ((h a).toNat % 2 ^ 30))) ∧
      exec .hvrow s = goes (row 1 (c.lastReal % 2 ^ 30)) ∧ ∀ a, exec (.hempty a) s = goes (row 2 ((h a).toNat % 2 ^ 30))) ∧
    (c.isOpen = false → (∀ a, exec (.hrow a) s = stops 0x27) ∧ exec .hvrow s = stops 0x27 ∧ (∀ a, exec (.hempty a) s = stops 0x27) ∧
      exec .hprune s = stops 0x27 ∧ (∀ d, exec (.hscale d) s = stops 0x27) ∧ (∀ d a b, exec (.hldv d a b) s = stops 0x27) ∧
      exec .hemit s = stops 0x27) ∧
    (c.isOpen = true → srRows c.record ≤ c.rows → (∀ a, exec (.hrow a) s = stops 0x23) ∧ exec .hvrow s = stops 0x23 ∧
      ∀ a, exec (.hempty a) s = stops 0x23) ∧
    (c.isOpen = true → c.rows = 0 → exec .hprune s = stops 0x23 ∧ (∀ d, exec (.hscale d) s = stops 0x23) ∧
      ∀ d a b, exec (.hldv d a b) s = stops 0x23) ∧
    (inRow → srSparse c.record = true → exec .hprune s = goes (pruneRow c (c.rows - 1))) ∧
    (inRow → srSparse c.record = false → exec .hprune s = stops 0x26) ∧
    (inRow → srScaled c.record = true → ∀ d, exec (.hscale d) s =
      (let c' := scaleRow c (c.rows - 1)
       goes (setH c' d (BitVec.ofNat 64 (c'.scales.getD (2 * (c.rows - 1)) 0 +
         (if srCols c.record = 64 then c'.scales.getD (2 * (c.rows - 1) + 1) 0 else 0) * 256))))) ∧
    (inRow → srScaled c.record = false → ∀ d, exec (.hscale d) s = stops 0x26) ∧
    (inRow → (c.pruned.testBit (c.rows - 1) || c.scaled.testBit (c.rows - 1)) = true → ∀ d a b, exec (.hldv d a b) s = stops 0x25) ∧
    (inRow → c.pruned.testBit (c.rows - 1) = false → c.scaled.testBit (c.rows - 1) = false → ∀ d a b,
      ((h d).toNat = 0 → exec (.hldv d a b) s = goes c) ∧
      (0 < (h d).toNat → srCols c.record < (h b).toNat + (h d).toNat → exec (.hldv d a b) s = stops 0x24) ∧
      (0 < (h d).toNat → (h b).toNat + (h d).toNat ≤ srCols c.record → (h a).toNat % fmtBytes (srSfmt c.record) ≠ 0 →
        exec (.hldv d a b) s = stops 0x22) ∧
      ∀ u ws, 0 < (h d).toNat → (h b).toNat + (h d).toNat ≤ srCols c.record → (h a).toNat % fmtBytes (srSfmt c.record) = 0 →
        loadElems s c (h a).toNat (h d).toNat = .ok (u, ws) →
        exec (.hldv d a b) s = .next (setSh u { c with
          buf := c.buf.take (64 * (c.rows - 1) + (h b).toNat) ++ ws ++ c.buf.drop (64 * (c.rows - 1) + (h b).toNat + (h d).toNat)
          cursor := c.cursor + 1 })) ∧
    (c.isOpen = true → (∃ x ∈ emitPlaces c, ownedBy s s.team.id c.id 0 x = true) → exec .hemit s = .next s) ∧
    (c.isOpen = true → (∀ x ∈ emitPlaces c, ownedBy s s.team.id c.id 0 x = false) → exec .hemit s =
      (let c' := finishRows c
       let t := fillSpadBytes s.team c.tileOff (tileBytes c')
       let t := if c.carryOff = 2 ^ 32 - 1 then t else fillSpadBytes t c.carryOff (carryBytes c')
       .next (setSh { s with team := t } { c' with isOpen := false, tiles := c.tiles + 1, cursor := c.cursor + 1 }))) ∧
    exec .hend s = .next (setSh s { c with phase := .ended, reached := true, leftOpen := c.isOpen, isOpen := false })) ∧
  (∀ c r g, ((List.range 4).filter fun i => keepsCol c r (4 * g + i)).length = 2) ∧
  (∀ c, (tileBytes (finishRows c)).length = tileFoot c.record) ∧
  (∀ c : ShCtx, c.carry.length ≤ 64 → (carryBytes c).length = 256) ∧
  (∀ s c va n u ws, loadElems s c va n = .ok (u, ws) → ws.length = n ∧ ∀ i, i < n →
    ∃ ls v, resolveAccess s (shView s c) .read ((va + i * fmtBytes (srSfmt c.record)) % 2 ^ 64) (fmtBytes (srSfmt c.record)) = .ok ls ∧
      ws.getD i 0#32 = sourceWord (srSfmt c.record)
        (ofLeBytes (readLocs (shPass v (shView v c) ((va + i * fmtBytes (srSfmt c.record)) % 2 ^ 64) ls) ls)) ∧
      (i = 0 → v = s)) ∧
  (∀ (s : State) c va n i x, i < n → resolveAccess s (shView s c) .read ((va + i * fmtBytes (srSfmt c.record)) % 2 ^ 64)
    (fmtBytes (srSfmt c.record)) = .error x → ∃ y, loadElems s c va n = .error y) ∧
  ∀ (t : Team) a (bs : List Byte) w, a % 4 = 0 → bs.length % 4 = 0 →
    (a / 4 ≤ w → w < (a + bs.length) / 4 → wordFull (fillSpadBytes t a bs) w = true ∧
      spadWord (fillSpadBytes t a bs) w = BitVec.ofNat 32 (ofLeBytes ((bs.drop (4 * w - a)).take 4))) ∧
    (w < a / 4 ∨ (a + bs.length) / 4 ≤ w → wordFull (fillSpadBytes t a bs) w = wordFull t w ∧
      spadWord (fillSpadBytes t a bs) w = spadWord t w)

/-- What waves do with the shuttle (R366, R368, R375 to R378): `SHSTART` starts a context with the lowest free handle (log 116), and answers 0x100 or
0x101 where it cannot; a record that breaks R357 is SHAPE; `SHWAIT` sleeps while its context runs, answers its status once it has ended and frees its
slot, and where the context has faulted delivers its fault before it starts (R447), or waits while another member's handler has it (log 63); `CFIX`
gives the last lane of each run the run's value and the others the identity, and the value of a run of one row is that row's bits as they are
(log 113). -/
def Obligations.ShuttleFromWaves : Prop :=
  let rec512 (bs : List Byte) : StartRec := BitVec.ofNat 512 (ofLeBytes bs)
  let at64 (ic : Ic) : Prop := (ic.u0 true).toNat % 64 = 0
  let mask (s : State) : Bool := s.part.shMask.getLsbD (s.team.core / 8)
  let hd (ic : Ic) : Nat := (ic.u0 false).toNat % 4
  let ctxAt (ic : Ic) (s : State) : Option ShCtx := (teamShs s.team).find? fun c => c.handle == hd ic
  let fixOff (ic : Ic) : Nat := (lo32 (ic.u1 false)).toNat
  let fixWords (ic : Ic) : List Nat := (List.range 32).map (fixOff ic / 4 + ·)
  let entries (ic : Ic) (s : State) : List Word := (fixWords ic).map (spadWord s.team)
  let op (ic : Ic) : Nat := modBits ic.f 2 0
  let bits (ic : Ic) (o : Operand) (raw : Dword) : Nat := if op ic = 1 then (lo32 raw).toNat else floatBits 0 o raw
  let vals (ic : Ic) (s : State) (l : Nat) : Nat :=
    if ic.act.getLsbD l = true ∧ carryKind ((entries ic s).getD l 0#32) ≤ 1 then bits ic (ic.opnd ic.f.s0) (ic.src0 false l)
    else cfixId (op ic)
  let carryIn (ic : Ic) : Nat := if ic.opnd ic.f.s2 = .none then cfixId (op ic) else bits ic (ic.opnd ic.f.s2) (ic.u2 false)
  let running (ic : Ic) (s : State) : List Nat :=
    cfixRun (op ic) ((List.range 32).map fun l => ((entries ic s).getD l 0#32, vals ic s l)) (carryIn ic)
  (∀ f s ic s' v bs h u ws, started eShstart f s = some (ic, s') → at64 ic → mask s' = true →
      readOne s' ic (ic.u0 true).toNat 64 = .ok (v, bs) →
      startBad (rec512 bs) = false → freeHandle v.team = some h → shuttleHeld v (s'.team.core / 8) < 4 →
      loadProgram ic (srPlen (rec512 bs)) v (srProg (rec512 bs)) = .ok (u, ws) →
      exec (.shstart f) s = .next (complete (ic.adv (ic.writeAll (addSh u
        { id := u.nextId, handle := h, cluster := s'.team.core / 8, issuer := u.m.id, priv := memberPriv u, phase := .running
          regs := (List.replicate 32 0#64).set 1 (ic.u1 true), prog := ws, record := rec512 bs }) false (BitVec.ofNat 64 h))))) ∧
  (∀ ic n s va u w bs ws, readOne s ic (va % 2 ^ 64) 4 = .ok (u, bs) → loadProgram ic n u (va + 4) = .ok (w, ws) →
    loadProgram ic (n + 1) s va = .ok (w, BitVec.ofNat 32 (ofLeBytes bs) :: ws)) ∧
  Completes eShstart .shstart (fun ic s => at64 ic ∧ mask s = false) (fun ic s => ic.adv (ic.writeAll s false 0x101#64)) ∧
  (∀ f s ic s' v bs, started eShstart f s = some (ic, s') → at64 ic → mask s' = true → readOne s' ic (ic.u0 true).toNat 64 = .ok (v, bs) →
      startBad (rec512 bs) = false → (freeHandle v.team = none ∨ 4 ≤ shuttleHeld v (s'.team.core / 8)) →
      exec (.shstart f) s = .next (complete (ic.adv (ic.writeAll v false 0x100#64)))) ∧
  (∀ f s ic s' v bs, started eShstart f s = some (ic, s') → at64 ic → mask s' = true → readOne s' ic (ic.u0 true).toNat 64 = .ok (v, bs) →
      startBad (rec512 bs) = true →
      exec (.shstart f) s = .next (enterTrap s f s.m.cursor (lenBytes f) (activeLanes s f) (shape shShrec))) ∧
  Traps eShstart .shstart (fun ic _ => ¬at64 ic) (fun _ => alignTrap) ∧
  (∀ (t : Team) h, freeHandle t = some h → h < 4 ∧ (∀ c ∈ teamShs t, c.handle ≠ h) ∧ ∀ g, g < h → ∃ c ∈ teamShs t, c.handle = g) ∧
  (∀ st, Completes eShwait .shwait (fun ic _ => ic.old = some (.shuttleDone st)) fun ic s => ic.adv (ic.writeAll s false st)) ∧
  Completes eShwait .shwait (fun ic s => (∀ st, ic.old ≠ some (.shuttleDone st)) ∧ ctxAt ic s = none)
    (fun ic s => ic.adv (ic.writeAll s false 0#64)) ∧
  Sleeps eShwait .shwait (fun ic s => (∀ st, ic.old ≠ some (.shuttleDone st)) ∧ ∃ c, ctxAt ic s = some c ∧ c.phase = .running)
    (fun ic => .shuttle (hd ic)) ∧
  (∀ c, Completes eShwait .shwait (fun ic s => (∀ st, ic.old ≠ some (.shuttleDone st)) ∧ ctxAt ic s = some c ∧ c.phase = .ended)
    fun ic s => ic.adv (ic.writeAll (tellWaiters (dropSh s c.id) (hd ic) (shStatus c)) false (shStatus c))) ∧
  Sleeps eShwait .shwait (fun ic s => (∀ st, ic.old ≠ some (.shuttleDone st)) ∧ ∃ c, ctxAt ic s = some c ∧ c.phase = .faulted)
    (fun ic => .shuttle (hd ic)) ∧
  (∀ f s c, let act := activeLanes s f
    s.m.wait = none → eShwait.s0.nameOk (nameReader s.m) f f.s0 = true → (teamShs s.team).find? (fun c => c.handle ==
      (peekBits eShwait f s false (lowestLane act)).toNat % 4) = some c → c.phase = .faulted →
    shuttleFault eShwait f s act = if shTaken s c.id then none else some (shTrap act c)) ∧
  Completes eCfix .cfix
    (fun ic s => s.team.width = 32 ∧ fixOff ic % 4 = 0 ∧ fixOff ic + 128 ≤ s.team.share ∧ spadLost s.team (fixWords ic) = none ∧
      ic.waitWords s (fixWords ic) true = none)
    (fun ic s => ic.adv (ic.write { s with team := mendWords s.team (fixWords ic) } false fun l => BitVec.ofNat 64 (
      if l = 31 ∨ carryKind ((entries ic s).getD (l + 1) 0#32) ≠ 1 then (running ic s).getD l 0 else cfixId (op ic)))) ∧
  Traps eCfix .cfix (fun _ s => s.team.width ≠ 32) (fun _ => emuTrap .width) ∧
  Traps eCfix .cfix (fun ic s => s.team.width = 32 ∧ fixOff ic % 4 ≠ 0) (fun _ => alignTrap) ∧
  (∀ o e v r x, cfixRun o ((e, v) :: r) x =
    (if carryKind e = 1 then cfixOp o x v else v) :: cfixRun o r (if carryKind e = 1 then cfixOp o x v else v)) ∧
  ∀ x y, cfixOp 1 x y = (x + y) % 2 ^ 32

/-! ## The fabric -/

/-- Messages, collectives and accesses of the fabric (R500 to R506): `XSEND` gives a message to the channel of its target, or to the fabric, and
sleeps while the channel is full or the remote one has not accepted it (statuses and their fields as in log 71); `XRECV` stores the oldest message
of its channel up to its capacity and sleeps where there is none; `XRED` gives its contribution and sleeps, and its lanes take the tree of the
ranks' values (one rank's as it is, log 113) once every rank has given one; what sends leaves the L1 clean, and what receives leaves it empty; a
peer's store reaches memory through the second stage, its atomic acts there in one step on what the cores have stored, its load leaves no value,
and one that the second stage or the grants refuse, or that reaches past 2^40, has no effect (log 72), nor has an atomic one on a lost granule
(log 128); a link goes down at the sixteenth failed replay in a row. -/
def Obligations.Fabric : Prop :=
  let dst (ic : Ic) : Nat := fld (ic.u0 false) 6 0
  let part (ic : Ic) : Nat := fld (ic.u0 false) 10 8
  let chan (ic : Ic) : Nat := fld (ic.u0 false) 15 12
  let n (ic : Ic) : Nat := (lo32 (ic.u2 false)).toNat
  let sends (ic : Ic) (s : State) : Prop :=
    s.team.width = 32 ∧ fld (ic.u0 false) 31 16 = 0 ∧ bit (ic.u0 false) 11 = false ∧ bit (ic.u0 false) 7 = false ∧ 4 ≤ n ic ∧ n ic ≤ 4096 ∧
      n ic % 4 = 0 ∧ (ic.u1 true).toNat % 4 = 0
  let src (ic : Ic) (s : State) : Except Act (State × List Byte) := readWords ic (n ic / 4) (ic.u1 true).toNat s
  let after (ic : Ic) (s : State) (x : Dword) : Out := .next (complete (ic.adv (setXstat ic s x)))
  let rchan (ic : Ic) : Nat := fld (ic.u0 false) 3 0
  let recvs (ic : Ic) (s : State) : Prop := s.team.width = 32 ∧ (ic.u1 true).toNat % 4 = 0 ∧ n ic % 4 = 0 ∧ n ic ≤ 4096
  let grp (ic : Ic) : Nat := fld (ic.u1 false) 3 0
  let unsent (ic : Ic) : Prop := ic.old ≠ some .sent ∧ ic.old ≠ some .sentDone
  let fresh (ic : Ic) : Prop := ic.old ≠ some .xred ∧ ∀ st ws, ic.old ≠ some (.xredDone st ws)
  (∀ f s ic s' v bytes, started eXsend f s = some (ic, s') → unsent ic → sends ic s' → src ic s' = .ok (v, bytes) →
    (routed v (dst ic) (part ic) = false → exec (.xsend f) s = after ic (lateLast eXsend ic v) (xstatOf v 2 0 0 0)) ∧
    (routed v (dst ic) (part ic) = true → dst ic ≠ v.part.devId → exec (.xsend f) s =
      (let u := l1Clean v
       .next { u with
         part := { u.part with outgoing := u.part.outgoing ++
           [{ sender := u.m.id, dev := dst ic, part := part ic, chan := chan ic, bytes := bytes }] }
         m := { u.m with wait := some .sent } })) ∧
    (∀ p, routed v (dst ic) (part ic) = true → dst ic = v.part.devId → partOf v (part ic) = some p →
      ((p.xchans.getD (chan ic) []).length < 16 →
        exec (.xsend f) s =
          (let u := onPart (l1Clean v) (part ic) fun p => putMessage p (chan ic) { dev := v.part.devId, part := v.part.num, bytes := bytes }
           after ic (lateLast eXsend ic u) (xstatOf u 0 0 0 0))) ∧
      (16 ≤ (p.xchans.getD (chan ic) []).length →
        exec (.xsend f) s = .next { s with m := { s.m with wait := some .fabric } }))) ∧
  Sleeps eXsend .xsend (fun ic _ => ic.old = some .sent) (fun _ => .sent) ∧
  Completes eXsend .xsend (fun ic _ => ic.old = some .sentDone)
    (fun ic s => ic.adv (setXstat ic (lateLast eXsend ic s) (xstatOf s 0 0 0 0))) ∧
  (∀ ic n va s u bs w r, readOne s ic (va % 2 ^ 64) 4 = .ok (u, bs) → readWords ic n (va + 4) u = .ok (w, r) →
    readWords ic (n + 1) va s = .ok (w, bs ++ r)) ∧
  (∀ (s : State) n o, s.part.outgoing[n]? = some o → o.sender = s.m.id → s.m.wait = some .sent →
    let t := acceptSent s n
    t.m.wait = some .sentDone ∧ t.part.outgoing = s.part.outgoing.eraseIdx n ∧ t.mem = s.mem ∧ t.m.rf = s.m.rf ∧
      ∀ r, s.mod.boot = .running → s.part.present = true → s.turns = .peerAccept s.part.num n :: r →
        step s = counted (.next (acceptSent { s with turns := r } n))) ∧
  Traps eXsend .xsend (fun ic s => unsent ic ∧ s.team.width ≠ 32) (fun _ => emuTrap .width) ∧
  Traps eXsend .xsend (fun ic s => unsent ic ∧ s.team.width = 32 ∧ (n ic < 4 ∨ 4096 < n ic ∨ n ic % 4 ≠ 0 ∨ (ic.u1 true).toNat % 4 ≠ 0))
    (fun _ => shape shGeom) ∧
  (∀ f s ic s' m rest ls, started eXrecv f s = some (ic, s') → recvs ic s' → s'.part.xchans.getD (rchan ic) [] = m :: rest →
    resolveWords s' ic .write (ic.u1 true).toNat (min m.bytes.length (n ic) / 4) = .ok ls →
    exec (.xrecv f) s =
      (let u := passWords (min m.bytes.length (n ic) / 4) (ic.u1 true).toNat ls (l1Flush s')
       let t := writeLocs u ls (m.bytes.take (min m.bytes.length (n ic)))
       let t := { t with part := { t.part with xchans := t.part.xchans.set (rchan ic) rest } }
       after ic t (xstatOf t (if n ic < m.bytes.length then 1 else 0) m.dev m.part (min m.bytes.length (n ic))))) ∧
  Sleeps eXrecv .xrecv (fun ic s => recvs ic s ∧ s.part.xchans.getD (rchan ic) [] = []) (fun _ => .fabric) ∧
  (∀ f s ic s' g, started eXred f s = some (ic, s') → fresh ic → s'.team.width = 32 → groupOf s' (grp ic) = some g → g.mine = none →
    exec (.xred f) s = .next (
      let c : XContribution :=
        { rank := g.rank, op := BitVec.ofNat 3 (modBits f 2 0), values := (List.range 32).map (xredBits ic (modBits f 2 0))
          active := hwMask ic.act 0, reachable := true }
      let t := setGroup (l1Clean s') { g with mine := some c, issuer := s'.m.id }
      { t with m := { t.m with wait := some .xred } })) ∧
  (∀ st ws, Completes eXred .xred (fun ic _ => ic.old = some (.xredDone st ws)) fun ic s =>
    ic.adv (let u := lateLast eXred ic (l1Flush s)
      let t := { u with m := { u.m with xstat := xstatOf u st 0 0 0 } }
      if st = 0 then ic.write t false fun l => (ws.getD l 0#32).setWidth 64 else t)) ∧
  Sleeps eXred .xred (fun ic _ => ic.old = some .xred) (fun _ => .xred) ∧
  Sleeps eXred .xred (fun ic s => fresh ic ∧ s.team.width = 32 ∧ ∃ g, groupOf s (grp ic) = some g ∧ g.mine ≠ none) (fun _ => .fabric) ∧
  Completes eXred .xred (fun ic s => fresh ic ∧ s.team.width = 32 ∧ groupOf s (grp ic) = none)
    (fun ic s => let u := lateLast eXred ic s
      ic.adv { u with m := { u.m with xstat := xstatOf u 4 0 0 0 } }) ∧
  (∀ (s : State) (k : BitVec 4) rs g mine, groupOf s k.toNat = some g → g.mine = some mine →
    (∀ r, r < g.ranks → r ≠ g.rank → (rs.filter fun c => c.rank == r).length = 1) →
    let cs := mine :: rs.filter fun c => decide (c.rank < g.ranks) && c.rank != g.rank
    let done (w : Wait) : Out := .next (onAnyMember (setGroup s { g with mine := none }) g.issuer (answerSleep .xred w))
    ((∀ c ∈ cs, c.reachable = true) → (∀ c ∈ cs, c.op = mine.op) →
      exec (.xredComplete k rs) s = done (.xredDone 0 ((List.range 32).map (xredLane mine.op.toNat g.ranks cs)))) ∧
    ((∃ c ∈ cs, c.reachable = false) → exec (.xredComplete k rs) s = done (.xredDone 2 [])) ∧
    ((∀ c ∈ cs, c.reachable = true) → (∃ c ∈ cs, c.op ≠ mine.op) → exec (.xredComplete k rs) s = done (.xredDone 3 []))) ∧
  (∀ op a b c d l, a.rank = 0 → b.rank = 1 → c.rank = 2 → d.rank = 3 →
    (let v (x : XContribution) : Word := if x.active.getLsbD l then x.values.getD l 0#32 else xredIdent op
     xredLane op 4 [b, a, d, c] l = xredPair op (xredPair op (v a) (v b)) (xredPair op (v c) (v d)) ∧
       xredLane op 3 [b, a, c] l = xredPair op (xredPair op (v a) (v b)) (xredPair op (v c) (xredIdent op)) ∧
       xredLane op 2 [b, a] l = xredPair op (v a) (v b))) ∧
  (∀ (s : State) (k : BitVec 4) (dev : BitVec 7) (sp : BitVec 3) bytes, s.part.present = true → 4 ≤ bytes.length → bytes.length ≤ 4096 →
    bytes.length % 4 = 0 →
    ((s.part.xchans.getD k.toNat []).length < 16 → exec (.fabricMessageArrival k dev sp bytes) s =
      .next { s with part := putMessage s.part k.toNat { dev := dev.toNat, part := sp.toNat, bytes := bytes } }) ∧
    (16 ≤ (s.part.xchans.getD k.toNat []).length → exec (.fabricMessageArrival k dev sp bytes) s = .next s)) ∧
  (∀ (s : State) a, 2 ^ 40 < a.poff.toNat + peerSize a.op → s.part.present = true → s.part.num = a.partNo.toNat →
    exec (.fabricAccess a) s = .next s) ∧
  (∀ (s : State) a, s.part.present = true → s.part.num = a.partNo.toNat → a.poff.toNat + peerSize a.op ≤ 2 ^ 40 →
    (∀ x, a.op = .load x → ∃ l2, exec (.fabricAccess a) s = .next { s with part := { s.part with l2 := l2 } }) ∧
    (∀ bytes ls, a.op = .store bytes → outsidePlaces s .write a.poff.toNat bytes.length = some ls → ownedAny s ls = false →
      exec (.fabricAccess a) s = .next (engineWriteLocs s ls bytes)) ∧
    (∀ bytes, a.op = .store bytes → outsidePlaces s .write a.poff.toNat bytes.length = none → exec (.fabricAccess a) s = .next s) ∧
    (∀ op ty x ls, a.op = .atomic op ty x → ty.toNat ∈ atomTypes op.toNat →
      let n := tyWidth ty.toNat / 8
      a.poff.toNat % n = 0 → outsidePlaces s .rmw a.poff.toNat n = some ls → ownedAny s ls = false →
      ((∀ p ∈ ls, lostHome s p = false) → exec (.fabricAccess a) s =
        .next (let u := homeClean s ls
          engineWriteLocs u ls (leBytes n (atomOp op.toNat ty.toNat (ofLeBytes (ls.map (homeByte u))) x.toNat)))) ∧
      ((∃ p ∈ ls, lostHome s p = true) → exec (.fabricAccess a) s = .next s)) ∧
    ∀ wide x y ls, a.op = .cas wide x y →
      let n := if wide then 8 else 4
      a.poff.toNat % n = 0 → outsidePlaces s .rmw a.poff.toNat n = some ls → ownedAny s ls = false →
      let u := homeClean s ls
      ((∃ p ∈ ls, lostHome s p = true) → exec (.fabricAccess a) s = .next s) ∧
      ((∀ p ∈ ls, lostHome s p = false) → ofLeBytes (ls.map (homeByte u)) = x.toNat % 2 ^ (8 * n) →
        exec (.fabricAccess a) s = .next (engineWriteLocs u ls (leBytes n (y.toNat % 2 ^ (8 * n))))) ∧
      ((∀ p ∈ ls, lostHome s p = false) → ofLeBytes (ls.map (homeByte u)) ≠ x.toNat % 2 ^ (8 * n) →
        ∃ l2, exec (.fabricAccess a) s = .next { u with part := { u.part with l2 := l2 } })) ∧
  ∀ (s : State) (l : BitVec 5), s.mod.linksDown.getLsbD l.toNat = false →
    let k := (lookupKey l.toNat s.mod.replays).getD 0
    (k < 15 → ∃ t, exec (.fabricReplay l true) s = .next t ∧ t.mod.linksDown = s.mod.linksDown ∧
      lookupKey l.toNat t.mod.replays = some (k + 1)) ∧
    (15 ≤ k → ∃ t, exec (.fabricReplay l true) s = .next t ∧ t.mod.linksDown.getLsbD l.toNat = true ∧
      ∀ j, j ≠ l.toNat → t.mod.linksDown.getLsbD j = s.mod.linksDown.getLsbD j) ∧
    ∃ t, exec (.fabricReplay l false) s = .next t ∧ t.mod.linksDown = s.mod.linksDown ∧ lookupKey l.toNat t.mod.replays = none

/-! ## The interrupted context -/

/-- What a handler does with the context that it interrupts (R439, R440, R454 to R457, R461 to R464): `OWR` reads and `OWW` writes an operand of
the interrupted window, and BOUND with cause OWIN refuses both outside every frame, a selector outside an EMU frame, a register number past the
interrupted budget or count or past the range of its names, and an offset on another name; `EMUSET` changes a vector and answers the old one;
`CTXSAVE` stores the image of its windows, which it reads as any instruction does (R114) and whose size is that of R454, and goes to the emulation
handler outside every frame; `CTXREST` restores one; `PRDONE` stops its wave at its resume point, or lets it go on where no save is pending (log
69), and has no effect outside a PRE handler. -/
def Obligations.InterruptedContext : Prop :=
  let x (ic : Ic) (o : Operand) (l : Nat) : Dword := moveTo o (ic.srcD false (ic.at l))
  let point (ic : Ic) : Option Dword := if ic.opnd ic.f.s0 = .none then none else some (ic.u0 true)
  let off (ic : Ic) : Nat := (lo32 (ic.u1 false)).toNat
  let named (f : Fields) (fr : Frame) (nm : Name) : Prop := (modBits f 2 0 = 4 ∧ nm = f.s0) ∨
    (modBits f 2 0 ≠ 4 ∧ fr.cls = cEmu ∧ nm = (fr.bank.getD (10 + modBits f 2 0) 0#64).setWidth 9)
  let outside (fr : Frame) (n : Nat) (o : Operand) : Prop := match o with
    | .v r => fr.rf.budget ≤ r + n
    | .k r => max fr.rf.unif 1 ≤ r + n
    | .q r => 16 ≤ r + n
    | .p r => 8 ≤ r + n
    | _ => n ≠ 0
  (∀ f s ic s' o, started eOwr f s = some (ic, s') → owOperand ic s' = .ok o → (∀ r, o ≠ .v r) → (∀ q, o ≠ .q q) → owBad s' o = false →
    exec (.owr f) s = .next (complete (ic.adv (ic.write s' false fun l => moveTo (ic.opnd f.dst) (owValue s' o [] (ic.at l)))))) ∧
  (∀ f s ic s' r u, started eOwr f s = some (ic, s') → owOperand ic s' = .ok (.v r) →
    refillBelow s' r (if ic.uni then [ic.lane / 32] else hwsOf s' ic.act) = .ok u →
    exec (.owr f) s = .next (complete (ic.adv (ic.write u false fun l => moveTo (ic.opnd f.dst) (owValue u (.v r) [] (ic.at l)))))) ∧
  (∀ f s ic s' q ws u, started eOwr f s = some (ic, s') → owOperand ic s' = .ok (.q q) → owPop ic s' q = .ok (ws, u) →
    exec (.owr f) s = .next (complete (ic.adv (ic.write u false fun l => moveTo (ic.opnd f.dst) (owValue u (.q q) ws (ic.at l)))))) ∧
  (∀ f s ic s' r, started eOww f s = some (ic, s') → owOperand ic s' = .ok (.k r) →
    exec (.oww f) s = .next (complete (ic.adv (setWin s' 1 (putK (below s') r (x ic (.k r) ic.lane)))))) ∧
  (∀ f s ic s' r, started eOww f s = some (ic, s') → owOperand ic s' = .ok (.p r) →
    exec (.oww f) s = .next (complete (ic.adv
      (if r = 7 then s' else setWin s' 1 (putP (below s') r ic.act (maskOf ic.n fun l => x ic (.p r) l != 0#64)))))) ∧
  (∀ f s ic s' r u, started eOww f s = some (ic, s') → owOperand ic s' = .ok (.v r) →
    (let act := if modBits f 3 3 = 1 then s'.m.live else ic.act
     (hwsOf s' act).foldlM (fun s h => openReg s 1 [r] r h) s' = .ok u →
     exec (.oww f) s = .next (complete (ic.adv
       (setWin u 1 (writeV { u with m := { u.m with rf := below u } } r act fun l => lo32 (x ic (.v r) l)).m.rf))))) ∧
  (∀ f s ic s' q, started eOww f s = some (ic, s') → owOperand ic s' = .ok (.q q) → s'.team.qset = true → s'.team.width = 32 →
    (s'.team.queues.getD q []).length < 8 →
    exec (.oww f) s = .next (complete (ic.adv (pushQueue s' q (.data (ic.entry fun l => lo32 (x ic (.q q) l))))))) ∧
  (∀ f s ic s' n, started eOww f s = some (ic, s') → owOperand ic s' = .ok (.special n) → exec (.oww f) s = .next (complete (ic.adv s'))) ∧
  (∀ (e : Entry) (i : Fields → Instr), (e = eOwr ∧ i = .owr) ∨ (e = eOww ∧ i = .oww) →
    Traps e i (fun _ s => s.m.frames = []) (fun _ => bound bOwin) ∧
    ∀ fr, Traps e i (fun ic s => s.m.frames.head? = some fr ∧ modBits ic.f 2 0 ≠ 4 ∧ fr.cls ≠ cEmu) (fun _ => bound bOwin) ∧
      ∀ nm, Traps e i (fun ic s => s.m.frames.head? = some fr ∧ named ic.f fr nm ∧ outside fr (off ic) (operandOf nm)) fun _ => bound bOwin) ∧
  (∀ ic (s : State) fr nm, s.m.frames.head? = some fr → named ic.f fr nm → ¬outside fr (off ic) (operandOf nm) →
    fr.rf.budget ≤ 256 → fr.rf.unif ≤ 64 →
    owOperand ic s = .ok (match operandOf nm with
      | .v r => .v (r + off ic) | .k r => .k (r + off ic) | .q r => .q (r + off ic) | .p r => .p (r + off ic) | o => o)) ∧
  (∀ (s : State) fr fs r y, s.m.frames = fr :: fs → r < fr.rf.kregs.length →
    (setWin s 1 (putK (below s) r y)).m.rf = s.m.rf ∧
      ∃ fr', (setWin s 1 (putK (below s) r y)).m.frames = fr' :: fs ∧ kReg fr'.rf r = y ∧ fr'.rf.vregs = fr.rf.vregs ∧
        fr'.rf.preds = fr.rf.preds ∧ fr'.bank = fr.bank ∧ ∀ j, j ≠ r → kReg fr'.rf j = kReg fr.rf j) ∧
  Completes eEmuset .emuset (fun ic _ => aligned4 (ic.u0 true) = true ∧ fld (ic.u0 true) 63 48 = 0 ∧ modBits ic.f 0 0 = 0)
    (fun ic s => ic.adv (ic.writeAll { s with ctx := { s.ctx with emuVec := ic.u0 true } } false s.ctx.emuVec)) ∧
  Completes eEmuset .emuset (fun ic _ => aligned4 (ic.u0 true) = true ∧ fld (ic.u0 true) 63 48 = 0 ∧ modBits ic.f 0 0 = 1)
    (fun ic s => ic.adv (ic.writeAll { s with ctx := { s.ctx with trapVec := ic.u0 true } } false s.ctx.trapVec)) ∧
  Traps eEmuset .emuset (fun ic _ => aligned4 (ic.u0 true) = false) (fun _ => alignTrap) ∧
  Traps eEmuset .emuset (fun ic _ => aligned4 (ic.u0 true) = true ∧ fld (ic.u0 true) 63 48 ≠ 0) (fun _ => shape shVec) ∧
  (∀ f s ic s' fr below u v, started eCtxsave f s = some (ic, s') → splitFrames s'.m.frames = some (fr, below) → memberPriv s' = true →
    (ic.u0 true).toNat % 128 = 0 → (imageWins s' below).foldlM readWin s' = .ok v →
    putImage ic ((imageBytes v fr below).length / 128) (ic.u0 true).toNat (imageBytes v fr below) v = (u, none) →
    exec (.ctxsave f) s = .next (complete (ic.adv (ic.writeAll u false (BitVec.ofNat 64 (imageBytes v fr below).length))))) ∧
  (∀ f s ic s' fr below tr, started eCtxsave f s = some (ic, s') → splitFrames s'.m.frames = some (fr, below) → memberPriv s' = true →
    (ic.u0 true).toNat % 128 = 0 → (imageWins s' below).foldlM readWin s' = .error tr →
    tr.cls = cRas ∧ exec (.ctxsave f) s = .next (enterTrap s f s.m.cursor (lenBytes f) (activeLanes s f) tr)) ∧
  Traps eCtxsave .ctxsave (fun ic s => s.m.frames ≠ [] ∧ memberPriv s = true ∧ (ic.u0 true).toNat % 128 ≠ 0) (fun _ => alignTrap) ∧
  Traps eCtxsave .ctxsave (fun _ s => s.m.frames = []) (fun _ => emuTrap .priv) ∧
  Traps eCtxsave .ctxsave (fun _ s => s.m.frames ≠ [] ∧ memberPriv s = false) (fun _ => emuTrap .priv) ∧
  (∀ s fr (below : List Frame), (∀ g ∈ below, g.sup = false) → (imageBytes s fr below).length =
    imgSize (nLanes s) (s.m.stack.drop (s.m.stack.length - fr.mark)).length (programLevel below (levelOf fr)).rf.budget (nHw s) below.length) ∧
  (∀ f s ic s' fr fs u hb v bs, started eCtxrest f s = some (ic, s') → s'.m.frames = fr :: fs → fr.sup = true → (ic.u0 true).toNat % 128 = 0 →
    getImage ic 8 (ic.u0 true).toNat s' = .ok (u, hb) →
    (let h : Header := BitVec.ofNat 8192 (ofLeBytes hb)
     let size := imgSize (nLanes u) (imgDepth h) (imgBudget h) (nHw u) (imgCount h)
     headerBad u h = false → getImage ic (size / 128) (ic.u0 true).toNat u = .ok (v, bs) →
     exec (.ctxrest f) s = .next (complete (ic.adv (ic.writeAll (restoreImage v fr h bs) false (BitVec.ofNat 64 size)))))) ∧
  (∀ f s ic s' fr fs u hb, started eCtxrest f s = some (ic, s') → s'.m.frames = fr :: fs → fr.sup = true → (ic.u0 true).toNat % 128 = 0 →
    getImage ic 8 (ic.u0 true).toNat s' = .ok (u, hb) → headerBad u (BitVec.ofNat 8192 (ofLeBytes hb)) = true →
    exec (.ctxrest f) s = .next (enterTrap s f s.m.cursor (lenBytes f) (activeLanes s f) (shape shImg))) ∧
  Traps eCtxrest .ctxrest (fun _ s => ∀ fr ∈ s.m.frames.head?, fr.sup = false) (fun _ => emuTrap .priv) ∧
  Traps ePrdone .prdone (fun ic s => s.m.pre.phase = .handling ∧ s.m.frames = [] ∧ ((point ic).getD 0#64).toNat % 4 ≠ 0) (fun _ => alignTrap) ∧
  Completes ePrdone .prdone
    (fun _ s => s.m.pre.phase ≠ .handling ∨ s.m.frames ≠ []) (fun ic s => ic.adv s) ∧
  Completes ePrdone .prdone
    (fun ic s => ((point ic).getD 0#64).toNat % 4 = 0 ∧ s.m.pre.phase = .handling ∧ s.m.frames = [] ∧ s.team.preReq = true)
    (fun ic s => let t := setResume s (point ic)
      { t with m := { t.m with status := .stopped, pre := { t.m.pre with phase := .done } } }) ∧
  Completes ePrdone .prdone
    (fun ic s => ((point ic).getD 0#64).toNat % 4 = 0 ∧ s.m.pre.phase = .handling ∧ s.m.frames = [] ∧ s.team.preReq = false ∧
      (point ic ≠ none ∨ s.m.pre.wait = none))
    (fun ic s => let t := setResume s (point ic)
      { t with m := { t.m with pre := {} } }) ∧
  ∀ (s : State) a, (setResume s (some a)).m.cursor = a ∧ (setResume s (some a)).m.exec = s.m.live ∧ (setResume s (some a)).m.stack = [] ∧
    (setResume s none).m.cursor = s.m.pre.pc ∧ (setResume s none).m.exec = s.m.pre.exec &&& s.m.live ∧
    (setResume s none).m.stack = s.m.pre.stack

/-! ## Launches, binding and pre-emption -/

/-- A launch from its packet to its completion entry (R79, R85, R421 to R425): a packet stands in the command ring of its function, whose packets
are taken in order up to one whose handles find no room; a taken packet of a live context joins the launches of its partition, with BADREC where
it is malformed (rings of a model's size, log 76); a launch that nothing holds back passes the checks of its record and descriptor in the order of
log 67, behind those that are ready, or fails, and an uncorrectable error in its descriptor ends its context with status RAS (log 127); one that
R247 orders after others finds the second-level cache written back and empty as it becomes ready (log 97); and a launch whose teams have ended, or
that failed, completes: its entry stands in the completion ring of its function, DONEDC is counted down, and the command rings are looked at
again. -/
def Obligations.LaunchLifecycle : Prop :=
  let rec512 (b : List Byte) : BitVec 512 := BitVec.ofNat 512 (fld (BitVec.ofNat 1024 (ofLeBytes b)) 511 0)
  let pkt (b : List Byte) : BitVec 1024 := BitVec.ofNat 1024 (ofLeBytes b)
  let handles (b : List Byte) : List (Nat × Nat) := handleModes ((packetHandles (pkt b)).take (fld (pkt b) 514 512))
  let room (s : State) (b : List Byte) : Prop := (liveHandles s.part.launches ++ (handles b).map (·.1)).eraseDups.length ≤ 4096
  let entry (l : Launch) (st : Nat) : BitVec 128 :=
    BitVec.ofNat 128 ((l.last - l.first) % 2 ^ 64 * 2 ^ 64 + st * 2 ^ 32 + l.cookie.toNat)
  (∀ (s : State) (port : BitVec 1) (n : BitVec 3) (c : BitVec 16) b, s.part.present = true → s.part.num = n.toNat → b.length = 128 →
    let r := cmdRing s port.toNat
    (r.tail - r.taken < 2 ^ r.bits → exec (.launchPacket port n c b) s = .next (drainRings (setCmdRing s port.toNat
      { r with slots := insertKey (r.tail % 2 ^ r.bits) (c.toNat, b) r.slots, tail := r.tail + 1 }))) ∧
    (2 ^ r.bits ≤ r.tail - r.taken → exec (.launchPacket port n c b) s = .next s)) ∧
  (∀ n port s,
    let r := cmdRing s port
    (r.taken = r.tail → drainRing port n s = s) ∧
    ∀ c b, r.taken ≠ r.tail → lookupKey (r.taken % 2 ^ r.bits) r.slots = some (c, b) →
      (takePacket s port c b = none → drainRing port n s = s) ∧
      ∀ u, takePacket s port c b = some u → drainRing port (n + 1) s =
        drainRing port n (setCmdRing u port { r with taken := r.taken + 1, slots := eraseKey (r.taken % 2 ^ r.bits) r.slots })) ∧
  (∀ (s : State) port c b,
    (packetBad (pkt b) = true → ∃ t l, takePacket s port c b = some t ∧ t.part.launches = s.part.launches ++ [l] ∧
      l.phase = .failed 4 ∧ l.cookie.toNat = fld (pkt b) 575 544 ∧ t.mem = s.mem) ∧
    (packetBad (pkt b) = false → launchCtxLive s c = true → room s b →
      ∃ t l, takePacket s port c b = some t ∧ t.part.launches = s.part.launches ++ [l] ∧ l.phase = .held ∧
        l.record = rec512 b ∧ l.ctx = c ∧ l.port = port ∧ l.prio = fld (pkt b) 517 515 ∧ l.cookie.toNat = fld (pkt b) 575 544 ∧
        l.handles = handles b ∧ l.after = (((handles b).map fun h => orderedAfter s.part.launches h.1 h.2).flatten).eraseDups ∧
        l.started = 0 ∧ l.ended = 0 ∧ t.mem = s.mem) ∧
    (packetBad (pkt b) = false → launchCtxLive s c = true → ¬room s b → takePacket s port c b = none)) ∧
  (∀ (s : State) l, launchById s l.id = some l → l.phase = .held → l.released = true →
    (∀ a ∈ l.after, ∀ o ∈ s.part.launches, o.id = a → o.phase = .done) → s.ctx.alive = true → s.ctx.id = l.ctx → s.ctx.part = s.part.num →
    (launchCheck s l = .ready → exec (.launchReady l.id) s = .next (becomeReady s l)) ∧
    (launchCheck s l ≠ .ready → launchCheck s l ≠ .failed 5 →
      exec (.launchReady l.id) s = .next (onLaunch s l.id fun o => { o with phase := launchCheck s l })) ∧
    (launchCheck s l = .failed 5 →
      exec (.launchReady l.id) s = .next (endContext (parkTeam (onLaunch s l.id fun o => { o with phase := .failed 5 })) 5))) ∧
  (∀ (s : State) l, launchById s l.id = some l →
    (∀ o ∈ (becomeReady s l).part.launches, o.id = l.id → o.phase = .ready ∧ o.order = s.part.readyClock) ∧
    (becomeReady s l).part.readyClock = s.part.readyClock + 1 ∧
    (l.after = [] → (becomeReady s l).mem = s.mem) ∧ (l.after ≠ [] → (becomeReady s l).part.l2 = [])) ∧
  (∀ (s : State) l a, launchById s l.id = some l → (l.phase ≠ .held ∨ l.released = false ∨
    (a ∈ l.after ∧ ∃ o ∈ s.part.launches, o.id = a ∧ o.phase ≠ .done)) → exec (.launchReady l.id) s = .next s) ∧
  (∀ (s : State) l,
    let g := gridTeams l.record
    (lnReserved l.record = true → launchCheck s l = .failed 4) ∧
    (lnReserved l.record = false → (g = 0 ∨ 2 ^ 32 < g) → launchCheck s l = .failed 2) ∧
    (lnReserved l.record = false → 0 < g → g ≤ 2 ^ 32 → readKd s (lnKd l.record) = .error false → launchCheck s l = .failed 3) ∧
    (lnReserved l.record = false → 0 < g → g ≤ 2 ^ 32 → readKd s (lnKd l.record) = .error true → launchCheck s l = .failed 5) ∧
    ∀ k, lnReserved l.record = false → 0 < g → g ≤ 2 ^ 32 → readKd s (lnKd l.record) = .ok k →
      (kdBad k = true → launchCheck s l = .failed 3) ∧
      (kdBad k = false → kdOcc k = false → launchCheck s l = .ready) ∧
      (kdBad k = false → kdOcc k = true → fitPart s k true < g → launchCheck s l = .failed 1) ∧
      (kdBad k = false → kdOcc k = true → g ≤ fitPart s k true → fitPart s k false < g → launchCheck s l = .held) ∧
      (kdBad k = false → kdOcc k = true → g ≤ fitPart s k true → g ≤ fitPart s k false → launchCheck s l = .ready)) ∧
  (∀ (s : State) l st, launchById s l.id = some l →
    ((l.phase = .failed st ∧ hasTeams s l.id = false) ∨
      (l.phase = .running ∧ l.ended = gridTeams l.record ∧ hasTeams s l.id = false ∧ st = 0)) →
    let d := s.part.dones.getD l.port {}
    ∃ t, exec (.launchComplete l.id) s = .next (drainRings t) ∧ t.mem = s.mem ∧
      t.part.dones = s.part.dones.set l.port
        { d with slots := insertKey (d.written % 2 ^ d.bits) (entry l st) d.slots, written := d.written + 1 } ∧
      (∀ o ∈ t.part.launches, o.id = l.id → o.phase = .done) ∧
      (lnDoneDcv l.record = true → dcCount t (lnDoneDc l.record) = BitVec.ofNat 32 ((dcCount s (lnDoneDc l.record)).toNat - 1))) ∧
  (∀ s, (drainRings s).mem = s.mem ∧ (drainRings s).part.dones = s.part.dones ∧ ∀ c, dcCount (drainRings s) c = dcCount s c) ∧
  ∀ (s : State) l, launchById s l.id = some l → (l.phase = .held ∨ l.phase = .ready ∨ l.phase = .done ∨
    (l.phase = .running ∧ l.ended ≠ gridTeams l.record)) → exec (.launchComplete l.id) s = .next s

/-- A bind record (R73, R80, R381, R424, R426 to R428): a record that keeps its rules starts the next team of the first ready launch of the highest
level that it fits, whose members stand at ENTRY with every lane in LIVE and EXEC and the launch's argument in k0, on a core whose L1 is empty; or
it resumes the team whose images stand in its area (log 68), on its core; one that breaks a rule is refused with its code and V cleared, COUNT for a
context that is not alive (log 67) and for no launch that it fits (log 66), KD where its descriptor or images cannot be read, which also ends the
context where an uncorrectable error is why (log 127); where no store was allocated the launch fails with NOMEM and there is no
record (R492); and the end of the last member frees the
team's core, writes the lines of its L1 back, and counts the team as ended. -/
def Obligations.BindingAndEnd : Prop :=
  let picked (s : State) (c : Nat) (r : BindRec) (p : Partition) : State :=
    pickCtx (pickCluster (pickPart (pickCore (parkTeam s) c) p.num) (c / 8)) p.num (recCtx r)
  let slotFree (s : State) (c n : Nat) : Prop := ∀ r, lookupKey n (coreOf s c).recs = some r → brValid r = false
  let refused (s : State) (i : Instr) (n code : Nat) : Prop :=
    ∃ t r, exec i s = .next t ∧ lookupKey n t.core.recs = some r ∧ fld r 255 248 = code ∧ brValid r = false ∧ t.mem = s.mem
  let accepted (t : State) (n : Nat) : Prop := ∃ r, lookupKey n t.core.recs = some r ∧ brValid r = true ∧ fld r 255 248 = 0
  let fits (r : BindRec) (l : Launch) : Prop := lnKd l.record = brKd r ∧ l.ctx = recCtx r ∧ (l.phase = .ready ∨ l.phase = .running) ∧
    l.started = brTeamId r ∧ l.started < gridTeams l.record
  (∀ (s : State) r l, launchFor s r = some l → l ∈ s.part.launches ∧ fits r l ∧
    ∀ o ∈ s.part.launches, fits r o → o.prio < l.prio ∨ (o.prio = l.prio ∧ l.order ≤ o.order)) ∧
  (∀ (s : State) (core : BitVec 9) (slot : BitVec 5) (rec : BitVec 256) stores,
    let c := core.toNat
    let n := slot.toNat
    let r := setFld rec 0 0 1
    let u := pickCore (parkTeam s) c
    let i : Instr := .bindRecord core slot rec stores
    slotFree s c n →
    (stores = [] → brResume r = false → ∀ p k l, corePart u c = some p → readKd (picked s c r p) (brKd r) = .ok k →
      launchFor (picked s c r p) r = some l →
      exec i s = .next (if kdOcc k = true ∧ l.started ≠ 0 then picked s c r p
        else onLaunch (picked s c r p) l.id fun o => { o with phase := .failed 7 })) ∧
    ((stores ≠ [] ∨ brResume r = true) →
    (brReserved r = true → refused s i n 1) ∧
    (brReserved r = false → (validRecs u.core n).any (overlap r) = true → refused s i n 2) ∧
    (brReserved r = false → (validRecs u.core n).any (overlap r) = false → corePart u c = none → refused s i n 3) ∧
    ∀ p, brReserved r = false → (validRecs u.core n).any (overlap r) = false → corePart u c = some p →
      let v := picked s c r p
      (¬(v.ctx.alive = true ∧ v.ctx.id = recCtx r ∧ v.ctx.part = p.num) → refused s i n 4) ∧
      ((v.ctx.alive = true ∧ v.ctx.id = recCtx r ∧ v.ctx.part = p.num) → brResume r = false →
        (readKd v (brKd r) = .error false → refused s i n 6) ∧
        (readKd v (brKd r) = .error true → exec i s = .next (endContext (parkTeam (putRec v n (refuse r 6))) 5)) ∧
        (∀ k, readKd v (brKd r) = .ok k → launchFor v r = none → refused s i n 4) ∧
        ∀ k l, readKd v (brKd r) = .ok k → launchFor v r = some l → stores ≠ [] →
          (let lines := roundUp (kdScratch k) 128 / 128
           (countsDiffer r (kdCount k 0) (kdAcc k) lines (kdCount k 1) (kdCount k 2) = true → refused s i n 4) ∧
           (countsDiffer r (kdCount k 0) (kdAcc k) lines (kdCount k 1) (kdCount k 2) = false →
             (slotGroups (kdWidth k) (brSlots r) = none → refused s i n 5) ∧
             ∀ gs, slotGroups (kdWidth k) (brSlots r) = some gs → ∃ t tm ms, exec i s = .next t ∧ t.teams = (tm, ms) :: v.teams ∧
               accepted t n ∧ t.core.l1 = [] ∧ t.mem = (l1Flush v).mem ∧
               tm.present = true ∧ tm.teamId.toNat = brTeamId r ∧ tm.core = c ∧ tm.ctx = l.ctx ∧ tm.launch = l.id ∧ tm.width = kdWidth k ∧
               tm.spad = [] ∧ tm.full = [] ∧
               ∀ m ∈ ms, m.cursor = kdEntry k ∧ m.exec = m.live ∧ m.live = allLanes (if m.kind = .wave then kdWidth k else 1) ∧
                 kReg m.rf 0 = BitVec.ofNat 64 (lnArg l.record) ∧ m.status = .running ∧ m.rf.vregs = [] ∧ m.stack = [] ∧ m.frames = []))) ∧
      ((v.ctx.alive = true ∧ v.ctx.id = recCtx r ∧ v.ctx.part = p.num) → brResume r = true →
        (savedTeam v (brKd r) (recCtx r) = .error false → refused s i n 6) ∧
        (savedTeam v (brKd r) (recCtx r) = .error true → exec i s = .next (endContext (parkTeam (putRec v n (refuse r 6))) 5)) ∧
        ∀ tm ms is, savedTeam v (brKd r) (recCtx r) = .ok (tm, ms, is) →
          let differ := countsDiffer r (wavesOf tm) tm.tiles.length (tm.share / 128) (apsOf tm) (mxsOf tm)
          let readable := imagesOk (atSaved v tm ms) is
          (tm.teamId.toNat ≠ brTeamId r ∨ differ = true → refused s i n 4) ∧
          (tm.teamId.toNat = brTeamId r → differ = false →
            (slotGroups tm.width (brSlots r) = none → refused s i n 5) ∧
            ∀ gs, slotGroups tm.width (brSlots r) = some gs →
              (readable = false → refused s i n 6) ∧
              (readable = true → shuttleTakes v (c / 8) tm = false → exec i s = .next v) ∧
              (readable = true → shuttleTakes v (c / 8) tm = true → ms ≠ [] → ∃ t, exec i s = .next t ∧ accepted t n ∧ t.team.id = tm.id ∧
                t.team.core = c ∧ t.team.preReq = false ∧ t.team.ranFrom = s.cycle ∧
                t.part.saved = v.part.saved.filter fun e => e.2.1.id != tm.id))))) ∧
  (∀ (s : State) (core : BitVec 9) (slot : BitVec 5) rec stores r, lookupKey slot.toNat (coreOf s core.toNat).recs = some r →
    brValid r = true → exec (.bindRecord core slot rec stores) s = .next s) ∧
  (∀ s : State, s.team.present = true → unretired (teamMembers s) = [] → s.team.copies = [] → mxBusy s = false →
    ∃ t, exec .teamEnd s = .next t ∧ t.team.present = false ∧ t.peers = [] ∧ t.mem = (l1Clean s).mem ∧ t.teams = s.teams ∧
      t.part.launches = s.part.launches.map (fun l => if l.id = s.team.launch then { l with ended := l.ended + 1, last := s.cycle } else l) ∧
      ∀ o ∈ t.core.mxq, o.team ≠ s.team.id) ∧
  ∀ s : State, (s.team.present = false ∨ unretired (teamMembers s) ≠ [] ∨ s.team.copies ≠ [] ∨ mxBusy s = true) →
    exec .teamEnd s = .next s

/-- Pre-emption (R430 to R434, R437, R439): a quantum that has run out is told once in each residence; a request marks the record, the team and the
waves that run, which take PRE at a boundary with the handler's address, LIVE for EXEC and an empty stack; once every wave has ended its handler the
team is saved to its area (an operand, log 99) without its scratchpad, and a team without a handler, or one that is late by 94,000 steps (logs 3 and
69), is saved whole once its copies have completed or suspended (log 69); a code block is cached, and the cache holds at most 8192 (log 122). -/
def Obligations.Preemption : Prop :=
  let quantum (s : State) : Nat := brQuantum s.team.bindrec * 1024
  let ended (m : Member) : Prop := m.kind ≠ .wave ∨ m.status = .retired ∨ m.pre.phase = .done
  let late (s : State) (m : Member) : Prop :=
    m.kind = .wave ∧ m.status ≠ .retired ∧ m.pre.phase = .handling ∧ m.pre.since + 94000 ≤ s.cycle
  let saved (s t : State) (area : Nat) (whole cut : Bool) : Prop :=
    ∃ tm ms, t.part.saved = s.part.saved ++ [(area, tm, ms)] ∧
      ms.length = (teamMembers s).length ∧ (∀ m ∈ ms, m.slots = []) ∧ tm.id = s.team.id ∧
      (if whole then tm.spad = s.team.spad ∧ tm.full = s.team.full else tm.spad = [] ∧ tm.full = []) ∧
      fld tm.prestat 63 32 = (fld s.team.prestat 63 32 + 1) % 2 ^ 32 ∧ bit tm.prestat 1 = cut ∧ bit tm.prestat 0 = whole ∧
      t.team.present = false ∧ t.peers = []
  let stopped (t : State) : Prop := ∀ m ∈ teamMembers t, m.status ≠ .running
  (∀ s : State, s.team.present = true → 0 < quantum s → quantum s < s.cycle - s.team.ranFrom → s.team.told = false →
    exec .quantumExpiry s = .next { s with
      team := { s.team with told := true }
      part := { s.part with notices := s.part.notices ++ [.quantum s.team.id] } }) ∧
  (∀ s : State, (quantum s = 0 ∨ s.cycle - s.team.ranFrom ≤ quantum s ∨ s.team.told = true) →
    exec .quantumExpiry s = .next s) ∧
  (∀ (s : State) (core : BitVec 9) (slot : PreemptPlace) r, s.core.num = core.toNat → lookupKey slot.slot.toNat s.core.recs = some r →
    brValid r = true → s.team.present = true → s.team.core = core.toNat → brSlots s.team.bindrec = brSlots r →
    (s.team.preReq = true → exec (.preemptRequest core slot) s = .next s) ∧
    (s.team.preReq = false → s.team.handler ≠ 0#64 → ∃ t, exec (.preemptRequest core slot) s = .next t ∧ t.team.preReq = true ∧
      t.team.area = slot.area.toNat ∧ lookupKey slot.slot.toNat t.core.recs = some (setFld r 21 21 1) ∧ t.mem = s.mem ∧
      (s.m.kind = .wave → s.m.status = .running → s.m.pre.phase ≠ .handling → t.m.pre.phase = .pending) ∧
      t.peers.length = s.peers.length ∧
      ∀ m ∈ t.peers, m.kind = .wave → m.status = .running → m.pre.phase = .pending ∨ m.pre.phase = .handling) ∧
    (s.team.preReq = false → s.team.handler = 0#64 →
      (savable s = true → ∃ t, exec (.preemptRequest core slot) s = .next t ∧ saved s t slot.area.toNat true false) ∧
      (savable s = false → ∃ t, exec (.preemptRequest core slot) s = .next t ∧ t.team.preReq = true ∧ t.part.saved = s.part.saved ∧ stopped t))) ∧
  (∀ s : State, s.m.status = .running → s.m.kind = .wave → s.m.frames = [] → s.m.pre.phase = .pending → inTap s = false →
    ∃ t, exec .preDelivery s = .next t ∧ t.m.cursor = s.team.handler ∧ t.m.exec = s.m.live ∧ t.m.live = s.m.live ∧ t.m.stack = [] ∧
      t.m.pre.phase = .handling ∧ t.m.pre.pc = s.m.cursor ∧ t.m.pre.exec = s.m.exec ∧ t.m.pre.stack = s.m.stack ∧ t.m.pre.since = s.cycle ∧
      t.m.rf = s.m.rf ∧ t.mem = s.mem) ∧
  (∀ s : State, (s.m.frames ≠ [] ∨ s.m.pre.phase ≠ .pending ∨ inTap s = true) → exec .preDelivery s = .next s) ∧
  (∀ s : State, s.team.present = true → s.team.preReq = true → s.team.handler ≠ 0#64 → (∀ m ∈ teamMembers s, ended m) →
    ∃ t, exec .preemptEnd s = .next t ∧ saved s t s.team.area false false) ∧
  (∀ s : State, (∃ m ∈ teamMembers s, ¬ended m) → exec .preemptEnd s = .next s) ∧
  (∀ s : State, s.team.present = true → s.team.preReq = true → s.team.handler ≠ 0#64 → (∃ m ∈ teamMembers s, late s m) →
    (savable s = true → ∃ t, exec .preemptTimeout s = .next t ∧ saved s t s.team.area true true ∧ .cut s.team.id ∈ t.part.notices) ∧
    (savable s = false → ∃ t, exec .preemptTimeout s = .next t ∧ t.part.saved = s.part.saved ∧ stopped t ∧ t.mem = s.mem)) ∧
  (∀ s : State, (s.team.preReq = false ∨ (s.team.handler ≠ 0#64 ∧ ∀ m ∈ teamMembers s, ¬late s m)) → exec .preemptTimeout s = .next s) ∧
  ∀ (s : State) va a ls, resolveAccess s (memberView s) .fetch (va.toNat / 32 * 32) 32 = .ok (.pa a :: ls) →
    ∃ t, exec (.icacheFill va) s = .next t ∧ t.mem = s.mem ∧ (∃ b, cachedBlock t.cl a = some b ∧
      (cachedBlock s.cl a = none → b = loadBlock s a)) ∧
      (s.cl.icache.length < 8192 ∨ cachedBlock s.cl a ≠ none →
        ∀ x, (cachedBlock s.cl x).isSome = true → cachedBlock t.cl x = cachedBlock s.cl x) ∧
      (s.cl.icache.length ≤ 8192 → t.cl.icache.length ≤ 8192)

/-! ## The host and the module -/

/-- What the host, the firmware and the module's own agents do (R11 to R16, R225, R436, R497 to R499, R507 to R509): tickets and ownership of control;
control operations complete, or with NOTOWNER and no effect; a partition is created with its grants, which no other partition holds, and with its
capability block, where a window of the firmware holds its place; it is destroyed with its contexts; a reset of a function ends its contexts; a
module reset keeps the memories and the pools and boots next; reports, translations of the host, patrol and clamp. That links and eighths are
granted once is the model's choice (log 101), as are the 512 registers of a cluster without a core (log 100), the numbering of the functions (log 74),
the layout of the report (log 75), that a refused BAR store has no effect (log 72), what a module reset keeps (log 14), and that a limit lies within
the granted memory, physical ranges do not meet and the capability block is placed in a window of the firmware (log 73). -/
def Obligations.HostAndModule : Prop :=
  let owns (s : State) (port : BitVec 1) : Prop := ownerPort s.mod = some port.toNat
  let turnedAway (s : State) (port : BitVec 1) : Out := .next { s with mod := { s.mod with ctl := s.mod.ctl ++ [(port.toNat, true)] } }
  let page (va : Dword) : Nat := va.toNat / 2 ^ 18
  (∀ (s : State) port, (portUp s.mod port.toNat = true → exec (.hsemtkRead port) s = .next { s with mod := settleHsem { s.mod with
      next := (s.mod.next + 1#32) &&& 0xFFFF#32, tickets := s.mod.tickets ++ [(s.mod.next, port.toNat)] } }) ∧
    (portUp s.mod port.toNat = false → exec (.hsemtkRead port) s = .next s)) ∧
  (∀ (s : State) port, (owns s port → exec (.hsemstRelease port) s = .next { s with mod := settleHsem { s.mod with
      serving := (s.mod.serving + 1#32) &&& 0xFFFF#32, tickets := s.mod.tickets.filter fun t => t.1 != s.mod.serving } }) ∧
    (¬owns s port → exec (.hsemstRelease port) s = .next s)) ∧
  (∀ (s : State) port, exec (.hostLinkDown port) s =
    .next { s with mod := settleHsem { s.mod with hostUp := s.mod.hostUp.set port.toNat false } }) ∧
  (∀ md p, ownerPort (settleHsem md) = some p → portUp (settleHsem md) p = true) ∧
  (∀ md p, ownerPort md = some p → portUp md p = true → settleHsem md = md) ∧
  (∀ (s : State) port image, (owns s port → ∃ t, exec (.firmwareUpdate port image) s = .next t ∧ t.mod.flash = some image ∧ t.mem = s.mem ∧
      t.mod.boot = s.mod.boot ∧ t.mod.ctl = s.mod.ctl ++ [(port.toNat, false)]) ∧
    (¬owns s port → exec (.firmwareUpdate port image) s = turnedAway s port)) ∧
  (∀ (s : State) port, (owns s port → ∃ t, exec (.moduleReset port) s = .next t ∧ t.mem = s.mem ∧ t.vault = s.vault ∧ t.mod.flash = s.mod.flash ∧
      t.mod.boot = .pending ∧ t.mod.tickets = [] ∧ t.team.present = false ∧ t.teams = [] ∧ t.part.present = false ∧ t.parts = [] ∧
      t.core.pool = s.core.pool ∧ t.cores.map (·.pool) = s.cores.map (·.pool)) ∧
    (¬owns s port → exec (.moduleReset port) s = turnedAway s port)) ∧
  (∀ (s : State) port g, (owns s port → grantOk s g = true → ∃ t p, exec (.partitionCreate port g) s = .next t ∧
      t.parts = s.parts.filter (·.present) ++ [p] ∧ t.part = s.part ∧ p.present = true ∧ p.num = g.num.toNat ∧ p.clusters = clustersOf g.groups ∧
      p.caps = capsOf s g ∧ p.hbm = g.hbm ∧ p.links = g.links ∧ p.svvec = 0#64 ∧ p.launches = [] ∧
      (∀ c ∈ g.contexts, ∃ x ∈ t.ctxs, x.id = c.id.toNat ∧ x.part = p.num ∧ x.alive = true ∧ x.priv = c.priv ∧ x.s1root = c.s1root) ∧
      ((∃ w ∈ s.mod.windows, w.1 ≤ g.capPa.toNat ∧ g.capPa.toNat + 512 ≤ w.2) → t.mem = writeCells s.mem g.capPa.toNat (capBlock s g port.toNat)) ∧
      ((∀ w ∈ s.mod.windows, ¬(w.1 ≤ g.capPa.toNat ∧ g.capPa.toNat + 512 ≤ w.2)) → t.mem = s.mem)) ∧
    (owns s port → grantOk s g = false → ∃ t, exec (.partitionCreate port g) s = .next t ∧ t.parts = s.parts ∧ t.part = s.part ∧ t.mem = s.mem) ∧
    (¬owns s port → exec (.partitionCreate port g) s = turnedAway s port)) ∧
  (∀ (s : State) (g : Grants) p, grantOk s g = true → p ∈ allParts s → p.num ≠ g.num.toNat ∧ p.hbm &&& g.hbm = 0#64 ∧
    p.links &&& g.links = 0#32 ∧ (∀ c ∈ clustersOf g.groups, c ∉ p.clusters) ∧ g.prlim.toNat ≤ popW g.hbm * 10 ^ 10 ∧
    g.tapbase.toNat + 2 ^ 26 ≤ g.prlim.toNat ∧
    ∀ a, g.prbase.toNat ≤ a → a < g.prbase.toNat + popW g.hbm * 10 ^ 10 → ¬(p.prbase.toNat ≤ a ∧ a < p.prbase.toNat + popW p.hbm * 10 ^ 10)) ∧
  (∀ (s : State) c, pregMinOf s c ≤ 512 ∧ (∀ i < 8, (usableCores s c).getLsbD i = true → ∀ x ∈ (coreOf s (8 * c + i)).pool, pregMinOf s c ≤ x) ∧
    ∀ i < 8, (usableCores s c).getLsbD i = true →
      8 * c + i ∉ s.mod.badCores ∧ ∀ k < 4, 256 ≤ (coreOf s (8 * c + i)).pool.getD k 0) ∧
  (∀ (s : State) g port, (capBlock s g port).length = 512) ∧
  (∀ (s : State) port (n : BitVec 3), s.part.present = true → s.part.num = n.toNat →
    (owns s port → ∃ t, exec (.partitionDestroy port n) s = .next t ∧ t.part.present = false ∧
      ∀ c ∈ t.ctxs, c.alive = true ∧ c.part ≠ n.toNat) ∧
    (¬owns s port → exec (.partitionDestroy port n) s = turnedAway s port)) ∧
  (∀ (s : State) port (vf : BitVec 4), s.part.present = true → vf.toNat = s.part.num + 1 → vf.toNat ≤ 8 →
    ∃ t, exec (.flr port vf) s = .next t ∧ liveCtxs t = [] ∧ t.part.present = true ∧ t.part.caps = s.part.caps ∧
      t.part.clusters = s.part.clusters ∧ t.part.hbm = s.part.hbm ∧ t.part.links = s.part.links) ∧
  (∀ (s : State) nonce, exec (.attestationReport nonce) s = .next { s with mod := { s.mod with
    reports := s.mod.reports ++ [reportBody s nonce ++ Config.falconSign (reportBody s nonce)] } }) ∧
  (∀ (s : State) nonce, (reportBody s nonce).take 32 = leBytes 32 nonce.toNat) ∧
  (∀ (s : State) va n, (holdsPlaces s (· == s.ctx.id) = false → exec (.atsInvalidation va n) s = .next { s with ctx := { s.ctx with
      ats := s.ctx.ats.filter fun e => !(decide (page va ≤ e.1) && decide (e.1 < page va + n)) } }) ∧
    (holdsPlaces s (· == s.ctx.id) = true → exec (.atsInvalidation va n) s = .next s)) ∧
  (∀ (s : State) va h, page va ∈ s.ctx.priOut →
    (∃ t, exec (.priResponse va (some h)) s = .next t ∧ lookupKey (page va) t.ctx.ats = some h ∧ page va ∉ t.ctx.priOut ∧
      t.ctx.priFail = s.ctx.priFail) ∧
    ∃ t, exec (.priResponse va none) s = .next t ∧ page va ∈ t.ctx.priFail ∧ page va ∉ t.ctx.priOut ∧ t.ctx.ats = s.ctx.ats) ∧
  (∀ (s : State) va x, page va ∉ s.ctx.priOut → exec (.priResponse va x) s = .next s) ∧
  (∀ (s : State) (n : BitVec 3) ipa, s.part.present = true → s.part.num = n.toNat → exec (.hostBarAccess n ipa none) s = .next s ∧
    ∀ bytes, (∀ ls, outsidePlaces s .write ipa.toNat bytes.length = some ls →
        (ownedAny s ls = false → exec (.hostBarAccess n ipa (some bytes)) s = .next (engineWriteLocs s ls bytes)) ∧
        (ownedAny s ls = true → exec (.hostBarAccess n ipa (some bytes)) s = .next s)) ∧
      (outsidePlaces s .write ipa.toNat bytes.length = none → exec (.hostBarAccess n ipa (some bytes)) s = .next s)) ∧
  (∀ s : State, exec .patrolScrub s = .next { s with
      mod := { s.mod with
        upsets := s.mod.upsets.filter (fun u => !u.2), vupsets := s.mod.vupsets.filter fun u => !u.2 },
      team := scrubTeam s.team, teams := s.teams.map fun t => (scrubTeam t.1, t.2) }) ∧
  (∀ t : Team, (scrubTeam t).spadUpset = t.spadUpset.filter (fun u => !u.2) ∧ (scrubTeam t).spad = t.spad) ∧
  ∀ s : State, exec .powerClampWithhold s = .next { s with core := { s.core with clamp := s.core.clamp + 1#64 } }
end

