-- ==== Sys2Proof/Laws/Issue.lean ====
section
/-!
SUPPORT. What the issue of an instruction comes to: the lemmas through which every statement about an instruction reaches `exec`.
-/
namespace Sys2Proof.Machine

/-- What `started` says, part by part. -/
theorem started_inv {e : Entry} {f : Fields} {s s' : State} {ic : Ic} (h : started e f s = some (ic, s')) :
    executes e f s = true ∧ malformedAt f s = false ∧ activeLanes s f ≠ 0#128 ∧ preDue s.m = false ∧
      beginIssue e f s (activeLanes s f) = (ic, .ok s') := by
  unfold started at h
  split at h
  · next hc =>
    simp only [Bool.and_eq_true, bne_iff_ne, Bool.not_eq_true'] at hc
    obtain ⟨⟨⟨h1, h2⟩, h3⟩, h4⟩ := hc
    split at h
    · next ic' t hb =>
      simp only [Option.some.injEq, Prod.mk.injEq] at h
      obtain ⟨rfl, rfl⟩ := h
      exact ⟨h1, h2, h3, h4, hb⟩
    · cases h
  · cases h

/-- An instruction that is issued raises no trap before its effect. -/
theorem beginIssue_early {e : Entry} {f : Fields} {s s' : State} {act : Mask} {ic : Ic}
    (h : beginIssue e f s act = (ic, .ok s')) : earlyTrap e f s act = none := by
  unfold beginIssue at h
  split at h
  · cases h
  · assumption

/-- Without an early trap no held trap is due. -/
theorem earlyTrap_dueHeld {e : Entry} {f : Fields} {s : State} {act : Mask} (h : earlyTrap e f s act = none) :
    dueHeld e f s act = none := by
  unfold earlyTrap at h
  split at h
  · cases h
  · assumption

/-- The fields, the active lanes, the address and the length that an issued instruction knows of itself. -/
theorem beginIssue_ic {e : Entry} {f : Fields} {s : State} {act : Mask} :
    (beginIssue e f s act).1.f = f ∧ (beginIssue e f s act).1.act = act ∧ (beginIssue e f s act).1.pc = s.m.cursor ∧
      (beginIssue e f s act).1.len = lenBytes f ∧ (beginIssue e f s act).1.n = nLanes s ∧ (beginIssue e f s act).1.lane = lowestLane act ∧
      (beginIssue e f s act).1.uni = isUniform e f s ∧ (beginIssue e f s act).1.old = s.m.wait := by
  unfold beginIssue
  dsimp only
  split
  · simp
  · split
    · simp
    · simp
    · split
      · simp
      · split <;> simp

/-- An issued instruction acts through its body (R63, R447). -/
theorem started_issueState {e : Entry} {f : Fields} {s s' : State} {ic : Ic} (h : started e f s = some (ic, s'))
    (body : Ic → State → Act) : issueState e f s body = applyAct s ic (body ic s') := by
  obtain ⟨h1, h2, h3, h4, hb⟩ := started_inv h
  have hd : dropHeld e f (activeLanes s f) s = s := by simp [dropHeld, earlyTrap_dueHeld (beginIssue_early hb)]
  have hx : execute e f s (activeLanes s f) body = (ic, body ic s') := by simp [execute, hb]
  have hp : preFirst e s = false := by simp [preFirst, h4]
  simp [issueState, h1, h2, h3, hx, hp, hd]

/-- The body of an issued instruction decides what `exec` answers, case by case. -/
theorem started_ok {e : Entry} {f : Fields} {s s' t : State} {ic : Ic} {body : Ic → State → Act} (h : started e f s = some (ic, s'))
    (hb : body ic s' = .ok t) : issue e f s body = .next (complete (ic.adv t)) := by
  simp [issue, started_issueState h, hb, applyAct, Ic.adv]

theorem started_go {e : Entry} {f : Fields} {s s' t : State} {ic : Ic} {body : Ic → State → Act} (h : started e f s = some (ic, s'))
    (hb : body ic s' = .go t) : issue e f s body = .next (complete t) := by
  simp [issue, started_issueState h, hb, applyAct]

/-- The instruction's own fields, address and lanes are those that it was issued with. -/
theorem started_ic {e : Entry} {f : Fields} {s s' : State} {ic : Ic} (h : started e f s = some (ic, s')) :
    ic.f = f ∧ ic.act = activeLanes s f ∧ ic.pc = s.m.cursor ∧ ic.len = lenBytes f ∧ ic.n = nLanes s ∧
      ic.lane = lowestLane (activeLanes s f) ∧ ic.uni = isUniform e f s ∧ ic.old = s.m.wait := by
  obtain ⟨-, -, -, -, hb⟩ := started_inv h
  have := @beginIssue_ic e f s (activeLanes s f)
  rw [hb] at this
  exact this

theorem started_trap {e : Entry} {f : Fields} {s s' : State} {ic : Ic} {tr : Trap} {body : Ic → State → Act}
    (h : started e f s = some (ic, s')) (hb : body ic s' = .trap tr) :
    issue e f s body = .next (enterTrap s f s.m.cursor (lenBytes f) (activeLanes s f) tr) := by
  obtain ⟨hf, ha, hp, hl, -⟩ := started_ic h
  simp [issue, started_issueState h, hb, applyAct, hf, ha, hp, hl]

theorem started_sleep {e : Entry} {f : Fields} {s s' : State} {ic : Ic} {w : Wait} {body : Ic → State → Act}
    (h : started e f s = some (ic, s')) (hb : body ic s' = .sleep w) :
    issue e f s body = .next { s with m := { s.m with wait := some w } } := by
  simp [issue, started_issueState h, hb, applyAct]

theorem started_hold {e : Entry} {f : Fields} {s s' t : State} {ic : Ic} {w : Wait} {body : Ic → State → Act}
    (h : started e f s = some (ic, s')) (hb : body ic s' = .hold t w) :
    issue e f s body = .next { t with m := { t.m with wait := some w } } := by
  simp [issue, started_issueState h, hb, applyAct]

end Sys2Proof.Machine
end

