-- ==== Sys2Proof/Laws/Memory.lean ====
section
/-!
SUPPORT. Every operation on memory keeps its canonical form, and keyed lists read back what they were given.
-/
namespace Sys2Proof.Machine

/-! ## The canonical form -/

/-- A cell list whose addresses rise above some address has its addresses rising. -/
theorem cellsAbove_weaken {lo : Option Nat} {m : List Host.Cell} {y : Nat} (h : cellsAbove (some y) m = true)
    (hy : ∀ x, lo = some x → x ≤ y) : cellsAbove lo m = true := by
  cases m with
  | nil => rfl
  | cons c r =>
    obtain ⟨a, b⟩ := c
    simp only [cellsAbove, Bool.and_eq_true, decide_eq_true_eq] at h ⊢
    refine ⟨⟨?_, h.1.2⟩, h.2⟩
    cases lo with
    | none => rfl
    | some x => have := hy x rfl; simp only [decide_eq_true_eq]; omega

/-- A cell above a bound goes in front of cells that rise above it. -/
theorem cellsAbove_cons {lo : Option Nat} {x : Nat} {b : Byte} {r : List Host.Cell} (hx : ∀ y, lo = some y → y < x)
    (hb : b ≠ memDefault) (h : cellsAbove (some x) r = true) : cellsAbove lo ((x, b) :: r) = true := by
  cases lo with
  | none => simp [cellsAbove, hb, h]
  | some y => simp [cellsAbove, hb, h, hx y rfl]

/-- Writing a byte above a bound keeps the addresses rising above it. -/
theorem cellsAbove_writeCell {x : Nat} {b : Byte} : ∀ {lo : Option Nat} {m : List Host.Cell}, cellsAbove lo m = true →
    (∀ y, lo = some y → y < x) → cellsAbove lo (writeCell m x b) = true
  | lo, [], _, hx => by
    unfold writeCell
    split
    · rfl
    · next hb => exact cellsAbove_cons hx hb rfl
  | lo, (a, c) :: r, h, hx => by
    have h' := h
    simp only [cellsAbove, Bool.and_eq_true, bne_iff_ne, ne_eq] at h'
    obtain ⟨⟨h1, h2⟩, h3⟩ := h'
    unfold writeCell
    split
    · next hlt =>
      split
      · exact h
      · next hb => exact cellsAbove_cons hx hb (cellsAbove_cons (fun y hy => by cases hy; exact hlt) h2 h3)
    · split
      · next heq =>
        subst heq
        split
        · exact cellsAbove_weaken h3 fun y hy => Nat.le_of_lt (hx y hy)
        · next hb => exact cellsAbove_cons hx hb h3
      · next hlt hne =>
        simp only [cellsAbove, Bool.and_eq_true, bne_iff_ne, ne_eq]
        refine ⟨⟨h1, h2⟩, cellsAbove_writeCell h3 fun y hy => ?_⟩
        cases hy
        omega

/-- A filtered cell list keeps its addresses rising. -/
theorem cellsAbove_filter {p : Host.Cell → Bool} : ∀ {lo : Option Nat} {m : List Host.Cell}, cellsAbove lo m = true →
    cellsAbove lo (m.filter p) = true
  | _, [], _ => rfl
  | lo, (a, c) :: r, h => by
    simp only [cellsAbove, Bool.and_eq_true] at h
    by_cases hp : p (a, c) = true
    · simp only [List.filter, hp, cellsAbove, Bool.and_eq_true]
      exact ⟨h.1, cellsAbove_filter h.2⟩
    · simp only [List.filter, hp]
      refine cellsAbove_filter (cellsAbove_weaken h.2 fun y hy => ?_)
      have h1 := h.1.1
      subst hy
      simp only [decide_eq_true_eq] at h1
      omega

/-- Writing one byte keeps the canonical form. -/
theorem wf_writeCell {m : List Host.Cell} (a : Nat) (b : Byte) (h : Memory.wf m = true) : Memory.wf (writeCell m a b) = true :=
  cellsAbove_writeCell h fun _ hy => nomatch hy

/-- Writing bytes keeps the canonical form. -/
theorem wf_writeCells : ∀ (bs : List Byte) {m : List Host.Cell} (a : Nat), Memory.wf m = true → Memory.wf (writeCells m a bs) = true
  | [], _, _, h => h
  | b :: bs, _, a, h => wf_writeCells bs (a + 1) (wf_writeCell a b h)

/-- Writing a number keeps the canonical form. -/
theorem wf_writeNat {m : List Host.Cell} (a n x : Nat) (h : Memory.wf m = true) : Memory.wf (writeNat m a n x) = true :=
  wf_writeCells _ a h

/-- Clearing a range keeps the canonical form. -/
theorem wf_clearCells {m : List Host.Cell} (a n : Nat) (h : Memory.wf m = true) : Memory.wf (clearCells m a n) = true :=
  cellsAbove_filter h

/-- The memories of a state have their canonical form. -/
abbrev State.memWf (s : State) : Prop := Memory.wf s.mem = true ∧ Memory.wf s.vault = true

/-- Reset has it. -/
theorem reset_memWf : State.reset.memWf := ⟨rfl, rfl⟩

/-- What the L1 caches are told of changes neither memory. -/
@[simp] theorem recall_mem (s : State) (space a n : Nat) : (recallLines s space a n).mem = s.mem := rfl
@[simp] theorem recall_vault (s : State) (space a n : Nat) : (recallLines s space a n).vault = s.vault := rfl

/-- A unit's write to physical memory keeps the form. -/
theorem memWf_storeMem {s : State} (a : Nat) (bs : List Byte) (h : s.memWf) : (storeMem s a bs).memWf := ⟨wf_writeCells bs a h.1, h.2⟩

/-- A unit's clearing of physical memory keeps the form. -/
theorem memWf_clearMem {s : State} (a n : Nat) (h : s.memWf) : (clearMem s a n).memWf := ⟨wf_clearCells a n h.1, h.2⟩

/-- A write where a place lies keeps the form. -/
theorem memWf_setHome {s : State} (l : Loc) (b : Byte) (h : s.memWf) : (setHome s l b).memWf := by
  cases l with
  | pa a => exact ⟨wf_writeCell a b h.1, h.2⟩
  | vault a => exact ⟨h.1, wf_writeCell a b h.2⟩
  | spad a => exact h
  | fill b => exact h
  | drop => exact h

/-- A member's write to a place keeps the form. -/
theorem memWf_writeLoc {s : State} (l : Loc) (b : Byte) (h : s.memWf) : (writeLoc s l b).memWf := by
  unfold writeLoc
  split
  · dsimp only
    split
    · exact memWf_setHome l b h
    · exact h
  · exact memWf_setHome l b h

/-- An engine's write to a place keeps the form. -/
theorem memWf_engineWriteLoc {s : State} (l : Loc) (b : Byte) (h : s.memWf) : (engineWriteLoc s l b).memWf := by
  cases l with
  | spad a => exact h
  | pa a => exact memWf_storeMem a [b] h
  | vault a => exact memWf_setHome (.vault a) b h
  | fill x => exact h
  | drop => exact h

/-- A member's writes keep the form. -/
theorem memWf_writeLocs : ∀ (ls : List Loc) (bs : List Byte) {s : State}, s.memWf → (writeLocs s ls bs).memWf
  | l :: ls, b :: bs, _, h => memWf_writeLocs ls bs (memWf_writeLoc l b h)
  | [], _, _, h => h
  | _ :: _, [], _, h => h

/-- An engine's writes keep the form, before the second-level cache has seen them. -/
theorem memWf_engineBytes : ∀ (ls : List Loc) (bs : List Byte) {s : State}, s.memWf → (engineBytes s ls bs).memWf
  | l :: ls, b :: bs, _, h => memWf_engineBytes ls bs (memWf_engineWriteLoc l b h)
  | [], _, _, h => h
  | _ :: _, [], _, h => h

/-- An engine's writes keep the form. -/
theorem memWf_engineWriteLocs (ls : List Loc) (bs : List Byte) {s : State} (h : s.memWf) : (engineWriteLocs s ls bs).memWf :=
  memWf_engineBytes ls bs h

/-! ## What memory operations leave alone -/

/-- A state with the memories, the share, the L1 and the second-level cache of another. -/
def withCaches (s t : State) : State :=
  { s with mem := t.mem, vault := t.vault, team := { s.team with spad := t.team.spad }, core := { s.core with l1 := t.core.l1 }
           part := { s.part with l2 := t.part.l2 } }

@[simp] theorem withCaches_m (s t : State) : (withCaches s t).m = s.m := rfl
@[simp] theorem withCaches_peers (s t : State) : (withCaches s t).peers = s.peers := rfl
@[simp] theorem withCaches_teams (s t : State) : (withCaches s t).teams = s.teams := rfl
@[simp] theorem withCaches_cores (s t : State) : (withCaches s t).cores = s.cores := rfl
@[simp] theorem withCaches_cl (s t : State) : (withCaches s t).cl = s.cl := rfl
@[simp] theorem withCaches_cls (s t : State) : (withCaches s t).cls = s.cls := rfl
@[simp] theorem withCaches_ctx (s t : State) : (withCaches s t).ctx = s.ctx := rfl
@[simp] theorem withCaches_ctxs (s t : State) : (withCaches s t).ctxs = s.ctxs := rfl
@[simp] theorem withCaches_parts (s t : State) : (withCaches s t).parts = s.parts := rfl
@[simp] theorem withCaches_mod (s t : State) : (withCaches s t).mod = s.mod := rfl
@[simp] theorem withCaches_turns (s t : State) : (withCaches s t).turns = s.turns := rfl
@[simp] theorem withCaches_cycle (s t : State) : (withCaches s t).cycle = s.cycle := rfl
@[simp] theorem withCaches_free (s t : State) : (withCaches s t).free = s.free := rfl
@[simp] theorem withCaches_nextId (s t : State) : (withCaches s t).nextId = s.nextId := rfl

/-- A state that differs from another in the memories, the share and the caches of the core and the partition alone. -/
def cachesOnly (s t : State) : Prop := t = withCaches s t

theorem cachesOnly_refl (s : State) : cachesOnly s s := rfl

theorem cachesOnly_trans {s t u : State} (h : cachesOnly s t) (k : cachesOnly t u) : cachesOnly s u := by
  unfold cachesOnly at h k ⊢
  rw [k, h]
  rfl

/-- A fold of such operations is one. -/
theorem cachesOnly_foldl {α : Type} {g : State → α → State} (hg : ∀ s a, cachesOnly s (g s a)) :
    ∀ (l : List α) (s : State), cachesOnly s (l.foldl g s)
  | [], s => cachesOnly_refl s
  | a :: l, s => cachesOnly_trans (hg s a) (cachesOnly_foldl hg l (g s a))

/-- A write where a place lies. -/
theorem setHome_caches (s : State) (l : Loc) (b : Byte) : cachesOnly s (setHome s l b) := by
  cases l with
  | pa a => rfl
  | vault a => rfl
  | spad a =>
    simp only [setHome, setSpadByte, setSpadWord]
    split <;> rfl
  | fill x => rfl
  | drop => rfl

/-- A member's write to a place. -/
theorem writeLoc_caches (s : State) (l : Loc) (b : Byte) : cachesOnly s (writeLoc s l b) := by
  unfold writeLoc
  split
  · dsimp only
    split
    · exact cachesOnly_trans (t := { s with core := { s.core with l1 := _ } }) rfl (setHome_caches _ l b)
    · rfl
  · exact setHome_caches s l b

/-- A member's writes. -/
theorem writeLocs_caches : ∀ (ls : List Loc) (bs : List Byte) (s : State), cachesOnly s (writeLocs s ls bs)
  | l :: ls, b :: bs, s => cachesOnly_trans (writeLoc_caches s l b) (writeLocs_caches ls bs (writeLoc s l b))
  | [], _, s => by unfold writeLocs; rfl
  | _ :: _, [], s => rfl

/-- An access of the second level changes its lines alone. -/
theorem l2Access_l2 (p : Partition) (line : Nat) (store : Bool) : l2Access p line store = { p with l2 := (l2Access p line store).l2 } := by
  unfold l2Access
  split
  · rfl
  · split
    · rfl
    · split
      · rfl
      · dsimp only
        split
        · rfl
        · unfold l2Replace
          dsimp only
          split
          · rfl
          · split <;> rfl

theorem l2Key_caches (s : State) (key : Nat) (store : Bool) : cachesOnly s (l2Key s key store) := by
  unfold l2Key
  split <;> rfl

theorem l2Locs_caches (s : State) (ls : List Loc) (store : Bool) : cachesOnly s (l2Locs s ls store) := rfl

/-- A line written back. -/
theorem writeBack_caches (s : State) (ln : L1Line) : cachesOnly s (writeBack s ln) := by
  unfold writeBack
  split
  · rfl
  · refine cachesOnly_trans (cachesOnly_trans (cachesOnly_foldl (fun s e => ?_) _ s) (l2Key_caches _ _ _)) rfl
    split
    · exact setHome_caches _ _ _
    · rfl

theorem l1Evict_caches (s : State) (key : Nat) : cachesOnly s (l1Evict s key) := by
  unfold l1Evict
  split
  · exact cachesOnly_trans (writeBack_caches s _) rfl
  · rfl

theorem l1Fill_caches (s : State) (key : Nat) : cachesOnly s (l1Fill s key) := by
  unfold l1Fill
  split
  · rfl
  · refine cachesOnly_trans (l2Key_caches s key false) ?_
    dsimp only
    split <;> rfl

theorem l1FillLocs_caches (s : State) (ls : List Loc) : cachesOnly s (l1FillLocs s ls) := cachesOnly_foldl l1Fill_caches _ s
theorem atHome_caches (s : State) (ls : List Loc) : cachesOnly s (atHome s ls) := cachesOnly_foldl l1Evict_caches _ s

/-- A release writes back, and an acquire discards, the lines of the L1 alone. -/
theorem l1Clean_caches (s : State) : cachesOnly s (l1Clean s) := cachesOnly_foldl writeBack_caches _ s
theorem l1Flush_caches (s : State) : cachesOnly s (l1Flush s) := cachesOnly_trans (l1Clean_caches s) rfl

/-- A fold of operations that keep the canonical form keeps it. -/
theorem memWf_foldl {α : Type} {g : State → α → State} (hg : ∀ s a, s.memWf → (g s a).memWf) :
    ∀ (l : List α) {s : State}, s.memWf → (l.foldl g s).memWf
  | [], _, h => h
  | a :: l, s, h => memWf_foldl hg l (hg s a h)

/-- A write back keeps the canonical form. -/
theorem memWf_writeBack {s : State} (ln : L1Line) (h : s.memWf) : (writeBack s ln).memWf := by
  unfold writeBack
  split
  · exact h
  · have hk : ((((lineLocs ln.key).zip ln.data).zipIdx).foldl
        (fun s e => if ln.dirty.getLsbD e.2 then setHome s e.1.1 e.1.2 else s) s).memWf :=
      memWf_foldl (fun s e h => by split; exact memWf_setHome _ _ h; exact h) _ h
    dsimp only
    unfold l2Key
    split <;> exact hk

/-- An eviction keeps it too. -/
theorem memWf_l1Evict {s : State} (key : Nat) (h : s.memWf) : (l1Evict s key).memWf := by
  unfold l1Evict
  split
  · exact memWf_writeBack _ h
  · exact h

/-- So do the write back of every line and an acquire. -/
theorem memWf_l1Clean {s : State} (h : s.memWf) : (l1Clean s).memWf := memWf_foldl (fun _ ln h => memWf_writeBack ln h) _ h

theorem memWf_l1Flush {s : State} (h : s.memWf) : (l1Flush s).memWf := memWf_l1Clean h

/-! ## Keyed lists -/

/-- A keyed list reads back the value that it was given. -/
theorem lookupKey_insertKey {α : Type} (k : Nat) (v : α) : ∀ (l : List (Nat × α)) (i : Nat),
    lookupKey i (insertKey k v l) = if i = k then some v else lookupKey i l
  | [], i => by simp [insertKey, lookupKey]
  | (j, w) :: r, i => by
    unfold insertKey
    split
    · simp [lookupKey]
    · split
      · next h1 h2 => subst h2; simp only [lookupKey]; split <;> rfl
      · next h1 h2 =>
        simp only [lookupKey, lookupKey_insertKey k v r i]
        by_cases hj : i = j
        · subst hj; rw [if_pos rfl, if_neg (fun h => h2 h.symm), if_pos rfl]
        · rw [if_neg hj, if_neg hj]

/-- A keyed list no longer reads a key that was taken out. -/
theorem lookupKey_eraseKey {α : Type} (k : Nat) : ∀ (l : List (Nat × α)) (i : Nat),
    lookupKey i (eraseKey k l) = if i = k then none else lookupKey i l
  | [], i => by simp [eraseKey, lookupKey]
  | (j, w) :: r, i => by
    have ih := lookupKey_eraseKey k r i
    unfold eraseKey at ih ⊢
    by_cases hj : j = k
    · subst hj
      simp only [List.filter, bne_self_eq_false, ih, lookupKey]
      split <;> rfl
    · have hb : (j != k) = true := by simpa using hj
      simp only [List.filter, hb, lookupKey, ih]
      by_cases hi : i = j
      · subst hi; rw [if_pos rfl, if_neg hj, if_pos rfl]
      · rw [if_neg hi, if_neg hi]

end Sys2Proof.Machine
end

