-- ==== Sys2Proof/Laws/State.lean ====
section
/-!
SUPPORT. The named updates of the state, field by field, so that no proof unfolds a record update.
-/
namespace Sys2Proof.Machine

/-- Going on behind an instruction sets the cursor alone. -/
@[simp] theorem Ic.adv_eq (ic : Ic) (s : State) : ic.adv s = setCursor s ic.next := rfl

/-! ## The cursor set -/

@[simp] theorem setCursor_peers (s : State) (pc : Dword) : (setCursor s pc).peers = s.peers := rfl
@[simp] theorem setCursor_team (s : State) (pc : Dword) : (setCursor s pc).team = s.team := rfl
@[simp] theorem setCursor_teams (s : State) (pc : Dword) : (setCursor s pc).teams = s.teams := rfl
@[simp] theorem setCursor_core (s : State) (pc : Dword) : (setCursor s pc).core = s.core := rfl
@[simp] theorem setCursor_cores (s : State) (pc : Dword) : (setCursor s pc).cores = s.cores := rfl
@[simp] theorem setCursor_cl (s : State) (pc : Dword) : (setCursor s pc).cl = s.cl := rfl
@[simp] theorem setCursor_cls (s : State) (pc : Dword) : (setCursor s pc).cls = s.cls := rfl
@[simp] theorem setCursor_ctx (s : State) (pc : Dword) : (setCursor s pc).ctx = s.ctx := rfl
@[simp] theorem setCursor_ctxs (s : State) (pc : Dword) : (setCursor s pc).ctxs = s.ctxs := rfl
@[simp] theorem setCursor_part (s : State) (pc : Dword) : (setCursor s pc).part = s.part := rfl
@[simp] theorem setCursor_parts (s : State) (pc : Dword) : (setCursor s pc).parts = s.parts := rfl
@[simp] theorem setCursor_mod (s : State) (pc : Dword) : (setCursor s pc).mod = s.mod := rfl
@[simp] theorem setCursor_mem (s : State) (pc : Dword) : (setCursor s pc).mem = s.mem := rfl
@[simp] theorem setCursor_vault (s : State) (pc : Dword) : (setCursor s pc).vault = s.vault := rfl
@[simp] theorem setCursor_turns (s : State) (pc : Dword) : (setCursor s pc).turns = s.turns := rfl
@[simp] theorem setCursor_cycle (s : State) (pc : Dword) : (setCursor s pc).cycle = s.cycle := rfl
@[simp] theorem setCursor_free (s : State) (pc : Dword) : (setCursor s pc).free = s.free := rfl
@[simp] theorem setCursor_nextId (s : State) (pc : Dword) : (setCursor s pc).nextId = s.nextId := rfl
@[simp] theorem setCursor_m_id (s : State) (pc : Dword) : (setCursor s pc).m.id = s.m.id := rfl
@[simp] theorem setCursor_m_kind (s : State) (pc : Dword) : (setCursor s pc).m.kind = s.m.kind := rfl
@[simp] theorem setCursor_m_status (s : State) (pc : Dword) : (setCursor s pc).m.status = s.m.status := rfl
@[simp] theorem setCursor_m_wait (s : State) (pc : Dword) : (setCursor s pc).m.wait = s.m.wait := rfl
@[simp] theorem setCursor_m_role (s : State) (pc : Dword) : (setCursor s pc).m.role = s.m.role := rfl
@[simp] theorem setCursor_m_memNo (s : State) (pc : Dword) : (setCursor s pc).m.memNo = s.m.memNo := rfl
@[simp] theorem setCursor_m_waveId (s : State) (pc : Dword) : (setCursor s pc).m.waveId = s.m.waveId := rfl
@[simp] theorem setCursor_m_slots (s : State) (pc : Dword) : (setCursor s pc).m.slots = s.m.slots := rfl
@[simp] theorem setCursor_m_half (s : State) (pc : Dword) : (setCursor s pc).m.half = s.m.half := rfl
@[simp] theorem setCursor_m_apNum (s : State) (pc : Dword) : (setCursor s pc).m.apNum = s.m.apNum := rfl
@[simp] theorem setCursor_m_cursor (s : State) (pc : Dword) : (setCursor s pc).m.cursor = pc := rfl
@[simp] theorem setCursor_m_exec (s : State) (pc : Dword) : (setCursor s pc).m.exec = s.m.exec := rfl
@[simp] theorem setCursor_m_live (s : State) (pc : Dword) : (setCursor s pc).m.live = s.m.live := rfl
@[simp] theorem setCursor_m_stack (s : State) (pc : Dword) : (setCursor s pc).m.stack = s.m.stack := rfl
@[simp] theorem setCursor_m_rf (s : State) (pc : Dword) : (setCursor s pc).m.rf = s.m.rf := rfl
@[simp] theorem setCursor_m_rskey (s : State) (pc : Dword) : (setCursor s pc).m.rskey = s.m.rskey := rfl
@[simp] theorem setCursor_m_rsctr (s : State) (pc : Dword) : (setCursor s pc).m.rsctr = s.m.rsctr := rfl
@[simp] theorem setCursor_m_lorig (s : State) (pc : Dword) : (setCursor s pc).m.lorig = s.m.lorig := rfl
@[simp] theorem setCursor_m_regstat (s : State) (pc : Dword) : (setCursor s pc).m.regstat = s.m.regstat := rfl
@[simp] theorem setCursor_m_spillcnt (s : State) (pc : Dword) : (setCursor s pc).m.spillcnt = s.m.spillcnt := rfl
@[simp] theorem setCursor_m_refillcnt (s : State) (pc : Dword) : (setCursor s pc).m.refillcnt = s.m.refillcnt := rfl
@[simp] theorem setCursor_m_rascnt (s : State) (pc : Dword) : (setCursor s pc).m.rascnt = s.m.rascnt := rfl
@[simp] theorem setCursor_m_bsbase (s : State) (pc : Dword) : (setCursor s pc).m.bsbase = s.m.bsbase := rfl
@[simp] theorem setCursor_m_frames (s : State) (pc : Dword) : (setCursor s pc).m.frames = s.m.frames := rfl
@[simp] theorem setCursor_m_cpfault (s : State) (pc : Dword) : (setCursor s pc).m.cpfault = s.m.cpfault := rfl
@[simp] theorem setCursor_m_qfault (s : State) (pc : Dword) : (setCursor s pc).m.qfault = s.m.qfault := rfl
@[simp] theorem setCursor_m_ovlva (s : State) (pc : Dword) : (setCursor s pc).m.ovlva = s.m.ovlva := rfl
@[simp] theorem setCursor_m_shfault (s : State) (pc : Dword) : (setCursor s pc).m.shfault = s.m.shfault := rfl
@[simp] theorem setCursor_m_leaseinfo (s : State) (pc : Dword) : (setCursor s pc).m.leaseinfo = s.m.leaseinfo := rfl
@[simp] theorem setCursor_m_rowadmit (s : State) (pc : Dword) : (setCursor s pc).m.rowadmit = s.m.rowadmit := rfl
@[simp] theorem setCursor_m_xstat (s : State) (pc : Dword) : (setCursor s pc).m.xstat = s.m.xstat := rfl
@[simp] theorem setCursor_m_lc (s : State) (pc : Dword) : (setCursor s pc).m.lc = s.m.lc := rfl
@[simp] theorem setCursor_m_lapit (s : State) (pc : Dword) : (setCursor s pc).m.lapit = s.m.lapit := rfl
@[simp] theorem setCursor_m_rspbase (s : State) (pc : Dword) : (setCursor s pc).m.rspbase = s.m.rspbase := rfl
@[simp] theorem setCursor_m_held (s : State) (pc : Dword) : (setCursor s pc).m.held = s.m.held := rfl
@[simp] theorem setCursor_m_pre (s : State) (pc : Dword) : (setCursor s pc).m.pre = s.m.pre := rfl
@[simp] theorem setCursor_m_ctxOv (s : State) (pc : Dword) : (setCursor s pc).m.ctxOv = s.m.ctxOv := rfl
@[simp] theorem setCursor_m_datapath (s : State) (pc : Dword) : (setCursor s pc).m.datapath = s.m.datapath := rfl
@[simp] theorem setCursor_m_advs (s : State) (pc : Dword) : (setCursor s pc).m.advs = s.m.advs := rfl
@[simp] theorem setCursor_m_sureSkip (s : State) (pc : Dword) : (setCursor s pc).m.sureSkip = s.m.sureSkip := rfl
@[simp] theorem setCursor_m_surePre (s : State) (pc : Dword) : (setCursor s pc).m.surePre = s.m.surePre := rfl
@[simp] theorem setCursor_m_look (s : State) (pc : Dword) : (setCursor s pc).m.look = s.m.look := rfl
@[simp] theorem setCursor_m_ready (s : State) (pc : Dword) : (setCursor s pc).m.ready = s.m.ready := rfl
@[simp] theorem setCursor_m_issued (s : State) (pc : Dword) : (setCursor s pc).m.issued = s.m.issued := rfl
@[simp] theorem setCursor_m_clock (s : State) (pc : Dword) : (setCursor s pc).m.clock = s.m.clock := rfl

/-! ## EXEC and the cursor set -/

@[simp] theorem atMask_peers (s : State) (ex : Mask) (pc : Dword) : (atMask s ex pc).peers = s.peers := rfl
@[simp] theorem atMask_team (s : State) (ex : Mask) (pc : Dword) : (atMask s ex pc).team = s.team := rfl
@[simp] theorem atMask_teams (s : State) (ex : Mask) (pc : Dword) : (atMask s ex pc).teams = s.teams := rfl
@[simp] theorem atMask_core (s : State) (ex : Mask) (pc : Dword) : (atMask s ex pc).core = s.core := rfl
@[simp] theorem atMask_cores (s : State) (ex : Mask) (pc : Dword) : (atMask s ex pc).cores = s.cores := rfl
@[simp] theorem atMask_cl (s : State) (ex : Mask) (pc : Dword) : (atMask s ex pc).cl = s.cl := rfl
@[simp] theorem atMask_cls (s : State) (ex : Mask) (pc : Dword) : (atMask s ex pc).cls = s.cls := rfl
@[simp] theorem atMask_ctx (s : State) (ex : Mask) (pc : Dword) : (atMask s ex pc).ctx = s.ctx := rfl
@[simp] theorem atMask_ctxs (s : State) (ex : Mask) (pc : Dword) : (atMask s ex pc).ctxs = s.ctxs := rfl
@[simp] theorem atMask_part (s : State) (ex : Mask) (pc : Dword) : (atMask s ex pc).part = s.part := rfl
@[simp] theorem atMask_parts (s : State) (ex : Mask) (pc : Dword) : (atMask s ex pc).parts = s.parts := rfl
@[simp] theorem atMask_mod (s : State) (ex : Mask) (pc : Dword) : (atMask s ex pc).mod = s.mod := rfl
@[simp] theorem atMask_mem (s : State) (ex : Mask) (pc : Dword) : (atMask s ex pc).mem = s.mem := rfl
@[simp] theorem atMask_vault (s : State) (ex : Mask) (pc : Dword) : (atMask s ex pc).vault = s.vault := rfl
@[simp] theorem atMask_turns (s : State) (ex : Mask) (pc : Dword) : (atMask s ex pc).turns = s.turns := rfl
@[simp] theorem atMask_cycle (s : State) (ex : Mask) (pc : Dword) : (atMask s ex pc).cycle = s.cycle := rfl
@[simp] theorem atMask_free (s : State) (ex : Mask) (pc : Dword) : (atMask s ex pc).free = s.free := rfl
@[simp] theorem atMask_nextId (s : State) (ex : Mask) (pc : Dword) : (atMask s ex pc).nextId = s.nextId := rfl
@[simp] theorem atMask_m_id (s : State) (ex : Mask) (pc : Dword) : (atMask s ex pc).m.id = s.m.id := rfl
@[simp] theorem atMask_m_kind (s : State) (ex : Mask) (pc : Dword) : (atMask s ex pc).m.kind = s.m.kind := rfl
@[simp] theorem atMask_m_status (s : State) (ex : Mask) (pc : Dword) : (atMask s ex pc).m.status = s.m.status := rfl
@[simp] theorem atMask_m_wait (s : State) (ex : Mask) (pc : Dword) : (atMask s ex pc).m.wait = s.m.wait := rfl
@[simp] theorem atMask_m_role (s : State) (ex : Mask) (pc : Dword) : (atMask s ex pc).m.role = s.m.role := rfl
@[simp] theorem atMask_m_memNo (s : State) (ex : Mask) (pc : Dword) : (atMask s ex pc).m.memNo = s.m.memNo := rfl
@[simp] theorem atMask_m_waveId (s : State) (ex : Mask) (pc : Dword) : (atMask s ex pc).m.waveId = s.m.waveId := rfl
@[simp] theorem atMask_m_slots (s : State) (ex : Mask) (pc : Dword) : (atMask s ex pc).m.slots = s.m.slots := rfl
@[simp] theorem atMask_m_half (s : State) (ex : Mask) (pc : Dword) : (atMask s ex pc).m.half = s.m.half := rfl
@[simp] theorem atMask_m_apNum (s : State) (ex : Mask) (pc : Dword) : (atMask s ex pc).m.apNum = s.m.apNum := rfl
@[simp] theorem atMask_m_cursor (s : State) (ex : Mask) (pc : Dword) : (atMask s ex pc).m.cursor = pc := rfl
@[simp] theorem atMask_m_exec (s : State) (ex : Mask) (pc : Dword) : (atMask s ex pc).m.exec = ex := rfl
@[simp] theorem atMask_m_live (s : State) (ex : Mask) (pc : Dword) : (atMask s ex pc).m.live = s.m.live := rfl
@[simp] theorem atMask_m_stack (s : State) (ex : Mask) (pc : Dword) : (atMask s ex pc).m.stack = s.m.stack := rfl
@[simp] theorem atMask_m_rf (s : State) (ex : Mask) (pc : Dword) : (atMask s ex pc).m.rf = s.m.rf := rfl
@[simp] theorem atMask_m_rskey (s : State) (ex : Mask) (pc : Dword) : (atMask s ex pc).m.rskey = s.m.rskey := rfl
@[simp] theorem atMask_m_rsctr (s : State) (ex : Mask) (pc : Dword) : (atMask s ex pc).m.rsctr = s.m.rsctr := rfl
@[simp] theorem atMask_m_lorig (s : State) (ex : Mask) (pc : Dword) : (atMask s ex pc).m.lorig = s.m.lorig := rfl
@[simp] theorem atMask_m_regstat (s : State) (ex : Mask) (pc : Dword) : (atMask s ex pc).m.regstat = s.m.regstat := rfl
@[simp] theorem atMask_m_spillcnt (s : State) (ex : Mask) (pc : Dword) : (atMask s ex pc).m.spillcnt = s.m.spillcnt := rfl
@[simp] theorem atMask_m_refillcnt (s : State) (ex : Mask) (pc : Dword) : (atMask s ex pc).m.refillcnt = s.m.refillcnt := rfl
@[simp] theorem atMask_m_rascnt (s : State) (ex : Mask) (pc : Dword) : (atMask s ex pc).m.rascnt = s.m.rascnt := rfl
@[simp] theorem atMask_m_bsbase (s : State) (ex : Mask) (pc : Dword) : (atMask s ex pc).m.bsbase = s.m.bsbase := rfl
@[simp] theorem atMask_m_frames (s : State) (ex : Mask) (pc : Dword) : (atMask s ex pc).m.frames = s.m.frames := rfl
@[simp] theorem atMask_m_cpfault (s : State) (ex : Mask) (pc : Dword) : (atMask s ex pc).m.cpfault = s.m.cpfault := rfl
@[simp] theorem atMask_m_qfault (s : State) (ex : Mask) (pc : Dword) : (atMask s ex pc).m.qfault = s.m.qfault := rfl
@[simp] theorem atMask_m_ovlva (s : State) (ex : Mask) (pc : Dword) : (atMask s ex pc).m.ovlva = s.m.ovlva := rfl
@[simp] theorem atMask_m_shfault (s : State) (ex : Mask) (pc : Dword) : (atMask s ex pc).m.shfault = s.m.shfault := rfl
@[simp] theorem atMask_m_leaseinfo (s : State) (ex : Mask) (pc : Dword) : (atMask s ex pc).m.leaseinfo = s.m.leaseinfo := rfl
@[simp] theorem atMask_m_rowadmit (s : State) (ex : Mask) (pc : Dword) : (atMask s ex pc).m.rowadmit = s.m.rowadmit := rfl
@[simp] theorem atMask_m_xstat (s : State) (ex : Mask) (pc : Dword) : (atMask s ex pc).m.xstat = s.m.xstat := rfl
@[simp] theorem atMask_m_lc (s : State) (ex : Mask) (pc : Dword) : (atMask s ex pc).m.lc = s.m.lc := rfl
@[simp] theorem atMask_m_lapit (s : State) (ex : Mask) (pc : Dword) : (atMask s ex pc).m.lapit = s.m.lapit := rfl
@[simp] theorem atMask_m_rspbase (s : State) (ex : Mask) (pc : Dword) : (atMask s ex pc).m.rspbase = s.m.rspbase := rfl
@[simp] theorem atMask_m_held (s : State) (ex : Mask) (pc : Dword) : (atMask s ex pc).m.held = s.m.held := rfl
@[simp] theorem atMask_m_pre (s : State) (ex : Mask) (pc : Dword) : (atMask s ex pc).m.pre = s.m.pre := rfl
@[simp] theorem atMask_m_ctxOv (s : State) (ex : Mask) (pc : Dword) : (atMask s ex pc).m.ctxOv = s.m.ctxOv := rfl
@[simp] theorem atMask_m_datapath (s : State) (ex : Mask) (pc : Dword) : (atMask s ex pc).m.datapath = s.m.datapath := rfl
@[simp] theorem atMask_m_advs (s : State) (ex : Mask) (pc : Dword) : (atMask s ex pc).m.advs = s.m.advs := rfl
@[simp] theorem atMask_m_sureSkip (s : State) (ex : Mask) (pc : Dword) : (atMask s ex pc).m.sureSkip = s.m.sureSkip := rfl
@[simp] theorem atMask_m_surePre (s : State) (ex : Mask) (pc : Dword) : (atMask s ex pc).m.surePre = s.m.surePre := rfl
@[simp] theorem atMask_m_look (s : State) (ex : Mask) (pc : Dword) : (atMask s ex pc).m.look = s.m.look := rfl
@[simp] theorem atMask_m_ready (s : State) (ex : Mask) (pc : Dword) : (atMask s ex pc).m.ready = s.m.ready := rfl
@[simp] theorem atMask_m_issued (s : State) (ex : Mask) (pc : Dword) : (atMask s ex pc).m.issued = s.m.issued := rfl
@[simp] theorem atMask_m_clock (s : State) (ex : Mask) (pc : Dword) : (atMask s ex pc).m.clock = s.m.clock := rfl

/-! ## A uniform register written -/

@[simp] theorem setK_peers (s : State) (n : Nat) (x : Dword) : (setK s n x).peers = s.peers := rfl
@[simp] theorem setK_team (s : State) (n : Nat) (x : Dword) : (setK s n x).team = s.team := rfl
@[simp] theorem setK_teams (s : State) (n : Nat) (x : Dword) : (setK s n x).teams = s.teams := rfl
@[simp] theorem setK_core (s : State) (n : Nat) (x : Dword) : (setK s n x).core = s.core := rfl
@[simp] theorem setK_cores (s : State) (n : Nat) (x : Dword) : (setK s n x).cores = s.cores := rfl
@[simp] theorem setK_cl (s : State) (n : Nat) (x : Dword) : (setK s n x).cl = s.cl := rfl
@[simp] theorem setK_cls (s : State) (n : Nat) (x : Dword) : (setK s n x).cls = s.cls := rfl
@[simp] theorem setK_ctx (s : State) (n : Nat) (x : Dword) : (setK s n x).ctx = s.ctx := rfl
@[simp] theorem setK_ctxs (s : State) (n : Nat) (x : Dword) : (setK s n x).ctxs = s.ctxs := rfl
@[simp] theorem setK_part (s : State) (n : Nat) (x : Dword) : (setK s n x).part = s.part := rfl
@[simp] theorem setK_parts (s : State) (n : Nat) (x : Dword) : (setK s n x).parts = s.parts := rfl
@[simp] theorem setK_mod (s : State) (n : Nat) (x : Dword) : (setK s n x).mod = s.mod := rfl
@[simp] theorem setK_mem (s : State) (n : Nat) (x : Dword) : (setK s n x).mem = s.mem := rfl
@[simp] theorem setK_vault (s : State) (n : Nat) (x : Dword) : (setK s n x).vault = s.vault := rfl
@[simp] theorem setK_turns (s : State) (n : Nat) (x : Dword) : (setK s n x).turns = s.turns := rfl
@[simp] theorem setK_cycle (s : State) (n : Nat) (x : Dword) : (setK s n x).cycle = s.cycle := rfl
@[simp] theorem setK_free (s : State) (n : Nat) (x : Dword) : (setK s n x).free = s.free := rfl
@[simp] theorem setK_nextId (s : State) (n : Nat) (x : Dword) : (setK s n x).nextId = s.nextId := rfl
@[simp] theorem setK_m_id (s : State) (n : Nat) (x : Dword) : (setK s n x).m.id = s.m.id := rfl
@[simp] theorem setK_m_kind (s : State) (n : Nat) (x : Dword) : (setK s n x).m.kind = s.m.kind := rfl
@[simp] theorem setK_m_status (s : State) (n : Nat) (x : Dword) : (setK s n x).m.status = s.m.status := rfl
@[simp] theorem setK_m_wait (s : State) (n : Nat) (x : Dword) : (setK s n x).m.wait = s.m.wait := rfl
@[simp] theorem setK_m_role (s : State) (n : Nat) (x : Dword) : (setK s n x).m.role = s.m.role := rfl
@[simp] theorem setK_m_memNo (s : State) (n : Nat) (x : Dword) : (setK s n x).m.memNo = s.m.memNo := rfl
@[simp] theorem setK_m_waveId (s : State) (n : Nat) (x : Dword) : (setK s n x).m.waveId = s.m.waveId := rfl
@[simp] theorem setK_m_slots (s : State) (n : Nat) (x : Dword) : (setK s n x).m.slots = s.m.slots := rfl
@[simp] theorem setK_m_half (s : State) (n : Nat) (x : Dword) : (setK s n x).m.half = s.m.half := rfl
@[simp] theorem setK_m_apNum (s : State) (n : Nat) (x : Dword) : (setK s n x).m.apNum = s.m.apNum := rfl
@[simp] theorem setK_m_cursor (s : State) (n : Nat) (x : Dword) : (setK s n x).m.cursor = s.m.cursor := rfl
@[simp] theorem setK_m_exec (s : State) (n : Nat) (x : Dword) : (setK s n x).m.exec = s.m.exec := rfl
@[simp] theorem setK_m_live (s : State) (n : Nat) (x : Dword) : (setK s n x).m.live = s.m.live := rfl
@[simp] theorem setK_m_stack (s : State) (n : Nat) (x : Dword) : (setK s n x).m.stack = s.m.stack := rfl
@[simp] theorem setK_m_rskey (s : State) (n : Nat) (x : Dword) : (setK s n x).m.rskey = s.m.rskey := rfl
@[simp] theorem setK_m_rsctr (s : State) (n : Nat) (x : Dword) : (setK s n x).m.rsctr = s.m.rsctr := rfl
@[simp] theorem setK_m_lorig (s : State) (n : Nat) (x : Dword) : (setK s n x).m.lorig = s.m.lorig := rfl
@[simp] theorem setK_m_regstat (s : State) (n : Nat) (x : Dword) : (setK s n x).m.regstat = s.m.regstat := rfl
@[simp] theorem setK_m_spillcnt (s : State) (n : Nat) (x : Dword) : (setK s n x).m.spillcnt = s.m.spillcnt := rfl
@[simp] theorem setK_m_refillcnt (s : State) (n : Nat) (x : Dword) : (setK s n x).m.refillcnt = s.m.refillcnt := rfl
@[simp] theorem setK_m_rascnt (s : State) (n : Nat) (x : Dword) : (setK s n x).m.rascnt = s.m.rascnt := rfl
@[simp] theorem setK_m_bsbase (s : State) (n : Nat) (x : Dword) : (setK s n x).m.bsbase = s.m.bsbase := rfl
@[simp] theorem setK_m_frames (s : State) (n : Nat) (x : Dword) : (setK s n x).m.frames = s.m.frames := rfl
@[simp] theorem setK_m_cpfault (s : State) (n : Nat) (x : Dword) : (setK s n x).m.cpfault = s.m.cpfault := rfl
@[simp] theorem setK_m_qfault (s : State) (n : Nat) (x : Dword) : (setK s n x).m.qfault = s.m.qfault := rfl
@[simp] theorem setK_m_ovlva (s : State) (n : Nat) (x : Dword) : (setK s n x).m.ovlva = s.m.ovlva := rfl
@[simp] theorem setK_m_shfault (s : State) (n : Nat) (x : Dword) : (setK s n x).m.shfault = s.m.shfault := rfl
@[simp] theorem setK_m_leaseinfo (s : State) (n : Nat) (x : Dword) : (setK s n x).m.leaseinfo = s.m.leaseinfo := rfl
@[simp] theorem setK_m_rowadmit (s : State) (n : Nat) (x : Dword) : (setK s n x).m.rowadmit = s.m.rowadmit := rfl
@[simp] theorem setK_m_xstat (s : State) (n : Nat) (x : Dword) : (setK s n x).m.xstat = s.m.xstat := rfl
@[simp] theorem setK_m_lc (s : State) (n : Nat) (x : Dword) : (setK s n x).m.lc = s.m.lc := rfl
@[simp] theorem setK_m_lapit (s : State) (n : Nat) (x : Dword) : (setK s n x).m.lapit = s.m.lapit := rfl
@[simp] theorem setK_m_rspbase (s : State) (n : Nat) (x : Dword) : (setK s n x).m.rspbase = s.m.rspbase := rfl
@[simp] theorem setK_m_held (s : State) (n : Nat) (x : Dword) : (setK s n x).m.held = s.m.held := rfl
@[simp] theorem setK_m_pre (s : State) (n : Nat) (x : Dword) : (setK s n x).m.pre = s.m.pre := rfl
@[simp] theorem setK_m_ctxOv (s : State) (n : Nat) (x : Dword) : (setK s n x).m.ctxOv = s.m.ctxOv := rfl
@[simp] theorem setK_m_datapath (s : State) (n : Nat) (x : Dword) : (setK s n x).m.datapath = s.m.datapath := rfl
@[simp] theorem setK_m_advs (s : State) (n : Nat) (x : Dword) : (setK s n x).m.advs = s.m.advs := rfl
@[simp] theorem setK_m_sureSkip (s : State) (n : Nat) (x : Dword) : (setK s n x).m.sureSkip = s.m.sureSkip := rfl
@[simp] theorem setK_m_surePre (s : State) (n : Nat) (x : Dword) : (setK s n x).m.surePre = s.m.surePre := rfl
@[simp] theorem setK_m_look (s : State) (n : Nat) (x : Dword) : (setK s n x).m.look = s.m.look := rfl
@[simp] theorem setK_m_ready (s : State) (n : Nat) (x : Dword) : (setK s n x).m.ready = s.m.ready := rfl
@[simp] theorem setK_m_issued (s : State) (n : Nat) (x : Dword) : (setK s n x).m.issued = s.m.issued := rfl
@[simp] theorem setK_m_clock (s : State) (n : Nat) (x : Dword) : (setK s n x).m.clock = s.m.clock := rfl
@[simp] theorem setK_rf_vregs (s : State) (n : Nat) (x : Dword) : (setK s n x).m.rf.vregs = s.m.rf.vregs := rfl
@[simp] theorem setK_rf_kregs (s : State) (n : Nat) (x : Dword) : (setK s n x).m.rf.kregs = s.m.rf.kregs.set n x := rfl
@[simp] theorem setK_rf_preds (s : State) (n : Nat) (x : Dword) : (setK s n x).m.rf.preds = s.m.rf.preds := rfl
@[simp] theorem setK_rf_budget (s : State) (n : Nat) (x : Dword) : (setK s n x).m.rf.budget = s.m.rf.budget := rfl
@[simp] theorem setK_rf_unif (s : State) (n : Nat) (x : Dword) : (setK s n x).m.rf.unif = s.m.rf.unif := rfl
@[simp] theorem setK_rf_kbad (s : State) (n : Nat) (x : Dword) : (setK s n x).m.rf.kbad = s.m.rf.kbad &&& ~~~(1#64 <<< n) := rfl
@[simp] theorem setK_rf_pbad (s : State) (n : Nat) (x : Dword) : (setK s n x).m.rf.pbad = s.m.rf.pbad := rfl

/-! ## The shuttle context in focus replaced -/

@[simp] theorem setSh_m (s : State) (c : ShCtx) : (setSh s c).m = s.m := rfl
@[simp] theorem setSh_peers (s : State) (c : ShCtx) : (setSh s c).peers = s.peers := rfl
@[simp] theorem setSh_teams (s : State) (c : ShCtx) : (setSh s c).teams = s.teams := rfl
@[simp] theorem setSh_core (s : State) (c : ShCtx) : (setSh s c).core = s.core := rfl
@[simp] theorem setSh_cores (s : State) (c : ShCtx) : (setSh s c).cores = s.cores := rfl
@[simp] theorem setSh_cl (s : State) (c : ShCtx) : (setSh s c).cl = s.cl := rfl
@[simp] theorem setSh_cls (s : State) (c : ShCtx) : (setSh s c).cls = s.cls := rfl
@[simp] theorem setSh_ctx (s : State) (c : ShCtx) : (setSh s c).ctx = s.ctx := rfl
@[simp] theorem setSh_ctxs (s : State) (c : ShCtx) : (setSh s c).ctxs = s.ctxs := rfl
@[simp] theorem setSh_part (s : State) (c : ShCtx) : (setSh s c).part = s.part := rfl
@[simp] theorem setSh_parts (s : State) (c : ShCtx) : (setSh s c).parts = s.parts := rfl
@[simp] theorem setSh_mod (s : State) (c : ShCtx) : (setSh s c).mod = s.mod := rfl
@[simp] theorem setSh_mem (s : State) (c : ShCtx) : (setSh s c).mem = s.mem := rfl
@[simp] theorem setSh_vault (s : State) (c : ShCtx) : (setSh s c).vault = s.vault := rfl
@[simp] theorem setSh_turns (s : State) (c : ShCtx) : (setSh s c).turns = s.turns := rfl
@[simp] theorem setSh_cycle (s : State) (c : ShCtx) : (setSh s c).cycle = s.cycle := rfl
@[simp] theorem setSh_free (s : State) (c : ShCtx) : (setSh s c).free = s.free := rfl
@[simp] theorem setSh_nextId (s : State) (c : ShCtx) : (setSh s c).nextId = s.nextId := rfl
@[simp] theorem setSh_team_present (s : State) (c : ShCtx) : (setSh s c).team.present = s.team.present := rfl
@[simp] theorem setSh_team_id (s : State) (c : ShCtx) : (setSh s c).team.id = s.team.id := rfl
@[simp] theorem setSh_team_teamId (s : State) (c : ShCtx) : (setSh s c).team.teamId = s.team.teamId := rfl
@[simp] theorem setSh_team_part (s : State) (c : ShCtx) : (setSh s c).team.part = s.team.part := rfl
@[simp] theorem setSh_team_ctx (s : State) (c : ShCtx) : (setSh s c).team.ctx = s.team.ctx := rfl
@[simp] theorem setSh_team_core (s : State) (c : ShCtx) : (setSh s c).team.core = s.team.core := rfl
@[simp] theorem setSh_team_launch (s : State) (c : ShCtx) : (setSh s c).team.launch = s.team.launch := rfl
@[simp] theorem setSh_team_roles (s : State) (c : ShCtx) : (setSh s c).team.roles = s.team.roles := rfl
@[simp] theorem setSh_team_width (s : State) (c : ShCtx) : (setSh s c).team.width = s.team.width := rfl
@[simp] theorem setSh_team_grid (s : State) (c : ShCtx) : (setSh s c).team.grid = s.team.grid := rfl
@[simp] theorem setSh_team_pos (s : State) (c : ShCtx) : (setSh s c).team.pos = s.team.pos := rfl
@[simp] theorem setSh_team_entry (s : State) (c : ShCtx) : (setSh s c).team.entry = s.team.entry := rfl
@[simp] theorem setSh_team_handler (s : State) (c : ShCtx) : (setSh s c).team.handler = s.team.handler := rfl
@[simp] theorem setSh_team_share (s : State) (c : ShCtx) : (setSh s c).team.share = s.team.share := rfl
@[simp] theorem setSh_team_spad (s : State) (c : ShCtx) : (setSh s c).team.spad = s.team.spad := rfl
@[simp] theorem setSh_team_full (s : State) (c : ShCtx) : (setSh s c).team.full = s.team.full := rfl
@[simp] theorem setSh_team_qset (s : State) (c : ShCtx) : (setSh s c).team.qset = s.team.qset := rfl
@[simp] theorem setSh_team_queues (s : State) (c : ShCtx) : (setSh s c).team.queues = s.team.queues := rfl
@[simp] theorem setSh_team_streams (s : State) (c : ShCtx) : (setSh s c).team.streams = s.team.streams := rfl
@[simp] theorem setSh_team_chans (s : State) (c : ShCtx) : (setSh s c).team.chans = s.team.chans := rfl
@[simp] theorem setSh_team_bars (s : State) (c : ShCtx) : (setSh s c).team.bars = s.team.bars := rfl
@[simp] theorem setSh_team_tbmask (s : State) (c : ShCtx) : (setSh s c).team.tbmask = s.team.tbmask := rfl
@[simp] theorem setSh_team_copies (s : State) (c : ShCtx) : (setSh s c).team.copies = s.team.copies := rfl
@[simp] theorem setSh_team_abort (s : State) (c : ShCtx) : (setSh s c).team.abort = s.team.abort := rfl
@[simp] theorem setSh_team_undeliv (s : State) (c : ShCtx) : (setSh s c).team.undeliv = s.team.undeliv := rfl
@[simp] theorem setSh_team_mcwin (s : State) (c : ShCtx) : (setSh s c).team.mcwin = s.team.mcwin := rfl
@[simp] theorem setSh_team_tiles (s : State) (c : ShCtx) : (setSh s c).team.tiles = s.team.tiles := rfl
@[simp] theorem setSh_team_cbs (s : State) (c : ShCtx) : (setSh s c).team.cbs = s.team.cbs := rfl
@[simp] theorem setSh_team_rels (s : State) (c : ShCtx) : (setSh s c).team.rels = s.team.rels := rfl
@[simp] theorem setSh_team_trees (s : State) (c : ShCtx) : (setSh s c).team.trees = s.team.trees := rfl
@[simp] theorem setSh_team_wbs (s : State) (c : ShCtx) : (setSh s c).team.wbs = s.team.wbs := rfl
@[simp] theorem setSh_team_sh (s : State) (c : ShCtx) : (setSh s c).team.sh = c := rfl
@[simp] theorem setSh_team_shs (s : State) (c : ShCtx) : (setSh s c).team.shs = s.team.shs := rfl
@[simp] theorem setSh_team_drift (s : State) (c : ShCtx) : (setSh s c).team.drift = s.team.drift := rfl
@[simp] theorem setSh_team_prkstat (s : State) (c : ShCtx) : (setSh s c).team.prkstat = s.team.prkstat := rfl
@[simp] theorem setSh_team_mxstat (s : State) (c : ShCtx) : (setSh s c).team.mxstat = s.team.mxstat := rfl
@[simp] theorem setSh_team_mxskip (s : State) (c : ShCtx) : (setSh s c).team.mxskip = s.team.mxskip := rfl
@[simp] theorem setSh_team_mxpre (s : State) (c : ShCtx) : (setSh s c).team.mxpre = s.team.mxpre := rfl
@[simp] theorem setSh_team_mxras (s : State) (c : ShCtx) : (setSh s c).team.mxras = s.team.mxras := rfl
@[simp] theorem setSh_team_lblstat (s : State) (c : ShCtx) : (setSh s c).team.lblstat = s.team.lblstat := rfl
@[simp] theorem setSh_team_tapstat (s : State) (c : ShCtx) : (setSh s c).team.tapstat = s.team.tapstat := rfl
@[simp] theorem setSh_team_prestat (s : State) (c : ShCtx) : (setSh s c).team.prestat = s.team.prestat := rfl
@[simp] theorem setSh_team_bindrec (s : State) (c : ShCtx) : (setSh s c).team.bindrec = s.team.bindrec := rfl
@[simp] theorem setSh_team_preReq (s : State) (c : ShCtx) : (setSh s c).team.preReq = s.team.preReq := rfl
@[simp] theorem setSh_team_ranFrom (s : State) (c : ShCtx) : (setSh s c).team.ranFrom = s.team.ranFrom := rfl
@[simp] theorem setSh_team_told (s : State) (c : ShCtx) : (setSh s c).team.told = s.team.told := rfl
@[simp] theorem setSh_team_area (s : State) (c : ShCtx) : (setSh s c).team.area = s.team.area := rfl
@[simp] theorem setSh_team_wins (s : State) (c : ShCtx) : (setSh s c).team.wins = s.team.wins := rfl
@[simp] theorem setSh_team_savedOps (s : State) (c : ShCtx) : (setSh s c).team.savedOps = s.team.savedOps := rfl
@[simp] theorem setSh_team_spadUpset (s : State) (c : ShCtx) : (setSh s c).team.spadUpset = s.team.spadUpset := rfl

/-! ## A sleep ended -/

@[simp] theorem wake_m_wait (s : State) : (wake s).m.wait = none := rfl
@[simp] theorem wake_m_ready (s : State) : (wake s).m.ready = s.cycle := rfl
@[simp] theorem wake_m_cursor (s : State) : (wake s).m.cursor = s.m.cursor := rfl
@[simp] theorem wake_m_exec (s : State) : (wake s).m.exec = s.m.exec := rfl
@[simp] theorem wake_m_rf (s : State) : (wake s).m.rf = s.m.rf := rfl
@[simp] theorem wake_m_frames (s : State) : (wake s).m.frames = s.m.frames := rfl
@[simp] theorem wake_peers (s : State) : (wake s).peers = s.peers := rfl
@[simp] theorem wake_team (s : State) : (wake s).team = s.team := rfl
@[simp] theorem wake_core (s : State) : (wake s).core = s.core := rfl
@[simp] theorem wake_part (s : State) : (wake s).part = s.part := rfl
@[simp] theorem wake_mem (s : State) : (wake s).mem = s.mem := rfl
@[simp] theorem wake_vault (s : State) : (wake s).vault = s.vault := rfl

/-! ## An access seen by the second-level cache -/

@[simp] theorem l2Locs_m (s : State) (ls : List Loc) (st : Bool) : (l2Locs s ls st).m = s.m := rfl
@[simp] theorem l2Locs_peers (s : State) (ls : List Loc) (st : Bool) : (l2Locs s ls st).peers = s.peers := rfl
@[simp] theorem l2Locs_team (s : State) (ls : List Loc) (st : Bool) : (l2Locs s ls st).team = s.team := rfl
@[simp] theorem l2Locs_teams (s : State) (ls : List Loc) (st : Bool) : (l2Locs s ls st).teams = s.teams := rfl
@[simp] theorem l2Locs_core (s : State) (ls : List Loc) (st : Bool) : (l2Locs s ls st).core = s.core := rfl
@[simp] theorem l2Locs_cores (s : State) (ls : List Loc) (st : Bool) : (l2Locs s ls st).cores = s.cores := rfl
@[simp] theorem l2Locs_ctx (s : State) (ls : List Loc) (st : Bool) : (l2Locs s ls st).ctx = s.ctx := rfl
@[simp] theorem l2Locs_mod (s : State) (ls : List Loc) (st : Bool) : (l2Locs s ls st).mod = s.mod := rfl
@[simp] theorem l2Locs_mem (s : State) (ls : List Loc) (st : Bool) : (l2Locs s ls st).mem = s.mem := rfl
@[simp] theorem l2Locs_vault (s : State) (ls : List Loc) (st : Bool) : (l2Locs s ls st).vault = s.vault := rfl

end Sys2Proof.Machine
end

