-- ==== Sys2Proof/Laws/Ops.lean ====
section
/-!
SUPPORT. What the shared operations can do, each said once: the masks after an instruction, the walker's words, control operations, and accesses
that resolved.
-/
namespace Sys2Proof.Machine

/-! ## Acts -/

@[simp] theorem applyAct_ok (s t : State) (ic : Ic) : applyAct s ic (.ok t) = complete (setCursor t ic.next) := rfl
@[simp] theorem applyAct_go (s t : State) (ic : Ic) : applyAct s ic (.go t) = complete t := rfl
@[simp] theorem applyAct_trap (s : State) (ic : Ic) (t : Trap) : applyAct s ic (.trap t) = enterTrap s ic.f ic.pc ic.len ic.act t := rfl
@[simp] theorem applyAct_sleep (s : State) (ic : Ic) (w : Wait) :
    applyAct s ic (.sleep w) = { s with m := { s.m with wait := some w } } := rfl
@[simp] theorem applyAct_hold (s t : State) (ic : Ic) (w : Wait) :
    applyAct s ic (.hold t w) = { t with m := { t.m with wait := some w } } := rfl
@[simp] theorem applyAct_ask (s : State) (ic : Ic) (va : Nat) :
    applyAct s ic (.ask va) = { askPage s va with m := { s.m with wait := some (.pri va) } } := rfl

/-- With a lane in LIVE and one in EXEC the masks are settled (R76, R80). -/
theorem settleMasks_self {s : State} (hl : s.m.live ≠ 0#128) (hx : s.m.exec ≠ 0#128) : settleMasks s = s := by
  simp [settleMasks, hl, hx]

/-- With no lane in LIVE the member retires (R80). -/
theorem settleMasks_retire {s : State} (hl : s.m.live = 0#128) : settleMasks s = retire s := by simp [settleMasks, hl]

/-! ## Through the caches -/

/-- The way to the bytes of an access passes the second-level cache alone (R195). -/
theorem l2Walks_caches (s : State) (v : View) (va n : Nat) : cachesOnly s (l2Walks s v va n) := by
  unfold l2Walks
  split
  · exact cachesOnly_foldl (fun s i => l2Locs_caches s _ _) _ s
  · exact l2Locs_caches s _ _

/-- An access of a member changes the memories, the share and the caches alone (R195, R199). -/
theorem passCaches_caches (s : State) (v : View) (va : Nat) (ls : List Loc) (store : Bool) : cachesOnly s (passCaches s v va ls store) := by
  unfold passCaches
  refine cachesOnly_trans (l2Walks_caches s v va ls.length) ?_
  dsimp only
  split
  · exact cachesOnly_trans (l1FillLocs_caches _ ls) (l2Locs_caches _ _ _)
  · exact cachesOnly_trans (atHome_caches _ ls) (l2Locs_caches _ _ _)
  · exact atHome_caches _ ls

/-- An access of an engine does no more. -/
theorem l2Pass_caches (s : State) (v : View) (va : Nat) (ls : List Loc) (store : Bool) : cachesOnly s (l2Pass s v va ls store) := by
  unfold l2Pass
  refine cachesOnly_trans (l2Walks_caches s v va ls.length) ?_
  dsimp only
  split
  · exact l2Locs_caches _ _ _
  · exact cachesOnly_trans (atHome_caches _ ls) (l2Locs_caches _ _ _)
  · exact atHome_caches _ ls

/-- A member's read of a uniform address changes nothing else, and gives what the core sees at places that are its own to read (R205). -/
theorem readOne_ok {s t : State} {ic : Ic} {va n : Nat} {bs : List Byte} (h : readOne s ic va n = .ok (t, bs)) :
    ∃ ls, resolveOne s ic .read va n = .ok ls ∧ t = passCaches s (memberView s) va ls false ∧ bs = readLocs t ls := by
  unfold readOne at h
  cases hr : resolveOne s ic .read va n with
  | error a => simp [hr, Except.map] at h
  | ok ls =>
    simp only [hr, Except.map, Except.ok.injEq, Prod.mk.injEq] at h
    obtain ⟨rfl, rfl⟩ := h
    exact ⟨ls, rfl, rfl, rfl⟩

theorem readOne_caches {s t : State} {ic : Ic} {va n : Nat} {bs : List Byte} (h : readOne s ic va n = .ok (t, bs)) : cachesOnly s t := by
  obtain ⟨ls, -, rfl, -⟩ := readOne_ok h
  exact passCaches_caches ..

/-! ## The stack -/

/-- An access of a slot of the stack extension (R74). -/
theorem passSlot_caches (s : State) (acc : Access) (i : Nat) : cachesOnly s (passSlot s acc i) := by
  unfold passSlot
  split
  · exact passCaches_caches ..
  · rfl

/-- The refill of the held entries changes memory and the caches alone (R74). -/
theorem refill_caches (s : State) (n : Nat) : cachesOnly s (refill s n) := cachesOnly_foldl (fun s i => passSlot_caches s .read i) _ s

/-- Moving the oldest held entry out changes memory and the caches alone (R74). -/
theorem moveOldest_caches (s : State) : cachesOnly s (moveOldest s) := by
  unfold moveOldest
  split
  · dsimp only
    split
    · exact cachesOnly_trans (passCaches_caches ..) (writeLocs_caches _ _ _)
    · rfl
  · rfl

/-- A state with entries pushed on the member's stack. -/
def withStack (s : State) (es : List StackEntry) : State := { s with m := { s.m with stack := es ++ s.m.stack } }

/-- Pushing entries changes the stack, memory and the caches alone (R74). -/
theorem pushed_caches (s : State) : ∀ es : List StackEntry, cachesOnly (withStack s es) (pushed s es)
  | [] => rfl
  | e :: es => by
    have h := pushed_caches s es
    have h' := moveOldest_caches (pushed s es)
    have hp : pushed s (e :: es) = pushedOne (pushed s es) e := rfl
    unfold cachesOnly at h h' ⊢
    rw [hp, pushedOne, h', h]
    rfl

/-- The member after entries have been pushed. -/
@[simp] theorem pushed_m (s : State) (es : List StackEntry) : (pushed s es).m = { s.m with stack := es ++ s.m.stack } := by
  rw [pushed_caches s es]
  rfl

/-- Entries that fit are pushed (R74, R283). -/
theorem pushEntries_ok {s : State} {es : List StackEntry} (h : fits s es.length) : pushEntries s es = .ok (pushed s es) := by
  have hl : ¬ stackLimit s.m.kind < s.m.stack.length + es.length := Nat.not_lt.mpr h.1
  simp [pushEntries, pushTrap, h.2, hl]

/-- Entries past the limit are not pushed, and raise BOUND with cause RSTK (R74, R283). -/
theorem pushEntries_full {s : State} {es : List StackEntry} (hn : es ≠ []) (h : stackLimit s.m.kind < s.m.stack.length + es.length) :
    pushEntries s es = .error (bound bRstk) := by
  simp [pushEntries, pushTrap, h, hn]

/-- A pop that needs no refill from a lost slot: EXEC empty resumes from the first entry with a live lane (R76). -/
theorem settleMasks_resume {s : State} {e : StackEntry} {r : List StackEntry} (hl : s.m.live ≠ 0#128) (hx : s.m.exec = 0#128)
    (hf : resumeEntry s.m.live (frameMark s.m) s.m.stack = some (e, r)) (hr : refillLost s (s.m.stack.length - r.length) = false) :
    settleMasks s =
      let t := refill s (s.m.stack.length - r.length)
      { t with m := { t.m with exec := e.mask &&& t.m.live, cursor := e.addr.setWidth 64, stack := r } } := by
  simp [settleMasks, hl, hx, hf, hr]

/-! ## The format walker -/

/-- A context that does not run is left alone (R366). -/
theorem shuttleStep_idle {s : State} (body : ShCtx → ShAct) (h : s.team.sh.phase ≠ .running) : shuttleStep s body = .next s := by
  simp [shuttleStep, h]

/-- A word that completes moves the cursor to the next word (R371). -/
theorem shuttleStep_ok {s : State} {body : ShCtx → ShAct} {c : ShCtx} (h : s.team.sh.phase = .running) (hb : body s.team.sh = .ok c) :
    shuttleStep s body = .next (setSh s { c with cursor := s.team.sh.cursor + 1 }) := by
  simp [shuttleStep, h, hb]

/-- A word that sets the cursor (R370). -/
theorem shuttleStep_go {s : State} {body : ShCtx → ShAct} {c : ShCtx} (h : s.team.sh.phase = .running) (hb : body s.team.sh = .go c) :
    shuttleStep s body = .next (setSh s c) := by
  simp [shuttleStep, h, hb]

/-- A word that changes the machine too. -/
theorem shuttleStep_put {s t : State} {body : ShCtx → ShAct} {c : ShCtx} (h : s.team.sh.phase = .running)
    (hb : body s.team.sh = .put t c) : shuttleStep s body = .next (setSh t { c with cursor := s.team.sh.cursor + 1 }) := by
  simp [shuttleStep, h, hb]

/-- A word that faults stops its context (R366). -/
theorem shuttleStep_bad {s : State} {body : ShCtx → ShAct} {cause : Nat} (h : s.team.sh.phase = .running)
    (hb : body s.team.sh = .bad cause) : shuttleStep s body = .next (setSh s (stopSh s.team.sh cause none)) := by
  simp [shuttleStep, h, hb]

/-- A word that waits changes nothing (R359). -/
theorem shuttleStep_wait {s : State} {body : ShCtx → ShAct} (h : s.team.sh.phase = .running) (hb : body s.team.sh = .wait) :
    shuttleStep s body = .next s := by
  simp [shuttleStep, h, hb]

/-- A word whose access fails in either stage stops its context with the access's fault (R366). -/
theorem shuttleStep_miss {s : State} {body : ShCtx → ShAct} {f : XFault} (h : s.team.sh.phase = .running)
    (hb : body s.team.sh = .miss f) (hf : f.cls = .mem ∨ f.cls = .walk) :
    shuttleStep s body = .next (setSh s (stopSh s.team.sh f.cause (some (engFaultOf f .read s.team.sh.priv)))) := by
  rcases hf with hf | hf <;> simp [shuttleStep, h, hb, hf]

/-! ## Control operations -/

/-- The owner of control has its operation carried out (R499). -/
theorem control_owner {port : Nat} {s : State} {op : State → State} (h : ownerPort s.mod = some port) :
    control port s op = .next { op s with mod := { (op s).mod with ctl := (op s).mod.ctl ++ [(port, false)] } } := by
  simp [control, h]

/-- Another port's operation completes with NOTOWNER and no effect (R499). -/
theorem control_other {port : Nat} {s : State} {op : State → State} (h : ownerPort s.mod ≠ some port) :
    control port s op = .next { s with mod := { s.mod with ctl := s.mod.ctl ++ [(port, true)] } } := by
  simp [control, h]

/-! ## Accesses -/

/-- An access that resolved: its places are those of the range, and nothing stands against them (R205, R245, R502, R509). -/
theorem resolveAccess_ok {s : State} {v : View} {acc : Access} {va n : Nat} {ls : List Loc} (h : resolveAccess s v acc va n = .ok ls) :
    resolveRange s v acc va n = .ok ls ∧ placeFault s v (v.home || cacheUse s v va != .both) acc va ls = none := by
  unfold resolveAccess at h
  generalize (v.home || cacheUse s v va != .both) = home at h ⊢
  cases hr : resolveRange s v acc va n with
  | error e => simp [hr, bind, Except.bind] at h
  | ok ls' =>
    cases hp : placeFault s v home acc va ls' with
    | some e => simp [hr, hp, bind, Except.bind] at h
    | none =>
      simp only [hr, hp, bind, Except.bind, pure, Except.pure, Except.ok.injEq] at h
      subst h
      exact ⟨rfl, hp⟩

/-- Places that nothing stands against: no engine operation issued before the access owns one (R245). -/
theorem placeFault_none {s : State} {v : View} {home : Bool} {acc : Access} {va : Nat} {ls : List Loc}
    (h : placeFault s v home acc va ls = none) :
    ls.any (ownedBy s s.team.id v.engine v.copyOf) = false := by
  cases ho : ls.any (ownedBy s s.team.id v.engine v.copyOf) with
  | false => rfl
  | true =>
    simp only [placeFault, ho, if_true] at h
    rw [← apply_ite some] at h
    cases h

/-- An access of a member that resolved (R205): its places, none of which an engine has yet to write (R245). -/
theorem resolveOne_ok {s : State} {ic : Ic} {acc : Access} {va n : Nat} {ls : List Loc} (h : resolveOne s ic acc va n = .ok ls) :
    resolveAccess s (accessView s) acc va n = .ok ls ∧ ownedAny s ls = false := by
  unfold resolveOne resolveIn at h
  split at h
  · next ls' hr =>
    cases h
    exact ⟨hr, placeFault_none (resolveAccess_ok hr).2⟩
  · split at h <;> cases h

/-- Accesses of lanes that resolved: every address is a multiple of the size, and every lane resolved (R205). -/
theorem memResolve_ok {ic : Ic} {acc : Access} {home : Bool} {size : Nat} {as : List (Nat × Nat)} {locs : List (Nat × List Loc)}
    (h : memResolve ic acc home size as = .ok locs) :
    (∀ e ∈ as, e.2 % size = 0) ∧ resolveLanes ic.rd { accessView ic.rd with home := home } acc size as = (locs, []) := by
  unfold memResolve at h
  split at h
  · cases h
  · next ha =>
    split at h
    next ls bad hr =>
      split at h
      · next hb =>
        cases h
        rw [List.isEmpty_iff] at hb
        refine ⟨fun e he => ?_, by rw [hr, hb]⟩
        exact Decidable.byContradiction fun hc => ha (List.any_eq_true.mpr ⟨e, he, by simpa using hc⟩)
      · cases h

end Sys2Proof.Machine
end

