-- ==== Sys2Proof/Tests/Slice0.lean ====
section
/-!
SUPPORT. Tests: words of the spec's encodings and what they decode to, ill-formed instructions, and single steps on small states. An
expected value is one that spec/ states or that follows by hand from the rule named; the tests of a statement also show that its
hypotheses can be met.
-/
namespace Sys2Proof.Tests

open Sys2Proof Sys2Proof.Machine

set_option Elab.async false

/-! ## Small states -/

/-- The fields of an instruction with NONE in every operand field, on role 7 and without a predicate (R45). -/
def plain (opc : Nat) : Fields :=
  { len := 0, role := 7, preg := 7, pneg := 0, lr := 0, mod := 0, dst := 511, s0 := 511, s1 := 511, s2 := 511, ext := 0
    opc := BitVec.ofNat 9 opc }

/-- The fields of an instruction of an entry. -/
def ins (e : Entry) (dst s0 s1 s2 : Nat) (mod : Nat := 0) (ext : Nat := 0) (len : Nat := 0) : Fields :=
  { plain e.opc with
    len := BitVec.ofNat 2 len, mod := BitVec.ofNat 7 mod, dst := BitVec.ofNat 9 dst, s0 := BitVec.ofNat 9 s0, s1 := BitVec.ofNat 9 s1
    s2 := BitVec.ofNat 9 s2, ext := BitVec.ofNat 64 ext }

/-- Operand names (R53): k, q and p registers, special values, small constants, IMM and NONE. -/
def k (n : Nat) : Nat := 256 + n
def q (n : Nat) : Nat := 320 + n
def p (n : Nat) : Nat := 336 + n
def sp (n : Nat) : Nat := 344 + n
def c (n : Nat) : Nat := 352 + n
def IMM : Nat := 510
def NO : Nat := 511

/-- A wave of 32 lanes whose context has handlers, in a partition with a supervisor vector. -/
def P : State :=
  let s := probeMachine State.reset
  { s with ctx := { s.ctx with emuVec := 0x2000, trapVec := 0x3000 }, part := { s.part with svvec := 0x4000 } }

/-- The same member as a processor of one lane: an access processor, or the matrix sequencer. -/
def oneLane (kind : Kind) (s : State) : State := { s with m := { s.m with kind := kind, exec := 1, live := 1 } }

/-- k registers, a vector register's lanes, a predicate's mask. -/
def ks (l : List (Nat × Nat)) (s : State) : State := l.foldl (fun s e => setK s e.1 (BitVec.ofNat 64 e.2)) s
def vr (r : Nat) (g : Nat → Nat) (s : State) : State := writeV s r (allLanes 32) fun l => BitVec.ofNat 32 (g l)
def pr (n x : Nat) (s : State) : State := setP s n (allLanes 32) (BitVec.ofNat 128 x)
def team (g : Team → Team) (s : State) : State := { s with team := g s.team }
def mem (g : Member → Member) (s : State) : State := { s with m := g s.m }
def part (g : Partition → Partition) (s : State) : State := { s with part := g s.part }
def ctx (g : Ctx → Ctx) (s : State) : State := { s with ctx := g s.ctx }
/-- A number of bytes at a physical address; the probe machine maps the first 8 GiB to themselves. -/
def at_ (a n x : Nat) (s : State) : State := { s with mem := writeNat s.mem a n x }

/-- A number of bytes of memory as the core in focus reads them. -/
def seen (t : State) (a n : Nat) : Nat := ofLeBytes ((List.range n).map fun i => readLoc t (.pa (a + i)))

/-- What the next state satisfies. -/
def after (i : Instr) (s : State) (p : State → Bool) : Bool := match exec i s with | .next t => p t | _ => false
/-- What holds of an instruction that is issued, where its effect begins. -/
def meets (e : Entry) (f : Fields) (s : State) (p : Ic → State → Bool) : Bool :=
  match started e f s with | some (ic, t) => p ic t | none => false
/-- An instruction is issued, and the next state satisfies `p`. -/
def runs (e : Entry) (i : Fields → Instr) (f : Fields) (s : State) (p : State → Bool) : Bool := (started e f s).isSome && after (i f) s p
/-- The next state is a handler's, of a trap with this class and cause. -/
def trapped (cls cause : Nat) (t : State) : Bool :=
  match t.m.frames with | fr :: _ => fr.cls == cls && fld (fr.bank.getD 0 0#64) 15 0 == cause | [] => false
/-- A k register, a lane of a vector register, a predicate. -/
def kIs (n x : Nat) (t : State) : Bool := kReg t.m.rf n == BitVec.ofNat 64 x
def vIs (r l x : Nat) (t : State) : Bool := vLane t.m.rf r l == BitVec.ofNat 32 x
def pIs (n x : Nat) (t : State) : Bool := pReg t.m.rf n == BitVec.ofNat 128 x
/-- The member sleeps. -/
def sleeps (w : Wait) (t : State) : Bool := t.m.wait == some w
/-- Whether `exec` answers the state itself. -/
def still (i : Instr) (s : State) : Bool := after i s fun t => t == s

/-! ## Decoding -/

theorem test_decode_control1 :
    decodeWord 0xFFFFFFFFF001F804#64 0#64 = .nop (plain 0x001) ∧
    decodeWord 0xFFFFFFFFF001F808#64 0#64 = .br (plain 0x002) ∧
    decodeWord 0xFFFFFFFFF001F80C#64 0#64 = .bru (plain 0x003) ∧
    decodeWord 0xFFFFFFFFF001F810#64 0#64 = .brd (plain 0x004) ∧
    decodeWord 0xFFFFFFFFF001F814#64 0#64 = .join (plain 0x005) ∧
    decodeWord 0xFFFFFFFFF001F818#64 0#64 = .call (plain 0x006) ∧
    decodeWord 0xFFFFFFFFF001F81C#64 0#64 = .callx (plain 0x007) ∧
    decodeWord 0xFFFFFFFFF001F820#64 0#64 = .ret (plain 0x008) ∧
    decodeWord 0xFFFFFFFFF001F824#64 0#64 = .exit (plain 0x009) ∧
    decodeWord 0xFFFFFFFFF001F828#64 0#64 = .yield (plain 0x00a) ∧
    decodeWord 0xFFFFFFFFF001F82C#64 0#64 = .sleep (plain 0x00b) ∧
    decodeWord 0xFFFFFFFFF001F830#64 0#64 = .mskrd (plain 0x00c) ∧
    decodeWord 0xFFFFFFFFF001F834#64 0#64 = .mskwr (plain 0x00d) ∧
    decodeWord 0xFFFFFFFFF001F838#64 0#64 = .regroup (plain 0x00e) ∧
    decodeWord 0xFFFFFFFFF001F83C#64 0#64 = .srd (plain 0x00f) ∧
    decodeWord 0xFFFFFFFFF001F840#64 0#64 = .swr (plain 0x010) := by
  decide +kernel

theorem test_decode_integer1 :
    decodeWord 0xFFFFFFFFF001F900#64 0#64 = .iadd (plain 0x040) ∧
    decodeWord 0xFFFFFFFFF001F904#64 0#64 = .iaddi (plain 0x041) ∧
    decodeWord 0xFFFFFFFFF001F908#64 0#64 = .isub (plain 0x042) ∧
    decodeWord 0xFFFFFFFFF001F90C#64 0#64 = .imul (plain 0x043) ∧
    decodeWord 0xFFFFFFFFF001F910#64 0#64 = .imulh (plain 0x044) ∧
    decodeWord 0xFFFFFFFFF001F914#64 0#64 = .imad (plain 0x045) ∧
    decodeWord 0xFFFFFFFFF001F918#64 0#64 = .imadw (plain 0x046) ∧
    decodeWord 0xFFFFFFFFF001F91C#64 0#64 = .addc (plain 0x047) ∧
    decodeWord 0xFFFFFFFFF001F920#64 0#64 = .subb (plain 0x048) ∧
    decodeWord 0xFFFFFFFFF001F924#64 0#64 = .iabs (plain 0x049) ∧
    decodeWord 0xFFFFFFFFF001F928#64 0#64 = .ineg (plain 0x04a) ∧
    decodeWord 0xFFFFFFFFF001F92C#64 0#64 = .imin (plain 0x04b) ∧
    decodeWord 0xFFFFFFFFF001F930#64 0#64 = .imax (plain 0x04c) ∧
    decodeWord 0xFFFFFFFFF001F934#64 0#64 = .icmp (plain 0x04d) ∧
    decodeWord 0xFFFFFFFFF001F938#64 0#64 = .shl (plain 0x04e) ∧
    decodeWord 0xFFFFFFFFF001F93C#64 0#64 = .shr (plain 0x04f) := by
  decide +kernel

theorem test_decode_integer2 :
    decodeWord 0xFFFFFFFFF001F940#64 0#64 = .sar (plain 0x050) ∧
    decodeWord 0xFFFFFFFFF001F944#64 0#64 = .rot (plain 0x051) ∧
    decodeWord 0xFFFFFFFFF001F948#64 0#64 = .and (plain 0x052) ∧
    decodeWord 0xFFFFFFFFF001F94C#64 0#64 = .or (plain 0x053) ∧
    decodeWord 0xFFFFFFFFF001F950#64 0#64 = .xor (plain 0x054) ∧
    decodeWord 0xFFFFFFFFF001F954#64 0#64 = .andn (plain 0x055) ∧
    decodeWord 0xFFFFFFFFF001F958#64 0#64 = .not (plain 0x056) ∧
    decodeWord 0xFFFFFFFFF001F95C#64 0#64 = .bfx (plain 0x057) ∧
    decodeWord 0xFFFFFFFFF001F960#64 0#64 = .bfi (plain 0x058) ∧
    decodeWord 0xFFFFFFFFF001F964#64 0#64 = .brev (plain 0x059) ∧
    decodeWord 0xFFFFFFFFF001F968#64 0#64 = .popc (plain 0x05a) ∧
    decodeWord 0xFFFFFFFFF001F96C#64 0#64 = .clz (plain 0x05b) ∧
    decodeWord 0xFFFFFFFFF001F970#64 0#64 = .ctz (plain 0x05c) ∧
    decodeWord 0xFFFFFFFFF001F974#64 0#64 = .lea (plain 0x05d) ∧
    decodeWord 0xFFFFFFFFF001F978#64 0#64 = .idiv (plain 0x05e) ∧
    decodeWord 0xFFFFFFFFF001F97C#64 0#64 = .irem (plain 0x05f) := by
  decide +kernel

theorem test_decode_float1 :
    decodeWord 0xFFFFFFFFF001FA00#64 0#64 = .fadd (plain 0x080) ∧
    decodeWord 0xFFFFFFFFF001FA04#64 0#64 = .fsub (plain 0x081) ∧
    decodeWord 0xFFFFFFFFF001FA08#64 0#64 = .fmul (plain 0x082) ∧
    decodeWord 0xFFFFFFFFF001FA0C#64 0#64 = .ffma (plain 0x083) ∧
    decodeWord 0xFFFFFFFFF001FA10#64 0#64 = .fmin (plain 0x084) ∧
    decodeWord 0xFFFFFFFFF001FA14#64 0#64 = .fmax (plain 0x085) ∧
    decodeWord 0xFFFFFFFFF001FA18#64 0#64 = .fcmp (plain 0x086) ∧
    decodeWord 0xFFFFFFFFF001FA1C#64 0#64 = .fclass (plain 0x087) ∧
    decodeWord 0xFFFFFFFFF001FA20#64 0#64 = .frcp (plain 0x088) ∧
    decodeWord 0xFFFFFFFFF001FA24#64 0#64 = .frsq (plain 0x089) ∧
    decodeWord 0xFFFFFFFFF001FA28#64 0#64 = .fsqrt (plain 0x08a) ∧
    decodeWord 0xFFFFFFFFF001FA2C#64 0#64 = .fexp2 (plain 0x08b) ∧
    decodeWord 0xFFFFFFFFF001FA30#64 0#64 = .flog2 (plain 0x08c) ∧
    decodeWord 0xFFFFFFFFF001FA34#64 0#64 = .fsin (plain 0x08d) ∧
    decodeWord 0xFFFFFFFFF001FA38#64 0#64 = .fcos (plain 0x08e) ∧
    decodeWord 0xFFFFFFFFF001FA3C#64 0#64 = .ftanh (plain 0x08f) := by
  decide +kernel

theorem test_decode_float2 :
    decodeWord 0xFFFFFFFFF001FA40#64 0#64 = .fdivs (plain 0x090) ∧
    decodeWord 0xFFFFFFFFF001FA44#64 0#64 = .frnd (plain 0x091) ∧
    decodeWord 0xFFFFFFFFF001FA48#64 0#64 = .dot4 (plain 0x092) ∧
    decodeWord 0xFFFFFFFFF001FA4C#64 0#64 = .dot2 (plain 0x093) := by
  decide +kernel

theorem test_decode_lanes1 :
    decodeWord 0xFFFFFFFFF001FB00#64 0#64 = .mov (plain 0x0c0) ∧
    decodeWord 0xFFFFFFFFF001FB04#64 0#64 = .movi (plain 0x0c1) ∧
    decodeWord 0xFFFFFFFFF001FB08#64 0#64 = .movhi (plain 0x0c2) ∧
    decodeWord 0xFFFFFFFFF001FB0C#64 0#64 = .addpc (plain 0x0c3) ∧
    decodeWord 0xFFFFFFFFF001FB10#64 0#64 = .bcast (plain 0x0c4) ∧
    decodeWord 0xFFFFFFFFF001FB14#64 0#64 = .shfl (plain 0x0c5) ∧
    decodeWord 0xFFFFFFFFF001FB18#64 0#64 = .shflx (plain 0x0c6) ∧
    decodeWord 0xFFFFFFFFF001FB1C#64 0#64 = .shflup (plain 0x0c7) ∧
    decodeWord 0xFFFFFFFFF001FB20#64 0#64 = .shfldn (plain 0x0c8) ∧
    decodeWord 0xFFFFFFFFF001FB24#64 0#64 = .vote (plain 0x0c9) ∧
    decodeWord 0xFFFFFFFFF001FB28#64 0#64 = .pfxsum (plain 0x0ca) ∧
    decodeWord 0xFFFFFFFFF001FB2C#64 0#64 = .lred (plain 0x0cb) ∧
    decodeWord 0xFFFFFFFFF001FB30#64 0#64 = .sample (plain 0x0cc) ∧
    decodeWord 0xFFFFFFFFF001FB34#64 0#64 = .sel (plain 0x0cd) ∧
    decodeWord 0xFFFFFFFFF001FB38#64 0#64 = .firstl (plain 0x0ce) ∧
    decodeWord 0xFFFFFFFFF001FB3C#64 0#64 = .kill (plain 0x0cf) := by
  decide +kernel

theorem test_decode_lanes2 :
    decodeWord 0xFFFFFFFFF001FB40#64 0#64 = .plop (plain 0x0d0) ∧
    decodeWord 0xFFFFFFFFF001FB60#64 0#64 = .cvt (plain 0x0d8) ∧
    decodeWord 0xFFFFFFFFF001FB64#64 0#64 = .cvtsc (plain 0x0d9) ∧
    decodeWord 0xFFFFFFFFF001FB68#64 0#64 = .pack (plain 0x0da) ∧
    decodeWord 0xFFFFFFFFF001FB6C#64 0#64 = .unpack (plain 0x0db) := by
  decide +kernel

theorem test_decode_memory1 :
    decodeWord 0xFFFFFFFFF001FC00#64 0#64 = .lds (plain 0x100) ∧
    decodeWord 0xFFFFFFFFF001FC04#64 0#64 = .sts (plain 0x101) ∧
    decodeWord 0xFFFFFFFFF001FC08#64 0#64 = .ldsTake (plain 0x102) ∧
    decodeWord 0xFFFFFFFFF001FC0C#64 0#64 = .ldsWait (plain 0x103) ∧
    decodeWord 0xFFFFFFFFF001FC10#64 0#64 = .stsFill (plain 0x104) ∧
    decodeWord 0xFFFFFFFFF001FC14#64 0#64 = .sempty (plain 0x105) ∧
    decodeWord 0xFFFFFFFFF001FC18#64 0#64 = .atoms (plain 0x106) ∧
    decodeWord 0xFFFFFFFFF001FC1C#64 0#64 = .cass (plain 0x107) ∧
    decodeWord 0xFFFFFFFFF001FC20#64 0#64 = .ld (plain 0x108) ∧
    decodeWord 0xFFFFFFFFF001FC24#64 0#64 = .ldI12 (plain 0x109) ∧
    decodeWord 0xFFFFFFFFF001FC28#64 0#64 = .st (plain 0x10a) ∧
    decodeWord 0xFFFFFFFFF001FC2C#64 0#64 = .stI12 (plain 0x10b) ∧
    decodeWord 0xFFFFFFFFF001FC30#64 0#64 = .atom (plain 0x10c) ∧
    decodeWord 0xFFFFFFFFF001FC34#64 0#64 = .cas (plain 0x10d) ∧
    decodeWord 0xFFFFFFFFF001FC38#64 0#64 = .red (plain 0x10e) ∧
    decodeWord 0xFFFFFFFFF001FC3C#64 0#64 = .fence (plain 0x10f) := by
  decide +kernel

theorem test_decode_memory2 :
    decodeWord 0xFFFFFFFFF001FC40#64 0#64 = .pref (plain 0x110) ∧
    decodeWord 0xFFFFFFFFF001FC44#64 0#64 = .cctl (plain 0x111) ∧
    decodeWord 0xFFFFFFFFF001FC48#64 0#64 = .evload (plain 0x112) ∧
    decodeWord 0xFFFFFFFFF001FC4C#64 0#64 = .evstep (plain 0x113) ∧
    decodeWord 0xFFFFFFFFF001FC50#64 0#64 = .winbind (plain 0x114) ∧
    decodeWord 0xFFFFFFFFF001FC54#64 0#64 = .winfree (plain 0x115) ∧
    decodeWord 0xFFFFFFFFF001FC60#64 0#64 = .addrq (plain 0x118) ∧
    decodeWord 0xFFFFFFFFF001FC80#64 0#64 = .cpy (plain 0x120) ∧
    decodeWord 0xFFFFFFFFF001FC84#64 0#64 = .tcopy (plain 0x121) ∧
    decodeWord 0xFFFFFFFFF001FC88#64 0#64 = .tcopyMc (plain 0x122) ∧
    decodeWord 0xFFFFFFFFF001FC8C#64 0#64 = .cpwait (plain 0x123) ∧
    decodeWord 0xFFFFFFFFF001FC90#64 0#64 = .cpany (plain 0x124) ∧
    decodeWord 0xFFFFFFFFF001FC94#64 0#64 = .cpfirst (plain 0x125) ∧
    decodeWord 0xFFFFFFFFF001FC98#64 0#64 = .cptest (plain 0x126) ∧
    decodeWord 0xFFFFFFFFF001FC9C#64 0#64 = .cpstat (plain 0x127) := by
  decide +kernel

theorem test_decode_matrix1 :
    decodeWord 0xFFFFFFFFF001FD00#64 0#64 = .mma (plain 0x140) ∧
    decodeWord 0xFFFFFFFFF001FD04#64 0#64 = .mmaQ (plain 0x141) ∧
    decodeWord 0xFFFFFFFFF001FD08#64 0#64 = .wbload (plain 0x142) ∧
    decodeWord 0xFFFFFFFFF001FD0C#64 0#64 = .wbfree (plain 0x143) ∧
    decodeWord 0xFFFFFFFFF001FD10#64 0#64 = .acczero (plain 0x144) ∧
    decodeWord 0xFFFFFFFFF001FD14#64 0#64 = .accld (plain 0x145) ∧
    decodeWord 0xFFFFFFFFF001FD18#64 0#64 = .accst (plain 0x146) ∧
    decodeWord 0xFFFFFFFFF001FD1C#64 0#64 = .accrd (plain 0x147) ∧
    decodeWord 0xFFFFFFFFF001FD20#64 0#64 = .accwr (plain 0x148) ∧
    decodeWord 0xFFFFFFFFF001FD24#64 0#64 = .accadd (plain 0x149) ∧
    decodeWord 0xFFFFFFFFF001FD28#64 0#64 = .mxclass (plain 0x14a) ∧
    decodeWord 0xFFFFFFFFF001FD2C#64 0#64 = .mxwait (plain 0x14b) ∧
    decodeWord 0xFFFFFFFFF001FD40#64 0#64 = .lblld (plain 0x150) ∧
    decodeWord 0xFFFFFFFFF001FD44#64 0#64 = .relld (plain 0x151) ∧
    decodeWord 0xFFFFFFFFF001FD48#64 0#64 = .reltest (plain 0x152) ∧
    decodeWord 0xFFFFFFFFF001FD4C#64 0#64 = .selv (plain 0x153) := by
  decide +kernel

theorem test_decode_matrix2 :
    decodeWord 0xFFFFFFFFF001FD50#64 0#64 = .treeld (plain 0x154) ∧
    decodeWord 0xFFFFFFFFF001FD54#64 0#64 = .lblst (plain 0x155) ∧
    decodeWord 0xFFFFFFFFF001FD60#64 0#64 = .tap (plain 0x158) ∧
    decodeWord 0xFFFFFFFFF001FD64#64 0#64 = .steer (plain 0x159) ∧
    decodeWord 0xFFFFFFFFF001FD68#64 0#64 = .tapstat (plain 0x15a) ∧
    decodeWord 0xFFFFFFFFF001FD6C#64 0#64 = .tapclr (plain 0x15b) := by
  decide +kernel

theorem test_decode_sync1 :
    decodeWord 0xFFFFFFFFF001FE00#64 0#64 = .bar (plain 0x180) ∧
    decodeWord 0xFFFFFFFFF001FE04#64 0#64 = .bararr (plain 0x181) ∧
    decodeWord 0xFFFFFFFFF001FE08#64 0#64 = .barwait (plain 0x182) ∧
    decodeWord 0xFFFFFFFFF001FE0C#64 0#64 = .bargen (plain 0x183) ∧
    decodeWord 0xFFFFFFFFF001FE10#64 0#64 = .tqenq (plain 0x184) ∧
    decodeWord 0xFFFFFFFFF001FE14#64 0#64 = .tqdeq (plain 0x185) ∧
    decodeWord 0xFFFFFFFFF001FE18#64 0#64 = .taskend (plain 0x186) ∧
    decodeWord 0xFFFFFFFFF001FE1C#64 0#64 = .dcinit (plain 0x187) ∧
    decodeWord 0xFFFFFFFFF001FE20#64 0#64 = .dcdec (plain 0x188) ∧
    decodeWord 0xFFFFFFFFF001FE24#64 0#64 = .launch (plain 0x189) ∧
    decodeWord 0xFFFFFFFFF001FE40#64 0#64 = .cross (plain 0x190) ∧
    decodeWord 0xFFFFFFFFF001FE44#64 0#64 = .lap (plain 0x191) ∧
    decodeWord 0xFFFFFFFFF001FE48#64 0#64 = .drift (plain 0x192) ∧
    decodeWord 0xFFFFFFFFF001FE4C#64 0#64 = .prkend (plain 0x193) ∧
    decodeWord 0xFFFFFFFFF001FE60#64 0#64 = .afetch (plain 0x198) ∧
    decodeWord 0xFFFFFFFFF001FE64#64 0#64 = .apush (plain 0x199) := by
  decide +kernel

theorem test_decode_sync2 :
    decodeWord 0xFFFFFFFFF001FE68#64 0#64 = .aovl (plain 0x19a) ∧
    decodeWord 0xFFFFFFFFF001FE6C#64 0#64 = .aloop (plain 0x19b) ∧
    decodeWord 0xFFFFFFFFF001FE70#64 0#64 = .astop (plain 0x19c) ∧
    decodeWord 0xFFFFFFFFF001FE74#64 0#64 = .qstat (plain 0x19d) ∧
    decodeWord 0xFFFFFFFFF001FE78#64 0#64 = .winread (plain 0x19e) ∧
    decodeWord 0xFFFFFFFFF001FE7C#64 0#64 = .async (plain 0x19f) ∧
    decodeWord 0xFFFFFFFFF001FE80#64 0#64 = .shstart (plain 0x1a0) ∧
    decodeWord 0xFFFFFFFFF001FE84#64 0#64 = .shwait (plain 0x1a1) ∧
    decodeWord 0xFFFFFFFFF001FE88#64 0#64 = .cfix (plain 0x1a2) ∧
    decodeWord 0xFFFFFFFFF001FEA0#64 0#64 = .xsend (plain 0x1a8) ∧
    decodeWord 0xFFFFFFFFF001FEA4#64 0#64 = .xrecv (plain 0x1a9) ∧
    decodeWord 0xFFFFFFFFF001FEA8#64 0#64 = .xred (plain 0x1aa) ∧
    decodeWord 0xFFFFFFFFF001FEC0#64 0#64 = .prdone (plain 0x1b0) := by
  decide +kernel

theorem test_decode_system1 :
    decodeWord 0xFFFFFFFFF001FF00#64 0#64 = .trap (plain 0x1c0) ∧
    decodeWord 0xFFFFFFFFF001FF04#64 0#64 = .eret (plain 0x1c1) ∧
    decodeWord 0xFFFFFFFFF001FF08#64 0#64 = .owr (plain 0x1c2) ∧
    decodeWord 0xFFFFFFFFF001FF0C#64 0#64 = .oww (plain 0x1c3) ∧
    decodeWord 0xFFFFFFFFF001FF10#64 0#64 = .emuset (plain 0x1c4) ∧
    decodeWord 0xFFFFFFFFF001FF14#64 0#64 = .ctxrest (plain 0x1c5) ∧
    decodeWord 0xFFFFFFFFF001FF18#64 0#64 = .bkpt (plain 0x1c6) ∧
    decodeWord 0xFFFFFFFFF001FF1C#64 0#64 = .ctxsave (plain 0x1c7) ∧
    decodeWord 0xFFFFFFFFF001FF20#64 0#64 = .pgmap (plain 0x1c8) ∧
    decodeWord 0xFFFFFFFFF001FF24#64 0#64 = .pgpool (plain 0x1c9) ∧
    decodeWord 0xFFFFFFFFF001FF28#64 0#64 = .tlbinv (plain 0x1ca) := by
  decide +kernel

theorem test_decode_shuttle1 :
    decodeShuttle 0x06cdaa5b#32 = .hld 0x16#5 0xd#5 0x2#2 0x2a5b#14 ∧
    decodeShuttle 0x0acdc800#32 = .hldv 0x16#5 0xd#5 0x19#5 ∧
    decodeShuttle 0x0ecd6400#32 = .haddReg 0x16#5 0xd#5 0x19#5 ∧
    decodeShuttle 0x0ecdd2b6#32 = .haddImm 0x16#5 0xd#5 0x52b6#15 ∧
    decodeShuttle 0x12cd6400#32 = .hsubReg 0x16#5 0xd#5 0x19#5 ∧
    decodeShuttle 0x12cdd2b6#32 = .hsubImm 0x16#5 0xd#5 0x52b6#15 ∧
    decodeShuttle 0x16cd6400#32 = .hshlReg 0x16#5 0xd#5 0x19#5 ∧
    decodeShuttle 0x16cdd2b6#32 = .hshlImm 0x16#5 0xd#5 0x52b6#15 ∧
    decodeShuttle 0x1acd6400#32 = .handReg 0x16#5 0xd#5 0x19#5 ∧
    decodeShuttle 0x1acdd2b6#32 = .handImm 0x16#5 0xd#5 0x52b6#15 ∧
    decodeShuttle 0x1ecd6b00#32 = .hcmpReg 0x16#5 0xd#5 0x3#3 0x16#5 ∧
    decodeShuttle 0x1ecd7a5b#32 = .hcmpImm 0x16#5 0xd#5 0x3#3 0xa5b#12 ∧
    decodeShuttle 0x22ca5b6c#32 = .hbr 0x16#5 0xa5b6c#20 ∧
    decodeShuttle 0x22da5b6c#32 = .hbrZ 0x16#5 0xa5b6c#20 := by
  decide +kernel

theorem test_decode_shuttle2 :
    decodeShuttle 0x26a5b6c7#32 = .hjmp 0x2a5b6c7#26 ∧
    decodeShuttle 0x2aca5b6c#32 = .hloop 0x16#5 0xa5b6c#20 ∧
    decodeShuttle 0x2ecd2a5b#32 = .hpref 0x16#5 0xd#5 0x2a5b#14 ∧
    decodeShuttle 0x30160000#32 = .hrow 0x16#5 ∧
    decodeShuttle 0x34000000#32 = .hemit ∧
    decodeShuttle 0x38166800#32 = .htile 0x16#5 0xd#5 ∧
    decodeShuttle 0x3c000000#32 = .hvrow ∧
    decodeShuttle 0x42c00000#32 = .hscale 0x16#5 ∧
    decodeShuttle 0x44000000#32 = .hprune ∧
    decodeShuttle 0x48160000#32 = .hempty 0x16#5 ∧
    decodeShuttle 0x4c000000#32 = .hend ∧
    decodeShuttle 0x52ca5b6c#32 = .hmov 0x16#5 0xa5b6c#20 ∧
    decodeShuttle 0x52da5b6c#32 = .hmovH 0x16#5 0xa5b6c#20 := by
  decide +kernel
/-- Words and fields as spec/ prints them, sections 03, 06, 07, 08, 11, 12, 13, 14. -/
theorem test_worked1 :
    decodeWord 0xfffffffff001f805#64 0x0#64 = .nop { plain 0x001 with len := 1 } ∧
    decodeWord 0x000120103001fb0c#64 0x0#64 = .addpc { plain 0x0c3 with dst := 259, s0 := 0x12 % 4 * 128, s1 := 0x12 / 4, s2 := 0 } ∧
    decodeWord 0xffff80404285f901#64 0x64#64 = .iadd { plain 0x040 with len := 1, lr := 1, mod := 0x14, dst := 4, s0 := 2, s1 := 510, ext := 100 } ∧
    decodeWord 0xff8120405001fc01#64 0x2000020#64 = .lds { plain 0x100 with len := 1, dst := 5, s0 := 258, s1 := 4, ext := 0x02000020 } ∧
    decodeWord 0x000420405001fc24#64 0x0#64 = .ldI12 { plain 0x109 with dst := 5, s0 := 258, s1 := 16, s2 := 0 } ∧
    decodeWord 0x500420405001fc24#64 0x0#64 = .ldI12 { plain 0x109 with dst := 5, s0 := 258, s1 := 16, s2 := 0x14 * 8 } ∧
    decodeWord 0xffd8c0408041fc80#64 0x0#64 = .cpy { plain 0x120 with mod := 2, dst := 8, s0 := 2, s1 := 355 } ∧
    decodeWord 0xff8241005241ce68#64 0x0#64 = .aovl { plain 0x19a with role := 1, mod := 0x12, dst := 5, s0 := 8, s1 := 9 } ∧
    decodeWord 0x8341609ff001fd02#64 0x110000#64 = .mma { plain 0x140 with len := 2, s0 := 260, s1 := 261, s2 := 262, ext := 0x110000 } ∧
    decodeWord 0xb08140952001fd48#64 0x0#64 = .reltest { plain 0x152 with dst := 338, s0 := 4, s1 := 5, s2 := 353 } := by
  decide +kernel

/-- Words and fields as spec/ prints them, sections 16, 17, 19, 20, 21, 22, 23. -/
theorem test_worked2 :
    decodeWord 0xffffc0806001fe41#64 0x88#64 = .cross { plain 0x190 with len := 1, dst := 6, s0 := 4, ext := 0x88 } ∧
    decodeWord 0xfffffffff001fe46#64 0x6ffffffd8#64 = .lap { plain 0x191 with len := 2, ext := 0x6FFFFFFD8 } ∧
    decodeWord 0xfffffff03041fe04#64 0x0#64 = .bararr { plain 0x181 with mod := 2, dst := 259 } ∧
    decodeWord 0xffda80806020f978#64 0x0#64 = .idiv { plain 0x05e with mod := 1, preg := 3, dst := 6, s0 := 4, s1 := 362 } ∧
    decodeWord 0xffffffe00021ff08#64 0x0#64 = .owr { plain 0x1c2 with mod := 1, dst := 0 } ∧
    decodeWord 0xfffffff04001fd62#64 0x408200#64 = .tap { plain 0x158 with len := 2, dst := 260, ext := 0x408200 } ∧
    decodeWord 0x03bc20703021f904#64 0x0#64 = .iaddi { plain 0x041 with mod := 1, dst := 259, s0 := 259, s1 := 0xF0, s2 := 7 } ∧
    decodeWord 0xffc180404001fea8#64 0x0#64 = .xred { plain 0x1aa with dst := 4, s0 := 2, s1 := 262 } ∧
    decodeWord 0xffffc0505005fb3c#64 0x0#64 = .kill { plain 0x0cf with lr := 1, dst := 261, s0 := 2 } ∧
    decodeWord 0x840040309001f838#64 0x0#64 = .regroup { plain 0x00e with dst := 265, s0 := 1, s1 := 1, s2 := 264 } := by
  decide +kernel

/-- Words and fields as spec/ prints them, sections 23, 24, 25, 26, 27. -/
theorem test_worked3 :
    decodeWord 0xffffe13ff001f80d#64 0x70#64 = .bru { plain 0x003 with len := 1, s0 := 265, ext := 112 } ∧
    decodeWord 0xffffea30a041fb24#64 0x0#64 = .vote { plain 0x0c9 with mod := 2, dst := 266, s0 := 337 } ∧
    decodeWord 0x03e620d06021fc24#64 0x0#64 = .ldI12 { plain 0x109 with mod := 1, dst := 262, s0 := 262, s1 := 0x198, s2 := 7 } ∧
    decodeWord 0xffc0ac1ff001fd44#64 0x0#64 = .relld { plain 0x151 with s0 := 352, s1 := 258 } ∧
    decodeWord 0xffc0e0f01001fc86#64 0x60000c00#64 = .tcopy { plain 0x121 with len := 2, dst := 257, s0 := 263, s1 := 259, ext := 0x60000C00 } ∧
    decodeWord 0x8840615ff001fd02#64 0xc20c08000040000#64 = .mma { plain 0x140 with len := 2, s0 := 266, s1 := 257, s2 := 272, ext := 0x0C20C08000040000 } ∧
    decodeWord 0xffc020506001c680#64 0x0#64 = .shstart { plain 0x1a0 with role := 0, dst := 262, s0 := 258, s1 := 256 } ∧
    decodeWord 0xffffe0f07001fe41#64 0x8#64 = .cross { plain 0x190 with len := 1, dst := 263, s0 := 263, ext := 8 } ∧
    decodeWord 0xffd800202041c668#64 0x0#64 = .aovl { plain 0x19a with role := 0, mod := 2, dst := 2, s0 := 1, s1 := 352 } ∧
    decodeWord 0x04ff81140001ce61#64 0x10#64 = .afetch { plain 0x198 with len := 1, role := 1, dst := 320, s0 := 8, s1 := 510, s2 := 9, ext := 16 } := by
  decide +kernel

/-! ## Well-formed instructions (R45, R46, R63 step 4, R64) -/

def fate (i : Instr) : Option EmuCause := i.fate 1

/-- One ill-formed term for each check; the check refuses it with its cause. -/
theorem test_wellFormed :
    WellFormed 1 (.iadd (ins eIadd 4 2 IMM NO 0x14 100 1)) = true ∧
    -- the opcode is another's; the trailing bits do not fit the length; LEN 0b11; a reserved shuttle condition; a trap of the device's own
    WellFormed 1 (.nop (plain 0x002)) = false ∧ WellFormed 1 (.nop { plain 0x001 with ext := 1 }) = false ∧
    WellFormed 1 (.nop { plain 0x001 with len := 3 }) = false ∧ WellFormed 1 (.hcmpReg 1 2 6 3) = false ∧
    WellFormed 1 (.hcmpImm 1 2 7 3) = false ∧ WellFormed 1 (.undefinedInstruction (plain 0)) = false ∧
    -- R63 step 4: LEN, NAME, IMM, DST, MOD, RSV, PREG of an entry without a predicate
    fate (.join { plain 0x005 with len := 1 }) = some .len ∧ fate (.iadd (ins eIadd 4 400 2 NO 0x4)) = some .name ∧
    fate (.iadd (ins eIadd 4 2 IMM NO 0x4)) = some .imm ∧ fate (.iadd (ins eIadd (sp 0) 2 3 NO 0x4)) = some .dst ∧
    fate (.iadd (ins eIadd 4 2 3 NO 0x7F)) = some .mod ∧ fate (.iaddi (ins eIaddi 4 2 0 8 0x4)) = some .rsv ∧
    fate (.join { plain 0x005 with preg := 3 }) = some .rsv ∧ fate (.isub (ins eIsub 5 2 4 NO 0x5)) = some .dst ∧
    fate (.cross (ins eCross 6 4 NO NO 0 0x88 1)) = some .rsv ∧ (Instr.cross (ins eCross 6 4 NO NO 0 0x88 1)).fate 2 = none ∧
    WellFormed 1 (.join { plain 0x005 with preg := 3 }) = false := by decide +kernel

/-- The table's bit numbering: a 64-bit form with what follows zero, and a shuttle word. -/
theorem test_decodeTableWord :
    decodeTableWord 64 0xFFFFFFFFF001F804 = some (.nop (plain 0x001)) ∧ decodeTableWord 32 0x4C000000 = some .hend ∧
    decode (leBytes 7 0) = none ∧
    decode (encode (.iadd (ins eIadd 4 2 IMM NO 0x14 100 1)) ++ [7, 8]) = some (.iadd (ins eIadd 4 2 IMM NO 0x14 100 1)) := by
  decide +kernel

/-! ## The machine as a whole -/

/-- The hypotheses of the statements about a step: a member about to fetch, a shuttle's turn, a machine about to boot. -/
theorem test_step :
    MemoryCanonical P ∧ ExecWithinLive P ∧ P.mod.boot = .running ∧ P.turns = [] ∧ P.m.status = .running ∧ stopDue P = false ∧
    (match fetchPoint P with | .ok u => u == P | _ => false) = true ∧ (resolveAccess P (memberView P) .fetch 0x1000 32).toOption.isSome = true ∧
    (match (resolveAccess P (memberView P) .fetch 0x1000 32) with
      | .ok (.pa a :: _) => (cachedBlock (fetchBlock P 0x1000 a).cl a).isSome
      | _ => false) = true ∧
    (match step (P.withFetchWord 64 0xFFFFFFFFF001F804) with | .next t => t.m.cursor == 0x1008 && t.cycle == 1 | _ => false) = true ∧
    (match step (P.withFetchWord 32 0x0CA58008) with | .next t => hReg t.team.sh 5 == 8#64 && t.team.sh.cursor == 1 | _ => false) = true ∧
    (match step State.reset with | .next t => t.mod.boot == .halted 1 | _ => false) = true := by
  refine ⟨⟨by decide +kernel, by decide +kernel, fun c h => ?_⟩, fun m h => ?_, by decide +kernel⟩
  · have cores : ((P.core :: P.cores).all fun c => c.l1 == []) = true := by decide +kernel
    have h := eq_of_beq (List.all_eq_true.mp cores c h)
    simp [L1Canonical, h]
  have all : (P.members.all fun m => m.exec &&& ~~~m.live == 0#128) = true := by decide +kernel
  simpa [Member.execLive] using List.all_eq_true.mp all m h

/-! ## Issue -/

/-- `NoActiveLane`: predicate p1 holds nowhere; `UniformIssues`, `IssueFrame`: k registers, mapped vector registers. -/
theorem test_issue :
    activeLanes P { ins eIadd (k 3) (k 1) (k 2) NO with preg := 1 } = 0#128 ∧
    after (.iadd { ins eIadd (k 3) (k 1) (k 2) NO with preg := 1 }) P (fun t => t.m.cursor == 0x1008 && kIs 3 0 t) = true ∧
    meets eIadd (ins eIadd (k 3) (k 1) (k 2) NO) P (fun ic t => ic.pops == [[], [], []] && t.m.rf.vregs == []) = true ∧
    meets eIadd (ins eIadd 3 1 2 NO) (vr 1 id (vr 2 id (vr 3 id P))) (fun ic t => !ic.uni && t.m.rf.vregs.length == 3 &&
      (fieldRegs P ic.f eIadd.s0 ic.f.s0 == [1]) && keptLane t 1 5) = true := by decide +kernel

/-- `DestinationHolds` and `DestinationFrame`: each class of destination. -/
theorem test_destination :
    runs eIadd .iadd (ins eIadd 3 1 (c 1) NO) (vr 1 id P) (fun t => vIs 3 7 8 t && vIs 1 7 7 t) = true ∧
    runs eIadd .iadd (ins eIadd 4 (k 1) (k 2) NO 1) (ks [(1, 2 ^ 32), (2, 7)] P) (fun t => vIs 4 0 7 t && vIs 5 31 1 t) = true ∧
    runs eIadd .iadd (ins eIadd (k 3) (k 1) (k 2) NO 1) (ks [(1, 2 ^ 63), (2, 2 ^ 63 + 9)] P) (kIs 3 9) = true ∧
    runs eIadd .iadd (ins eIadd (p 2) 1 (c 0) NO) (vr 1 (fun l => l % 2) P) (pIs 2 0xAAAAAAAA) = true ∧
    runs eIadd .iadd (ins eIadd (q 1) 1 (c 1) NO) (vr 1 id (team (fun t => { t with qset := true, queues := List.replicate 16 [] }) P))
      (fun t => t.team.queues.getD 1 [] == [.data ((List.range 32).map fun l => BitVec.ofNat 32 (l + 1))]) = true := by decide +kernel

/-! ## Traps -/

/-- `TrapEntry`, `TrapRoute`: `TRAP 77` goes to the context vector with the next address, `BKPT` to the supervisor at its own; depths. -/
theorem test_trap :
    runs eTrap .trap (ins eTrap NO IMM NO NO 0 77 1) P (fun t => trapped cUser 77 t && t.m.cursor == 0x3000 &&
      (t.m.frames.map fun f => f.bank.getD 1 0) == [0x100C#64] && t.m.rf.kregs.length == 16) = true ∧
    runs eBkpt .bkpt (plain 0x1C6) P (fun t => trapped cUser 0 t && t.m.cursor == 0x4000 &&
      (t.m.frames.map fun f => f.bank.getD 1 0) == [0x1000#64]) = true ∧
    after (.bkpt { plain 0x1C6 with preg := 1 }) P (fun t => t.m.cursor == 0x1008 && t.m.frames == []) = true ∧
    routeTrap P (bound 1) = some { sup := false, vector := 0x3000 } ∧ routeTrap P { cls := cEmu } = some { sup := false, vector := 0x2000 } ∧
    routeTrap P { cls := cMem } = some { sup := true, vector := 0x4000 } ∧ routeTrap (probeMachine State.reset) { cls := cMem } = none ∧
    routeTrap (ctx (fun x => { x with trapVec := 0 }) P) (bound 1) = some { sup := true, novec := true, vector := 0x4000 } ∧
    (let u := enterTrap (enterTrap P noFields 0 0 1 (bound 1)) noFields 0 0 1 (bound 1)
     routeTrap u (bound 1) = some { sup := true, overflow := true, vector := 0x4000 }) ∧
    (let u := enterTrap (enterTrap P noFields 0 0 1 { cls := cMem }) noFields 0 0 1 (bound 1)
     svDepth u.m = 2 ∧ routeTrap u (bound 1) = none) := by decide +kernel

/-- An EMU frame's word as spec/19 prints it: `?p3 IDIV.n32 v6, v4, 10` with its opcode disabled. -/
theorem test_trapEmu :
    after (.idiv { plain 0x05E with mod := 1, preg := 3, dst := 6, s0 := 4, s1 := 362 })
      (pr 3 0xFF (part (fun x => { x with emuOpc := [0x05E, 0x05F] }) P)) (fun t => t.m.cursor == 0x2000 && t.m.exec == 0xFF &&
        (t.m.frames.map fun f => (f.bank.getD 0 0, f.bank.getD 8 0, f.bank.getD 12 0, f.bank.getD 19 0)) ==
          [(0x0000010000000002#64, 0x5E#64, 362#64, 0xFFDA80806020F978#64)]) = true := by decide +kernel

/-- `TrapReturn`: back to the frame's address with its mask; a RAS frame ends the context; outside every frame BOUND, FRAME. -/
theorem test_eret :
    (let u := enterTrap P noFields 0x1000 8 0xF#128 (bound 1)
     runs eEret .eret (plain 0x1C1) u (fun t => t.m.cursor == 0x1000 && t.m.exec == allLanes 32 && t.m.frames == []) = true) ∧
    (let u := enterTrap P noFields 0x1000 8 0xF#128 { cls := cRas }
     runs eEret .eret (plain 0x1C1) u (fun t => !t.ctx.alive) = true) ∧
    runs eEret .eret (plain 0x1C1) P (trapped cBound bFrame) = true := by decide +kernel

/-- `UndefinedAndDecodeFates`: an opcode without an entry, and an instruction refused by step 4. -/
theorem test_fates :
    runs eUndef .undefinedInstruction (plain 0x011) P (trapped cEmu 1) = true ∧
    after (.iadd (ins eIadd 4 400 2 NO 0x4)) P (trapped cEmu 4) = true ∧ after (.join { plain 0x005 with len := 1 }) P (trapped cEmu 3) = true := by
  decide +kernel

/-! ## Control -/

/-- An A, J, P or C entry, and a state with entries on its stack. -/
def ent (kind : EntryKind) (mask addr : Nat) : StackEntry := { mask := BitVec.ofNat 128 mask, kind := kind, addr := BitVec.ofNat 48 addr }
def stk (es : List StackEntry) (s : State) : State := mem (fun m => { m with stack := es }) s
def full (s : State) : State := stk (List.replicate 256 (ent .p 1 0)) s
/-- Where the member goes on: the cursor and EXEC. -/
def goes (pc exec : Nat) (t : State) : Bool := t.m.cursor == BitVec.ofNat 64 pc && t.m.exec == BitVec.ofNat 128 exec
def all32 : Nat := 0xFFFFFFFF

/-- `IdlingInstructions`: `NOP`, `YIELD`, and `SLEEP` of 0, of 5 and of the most, asleep and awake again. -/
theorem test_idling :
    runs eNop .nop (plain 0x001) P (fun t => goes 0x1008 all32 t && t.m.rf == P.m.rf) = true ∧
    runs eYield .yield (plain 0x00A) { P with cycle := 9 } (fun t => t.m.ready == 9) = true ∧
    runs eSleep .sleep (ins eSleep NO (c 0) NO NO) P (goes 0x1008 all32) = true ∧
    runs eSleep .sleep (ins eSleep NO (c 5) NO NO) { P with cycle := 9 } (sleeps (.sleep 14)) = true ∧
    runs eSleep .sleep (ins eSleep NO (k 1) NO NO) (ks [(1, 2 ^ 40)] P) (sleeps (.sleep 16777215)) = true ∧
    runs eSleep .sleep (ins eSleep NO (c 5) NO NO) (mem (fun m => { m with wait := some (.sleep 14) }) { P with cycle := 14 })
      (goes 0x1008 all32) = true ∧
    runs eSleep .sleep (ins eSleep NO (c 5) NO NO) (mem (fun m => { m with wait := some (.sleep 14) }) { P with cycle := 13 })
      (sleeps (.sleep 14)) = true ∧
    runs eSleep .sleep (ins eSleep NO (c 5) NO NO) (mem (fun m => { m with wait := some .slept }) P) (goes 0x1008 all32) = true ∧
    after .sleepExpiry (mem (fun m => { m with wait := some (.sleep 14) }) { P with cycle := 14 }) (sleeps .slept) = true ∧
    still .sleepExpiry (mem (fun m => { m with wait := some (.sleep 14) }) { P with cycle := 13 }) = true := by decide +kernel

/-- `Branches`: uniform ones, on a wave and on one lane; divergent ones forward and backward, with and without the entry on top. -/
theorem test_branches :
    runs eBru .bru (ins eBru NO (p 1) NO NO 0 0x40 1) (pr 1 1 P) (goes 0x1040 all32) = true ∧
    runs eBru .bru (ins eBru NO (p 1) NO NO 0 0x40 1) P (goes 0x100C all32) = true ∧
    runs eBru .bru (ins eBru NO NO NO NO 0 0x42 1) P (trapped cAlign 0) = true ∧
    runs eBr .br (ins eBr NO (p 1) NO NO 0 0x40 1) (oneLane .mx (pr 1 1 P)) (goes 0x1040 1) = true ∧
    runs eBr .br (ins eBr NO NO NO NO 0 0x42 1) P (trapped cAlign 0) = true ∧
    runs eBr .br (ins eBr NO (p 1) NO NO 0 0x40 1) (pr 1 all32 P) (fun t => goes 0x1040 all32 t && t.m.stack == []) = true ∧
    runs eBr .br (ins eBr NO (p 1) NO NO 0 0x40 1) P (fun t => goes 0x100C all32 t && t.m.stack == []) = true ∧
    runs eBr .br (ins eBr NO (p 1) NO NO 0 0x40 1) (pr 1 0xF P)
      (fun t => goes 0x100C 0xFFFFFFF0 t && t.m.stack == [ent .a all32 0x1040]) = true ∧
    runs eBr .br (ins eBr NO (p 1) NO NO 0 0xFFFFFFC0 1) (pr 1 0xF P)
      (fun t => goes 0xFC0 0xF t && t.m.stack == [ent .a all32 0x100C]) = true ∧
    runs eBr .br (ins eBr NO (p 1) NO NO 0 0x40 1) (stk [ent .a all32 0x1040] (pr 1 0xF P))
      (fun t => goes 0x100C 0xFFFFFFF0 t && t.m.stack.length == 1) = true ∧
    runs eBr .br (ins eBr NO (p 1) NO NO 0 0x40 1) (full (pr 1 0xF P)) (trapped cBound bRstk) = true := by decide +kernel

/-- `DivergentRegion`: all, none, some of the lanes taken; a misaligned join address; a full stack. -/
theorem test_brd :
    let f := ins eBrd NO (p 1) NO NO 0 0x80_0000_0040 2
    runs eBrd .brd f (pr 1 all32 P) (fun t => goes 0x1040 all32 t && t.m.stack == [ent .j all32 0x1080]) = true ∧
    runs eBrd .brd f P (fun t => goes 0x1010 all32 t && t.m.stack == [ent .j all32 0x1080]) = true ∧
    runs eBrd .brd f (pr 1 0xF P)
      (fun t => goes 0x1010 0xFFFFFFF0 t && t.m.stack == [ent .p 0xF 0x1040, ent .j all32 0x1080]) = true ∧
    runs eBrd .brd (ins eBrd NO (p 1) NO NO 0 0x82_0000_0040 2) P (trapped cAlign 0) = true ∧
    runs eBrd .brd f (full P) (trapped cBound bRstk) = true := by decide +kernel

/-- `JoinPops`: a P entry on top, and none. -/
theorem test_join :
    runs eJoin .join (plain 0x005) (stk [ent .p 0xF 0x1040, ent .j all32 0x1080] P)
      (fun t => goes 0x1040 0xF t && t.m.stack == [ent .j all32 0x1080]) = true ∧
    runs eJoin .join (plain 0x005) P (trapped cBound bRstk) = true ∧
    runs eJoin .join (plain 0x005) (stk [ent .c 1 0] P) (trapped cBound bRstk) = true := by decide +kernel

/-- `Calls`: `CALL` by 0x40 bytes; `CALLX` to two targets, in ascending order; a tail call of some lanes; a misaligned target. -/
theorem test_calls :
    runs eCall .call { plain 0x006 with dst := 0, s0 := 16 * 8, s1 := 0, s2 := 0 } P
      (fun t => goes 0x1040 all32 t && t.m.stack == [ent .c all32 0x1008]) = true ∧
    runs eCall .call { plain 0x006 with dst := 0, s0 := 16 * 8, s1 := 0, s2 := 0 } (full P) (trapped cBound bRstk) = true ∧
    runs eCallx .callx (ins eCallx NO 2 NO NO) (vr 2 (fun l => if l < 4 then 0x3000 else 0x2000) P)
      (fun t => goes 0x2000 0xFFFFFFF0 t && t.m.stack == [ent .p 0xF 0x3000, ent .c all32 0x1008]) = true ∧
    runs eCallx .callx (ins eCallx NO (k 2) NO NO 1) (ks [(2, 0x2000)] P) (fun t => goes 0x2000 all32 t && t.m.stack == []) = true ∧
    runs eCallx .callx (ins eCallx NO (k 2) NO NO) (ks [(2, 0x2002)] P) (trapped cAlign 0) = true := by decide +kernel

/-- `LaneMasks`: leaving lanes with and without a call, retirement, resumption, and the half masks. -/
theorem test_laneMasks :
    runs eExit .exit { plain 0x009 with preg := 1 } (pr 1 0xF P) (fun t => t.m.live == 0xFFFFFFF0 && t.m.exec == 0xFFFFFFF0) = true ∧
    runs eExit .exit (plain 0x009) P (fun t => t.m.status == .retired) = true ∧
    runs ePrkend .prkend (plain 0x193) P (fun t => t.m.status == .retired && t.m.live == 0) = true ∧
    runs eRet .ret { plain 0x008 with preg := 1 } (pr 1 0xF P) (fun t => t.m.live == 0xFFFFFFF0) = true ∧
    runs eRet .ret { plain 0x008 with preg := 1 } (stk [ent .a all32 0x1040, ent .c all32 0x1080] (pr 1 0xF P))
      (fun t => t.m.live == 0xFFFFFFFF && t.m.exec == 0xFFFFFFF0 && t.m.stack == [ent .a 0xFFFFFFF0 0x1040, ent .c all32 0x1080]) = true ∧
    runs eRet .ret (plain 0x008) (stk [ent .c all32 0x1080] P) (goes 0x1080 all32) = true ∧
    runs eMskrd .mskrd (ins eMskrd (k 3) NO NO NO) P (kIs 3 all32) = true ∧
    runs eMskwr .mskwr (ins eMskwr NO (k 1) NO NO) (ks [(1, 0x1_0000_00F3)] (stk [ent .p 1 0x40, ent .c 0xFF 0x80] P))
      (goes 0x1008 0xF2) = true := by decide +kernel

/-- Two waves of 16 live lanes for `REGROUP`: WAVEIDs 3 and 5. -/
def lower (wait : Option Wait) (other : Member → Member) (s : State) : State :=
  let m := { s.m with exec := 0xFFFF, live := 0xFFFF, waveId := 3 }
  { s with m := m, peers := [other { m with id := 2, waveId := 5, wait := wait, rf := (vr 1 (· + 100) s).m.rf }] }

/-- `RegroupOutcomes`: no partner, a partner that is not there yet, one that names another wave, too many lanes, and a fusion. -/
theorem test_regroup :
    let f := ins eRegroup (k 9) 1 1 (c 5)
    runs eRegroup .regroup f (mem (fun m => { m with waveId := 3 }) P) (kIs 9 3) = true ∧
    runs eRegroup .regroup f (lower none id P) (sleeps (.regroup 1 1 5 [] 0xFFFF)) = true ∧
    runs eRegroup .regroup f (lower (some (.regroup 1 1 7 [] 0xFFFF)) id P)
      (fun t => kIs 9 4 t && t.peers.map (·.wait) == [some (.regrouped 4)]) = true ∧
    runs eRegroup .regroup f (lower (some (.regroup 1 1 3 [] 0xFFFF)) (fun m => { m with exec := 0x1FFFF, live := 0x1FFFF }) P) (kIs 9 2) = true ∧
    runs eRegroup .regroup f (lower (some (.regroup 1 1 3 [] 0xFFFF)) id (vr 1 id P))
      (fun t => kIs 9 0 t && goes 0x1008 all32 t && vIs 1 15 15 t && vIs 1 16 100 t && vIs 1 31 115 t &&
        t.peers.map (·.status) == [.retired]) = true ∧
    runs eRegroup .regroup f (mem (fun m => { m with wait := some (.regrouped 4) }) P) (kIs 9 4) = true := by decide +kernel

/-- `SpecialRegisters`: reads, uniform and by lanes; writes, whole, by half and by lanes; a reserved number and a missing privilege. -/
theorem test_specialRegisters :
    runs eSrd .srd (ins eSrd (k 3) NO 0x105 NO) P (kIs 3 1) = true ∧
    runs eSrd .srd (ins eSrd 3 NO 0x017 NO) P (vIs 3 31 31) = true ∧
    runs eSrd .srd (ins eSrd (k 3) NO 0x1FF NO) P (trapped cEmu 11) = true ∧
    runs eSrd .srd (ins eSrd (k 3) NO 0x08C NO) P (trapped cEmu 10) = true ∧
    runs eSwr .swr (ins eSwr NO (k 1) 0x020 NO) (ks [(1, 7)] P) (fun t => t.m.rskey == 7) = true ∧
    runs eSwr .swr (ins eSwr NO (k 1) 0x020 NO 1) (ks [(1, 7)] P) (fun t => t.m.rskey == 0x7_0000_0000) = true ∧
    runs eSwr .swr (ins eSwr NO 1 0x021 NO) (vr 1 (· + 3) P) (fun t => t.m.rsctr.getD 31 0 == 34) = true ∧
    runs eSwr .swr (ins eSwr NO (k 1) 0x105 NO) P (trapped cEmu 11) = true ∧
    after (.mcwinWrite 1 0x0001_0000_0200_1000#64) P (fun t => t.team.mcwin == [0, 0x0001_0000_0200_1000#64, 0, 0]) = false ∧
    after (.mcwinWrite 1 0x0001_0000_0200_0C00#64) P (fun t => t.team.mcwin == [0, 0x0001_0000_0200_0C00#64, 0, 0]) = true ∧
    after (.tbmaskWrite 1 0xFFFF#64) P (fun t => t.team.tbmask.getD 1 0 == 0x7F7F#64) = true ∧
    after (.btexpWrite 2 0x100005#64) P (fun t => (t.part.bts.getD 2 {}).expect == 5) = true ∧
    after (.btexpWrite 2 5#64) (part (fun x => { x with bts := List.replicate 8 { arrived := [1] } }) P) (trapped cShape shBar) = true := by
  decide +kernel

/-! ## Integers -/

/-- An operation on k registers of one, two or three sources, its modifier and what its destination then holds. -/
def op1 (e : Entry) (i : Fields → Instr) (mod a x : Nat) : Bool := runs e i (ins e (k 3) (k 1) NO NO mod) (ks [(1, a)] P) (kIs 3 x)
def op2 (e : Entry) (i : Fields → Instr) (mod a b x : Nat) (s : State := P) : Bool :=
  runs e i (ins e (k 3) (k 1) (k 2) NO mod) (ks [(1, a), (2, b)] s) (kIs 3 x)
/-- A partition in which the divisions are executed (R155). -/
def dividing : State := part (fun q => { q with emuOpc := [] }) P
def op3 (e : Entry) (i : Fields → Instr) (mod a b d x : Nat) : Bool :=
  runs e i (ins e (k 3) (k 1) (k 2) (k 4) mod) (ks [(1, a), (2, b), (4, d)] P) (kIs 3 x)
/-- The 64-bit patterns of -1 and of a 32-bit number that is negative. -/
def neg (n : Nat) : Nat := 2 ^ 64 - n

/-- Types b32 0, b64 1, s32 4, s64 5, n32 8, n64 9 (R70); SAT is MOD[4]. -/
theorem test_integerArithmetic :
    op2 eIadd .iadd 0x4 0x7FFFFFFF 1 0xFFFFFFFF80000000 = true ∧ op2 eIadd .iadd 0x14 0x7FFFFFFF 1 0x7FFFFFFF = true ∧
    op2 eIsub .isub 0x8 3 5 0xFFFFFFFE = true ∧ op2 eIsub .isub 0x18 3 5 0 = true ∧
    runs eIaddi .iaddi (ins eIaddi (k 3) (k 3) 0xF0 7 1) (ks [(3, 0x7F1000132100 - 1 + 1)] P) (kIs 3 (0x7F1000132100 - 272)) = true ∧
    op1 eIneg .ineg 0x15 (2 ^ 63) (2 ^ 63 - 1) = true ∧ op1 eIneg .ineg 0x4 5 (neg 5) = true ∧
    op1 eIabs .iabs 0x4 (neg 5) 5 = true ∧ op1 eIabs .iabs 0x4 0x80000000 0xFFFFFFFF80000000 = true ∧
    op2 eImul .imul 0x4 (neg 3) 5 (neg 15) = true ∧ op2 eImulh .imulh 0x4 (neg 1) 5 (neg 1) = true ∧
    op2 eImulh .imulh 0x8 (2 ^ 31) 6 3 = true ∧ op3 eImad .imad 0x4 3 5 7 22 = true ∧
    op3 eImadw .imadw 0x4 (neg 1) 5 (2 ^ 40) (2 ^ 40 - 5) = true ∧ op3 eImadw .imadw 0x8 0xFFFFFFFF 2 0 0x1FFFFFFFE = true ∧
    op3 eLea .lea 0x24 (2 ^ 40) (neg 1) (neg 8) (2 ^ 40 - 12) = true := by decide +kernel

theorem test_integerChoices :
    runs eAddc .addc (ins eAddc (k 3) (k 1) (k 2) (p 1) 0x20) (ks [(1, 0xFFFFFFFF), (2, 0)] (pr 1 1 P))
      (fun t => kIs 3 0 t && pIs 2 all32 t) = true ∧
    runs eSubb .subb (ins eSubb (k 3) (k 1) (k 2) (p 1) 0x20) (ks [(1, 5), (2, 5)] (pr 1 1 P))
      (fun t => kIs 3 0xFFFFFFFF t && pIs 2 all32 t) = true ∧
    op2 eImin .imin 0x4 (neg 1) 1 (neg 1) = true ∧ op2 eImin .imin 0x8 0xFFFFFFFF 1 1 = true ∧ op2 eImax .imax 0x4 (neg 1) 1 1 = true ∧
    op2 eIcmp .icmp 0x24 (neg 1) 1 1 = true ∧ op2 eIcmp .icmp 0x28 0xFFFFFFFF 1 0 = true ∧ op2 eIcmp .icmp 0x00 7 7 1 = true ∧
    op1 ePopc .popc 0x1 (neg 1) 64 = true ∧ op1 eClz .clz 0x0 1 31 = true ∧ op1 eClz .clz 0x1 0 64 = true ∧ op1 eCtz .ctz 0x0 8 3 = true ∧
    op2 eIdiv .idiv 0x0 (neg 7) 2 (neg 3) dividing = true ∧ op2 eIdiv .idiv 0x1 7 0 0xFFFFFFFF dividing = true ∧
    op2 eIrem .irem 0x0 (neg 7) 2 (neg 1) dividing = true ∧ op2 eIrem .irem 0x3 7 0 7 dividing = true ∧
    op2 eIdiv .idiv 0x0 7 2 0 = false := by decide +kernel

theorem test_bits :
    op2 eShl .shl 0x0 1 31 0x80000000 = true ∧ op2 eShl .shl 0x0 1 32 0 = true ∧ op2 eShr .shr 0x0 0x80000000 31 1 = true ∧
    op2 eSar .sar 0x4 0x80000000 40 (neg 1) = true ∧ op2 eRot .rot 0x0 0x80000001 33 3 = true ∧ op2 eAnd .and 0x1 (neg 1) 12 12 = true ∧
    op2 eOr .or 0x0 8 4 12 = true ∧ op2 eXor .xor 0x0 12 10 6 = true ∧ op2 eAndn .andn 0x0 12 10 4 = true ∧
    op1 eNot .not 0x0 0 0xFFFFFFFF = true ∧ op3 eBfx .bfx 0x4 0xF0 4 4 (neg 1) = true ∧ op3 eBfx .bfx 0x0 0xF0000000 28 8 15 = true ∧
    op3 eBfi .bfi 0x0 0xFFFF 0 0x0804 0xF00F = true ∧ op1 eBrev .brev 0x0 1 0x80000000 = true := by decide +kernel

/-! ## Floating point -/

/-- FP32 patterns: 1.0 0x3F800000, 2.0 0x40000000, 3.0 0x40400000, NaN 0x7FC00000. -/
theorem test_floatArithmetic :
    op2 eFadd .fadd 0x0 0x3F800000 0x40000000 0x40400000 = true ∧ op2 eFsub .fsub 0x0 0x3F800000 0x3F800000 0 = true ∧
    op2 eFadd .fadd 0x10 0x3C004000 0x3C003C00 0x40004200 = true ∧ op2 eFsub .fsub 0x40 0x3F800000 0x40000000 0 = true ∧
    op2 eFmul .fmul 0x0 0x40400000 0x40400000 0x41100000 = true ∧ op3 eFfma .ffma 0x0 0x40000000 0x40400000 0x3F800000 0x40E00000 = true ∧
    op2 eFmin .fmin 0x0 0x80000000 0 0x80000000 = true ∧ op2 eFmin .fmin 0x40 0x7FC00000 0x3F800000 0x3F800000 = true ∧
    op2 eFmax .fmax 0x0 0x7FC00000 0x3F800000 0x7FC00000 = true ∧ op2 eFcmp .fcmp 0x2 0x3F800000 0x40000000 1 = true ∧
    op2 eFcmp .fcmp 0x6 0x7FC00000 0 1 = true ∧ op2 eFclass .fclass 0x0 0x80000000 0x3FF 8 = true ∧
    op2 eFdivs .fdivs 0x0 0x3F800000 0x40400000 0x3EAAAAAB = true ∧ op1 eFrnd .frnd 0x0 0x40200000 0x40000000 = true ∧
    op1 eFrnd .frnd 0x1 0xC0200000 0xC0000000 = true ∧
    op3 eDot4 .dot4 0x0 0x01FF0203 0x01010101 10 15 = true ∧ op3 eDot2 .dot2 0x0 0xFFFF0003 0x00020004 1 11 = true ∧
    op3 eDot2 .dot2 0x4 0x3C003C00 0x40003C00 0x3F800000 0x40800000 = true := by decide +kernel

/-- Special functions run and give NaN for NaN; their other results are free within R163. -/
theorem test_special :
    op1 eFrcp .frcp 0x0 0x7FC00000 0x7FC00000 = true ∧ op1 eFrsq .frsq 0x0 0x7FC00000 0x7FC00000 = true ∧
    op1 eFsqrt .fsqrt 0x0 0x7FC00000 0x7FC00000 = true ∧ op1 eFexp2 .fexp2 0x0 0x7FC00000 0x7FC00000 = true ∧
    op1 eFlog2 .flog2 0x0 0x7FC00000 0x7FC00000 = true ∧ op1 eFsin .fsin 0x0 0x7FC00000 0x7FC00000 = true ∧
    op1 eFcos .fcos 0x0 0x7FC00000 0x7FC00000 = true ∧ op1 eFtanh .ftanh 0x0 0x7FC00000 0x7FC00000 = true := by decide +kernel

/-- `CVT` from S1's type to the modifier's: s32 to f32, f32 to s8 with a sign, f32 to e4m3 saturating; fields packed and unpacked. -/
theorem test_conversions :
    runs eCvt .cvt (ins eCvt (k 3) (k 1) 4 NO 0xA) (ks [(1, neg 1)] P) (kIs 3 0xBF800000) = true ∧
    runs eCvt .cvt (ins eCvt (k 3) (k 1) 10 NO 0x2) (ks [(1, 0xC0000000)] P) (kIs 3 0xFFFFFFFE) = true ∧
    runs eCvt .cvt (ins eCvt (k 3) (k 1) 10 NO 0xD) (ks [(1, 0x3F800000)] P) (kIs 3 0x38) = true ∧
    runs ePack .pack (ins ePack 3 4 NO NO 1) (vr 4 (fun _ => 1) (vr 5 (fun _ => 2) (vr 6 (fun _ => 3) (vr 7 (fun _ => 0x1FF) P))))
      (vIs 3 9 0xFF030201) = true ∧
    op2 eUnpack .unpack 0x5 0xFF030201 3 0xFFFFFFFF = true ∧ op2 eUnpack .unpack 0x1 0xFF030201 3 0xFF = true ∧
    op2 eUnpack .unpack 0x0 0xFF030201 1 0xFF03 = true ∧
    runs eCvtsc .cvtsc (ins eCvtsc 3 4 NO NO 0xF) P (trapped cBound bCb) = true := by decide +kernel

/-- `CVTSC` on the block of spec/06 R169, and a `.c4` one whose codes are free where the spec states none. -/
theorem test_cvtsc :
    (let v (l : Nat) : Nat := if l = 0 then 0x41A00000 else if l = 1 then 0x3AC49BA6 else if l = 20 then 0x44160000 else 0x3F800000
     runs eCvtsc .cvtsc { ins eCvtsc 4 2 (c 0) NO 0xD with preg := 1 } (pr 1 0xFFFF (vr 2 v (vr 4 (fun _ => 7) P)))
       (fun t => vIs 4 0 0x7B7A t && vIs 4 1 0x7B0C t && vIs 4 2 0x7B58 t && vIs 4 15 0x7B58 t && vIs 4 20 7 t) = true) ∧
    meets eCvtsc (ins eCvtsc 4 2 (c 0) NO 0xF) (team (fun t => { t with cbs := [List.replicate 32 0] }) P)
      (fun ic s => (cbSlot s.team ((ic.u1 false).toNat % 16)).isSome) = true := by decide +kernel

/-- `RoundingIsExact`: a pattern of each format, and a NaN. -/
theorem test_rounding :
    ([(fp32, 0x00000001), (fp16, 0x7BFF), (bf16, 0xFF80), (e4m3, 0x7E), (e5m2, 0x01)].all fun x =>
      fencode x.1 { mode := 2 } false true (fdecode x.1 false x.2) == x.2) = true ∧
    fencode e4m3 {} false false (fdecode e4m3 false 0xFF) = 0x7F := by decide +kernel

/-! ## Moves and the crossbar -/

theorem test_moves :
    op1 eMov .mov 0 (neg 2) (neg 2) = true ∧
    runs eMovi .movi (ins eMovi 3 (c 10) (c 3) NO) P (fun t => vIs 3 0 10 t && vIs 3 31 103 t) = true ∧
    runs eMovhi .movhi { plain 0x0C2 with dst := 259, s0 := 0, s1 := 0, s2 := 0x100 } P (kIs 3 0xFFFFFFFF80000000) = true ∧
    runs eAddpc .addpc { plain 0x0C3 with dst := 259, s0 := 256, s1 := 4, s2 := 0 } P (kIs 3 0x13000) = true ∧
    runs eSel .sel (ins eSel 3 1 (c 5) (p 1)) (vr 1 id (pr 1 0xF P)) (fun t => vIs 3 3 3 t && vIs 3 4 5 t) = true ∧
    runs ePlop .plop (ins ePlop (p 3) (p 1) (p 2) NO 0x8) (pr 1 0xF (pr 2 0x3C P)) (pIs 3 0xC) = true := by decide +kernel

/-- A vector of lane numbers, with lanes 4 and up not live in the last line. -/
theorem test_shuffles :
    runs eBcast .bcast (ins eBcast (k 3) 1 (c 7) NO) (vr 1 id P) (kIs 3 7) = true ∧
    runs eShfl .shfl (ins eShfl 3 1 2 NO) (vr 1 (· + 50) (vr 2 (31 - ·) P)) (vIs 3 4 77) = true ∧
    runs eShflx .shflx (ins eShflx 3 1 (c 1) NO) (vr 1 id P) (fun t => vIs 3 4 5 t && vIs 3 5 4 t) = true ∧
    runs eShflup .shflup (ins eShflup 3 1 (c 2) NO) (vr 1 id P) (fun t => vIs 3 1 1 t && vIs 3 9 7 t) = true ∧
    runs eShfldn .shfldn (ins eShfldn 3 1 (c 2) NO) (vr 1 id P) (fun t => vIs 3 31 31 t && vIs 3 9 11 t) = true ∧
    runs eShfl .shfl (ins eShfl 3 1 (c 9) NO) (mem (fun m => { m with live := 0xF, exec := 0xF }) (vr 1 id P)) (vIs 3 0 0) = true := by
  decide +kernel

theorem test_votes :
    runs eVote .vote (ins eVote (k 3) (p 1) NO NO 0) (pr 1 8 P) (kIs 3 1) = true ∧
    runs eVote .vote (ins eVote (k 3) (p 1) NO NO 1) (pr 1 8 P) (kIs 3 0) = true ∧
    runs eVote .vote (ins eVote (k 3) (p 1) NO NO 2) (pr 1 8 P) (kIs 3 8) = true ∧
    runs eVote .vote (ins eVote (k 3) 1 NO NO 3) (vr 1 id P) (kIs 3 0) = true ∧
    runs eFirstl .firstl (ins eFirstl (k 3) (p 1) NO NO 1) (pr 1 0x18 P) (kIs 3 4) = true ∧
    runs eFirstl .firstl (ins eFirstl (k 3) (p 1) NO NO) P (kIs 3 (neg 1)) = true ∧
    runs eKill .kill (ins eKill (k 3) (p 1) NO NO) (pr 1 0xF0 P) (fun t => kIs 3 28 t && t.m.live == 0xFFFFFF0F) = true ∧
    runs eKill .kill (ins eKill (k 3) (p 7) NO NO) P (fun t => t.m.status == .retired) = true := by decide +kernel

/-- Prefixes, reductions, and the draw of spec/05 R131. -/
theorem test_reductions :
    runs ePfxsum .pfxsum (ins ePfxsum 3 1 NO NO 0x8) (vr 1 id P) (vIs 3 31 496) = true ∧
    runs ePfxsum .pfxsum (ins ePfxsum 3 1 NO NO 0x18) (vr 1 id P) (fun t => vIs 3 0 0 t && vIs 3 31 465 t) = true ∧
    runs ePfxsum .pfxsum (ins ePfxsum 3 (c 25) NO NO 0x1A) P (fun t => vIs 3 0 0 t && vIs 3 2 0x40000000 t) = true ∧
    runs ePfxsum .pfxsum (ins ePfxsum 3 (c 25) NO NO 0xA) P (vIs 3 3 0x40800000) = true ∧
    runs eLred .lred (ins eLred (k 3) 1 NO NO 0x4) (vr 1 (0xFFFFFFFF - ·) P) (kIs 3 (neg 528)) = true ∧
    runs eLred .lred (ins eLred (k 3) 1 NO NO 0x28) (vr 1 id P) (kIs 3 31) = true ∧
    runs eLred .lred (ins eLred (k 3) (c 25) NO NO 0xA) P (kIs 3 0x42000000) = true ∧
    runs eLred .lred (ins eLred (k 3) 1 NO NO 0x1A) (vr 1 (fun l => if l = 9 then 0xBF800000 else 0x3F800000) P) (kIs 3 0xBF800000) = true ∧
    (let w (l : Nat) : Nat := [0x3F000000, 0x3FC00000, 0, 0x40000000].getD l 0
     let s := mem (fun m => { m with exec := 0xF }) (vr 9 w P)
     runs eSample .sample (ins eSample (k 7) 9 (c 24) NO) s (kIs 7 3) = true ∧
       runs eSample .sample (ins eSample (k 7) 9 (k 8) NO) (ks [(8, 0x3E800000)] s) (kIs 7 1) = true ∧
       runs eSample .sample (ins eSample (k 7) (c 0) (c 24) NO) s (fun t => kIs 7 (neg 1) t && bit t.m.regstat 2) = true) := by
  decide +kernel

/-! ## Scratchpad -/

/-- Scratchpad words, some of them full. -/
def spad (ws : List (Nat × Nat)) (fullWords : List Nat) (s : State) : State :=
  team (fun t => { t with spad := ws.map fun e => (e.1, BitVec.ofNat 32 e.2), full := fullWords }) s
def wordIs (w x : Nat) (t : State) : Bool := spadWord t.team w == BitVec.ofNat 32 x

theorem test_scratchpad :
    runs eLds .lds (ins eLds 3 (k 2) 1 NO 0 0x02000020 1) (ks [(2, 0x40)] (vr 1 id (spad [(24, 7), (55, 9)] [] P)))
      (fun t => vIs 3 0 7 t && vIs 3 31 9 t && vIs 3 1 0 t) = true ∧
    runs eLds .lds (ins eLds (k 3) (k 2) NO NO 4) (ks [(2, 1)] (spad [(0, 0xF800)] [] P)) (kIs 3 (neg 8)) = true ∧
    runs eLds .lds (ins eLds (k 3) (k 2) NO NO) (ks [(2, 2)] P) (trapped cAlign 0) = true ∧
    runs eLdsWait .ldsWait (ins eLdsWait (k 3) (k 2) NO NO) (ks [(2, 4)] (spad [(1, 5)] [1] P)) (fun t => kIs 3 5 t && wordFull t.team 1) = true ∧
    runs eLdsTake .ldsTake (ins eLdsTake (k 3) (k 2) NO NO) (ks [(2, 4)] (spad [(1, 5)] [1] P)) (fun t => kIs 3 5 t && !wordFull t.team 1) = true ∧
    runs eLdsTake .ldsTake (ins eLdsTake (k 3) (k 2) NO NO) (ks [(2, 4)] P) (sleeps (.words [1] true 0)) = true := by decide +kernel

theorem test_scratchpadStores :
    runs eSts .sts (ins eSts 1 (k 2) NO NO) (ks [(2, 8)] (vr 1 id P)) (fun t => wordIs 2 31 t && !wordFull t.team 2) = true ∧
    runs eSts .sts (ins eSts (k 1) (k 2) NO NO 1) (ks [(1, 0x700000005), (2, 8)] P) (fun t => wordIs 2 5 t && wordIs 3 7 t) = true ∧
    runs eSts .sts (ins eSts (k 1) (k 2) NO NO) (ks [(2, 6)] P) (trapped cAlign 0) = true ∧
    runs eStsFill .stsFill (ins eStsFill (c 9) (k 2) NO NO) (ks [(2, 8)] P) (fun t => wordIs 2 9 t && wordFull t.team 2) = true ∧
    runs eStsFill .stsFill (ins eStsFill (c 9) (k 2) NO NO) (ks [(2, 8)] (spad [] [2] P)) (sleeps (.words [2] false 0)) = true ∧
    runs eSempty .sempty (ins eSempty NO (k 2) (c 8) NO) (ks [(2, 4)] (spad [] [0, 1, 2, 3] P)) (fun t => t.team.full == [0, 3]) = true := by
  decide +kernel

/-- One address in every lane: each step sees the last one's result. -/
theorem test_atomics :
    runs eAtoms .atoms (ins eAtoms 3 (k 2) NO 1 0 0x800000 1) (ks [(2, 4)] (vr 1 id (spad [(1, 100)] [] P)))
      (fun t => vIs 3 0 100 t && vIs 3 3 103 t && wordIs 1 596 t) = true ∧
    runs eCass .cass (ins eCass (k 3) (k 2) (c 5) (c 9) 0 0 1) (ks [(2, 4)] (spad [(1, 5)] [] P)) (fun t => kIs 3 5 t && wordIs 1 9 t) = true ∧
    runs eAtom .atom (ins eAtom 3 (k 2) NO (c 1) 0 0x800000 1) (ks [(2, 0x2000)] P)
      (fun t => vIs 3 31 31 t && seen t 0x2000 4 == 32) = true ∧
    runs eCas .cas (ins eCas (k 3) (k 2) (c 5) (c 9) 0 0 1) (ks [(2, 0x2000)] (at_ 0x2000 4 6 P))
      (fun t => kIs 3 6 t && seen t 0x2000 4 == 6) = true ∧
    runs eRed .red (ins eRed 1 (k 2) NO NO 2 0x400000 1) (ks [(2, 0x2000)] (vr 1 id P)) (fun t => seen t 0x2000 4 == 31) = true := by
  decide +kernel

/-! ## Memory -/

theorem test_memory :
    Memory.wf (writeCell [] 5 7) = true ∧ readCell (writeCell [] 5 7) 5 = 7 ∧ readNat (writeNat [] 3 4 0x1_0000_0001) 3 4 = 1 ∧
    writeCell (writeCell [] 5 7) 5 0 = [] := by decide +kernel

theorem test_loads :
    runs eLd .ld (ins eLd 3 (k 2) 1 NO 0 0x02000020 1) (ks [(2, 0x2000)] (vr 1 id (at_ 0x2024 4 7 P))) (fun t => vIs 3 1 7 t && vIs 3 0 0 t) = true ∧
    runs eLdI12 .ldI12 (ins eLdI12 (k 3) (k 2) 16 0 1) (ks [(2, 0x2000)] (at_ 0x2010 8 0x1_0000_0007 P)) (kIs 3 0x1_0000_0007) = true ∧
    runs eSt .st (ins eSt 1 (k 2) NO NO) (ks [(2, 0x2000)] (vr 1 id P)) (fun t => seen t 0x2000 4 == 31 && seen t 0x2004 4 == 0) = true ∧
    runs eStI12 .stI12 (ins eStI12 (k 4) (k 2) 0x1F8 7 3) (ks [(2, 0x2008), (4, 9)] P) (fun t => seen t 0x2000 4 == 9) = true ∧
    after (.stI12 (ins eStI12 (c 9) (k 2) 0x1F8 7 3)) (ks [(2, 0x2008)] P) (trapped cEmu 6) = true ∧
    runs eLd .ld (ins eLd 3 (k 2) NO NO) (ks [(2, 0x2002)] P) (trapped cAlign 0) = true ∧
    runs eSt .st (ins eSt 1 (k 2) NO NO) (ks [(2, 0x2002)] P) (trapped cAlign 0) = true ∧
    runs eLd .ld (ins eLd (k 3) (k 2) NO NO) (ks [(2, 2 ^ 40)] P) (fun t => trapped cMem 1 t && t.m.cursor == 0x4000) = true := by decide +kernel

/-- A descriptor of a gather window: the example of spec/08 R202 (COUNT 4, BOUND 8, words, indices 3, 0, 9, 1, FILL all ones). -/
def winDesc : Nat := (2 ^ 64 - 1) * 2 ^ 256 + 8 * 2 ^ 160 + 4 * 2 ^ 128 + 0x3000 * 2 ^ 64 + 0x2100
def gathered (s : State) : State :=
  (List.range 10).foldl (fun s d => at_ (0x3000 + 4 * d) 4 (100 + d) s)
    (at_ 0x2100 4 3 (at_ 0x2108 4 9 (at_ 0x210C 4 1 s)))

theorem test_windows :
    runs eWinbind .winbind (ins eWinbind (k 5) (c 3) (k 2) NO) (ks [(2, 0x2000)] (at_ 0x2000 64 winDesc P))
      (fun t => kIs 5 0x500300000000 t && lookupKey 3 t.ctx.wins == some (BitVec.ofNat 512 winDesc)) = true ∧
    runs eWinbind .winbind (ins eWinbind (k 5) (c 3) (k 2) NO) (ks [(2, 0x2000)] (at_ 0x2000 64 (winDesc + 2 ^ 320) P)) (trapped cShape shWin) = true ∧
    runs eLd .ld (ins eLd 2 (k 5) 1 NO 0 0x02000000 1)
      (mem (fun m => { m with exec := 0x3F }) (ks [(5, 0x500300000000)] (vr 1 id (ctx (fun x => { x with wins := [(3, BitVec.ofNat 512 winDesc)] }) (gathered P)))))
      (fun t => (List.range 6).map (fun l => vLane t.m.rf 2 l) == [103, 100, 0xFFFFFFFF, 101, 0xFFFFFFFF, 0xFFFFFFFF]) = true ∧
    runs eWinfree .winfree (ins eWinfree NO (c 3) NO NO) (ctx (fun x => { x with wins := [(3, 0)] }) P) (fun t => t.ctx.wins == []) = true ∧
    runs eWinfree .winfree (ins eWinfree NO (k 2) NO NO) (ks [(2, 16)] P) (trapped cMem xWin) = true := by decide +kernel

/-- A schedule of 4 steps at 0x2000. -/
def sched (s : State) : State := part (fun x => { x with evAddr := 0x2000, evCtx := 1, evstat := 0x4_0000_0000 }) s

theorem test_ordering :
    runs eFence .fence (ins eFence NO NO NO NO 0x1C) P (goes 0x1008 all32) = true ∧
    runs ePref .pref (ins ePref NO (k 2) NO NO) P (goes 0x1008 all32) = true ∧
    runs eCctl .cctl (ins eCctl NO (k 2) (c 8) NO 0) P (fun t => t.cl == P.cl) = true ∧
    runs eCctl .cctl (ins eCctl NO (k 2) (c 8) NO 5) (ks [(2, 0x2020)] { P with cl := { icache := [⟨0x2000, [], 0⟩, ⟨0x2080, [], 0⟩] } })
      (fun t => t.cl.icache.map (·.pa) == [0x2080]) = true ∧
    runs eEvload .evload (ins eEvload NO (k 2) (c 4) NO) (ks [(2, 0x2000)] P) (fun t => t.part.evstat == 0x4_0000_0000) = true ∧
    runs eEvload .evload (ins eEvload NO (k 2) (c 0) NO) (ks [(2, 0x2000)] (sched P)) (fun t => t.part.evstat == 0) = true ∧
    runs eEvload .evload (ins eEvload NO (k 2) (c 4) NO) (ks [(2, 0x2001)] P) (trapped cAlign 0) = true ∧
    runs eEvstep .evstep (ins eEvstep (k 3) (c 7) NO NO) (sched P) (fun t => kIs 3 3 t && t.part.evstat == 0x4_0003_0000) = true ∧
    runs eEvstep .evstep (ins eEvstep (k 3) (c 7) NO NO) P (kIs 3 0) = true := by decide +kernel

/-! ## Translation -/

/-- A privileged context with frames at 0x40000 and 0x80000 in its pool at 0x2000, and a second root. -/
def pooled (n : Nat) (s : State) : State :=
  part (fun x => { x with poolbase := 0x2000, poolcap := 3, poolcnt := BitVec.ofNat 64 n })
    (at_ 0x2000 8 0x40000 (at_ 0x2008 8 0x80000 (ctx (fun x => { x with priv := true }) s)))

theorem test_translation :
    runs eAddrq .addrq (ins eAddrq (k 3) (k 2) NO NO) (ks [(2, 0x2345)] P) (fun t => bit (kReg t.m.rf 3) 63 == false) = true ∧
    runs ePgmap .pgmap (ins ePgmap (k 3) (k 2) (k 1) NO) P (trapped cEmu 10) = true ∧
    runs ePgpool .pgpool (ins ePgpool (k 3) (k 2) NO NO) P (trapped cEmu 10) = true ∧
    runs eTlbinv .tlbinv (ins eTlbinv NO (k 2) (c 0) NO) P (trapped cEmu 10) = true ∧
    runs ePgmap .pgmap (ins ePgmap (k 3) (k 2) (c 1) NO) (pooled 2 P) (kIs 3 4) = true ∧
    runs ePgpool .pgpool (ins ePgpool (k 3) (k 2) NO NO 0) (pooled 2 P) (kIs 3 2) = true ∧
    runs ePgpool .pgpool (ins ePgpool (k 3) (k 2) NO NO 1) (pooled 3 P) (kIs 3 1) = true ∧
    runs ePgpool .pgpool (ins ePgpool (k 3) (k 2) NO NO 1) (ks [(2, 0x40001)] (pooled 2 P)) (kIs 3 2) = true ∧
    runs ePgpool .pgpool (ins ePgpool (k 3) (k 2) NO NO 1) (ks [(2, 0xC0000)] (pooled 2 P))
      (fun t => kIs 3 0 t && t.part.poolcnt == 3 && seen t 0x2010 8 == 0xC0000) = true ∧
    runs ePgpool .pgpool (ins ePgpool (k 3) (k 2) NO NO 2) (pooled 2 P) (fun t => kIs 3 0x80000 t && t.part.poolcnt == 1) = true ∧
    runs ePgpool .pgpool (ins ePgpool (k 3) (k 2) NO NO 2) (pooled 0 P) (kIs 3 0) = true ∧
    runs eTlbinv .tlbinv (ins eTlbinv NO (k 2) (c 0) NO) (pooled 0 P) (goes 0x1008 all32) = true ∧
    runs eTlbinv .tlbinv (ins eTlbinv NO (k 2) (c 0) NO 1) (mem (fun m => { m with ctxOv := [(0x087, 0x8000)] }) (pooled 0 P))
      (fun t => t.ctx.s1root == 0x8000 && t.m.ctxOv == []) = true := by decide +kernel

/-- `PGMAP` at a root whose entry is invalid takes a table and a page from the pool (R230; attribute word 0x2C: R, W, U). -/
theorem test_pgmap :
    runs ePgmap .pgmap (ins ePgmap (k 3) (k 2) (k 1) NO) (ks [(1, 0x2C), (2, 0x2_0004_0000)] (pooled 2 P))
      (fun t => kIs 3 0 t && t.part.poolcnt == 0 && seen t 8 8 == 0x80001 && seen t 0x80008 8 == 0x4002F) = true := by decide +kernel

/-! ## Copies -/

/-- A layout record of 2 rows of 4 words in one plane, packed; rows of 16 bytes on the strided side (R260). -/
def lay (e0 : Nat) : Nat := 2 + e0 * 2 ^ 160 + 2 * 2 ^ 176 + 2 ^ 192 + 4 * 2 ^ 208 + 2 * 2 ^ 232 + 16 * 2 ^ 304
/-- Words 10 to 17 at 0x2000, the record at 0x2400, and the operands of a copy to scratchpad offset 0x100. -/
def copying (record src : Nat) (s : State) : State :=
  ks [(1, 0x100), (2, src), (3, 0x2400)] (at_ 0x2400 64 record ((List.range 8).foldl (fun s i => at_ (0x2000 + 4 * i) 4 (10 + i) s) s))
def tcopy (e : Entry) (ext : Nat) : Fields := ins e (k 1) (k 2) (k 3) NO 0 ext 2
/-- The state in which an instruction leaves the machine; the same machine where it stops. -/
def next (i : Instr) (s : State) : State := match exec i s with | .next t => t | _ => s

theorem test_cpy :
    let s := vr 2 (0x2000 + 4 * ·) (vr 3 (fun _ => 0) (vr 8 (4 * ·) (copying 0 0 P)))
    let u := next (.cpy (ins eCpy 8 2 (c 5) NO)) s
    runs eCpy .cpy (ins eCpy 8 2 (c 5) NO) s (fun t => t.team.copies.map (·.tag) == [5] && !(tagMask t.team).getLsbD 5 && wordIs 1 0 t) = true ∧
    runs eCpy .cpy (ins eCpy 8 2 (k 4) NO) (ks [(4, 64)] s) (trapped cShape shTag) = true ∧
    after (.copyComplete 1) u (fun t => t.team.copies == [] && wordIs 1 11 t && wordFull t.team 1) = true := by decide +kernel

theorem test_tcopy :
    let s := copying (lay 4) 0x2000 P
    let u := next (.tcopy (tcopy eTcopy 0x405)) s
    runs eTcopy .tcopy (tcopy eTcopy 0x405) s (fun t => t.team.copies.map (·.tag) == [5]) = true ∧
    after (.copyComplete 1) u (fun t => t.team.copies == [] && wordIs 0x40 10 t && wordIs 0x47 17 t && wordFull t.team 0x47) = true ∧
    runs eTcopy .tcopy (tcopy eTcopy 0x405) (copying (lay 0) 0x2000 P) (fun t => t.team.copies == [] && goes 0x1010 all32 t) = true ∧
    runs eTcopy .tcopy (tcopy eTcopy 0x405) (copying (lay 4 + 2 ^ 344) 0x2000 P) (trapped cShape shGeom) = true ∧
    runs eTcopyMc .tcopyMc (tcopy eTcopyMc 0x01_0077_000000_0405) (team (fun t => { t with mcwin := [0x0077_0000_0200_0200#64, 0, 0, 0] }) s)
      (fun t => t.team.copies.map (fun x => match x.op with | .tensor _ _ _ _ ts _ => ts | _ => []) == [[(1, 0x300)]]) = false ∧
    runs eTcopyMc .tcopyMc (tcopy eTcopyMc 0x01_0077_000000_0405) (team (fun t => { t with mcwin := [0x0077_0000_0400_0200#64, 0, 0, 0] }) s)
      (fun t => t.team.copies.map (fun x => match x.op with | .tensor _ _ _ _ ts _ => ts | _ => []) == [[(1, 0x300)]]) = true := by decide +kernel

/-- A copy whose source does not translate is suspended at element 0 with a record (R265). -/
theorem test_copySuspend :
    let u := next (.tcopy (tcopy eTcopy 0x405)) (copying (lay 4) (2 ^ 40) P)
    after (.copySuspend { id := 1 }) u (fun t => t.team.copies.map (fun x => x.fault.map fun f => (f.side, f.elem, f.fault.xl.va)) ==
      [some (0, 0, 0x10000000000#64)]) = true ∧
    waveLeft u = true ∧ still (.copyComplete 1) u = true ∧
    after .copyQueueRoom (mem (fun m => { m with wait := some .copyRoom }) P) (fun t => t.m.wait == none) = true := by decide +kernel

/-- A copy to words 64 to 71 is under way. -/
def copyOut (s : State) : State := mem (fun m => { m with cursor := 0x1000 }) (next (.tcopy (tcopy eTcopy 0x405)) (copying (lay 4) 0x2000 s))

/-- `CopyTags`: a team with a copy on tag 5. -/
theorem test_copyTags :
    let s := ks [(1, 0x60), (2, 0x20), (3, 0x40)] (copyOut P)
    runs eCpwait .cpwait (ins eCpwait NO (k 3) NO NO) s (goes 0x1008 all32) = true ∧
    runs eCpwait .cpwait (ins eCpwait NO (k 1) NO NO) s (sleeps .tags) = true ∧
    runs eCpany .cpany (ins eCpany (k 4) (k 1) NO NO) s (kIs 4 0x40) = true ∧
    runs eCpany .cpany (ins eCpany (k 4) (k 2) NO NO) s (sleeps .tags) = true ∧
    runs eCpfirst .cpfirst (ins eCpfirst (k 4) (k 1) NO NO) s (kIs 4 6) = true ∧
    runs eCpfirst .cpfirst (ins eCpfirst (k 4) (k 2) NO NO) s (kIs 4 (neg 1)) = true ∧
    runs eCptest .cptest (ins eCptest (k 4) (k 1) NO NO) s (kIs 4 0x40) = true ∧
    runs eCptest .cptest (ins eCptest (p 4) (k 1) NO NO) s (pIs 4 0) = true ∧
    runs eCpstat .cpstat (ins eCpstat (k 4) (c 5) NO NO) s (kIs 4 1) = true ∧
    runs eCpstat .cpstat (ins eCpstat (k 4) (c 6) NO NO) s (kIs 4 0x100000000) = true := by decide +kernel

/-! ## The matrix engine -/

/-- A weight of one K-step of s8, dense, whose panel is in place with the byte 5 at (0, 0); and a team with two tiles. -/
def weight1 : Weight :=
  { id := 99, handle := 3, kib := 4, record := BitVec.ofNat 512 (5 + 2 ^ 32 + 0x3000 * 2 ^ 64), presence := [], src := [], bytes := [5], loaded := true }
def mx (s : State) : State :=
  team (fun t => { t with
    tiles := [newTile false, newTile false], cbs := List.replicate 4 [], rels := List.replicate 2 (List.replicate 128 0#8)
    trees := [List.replicate 256 0#8], wbs := [weight1], share := 16384 }) s
/-- The element of a tile; the next state after an event. -/
def accIs (n i x : Nat) (t : State) : Bool := (tileAt t.team n).data.getD i 0#32 == BitVec.ofNat 32 x
def queued (n : Nat) (t : State) : Bool := t.core.mxq.length == n
def full32 (s : State) : State := { s with core := { s.core with mxq := List.replicate 32 { id := 1, team := 1, issuer := 1, priv := false, tiles := 1, decode := false, work := .setAdmit 0 0 } } }

/-- s8 × s8 into an overwritten integer tile: format word 0x355 (R35), A from v8 on, B from weight 3 (R312, R323). -/
theorem test_mmaQ :
    let f := ins eMmaQ NO (k 1) 8 (c 0) 0 (2 ^ 18 + 2 ^ 24 + 3 * 2 ^ 25) 2
    let s := ks [(1, 0x355)] (vr 8 (fun l => if l = 0 then 3 else 0) (mx P))
    let u := next (.mmaQ f) s
    runs eMmaQ .mmaQ f s (queued 1) = true ∧
    (chooseOp u).map isMma = some true ∧
    after .mxKstep u (fun t => accIs 0 0 15 t) = true ∧
    still .mxQueuedOp u = true ∧
    runs eMmaQ .mmaQ f (full32 s) (sleeps .mxRoom) = true := by decide +kernel

theorem test_mma :
    runs eMma .mma (ins eMma NO (k 1) (c 0) (k 2) 0 (2 ^ 18) 2) (ks [(1, 0x355), (2, 4096)] (mx P)) (queued 1) = true ∧
    runs eMma .mma (ins eMma NO (k 1) (c 0) (k 2) 0 (2 ^ 18) 2) (ks [(1, 0x355), (2, 4096)] (mx (full32 P))) (sleeps .mxRoom) = true ∧
    runs eMma .mma (ins eMma NO (k 1) (c 0) (k 2) 0 (2 ^ 18 + 2 * 2 ^ 15) 2) (ks [(1, 0x355), (2, 4096)] (mx P)) (trapped cBound bAcc) = true := by
  decide +kernel

/-- A relation that admits nothing skips the pass on path 1 (R311, R341). -/
theorem test_mmaSkip :
    let f := ins eMma NO (k 1) (c 0) (k 2) 0 (2 ^ 18 + 2 ^ 40 * 96 + 2 ^ 52 * 98) 2
    let s := team (fun t => { t with full := List.range' 3072 128 }) (ks [(1, 0x355 + 2 ^ 21), (2, 4096)] (mx P))
    let u := next (.mma f) s
    after .mxKstep u (fun t => queued 0 t && t.team.mxskip == 1 && accIs 0 5 0 t) = true := by decide +kernel

/-- One element: an admitted pair, a pair that is not, and a pair without a live leaf (R39). -/
theorem test_kstep :
    let p : MmaPart := { row := 0, rows := 64, fw := 0x255, aOff := 0, bOff := 0, steps := 1 }
    let q : KStep := { p := p, a := [3, 2], b := [5, 0xFF], rowAdmit := fun _ j => j == 0 }
    q.elem 0 0 7 = 20 ∧ q.elem 0 1 7 = 7 ∧
    { q with p := { p with fw := 0x255 + 2 ^ 20 } }.bAt 0 0 = none ∧ { q with p := { p with fw := 0x255 + 2 ^ 20 } }.elem 0 0 7 = 7 := by decide +kernel

theorem test_tiles :
    runs eAcczero .acczero (ins eAcczero NO (c 3) NO NO 0xA) (mx P) (queued 1) = true ∧
    runs eAcczero .acczero (ins eAcczero NO (c 4) NO NO) (mx P) (trapped cBound bAcc) = true ∧
    after .mxQueuedOp (next (.acczero (ins eAcczero NO (c 3) NO NO 0xA)) (mx P)) (fun t => queued 0 t && accIs 1 9 0x80000000 t) = true ∧
    runs eAccadd .accadd (ins eAccadd NO (c 0) (c 1) NO) (mx P) (queued 1) = true ∧
    runs eMxclass .mxclass (ins eMxclass NO (c 2) NO NO 1) (mx P) (fun t => t.team.tiles.map (·.decode) == [false, true]) = true ∧
    runs eMxwait .mxwait (ins eMxwait NO (c 1) NO NO) (mx P) (queued 0) = true ∧
    runs eMxwait .mxwait (ins eMxwait NO (c 1) NO NO) (full32 (mx P)) (sleeps .mxDone) = true ∧
    runs eMxwait .mxwait (ins eMxwait NO (c 2) NO NO) (mem (fun m => { m with advs := [(2, false), (1, true)] }) (mx P))
      (fun t => t.m.advs == [(1, true)] && t.m.sureSkip == 1) = true ∧
    after .mxQueueRoom (mem (fun m => { m with wait := some .mxRoom }) P) (fun t => t.m.wait == none) = true := by decide +kernel

/-- `ACCRD` sleeps until the engine has read the tile, and then writes two registers a row (R326). -/
theorem test_accrd :
    let f := ins eAccrd 4 (c 1) (c 0) (c 1)
    let s := team (fun t => { t with tiles := [newTile false, { newTile false with data := [11, 22] ++ List.replicate 30 0 ++ [33] ++ List.replicate 31 0 }] }) (mx P)
    let u := next (.accrd f) s
    let w := next .mxQueuedOp u
    runs eAccrd .accrd f s (fun t => queued 1 t && sleeps (.mxResult 1) t) = true ∧
    runs eAccrd .accrd f w (fun t => vIs 4 0 11 t && vIs 4 1 22 t && vIs 5 0 33 t && goes 0x1008 all32 t) = true := by decide +kernel

/-- `ACCWR` takes its words at issue: rows (R326), and the row-admit map. -/
theorem test_accwr :
    let u := next (.accwr (ins eAccwr 4 (c 1) (c 2) (c 1))) (vr 5 id (mx P))
    runs eAccwr .accwr (ins eAccwr 4 (c 1) (c 2) (c 1)) (vr 5 id (mx P)) (queued 1) = true ∧
    after .mxQueuedOp u (fun t => accIs 1 (128 + 32 + 9) 9 t && !(tileAt t.team 1).rowAdmit.getLsbD 2) = true ∧
    runs eAccwr .accwr (ins eAccwr (k 5) (c 1) NO NO 3) (ks [(5, 7)] (mx P))
      (fun t => queued 1 t && after .mxQueuedOp t (fun v => (tileAt v.team 1).rowAdmit == 7)) = true := by decide +kernel

/-- A region record of 1 row of 16 words, packed: ESIZE 2, E0 16, E1 1, E2 1 (R260, R325). -/
def region : Nat := 2 + 16 * 2 ^ 160 + 2 ^ 176 + 2 ^ 192 + 16 * 2 ^ 208 + 2 ^ 232
theorem test_accMoves :
    let s := ks [(2, 0x2000), (3, 0x2400)] (at_ 0x2400 64 region (at_ 0x2004 4 42 (mx P)))
    let ld := ins eAccld NO (k 2) (k 3) NO 0 (2 ^ 13) 2
    let st := ins eAccst NO (k 2) (k 3) NO 0 (2 ^ 13) 2
    runs eAccld .accld ld s (queued 1) = true ∧
    after .mxQueuedOp (next (.accld ld) s) (fun t => queued 0 t && accIs 1 1 42 t) = true ∧
    runs eAccst .accst st s (fun t => queued 1 t && t.core.mxq.map (·.own.length) == [64]) = true ∧
    after .mxQueuedOp (next (.accst st) s) (fun t => queued 0 t && seen t 0x2004 4 == 0) = true ∧
    -- an `ADDRQ` through a window waits for the index bytes that the store owns; it meets a lost table entry as RAS
    (let u := ctx (fun x => { x with wins := [(3, BitVec.ofNat 512 (winDesc - 0x100))] }) (ks [(5, 0x500300000000)] (next (.accst st) s))
     runs eAddrq .addrq (ins eAddrq (k 3) (k 5) NO NO) (mem (fun m => { m with cursor := 0x1000 }) u) (sleeps .owned)) = true ∧
    runs eAddrq .addrq (ins eAddrq (k 3) (k 2) NO NO) (ks [(2, 0x2_0004_0000)] { P with mod := { P.mod with upsets := [(0, false)] } })
      (trapped cRas 5) = true := by decide +kernel

theorem test_labelMoves :
    let s := ks [(2, 0x2000)] (at_ 0x2004 4 42 (mx P))
    let ld := ins eLblld NO (k 2) NO NO 0 (2 ^ 16 + 2 ^ 14 + 3 * 2 ^ 8 + 2) 2
    let st := ins eLblst NO (k 2) NO NO 0 (2 ^ 16 + 2) 2
    runs eLblld .lblld ld s (queued 1) = true ∧
    after .mxQueuedOp (next (.lblld ld) s) (fun t => (tileAt t.team 1).colLbl.getD 4 0 == 42 && (tileAt t.team 1).rowLbl.getD 4 0 == 0) = true ∧
    runs eLblst .lblst st s (queued 1) = true ∧
    after .mxQueuedOp (next (.lblst st) s) (fun t => queued 0 t && seen t 0x2004 4 == 0) = true := by decide +kernel

/-- A weight of s8 with one K-step at 0x3000, read under handle 4 (R308, R323); codebook slot 1 from 0x3000. -/
theorem test_weights :
    let s := ks [(2, 0x2000), (3, 0x3000)] (at_ 0x3000 1 7 (at_ 0x2000 64 (5 + 2 ^ 32 + 0x3000 * 2 ^ 64) (mx P)))
    let ld := ins eWbload (k 4) (c 4) (k 2) NO
    let u := next (.wbload ld) s
    runs eWbload .wbload ld s (fun t => kIs 4 0 t && queued 1 t) = true ∧
    after (.wbPanelLoaded 4) u (fun t => queued 0 t && t.team.wbs.map (fun w => (w.handle, w.loaded, w.bytes.getD 0 0)) == [(3, true, 5), (4, true, 7)]) = true ∧
    runs eWbload .wbload (ins eWbload (k 4) (c 3) (k 2) NO) s (kIs 4 2) = true ∧
    runs eWbload .wbload (ins eWbload NO (c 1) (k 3) NO 1) s (fun t => (t.team.cbs.getD 1 []).headD 0 == 7) = true ∧
    runs eWbfree .wbfree (ins eWbfree NO (c 8) NO NO) s
      (fun t => t.team.wbs.map (·.freed) == [true] && after (.wbSpaceReturn 3) t fun v => v.team.wbs == []) = true := by decide +kernel

/-! ## Labels, relations and taps -/

/-- The relation of the worked example after R337: one sequence, and a key that is not later. -/
def causal : List Byte :=
  [0x0A, 9, 0, 0] ++ List.replicate 12 0 ++ [0, 2, 0x90, 1] ++ List.replicate 8 0 ++ [0xFF, 0x0F, 0, 0] ++ [0x20, 0x21, 0, 0, 0, 0, 0, 0] ++
    [0, 0x38, 0, 0, 0, 0, 0, 0] ++ List.replicate 80 0
def withRel (s : State) : State := team (fun t => { t with rels := [causal, List.replicate 128 0#8] }) (mx s)
def bytesAt (a : Nat) (bs : List Byte) (s : State) : State := { s with mem := writeNat s.mem a bs.length (ofLeBytes bs) }

theorem test_relation :
    runs eRelld .relld (ins eRelld NO (c 1) (k 2) NO) (ks [(2, 0x2080)] (bytesAt 0x2080 causal (mx P)))
      (fun t => t.team.rels.getD 1 [] == causal) = true ∧
    runs eRelld .relld (ins eRelld NO (c 2) (k 2) NO) (mx P) (trapped cBound bRel) = true ∧
    runs eRelld .relld (ins eRelld NO (c 1) (k 2) NO) (ks [(2, 0x2080)] (at_ 0x2080 1 7 (mx P))) (trapped cShape shRel) = true ∧
    runs eReltest .reltest (ins eReltest (p 2) 4 5 (c 0)) (vr 4 (fun _ => 0x300A0) (vr 5 (fun l => 0x300A1 - l) (withRel P))) (pIs 2 0xFFFFFFFE) = true := by
  decide +kernel

/-- The three column tiles of the worked example after R342, and one with a padding column: ALL, PART, NONE, PART. -/
theorem test_selvedges :
    let r := relOf causal
    let rows := (List.range 64).map (0x30080 + ·)
    let verdict (cols : List Nat) := selvVerdict r (selvOf r rows) (selvOf r cols)
    let words (s : Nat) (l : List Nat) := l.map fun w => fld (BitVec.ofNat 512 s) (32 * w + 31) (32 * w)
    words (selvOf r rows).toNat [0, 1, 2, 3, 4, 12] = [128, 191, 3, 3, 0, 0x400000] ∧
    verdict ((List.range 64).map (0x30000 + ·)) = 2 ∧
    verdict ((List.range 64).map (0x30080 + ·)) = 1 ∧
    verdict ((List.range 64).map (0x300C0 + ·)) = 0 ∧
    verdict ((List.range 63).map (0x30000 + ·) ++ [0x0FFF0000]) = 1 ∧
    relOk r = true ∧ (pairVerdict r [] 0x30080 0x30080).1 = true ∧ (pairVerdict r [] 0x30080 0x30081).1 = false ∧
    pairVerdict r [] 0x0FFF0000 0x30000 = (false, none) := by decide +kernel

theorem test_selv :
    let s := withRel (spad [(64, 0x30007), (65, 0x30009)] [] P)
    runs eSelv .selv (ins eSelv 20 (c 0) (c 0) NO 1) (spad ((List.range 16).map fun i => (i, 0x30007 + i)) [] (withRel P))
      (fun t => vIs 20 0 7 t && vIs 20 1 22 t && vIs 20 12 0x100000 t && vIs 20 31 0 t) = true ∧
    runs eReltest .reltest (ins eReltest (k 2) 4 5 (c 0) 1) s (kIs 2 2) = true ∧
    runs eSelv .selv (ins eSelv 20 (k 1) (c 0) NO 1) (withRel (copyOut P)) (sleeps .owned) = true := by decide +kernel

/-- Parents 0, 0, 1 and 9: node 3 is invalid (R335). -/
theorem test_tree :
    let s := ks [(2, 0x2000)] (bytesAt 0x2000 [0, 0, 1, 9] (mx P))
    runs eTreeld .treeld (ins eTreeld (k 4) (c 0) (k 2) (c 4)) s (fun t => t.team.trees == [[0, 0, 1, 9]]) = true ∧
    runs eTreeld .treeld (ins eTreeld (k 4) (c 0) (k 2) (c 0)) s (trapped cShape shRel) = true := by decide +kernel

/-- The worked example of R477: tap 0 and tile m0. -/
def tapped (s : State) : State :=
  let row (l : List Nat) : List Word := l.map (BitVec.ofNat 32) ++ List.replicate 60 0#32
  let s := part (fun q => { q with taps := 1, tapbase := 0x4000000 }) s
  let s := at_ 0x4000000 8 (1 + 4 * 2 ^ 4 + 2 ^ 19 + 16 * 2 ^ 26 + 12 * 2 ^ 31 + 4 * 2 ^ 37) s
  let s := at_ 0x4000040 8 (1 + 0x40800000 * 2 ^ 32) (at_ 0x4200000 8 0x3F00BF803F803F80 s)
  team (fun t => { t with tiles := [{ newTile false with
    data := row [0x40000000, 0x3F800000, 0x3F000000, 0x40800000] ++ row [0, 0x3F800000, 0x40400000, 0x40000000] ++ List.replicate 3968 0#32
    rowLbl := [0x00010003, 0x00020007] ++ List.replicate 62 0x0FFF0000 }] }) (mx s)
def slotIs (q x : Nat) (t : State) : Bool := seen t (0x4080000 + 512 * q) 8 == x
def tap1 : Fields := ins eTap (k 4) NO NO NO 0 0x8000 2
def tap2 : Fields := ins eTap (k 4) NO NO NO 0 0x408200 2

theorem test_tap :
    let s := tapped P
    let u := next (.tap tap1) s
    let v := next .mxQueuedOp u
    runs eTap .tap tap1 s (fun t => sleeps (.mxResult 1) t && queued 1 t) = true ∧
    (slotIs 1 0x00000002_40400000 v && slotIs 2 0x00000002_3F800000 v) = true ∧
    runs eTap .tap tap1 v (fun t => kIs 4 0 t && goes 0x1010 all32 t) = true ∧
    runs eTap .tap tap1 (full32 s) (sleeps .tapRoom) = true := by decide +kernel

theorem test_tapCrossing :
    let s := at_ 0x4080200 8 0x00000002_40400000 (at_ 0x4080400 8 0x00000002_3F800000 (tapped P))
    let v := next .mxQueuedOp (next (.tap tap2) s)
    (slotIs 1 (2 ^ 63) v && slotIs 2 0 v) = true ∧
    seen v 0x4001000 8 = 0x40900000_00010003 ∧ seen v 0x4000008 4 = 1 ∧
    runs eTap .tap tap2 v (fun t => trapped cTap 1 t &&
      (match t.m.frames with | fr :: _ => fr.bank.getD 6 0 == 1 && fr.bank.getD 7 0 == 0x00010003_40900000 | [] => false)) = true := by
  decide +kernel

/-- Probe 0 does not pass RDPERM or CLRPERM; a privileged member may. Steering with no selector changes nothing. -/
theorem test_tapAccess :
    let priv (s : State) : State := ctx (fun x => { x with priv := true }) s
    let lostSlot (s : State) : State := { s with mod := { s.mod with upsets := [(0x4080200, false)] } }
    let s := at_ 0x4080200 8 0x00000002_40400000 (tapped P)
    runs eTapstat .tapstat (ins eTapstat (k 4) (c 0) (c 1) (c 0)) s (kIs 4 (2 ^ 62)) = true ∧
    runs eTapstat .tapstat (ins eTapstat (k 4) (c 0) (c 1) (c 0)) (priv s) (kIs 4 0x00000002_40400000) = true ∧
    runs eTapstat .tapstat (ins eTapstat (k 4) (c 0) (c 4) (c 0)) s (kIs 4 (2 ^ 61)) = true ∧
    runs eTapstat .tapstat (ins eTapstat (k 4) (c 0) (c 1) (c 0)) (lostSlot (priv s)) (trapped cRas 5) = true ∧
    runs eTapclr .tapclr (ins eTapclr NO (c 0) (c 1) NO) s (fun t => t.m.frames != []) = true ∧
    runs eTapclr .tapclr (ins eTapclr NO (c 0) (c 1) NO) (priv s) (slotIs 1 0) = true ∧
    runs eTapclr .tapclr (ins eTapclr NO (c 3) (c 1) NO) (priv s) (goes 0x1008 all32) = true ∧
    runs eSteer .steer (ins eSteer (k 4) NO NO NO 0 0x8000 2) s (fun t => kIs 4 0 t && queued 1 t) = true ∧
    runs eSteer .steer (ins eSteer (k 4) NO NO NO 0 0x8001 2) s (kIs 4 1) = true := by decide +kernel

/-! ## Barriers, tasks and choreography -/

def tb (n : Nat) (b : Barrier) (s : State) : State := team (fun t => { t with bars := t.bars.set n b }) s
def rb (n : Nat) (b : RouteBarrier) (s : State) : State := part (fun q => { q with bts := q.bts.set n b }) s
/-- A second wave of the team, of a role. -/
def pair (role : Nat) (s : State) : State :=
  { s with peers := [{ s.m with id := 2, slots := [1], waveId := 1, role := BitVec.ofNat 3 role }]
           team := { s.team with roles := List.replicate 2 { kind := .wave, count := 1, budget := 256, share := 0 } } }

theorem test_barriers :
    runs eBararr .bararr (ins eBararr (k 3) NO NO NO 2) P (fun t => kIs 3 0 t && (t.team.bars.getD 2 {}).gen == 1) = true ∧
    runs eBararr .bararr (ins eBararr (k 3) NO NO NO 2) (pair 0 P)
      (fun t => (t.team.bars.getD 2 {}).gen == 0 && (t.team.bars.getD 2 {}).arrived == [0]) = true ∧
    runs eBararr .bararr (ins eBararr (k 3) NO NO NO 2) (tb 2 { arrived := [0] } (pair 0 P)) (sleeps .arrive) = true ∧
    runs eBararr .bararr (ins eBararr (k 3) NO NO NO 2) (team (fun t => { t with tbmask := [0, 0] }) P) (trapped cBound bBar) = true ∧
    runs eBararr .bararr (ins eBararr (k 3) NO NO NO 0x11) P (trapped cShape shBar) = true ∧
    runs eBararr .bararr (ins eBararr (k 3) NO NO NO 0x11) (rb 1 { expect := 2, gen := 7 } P) (fun t => kIs 3 7 t && (t.part.bts.getD 1 {}).arrived == [128]) = true ∧
    runs eBar .bar (ins eBar (k 3) NO NO NO 2) P (fun t => kIs 3 0 t && goes 0x1008 all32 t) = true ∧
    runs eBar .bar (ins eBar (k 3) NO NO NO 2) (pair 0 P) (sleeps (.barrier 2 0)) = true ∧
    runs eBar .bar (ins eBar (k 3) NO NO NO 2) (tb 2 { gen := 8 } (mem (fun m => { m with wait := some (.barrier 2 7) }) (pair 0 P))) (kIs 3 7) = true := by
  decide +kernel

/-- A generation that has passed in 16-bit serial arithmetic: 0xFFFF before 0 (R405). -/
theorem test_barrierWaits :
    runs eBarwait .barwait (ins eBarwait NO (k 1) NO NO 2) (ks [(1, 0xFFFF)] P) (goes 0x1008 all32) = true ∧
    runs eBarwait .barwait (ins eBarwait NO (k 1) NO NO 2) P (sleeps (.barrier 2 0)) = true ∧
    runs eBargen .bargen (ins eBargen (k 3) NO NO NO 2) (tb 2 { gen := 5, arrived := [0] } (pair 0 P)) (kIs 3 (5 + 2 ^ 16 + 2 * 2 ^ 36 + 2 ^ 56)) = true ∧
    after (.slathPhaseComplete 1) (rb 1 { expect := 2, gen := 7, arrived := [1, 2] } P) (fun t => t.part.bts.getD 1 {} == { expect := 2, gen := 8 }) = true ∧
    still (.slathPhaseComplete 1) (rb 1 { expect := 2, gen := 7, arrived := [1] } P) = true := by decide +kernel

/-- A task: LEASE 1, HOME on the enqueuing cluster, DONEDC 9 (R408). -/
def taskWord : Nat := 2 ^ 88 + 0xFF * 2 ^ 112 + 2 ^ 127 + 9 * 2 ^ 128
def task (ready : Bool) : TaskRec := { record := BitVec.ofNat 512 taskWord, home := 0, ready := ready }
def tasks (l : List TaskRec) (s : State) : State := part (fun q => { q with tqs := q.tqs.set 3 [l, [], [], []] }) s
def leased (s : State) : State := part (fun q => { q with tickets := [{ num := 6, queue := 3, task := task true, holder := 1, core := 0, ends := 1024 }] }) s
def dc (n x : Nat) (s : State) : State := part (fun q => { q with dcs := [(n, BitVec.ofNat 32 x)] }) s

theorem test_tasks :
    let s := ks [(2, 0x2000)] (at_ 0x2000 64 taskWord P)
    runs eTqenq .tqenq (ins eTqenq NO (c 3) (k 2) NO) s (fun t => subQueue t 3 0 == [task true]) = true ∧
    runs eTqdeq .tqdeq (ins eTqdeq 4 (c 3) NO NO) (tasks [task true] P)
      (fun t => vIs 4 2 (2 ^ 24) t && vIs 4 16 0 t && vIs 4 17 0 t && subQueue t 3 0 == [] && t.part.tickets.map (·.ends) == [1024]) = true ∧
    runs eTqdeq .tqdeq (ins eTqdeq 4 (c 3) NO NO) (tasks [task false] P) (sleeps (.tasks 3 0)) = true ∧
    runs eTqdeq .tqdeq (ins eTqdeq 4 (c 3) NO NO 1) P (fun t => vIs 4 17 1 t && vIs 4 18 0 t && t.free == 17) = true ∧
    runs eTaskend .taskend (ins eTaskend (k 3) (c 6) NO NO) (dc 9 2 (leased P))
      (fun t => kIs 3 0 t && dcCount t 9 == 1 && t.part.tickets == []) = true ∧
    runs eTaskend .taskend (ins eTaskend (k 3) (c 6) NO NO 1) (leased P)
      (fun t => kIs 3 0 t && (subQueue t 3 0).map (fun x => tkAttempt x.record) == [1]) = true ∧
    runs eTaskend .taskend (ins eTaskend (k 3) (c 7) NO NO) (leased P) (kIs 3 2) = true := by decide +kernel

theorem test_counters :
    let waiting : TaskRec := { task false with record := BitVec.ofNat 512 (taskWord + 2 ^ 47 + 9 * 2 ^ 48) }
    runs eDcinit .dcinit (ins eDcinit NO (c 9) (c 5) NO) P (fun t => dcCount t 9 == 5) = true ∧
    runs eDcinit .dcinit (ins eDcinit NO (c 9) (c 0) NO) (tasks [waiting] P) (fun t => (subQueue t 3 0).map (·.ready) == [true]) = true ∧
    runs eDcdec .dcdec (ins eDcdec (k 3) (c 9) (c 2) NO) (dc 9 2 (tasks [waiting] P))
      (fun t => kIs 3 2 t && dcCount t 9 == 0 && (subQueue t 3 0).map (·.ready) == [true]) = true ∧
    runs eDcdec .dcdec (ins eDcdec (k 3) (k 1) (c 2) NO) (ks [(1, 65536)] P) (trapped cShape shTq) = true := by decide +kernel

theorem test_queueEngine :
    let s := part (fun q => { q with tqs := q.tqs.set 3 [[], [task true, task true, task true], [task true], []], steals := [(3, 0)] }) P
    after (.queueEngineSteal 3 { core := 0 }) s (fun t => (t.part.tqs.getD 3 []).map List.length == [2, 1, 1, 0] && t.part.steals == []) = true ∧
    after (.queueEngineSteal 3 { core := 0, policy := some (1, [2]) }) s (fun t => (t.part.tqs.getD 3 []).map List.length == [1, 2, 1, 0]) = true ∧
    still (.queueEngineSteal 3 { core := 1 }) s = true ∧
    -- a sleep on the second cluster that began first is served first
    (let s := part (fun q => { q with clusters := [0, 1], tqs := q.tqs.set 3 [[], [], [], [task true]] }) (mem (fun m => { m with wait := some (.tasks 3 9) }) P)
     let s := { s with teams := [({ s.team with id := 7, core := 8 }, [{ s.m with id := 70, wait := some (.tasks 3 4) }])] }
     servedFirst s 3 0 && !servedFirst s 3 1) = true ∧
    still (.queueEngineSteal 3 { core := 0 }) (tasks [task true] P) = true ∧
    still (.leaseExpiry 6) (leased P) = true ∧
    after (.leaseExpiry 6) { leased P with cycle := 1024 }
      (fun t => t.part.stale == [6] && t.part.tickets == [] && (subQueue t 3 1).map (fun x => tkAttempt x.record) == [1] &&
        t.m.held.map (·.cause) == [1]) = true := by decide +kernel

theorem test_deviceLaunch :
    runs eLaunch .launch (ins eLaunch (k 3) (k 2) NO NO 0 0 2) (ks [(2, 0x2000)] P) (fun t => kIs 3 0 t && t.part.launches.map (·.device) == [true]) = true ∧
    runs eLaunch .launch (ins eLaunch (k 3) (k 2) NO NO 0 0 2) (ks [(2, 0x2004)] P) (trapped cAlign 0) = true := by decide +kernel

/-- `CROSS.V` on channel 0 from role 0 to role 1, and the receive of role 0 from role 1. -/
def crossF (dst s0 sr rr : Nat) : Fields := ins eCross dst s0 NO NO 0 (sr + 8 * rr) 1
theorem test_cross :
    let s := vr 4 id (pair 1 P)
    let recv := { s with team := { s.team with chans := s.team.chans.set 0 [{ srole := 1, rrole := 0, region := false, words := (List.range 32).map (BitVec.ofNat 32) }] } }
    let alone := { s with peers := s.peers.map fun m => { m with status := .retired } }
    runs (crossEntry (crossF NO 4 0 1) s) .cross (crossF NO 4 0 1) s (fun t => (chanOf t 0).map (fun e => e.words.getD 9 0) == [9]) = true ∧
    runs (crossEntry (crossF NO 4 0 1) alone) .cross (crossF NO 4 0 1) alone (fun t => t.team.prkstat == 1 && chanOf t 0 == []) = true ∧
    runs (crossEntry (crossF 6 NO 1 0) recv) .cross (crossF 6 NO 1 0) recv (fun t => vIs 6 9 9 t && chanOf t 0 == []) = true ∧
    runs (crossEntry (crossF 6 NO 1 0) s) .cross (crossF 6 NO 1 0) s (sleeps .chan) = true ∧
    runs (crossEntry (crossF 6 NO 1 1) s) .cross (crossF 6 NO 1 1) s (goes 0x100C all32) = true ∧
    runs (crossEntry (crossF 6 4 0 0) s) .cross (crossF 6 4 0 0) s (fun t => vIs 6 9 9 t && chanOf t 0 == []) = true ∧
    runs (crossEntry (crossF 6 4 0 0) s) .cross (crossF 6 4 0 0) (mem (fun m => { m with wait := some .crossSent }) s)
      (sleeps .crossSent) = true := by decide +kernel

theorem test_crossWake :
    let s := { placeCode (pair 1 P) (encodeFields (crossF 6 NO 1 0)) with m := { (pair 1 P).m with wait := some .chan } }
    after .crossWake s (fun t => t.m.wait == some .chan) = true ∧
    after .crossWake { s with peers := [] } (fun t => t.m.wait == none) = true := by decide +kernel

/-- `LAP` back by 16 with 2 laps; the second lap leaves the loop. -/
def lapF : Fields := ins eLap NO NO NO NO 0 (2 ^ 32 * 2 + (2 ^ 32 - 16)) 2
theorem test_lap :
    runs eLap .lap lapF P (fun t => goes 0xFF0 all32 t && t.m.lc == 1 && t.m.lapit.getD 0 9 == 1) = true ∧
    runs eLap .lap lapF (mem (fun m => { m with lapit := [1, 0, 0, 0] }) P) (fun t => goes 0x1010 all32 t && t.m.lapit.getD 0 9 == 0) = true ∧
    runs eLap .lap lapF (mem (fun m => { m with lc := 1 }) (pair 1 P)) (sleeps .drift) = true ∧
    runs eLap .lap lapF (mem (fun m => { m with exec := 1 }) P) (trapped cBound bLap) = true ∧
    runs eDrift .drift (ins eDrift (k 3) (c 0) NO NO) (team (fun t => { t with drift := 4 }) P) (fun t => kIs 3 4 t && t.team.drift == 4) = true ∧
    runs eDrift .drift (ins eDrift (k 3) (c 2) NO NO) (team (fun t => { t with drift := 4 }) P) (fun t => kIs 3 2 t && t.team.drift == 2) = true ∧
    after .driftWake (mem (fun m => { m with wait := some .drift }) { P with cycle := 77 }) (fun t => t.m.wait == none && t.m.ready == 77) = true := by decide +kernel

/-! ## Access processors -/

/-- An access processor of a team with a queue set; on it, names 0 to 63 are its a registers. -/
def AP : State := team (fun t => { t with qset := true, queues := List.replicate 16 [] }) (oneLane .ap P)
def queueIs (n : Nat) (es : List QEntry) (t : State) : Bool := t.team.queues.getD n [] == es

/-- The overlay of the example after R295 under `.B16`: 37 is found in C, 20 in P and 50 nowhere. -/
theorem test_aovl :
    let node (a parent cut : Nat) (es : List Nat) (s : State) : State :=
      es.zipIdx.foldl (fun s e => at_ (a + 16 + 8 * e.2) 8 e.1 s) (at_ a 16 (parent + cut * 2 ^ 64 + es.length * 2 ^ 96) s)
    let s := node 0x2100 0x2200 2 [91 * 2 ^ 32 + 2] (node 0x2200 0 0 [17 * 2 ^ 32, 40 * 2 ^ 32 + 1, 63 * 2 ^ 32 + 2] AP)
    let walk (t : Nat) : State := ks [(8, 0x2100), (9, t)] s
    let f := ins eAovl 5 8 9 NO 2
    runs eAovl .aovl f (walk 37) (kIs 5 1461) = true ∧
    runs eAovl .aovl f (walk 20) (kIs 5 644) = true ∧
    runs eAovl .aovl f (walk 50) (kIs 5 (2 ^ 64 - 1)) = true := by decide +kernel

/-- A stream of two entries, 128 bytes apart, into q3; its entries; and one that meets a fault. -/
theorem test_streams :
    let f (n : Nat) := ins eAfetch (q 3) 1 (c n) 2
    let s := ks [(1, 0x2000), (2, 128)] (at_ 0x2084 4 7 AP)
    let u := next (.afetch (f 2)) s
    let v := next (.streamEntryPush 1) u
    runs eAfetch .afetch (f 0) s (fun t => t.team.streams == []) = true ∧
    runs eAfetch .afetch (f 2) s (fun t => t.team.streams.map (fun x => (x.queue, x.count)) == [(3, 2)]) = true ∧
    queueIs 3 [.data (List.replicate 32 0)] v = true ∧
    after (.streamEntryPush 1) v (fun t => queueIs 3 [.data (List.replicate 32 0), .data ([0, 7] ++ List.replicate 30 0)] t && t.team.streams == []) = true ∧
    after (.streamEntryPush 1) (next (.afetch (f 2)) (ks [(1, 2 ^ 40)] s)) (queueIs 3 [.marker 1]) = true := by decide +kernel

theorem test_accessProcessor :
    runs eApush .apush (ins eApush (q 3) (c 5) (c 17) NO) AP (queueIs 3 [.data ((List.range 32).map fun l => 5 - 2 * BitVec.ofNat 32 l)]) = true ∧
    runs eAloop .aloop (ins eAloop 7 NO NO NO 0 (2 ^ 32 - 16) 1) (ks [(7, 2)] AP) (fun t => kIs 7 1 t && t.m.cursor == 0xFF0) = true ∧
    runs eAloop .aloop (ins eAloop 7 NO NO NO 0 (2 ^ 32 - 16) 1) (ks [(7, 1)] AP) (fun t => kIs 7 0 t && t.m.cursor == 0x100C) = true ∧
    runs eAloop .aloop (ins eAloop 7 NO NO NO 0 2 1) AP (trapped cAlign 0) = true := by decide +kernel

theorem test_streamEnds :
    let s := next (.afetch (ins eAfetch (q 3) 1 (c 2) 2)) (ks [(1, 0x2000), (2, 128), (4, 8)] AP)
    let s := mem (fun m => { m with cursor := 0x1000 }) s
    runs eAsync .async (ins eAsync NO 4 NO NO) s (sleeps .streams) = true ∧
    runs eAsync .async (ins eAsync NO 5 NO NO) s (fun t => t.m.cursor == 0x1008) = true ∧
    runs eAstop .astop (ins eAstop NO 4 NO NO) s (fun t => t.team.streams == []) = true ∧
    runs eAstop .astop (ins eAstop NO 4 NO NO 1) (next (.streamEntryPush 1) s) (fun t => t.team.streams == [] && queueIs 3 [] t) = true ∧
    runs eQstat .qstat (ins eQstat 6 (c 3) NO NO) (next (.streamEntryPush 1) s) (kIs 6 0x10011) = true ∧
    runs eQstat .qstat (ins eQstat 6 (c 3) NO NO) (team (fun t => { t with qset := false }) s) (trapped cBound bQueue) = true ∧
    runs eAfetch .afetch (ins eAfetch (q 3) 1 (c 2) 2) s (fun t => t.team.streams.length == 2) = true := by decide +kernel

/-- The window of R202 bound as window 3: element 1 is data 100, and an index past COUNT reads FILL. -/
theorem test_winread :
    let s := ctx (fun x => { x with wins := [(3, BitVec.ofNat 512 winDesc)] }) (gathered AP)
    runs eWinread .winread (ins eWinread 5 (c 3) (c 1) NO) s (kIs 5 100) = true ∧
    runs eWinread .winread (ins eWinread 5 (c 3) (c 4) NO) s (kIs 5 0xFFFFFFFF) = true := by decide +kernel

theorem test_queueWake :
    let s := mem (fun m => { m with wait := some .queue }) (placeCode AP (encodeFields (ins eMov 5 (q 3) NO NO)))
    still .queueWake s = true ∧
    after .queueWake (team (fun t => { t with queues := t.queues.set 3 [.data [1]] }) s) (fun t => t.m.wait == none) = true := by decide +kernel

/-! ## The shuttle -/

/-- The running context with some registers, a record and a program of one word. -/
def sh (l : List (Nat × Nat)) (record : Nat) (s : State) : State :=
  team (fun t => { t with sh := { t.sh with
    regs := l.foldl (fun r e => r.set e.1 (BitVec.ofNat 64 e.2)) t.sh.regs, record := BitVec.ofNat 512 record, prog := [0#32] } }) s
def hIs (n x : Nat) (t : State) : Bool := t.team.sh.regs.getD n 0 == BitVec.ofNat 64 x && t.team.sh.cursor == 1
def shAt (n : Nat) (t : State) : Bool := t.team.sh.cursor == n
def shStops (cause : Nat) (t : State) : Bool := t.team.sh.phase == .faulted && t.team.sh.cause == cause && t.team.sh.cursor == 0

theorem test_shuttleWords :
    let s := sh [(1, 5), (2, 7)] 0 P
    after (.haddReg 3 1 2) s (hIs 3 12) = true ∧ after (.haddImm 3 1 (0 - 8)) s (hIs 3 (neg 3)) = true ∧
    after (.hsubReg 3 1 2) s (hIs 3 (neg 2)) = true ∧ after (.hsubImm 3 1 8) s (hIs 3 (neg 3)) = true ∧
    after (.handReg 3 1 2) s (hIs 3 5) = true ∧ after (.handImm 3 1 4) s (hIs 3 4) = true ∧
    after (.hshlReg 3 1 2) s (hIs 3 640) = true ∧ after (.hshlImm 3 1 (0 - 1)) s (hIs 3 2) = true ∧
    after (.hshlReg 3 1 2) (sh [(1, 5), (2, 127)] 0 P) (hIs 3 2) = true ∧ after (.hshlImm 3 1 4) s (hIs 3 80) = true ∧
    after (.hcmpReg 3 1 2 2) s (hIs 3 1) = true ∧ after (.hcmpImm 3 2 2 (0 - 1)) s (hIs 3 0) = true ∧
    after (.hmov 3 (0 - 2)) s (hIs 3 (neg 2)) = true ∧ after (.hmovH 1 0x12345) s (hIs 1 0x512345) = true ∧
    after (.hmov 0 9) s (hIs 0 0) = true := by decide +kernel

theorem test_shuttleJumps :
    let s := sh [(1, 2), (2, 1)] 0 P
    after (.hbr 1 3) s (shAt 3) = true ∧ after (.hbr 3 3) s (shAt 1) = true ∧ after (.hbrZ 3 3) s (shAt 3) = true ∧ after (.hbrZ 1 3) s (shAt 1) = true ∧
    after (.hjmp 3) s (shAt 3) = true ∧ after (.hloop 1 3) s (shAt 3) = true ∧ after (.hloop 2 3) s (shAt 1) = true ∧
    after (.hloop 0 3) s (shAt 1) = true ∧ after (.hpref 0 1 0) s (shAt 1) = true := by decide +kernel

theorem test_shuttleReads :
    let s := sh [(1, 0x2000)] 0 (at_ 0x2004 4 0x80000001 P)
    after (.hld 3 1 2 4) s (hIs 3 0x80000001) = true ∧
    after (.hld 3 1 2 2) s (shStops 0x22) = true ∧
    after (.hld 3 1 2 4) (sh [(1, 2 ^ 40)] 0 P) (fun t => shStops 1 t && t.team.sh.fault != none) = true ∧
    after (.shuttleUndefinedWord 0) s (shStops 0x20) = true ∧ after (.shuttleUndefinedWord 0x0C000001) s (shStops 0x21) = true ∧
    after (.shuttleUndefinedWord 0) P (shStops 0x29) = true ∧
    still (.haddReg 3 1 2) (team (fun t => { t with sh := { t.sh with phase := .ended } }) P) = true := by decide +kernel

/-- A tile of FP32 with one row of 32 columns; a row of it open. -/
def plainRec : Nat := 10 * 2 ^ 8 + 10 * 2 ^ 4
def opened (record rows : Nat) (s : State) : State :=
  let s := sh [(1, 0x2000), (2, 3), (4, 2), (5, 128), (6, 0xFFFFFFFF)] record s
  team (fun t => { t with sh := { t.sh with buf := List.replicate 4096 0, scales := List.replicate 128 0, tileOff := 128, carryOff := 256, isOpen := true, rows := rows } }) s

theorem test_tilesOpen :
    let s := sh [(5, 128), (6, 0xFFFFFFFF), (7, 4096)] plainRec P
    after (.htile 5 6) s (fun t => t.team.sh.isOpen && t.team.sh.tileOff == 128 && shAt 1 t) = true ∧
    still (.htile 5 6) (team (fun t => { t with full := [40] }) s) = true ∧
    after (.htile 5 4) (sh [(4, 64)] plainRec s) (shStops 0x22) = true ∧ after (.htile 7 6) s (shStops 0x28) = true ∧
    after .htileOpen (team (fun t => { t with sh := { t.sh with prog := [0x38053000] } }) s) (fun t => t.team.sh.isOpen && shAt 1 t) = true ∧
    after (.hrow 2) s (shStops 0x27) = true ∧ after .hemit s (shStops 0x27) = true ∧
    after .hend (opened plainRec 1 P) (fun t => t.team.sh.phase == .ended && t.team.sh.leftOpen && t.team.sh.reached) = true := by decide +kernel

theorem test_rows :
    let s := opened plainRec 0 P
    after (.hrow 2) s (fun t => t.team.sh.carry == [3] && shAt 1 t) = true ∧
    after .hvrow s (fun t => t.team.sh.carry == [0x40000000]) = true ∧ after (.hempty 2) s (fun t => t.team.sh.carry == [0x80000003]) = true ∧
    after (.hrow 2) (opened plainRec 1 P) (shStops 0x23) = true ∧ after (.hldv 4 1 2) s (shStops 0x23) = true ∧
    after (.hldv 4 1 2) (opened plainRec 1 (at_ 0x2004 4 7 P)) (fun t => t.team.sh.buf.getD 4 0 == 7 && shAt 1 t) = true ∧
    after (.hldv 0 1 2) (opened plainRec 1 P) (shAt 1) = true ∧
    after (.hldv 5 1 2) (opened plainRec 1 P) (shStops 0x24) = true ∧ after (.hldv 4 2 3) (opened plainRec 1 P) (shStops 0x22) = true ∧
    after (.hldv 4 1 2) (team (fun t => { t with sh := { t.sh with pruned := 1 } }) (opened plainRec 1 P)) (shStops 0x25) = true := by decide +kernel

/-- 1, −3, 2 and 2 in one group: −3 and the first 2 stay (R363). -/
theorem test_pruneScale :
    let vals (s : State) : State := team (fun t => { t with sh := { t.sh with buf := [0x3F800000, 0xC0400000, 0x40000000, 0x40000000] ++ List.replicate 4092 0 } }) s
    let sparse := vals (opened (13 * 2 ^ 8 + 10 * 2 ^ 4 + 2 ^ 22) 1 P)
    let scaled := vals (opened (13 * 2 ^ 8 + 10 * 2 ^ 4 + 2 ^ 23) 1 P)
    after .hprune sparse (fun t => (keptCols t.team.sh 0 0 4) == [1, 2] && shAt 1 t) = true ∧
    after .hprune scaled (shStops 0x26) = true ∧ after (.hscale 3) sparse (shStops 0x26) = true ∧
    after (.hscale 3) scaled (hIs 3 120) = true := by decide +kernel

theorem test_emit :
    let s := team (fun t => { t with sh := { t.sh with buf := [7], carryOff := 0xFFFFFFFF } }) (opened plainRec 1 P)
    after .hemit s (fun t => wordIs 32 7 t && wordIs 33 0 t && t.team.sh.tiles == 1) = true ∧
    tileBytes (finishRows s.team.sh) = [7] ++ List.replicate 127 0 ∧ (carryBytes { s.team.sh with carry := [3] }).take 8 = [3, 0, 0, 0, 0, 0, 0, 0xC0] ∧
    fillSpadBytes (team (fun t => { t with spad := [], full := [9] }) P).team 32 [1, 2, 0, 0, 3] =
      (team (fun t => { t with spad := [(8, 0x201), (9, 3)], full := [8, 9] }) P).team ∧
    after .hemit (team (fun t => { t with sh := { t.sh with id := 99, tileOff := 0x100, carryOff := 0xFFFFFFFF } }) (opened plainRec 1 (copyOut P)))
      (fun t => t.team.sh.isOpen && t.team.sh.cursor == 0) = true := by decide +kernel

/-- Starting a context whose record lies at 0x2000 with a program of one word at 0x2100. -/
def started_ (s : State) : State :=
  part (fun q => { q with shMask := 1 }) (team (fun t => { t with sh := {} })
    (ks [(2, 0x2000), (3, 77)] (at_ 0x2100 4 0x4C000000 (at_ 0x2000 64 (plainRec + 0x2100 * 2 ^ 64 + 2 ^ 128) s))))
def shF : Fields := ins eShstart (k 6) (k 2) (k 3) NO
theorem test_shstart :
    runs eShstart .shstart shF (started_ P)
      (fun t => kIs 6 0 t && t.team.sh.phase == .running && t.team.sh.prog == [0x4C000000] && t.team.sh.regs.getD 1 0 == 77) = true ∧
    runs eShstart .shstart shF (part (fun q => { q with shMask := 0 }) (started_ P)) (kIs 6 0x101) = true ∧
    runs eShstart .shstart shF (team (fun t => { t with sh := { id := 1, handle := 0 }, shs := (List.range 3).map fun h => { id := 2, handle := h + 1 } }) (started_ P)) (kIs 6 0x100) = true ∧
    runs eShstart .shstart shF (started_ (at_ 0x2000 64 0 P)) (kIs 6 0) = true ∧
    runs eShstart .shstart shF (at_ 0x2000 1 1 (started_ P)) (trapped cShape shShrec) = true ∧
    runs eShstart .shstart (ins eShstart (k 6) (k 4) (k 3) NO) (ks [(4, 0x2004)] (started_ P)) (trapped cAlign 0) = true := by decide +kernel

theorem test_shwait :
    let f := ins eShwait (k 7) (c 0) NO NO
    let phase (x : ShPhase) : State := team (fun t => { t with sh := { t.sh with phase := x, tiles := 2, reached := true, cause := 0x24 } }) P
    runs eShwait .shwait f (phase .running) (sleeps (.shuttle 0)) = true ∧
    runs eShwait .shwait f (phase .ended) (fun t => kIs 7 0x2_0000_0001 t && t.team.sh.id == 0) = true ∧
    (let s := phase .faulted
     (engineFault eShwait f s (activeLanes s f)).isSome && after (.shwait f) s (trapped cShf 0x24)) = true ∧
    (let s := phase .faulted
     let taken := (enterTrap s noFields 0 0 1 { cls := cShf, engine := some (.shuttle s.team.sh.id) }).m.frames
     runs eShwait .shwait f { s with peers := [{ s.m with id := 2, frames := taken }] } (sleeps (.shuttle 0)) = true) ∧
    runs eShwait .shwait f (team (fun t => { t with sh := {} }) P) (kIs 7 0) = true ∧
    runs eShwait .shwait f (mem (fun m => { m with wait := some (.shuttleDone 9) }) P) (kIs 7 9) = true := by decide +kernel

/-- The worked example of R378. -/
theorem test_cfix :
    let entry (kind real : Nat) : Nat := kind * 2 ^ 30 + real
    let es := [entry 1 4, entry 0 5, entry 1 5, entry 1 5, entry 2 6, entry 0 7] ++ List.replicate 26 (entry 3 0)
    let vs := [0x3F800000, 0x40000000, 0x3F000000, 0x3E800000, 0x41100000, 0x40400000]
    let s := spad (es.zipIdx.map fun e => (e.2 + 8, e.1)) (List.range' 8 32) (ks [(5, 32), (8, 0x41200000)] (vr 10 (vs.getD · 0x3F800000) P))
    runs eCfix .cfix (ins eCfix 12 10 (k 5) (k 8)) s
      (fun t => (List.range 32).map (fun l => vLane t.m.rf 12 l) == [0x41300000, 0, 0, 0x40300000, 0, 0x40400000] ++ List.replicate 26 0) = true ∧
    runs eCfix .cfix (ins eCfix 12 10 (c 2) (k 8)) s (trapped cAlign 0) = true ∧
    runs eCfix .cfix (ins eCfix 12 10 (k 5) (k 8)) (team (fun t => { t with full := [] }) s) (fun t => t.m.wait.isSome) = true := by decide +kernel

/-! ## Fabric -/

/-- Device 5 with a route to itself and to device 9 over link 3; 16 receive channels; a group of three ranks, this one of rank 2. -/
def fabric (s : State) : State :=
  part (fun x => { x with
    devId := 5, links := 8, routes := [(5, 0, 0), (9, 1, 8)], xchans := List.replicate 16 [], groups := [{ num := 6, ranks := 3, rank := 2 }] }) s
def statusIs (x : Nat) (t : State) : Bool := fld t.m.xstat 15 0 == x
def msg (n : Nat) : Message := { dev := 9, part := 1, bytes := List.replicate n 7 }
def chanWith (l : List Message) (s : State) : State := part (fun x => { x with xchans := x.xchans.set 2 l }) s
def xsendF : Fields := ins eXsend (k 4) (k 1) (k 2) (c 4)

theorem test_xsend :
    let dest (dev part : Nat) : State := ks [(1, dev + part * 2 ^ 8 + 2 * 2 ^ 12), (2, 0x2000)] (at_ 0x2000 4 7 (fabric P))
    (let t := next (.xsend xsendF) (dest 9 1)
     sleeps .sent t && t.part.outgoing.map (fun o => (o.dev, o.chan, o.bytes)) == [(9, 2, [7, 0, 0, 0])] &&
       (started eXsend xsendF t).isSome && after (.xsend xsendF) t (sleeps .sent) && sleeps .sentDone (acceptSent t 0) &&
       runs eXsend .xsend xsendF (acceptSent t 0) (fun u => statusIs 0 u && goes 0x1008 all32 u) &&
       (match step { t with turns := [.peerAccept 0 0] } with | .next u => sleeps .sentDone u | _ => false)) = true ∧
    runs eXsend .xsend xsendF (dest 8 1) (statusIs 2) = true ∧
    runs eXsend .xsend xsendF (dest 5 0) (fun t => (t.part.xchans.getD 2 []).map (·.bytes) == [[7, 0, 0, 0]]) = true ∧
    runs eXsend .xsend xsendF (chanWith (List.replicate 16 (msg 4)) (dest 5 0)) (sleeps .fabric) = true ∧
    runs eXsend .xsend (ins eXsend (k 4) (k 1) (k 2) (c 6)) (dest 9 1) (trapped cShape shGeom) = true ∧
    runs eXsend .xsend xsendF (team (fun t => { t with width := 64 }) (dest 9 1)) (fun t => (t.m.frames.map (·.cls)) == [cEmu]) = true := by
  decide +kernel

theorem test_xrecv :
    let s := ks [(1, 2), (2, 0x2000)] (fabric P)
    runs eXrecv .xrecv (ins eXrecv (k 4) (k 1) (k 2) (c 8)) (chanWith [msg 4] s)
      (fun t => statusIs 0 t && seen t 0x2000 8 == 0x07070707 && t.part.xchans.getD 2 [] == [] && fld t.m.xstat 28 16 == 4) = true ∧
    runs eXrecv .xrecv (ins eXrecv (k 4) (k 1) (k 2) (c 4)) (chanWith [msg 8] s) (statusIs 1) = true ∧
    runs eXrecv .xrecv (ins eXrecv (k 4) (k 1) (k 2) (c 8)) s (sleeps .fabric) = true := by decide +kernel

/-- 2^−24, 2^−24 and 1.0 in rank order under `.ADD.f32`: every rank receives 0x3F80_0001 (R506). -/
theorem test_xred :
    let f := ins eXred 4 2 (c 6) NO
    let s := vr 2 (fun l => if l = 0 then 0x3F800000 else 0) (fabric P)
    let u := next (.xred f) s
    let other (r op : Nat) (ok : Bool) : XContribution :=
      { rank := r, op := BitVec.ofNat 3 op, values := [0x33800000], active := 1, reachable := ok }
    let finish (cs : List XContribution) : State := mem (fun m => { m with cursor := 0x1000 }) (next (.xredComplete 6 cs) u)
    runs eXred .xred f s (sleeps .xred) = true ∧
    runs eXred .xred f (finish [other 0 0 true, other 1 0 true]) (fun t => statusIs 0 t && vIs 4 0 0x3F800001 t) = true ∧
    runs eXred .xred f (finish [other 0 0 true, other 1 1 true]) (fun t => statusIs 3 t && vIs 4 0 0 t) = true ∧
    runs eXred .xred f (finish [other 0 0 false, other 1 1 true]) (statusIs 2) = true ∧
    runs eXred .xred (ins eXred 4 2 (c 7) NO) s (statusIs 4) = true := by decide +kernel

theorem test_fabricEvents :
    let s := fabric P
    after (.fabricMessageArrival 2 9 1 [1, 2, 3, 4]) s (fun t => (t.part.xchans.getD 2 []).map (·.dev) == [9]) = true ∧
    still (.fabricMessageArrival 2 9 1 [1, 2, 3, 4]) (chanWith (List.replicate 16 (msg 4)) s) = true ∧
    after (.fabricAccess { partNo := 0, poff := 0x2000, op := .store [7, 8] }) s (fun t => seen t 0x2000 2 == 0x807) = true ∧
    after (.fabricAccess { partNo := 0, poff := 0x2000, op := .atomic 0 0 5 }) (at_ 0x2000 4 7 s) (fun t => seen t 0x2000 4 == 12) = true ∧
    after (.fabricAccess { partNo := 0, poff := 0x2000, op := .cas false 7 9 }) (at_ 0x2000 4 7 s) (fun t => seen t 0x2000 4 == 9) = true ∧
    after (.fabricAccess { partNo := 0, poff := 0x2000, op := .cas false 6 9 }) (at_ 0x2000 4 7 s) (fun t => seen t 0x2000 4 == 7) = true ∧
    after (.fabricAccess { partNo := 0, poff := 0x2000, op := .load 4 }) s (fun t => t.mem == s.mem) = true ∧
    still (.fabricAccess { partNo := 0, poff := 0x2_0000_0000, op := .store [7] }) (part (fun x => { x with prlim := 0x200000000 }) s) = true ∧
    after (.fabricReplay 3 true) s (fun t => t.mod.linksDown == 0 && lookupKey 3 t.mod.replays == some 1) = true ∧
    after (.fabricReplay 3 true) { s with mod := { s.mod with replays := [(3, 15)] } } (fun t => t.mod.linksDown == 8) = true ∧
    after (.fabricReplay 3 false) { s with mod := { s.mod with replays := [(3, 15)] } } (fun t => lookupKey 3 t.mod.replays == none) = true := by
  decide +kernel

/-! ## The interrupted context -/

/-- A handler of the program with k5 = 9, v6 = LANEID and p2 = 5 below it, and one of the supervisor. -/
def handler : State :=
  let s := next (.trap (ins eTrap NO (c 1) NO NO)) (ks [(5, 9)] (vr 6 id (pr 2 5 P)))
  mem (fun m => { m with cursor := 0x1000 }) s
def supHandler : State := mem (fun m => { m with cursor := 0x1000 }) (next (.ld (ins eLd (k 3) (k 2) NO NO)) (ks [(2, 2 ^ 40)] P))
def below (p : RegFile → Bool) (t : State) : Bool := match t.m.frames with | fr :: _ => p fr.rf | [] => false

theorem test_owr :
    runs eOwr .owr (ins eOwr (k 1) (k 5) NO NO 4) handler (kIs 1 9) = true ∧
    runs eOwr .owr (ins eOwr (k 1) (k 4) (c 1) NO 4) handler (kIs 1 9) = true ∧
    runs eOwr .owr (ins eOwr 3 6 NO NO 4) handler (vIs 3 7 7) = true ∧
    runs eOwr .owr (ins eOwr 3 (p 2) NO NO 4) handler (vIs 3 7 5) = true ∧
    runs eOwr .owr (ins eOwr (k 1) (k 5) NO NO 4) P (trapped cBound bOwin) = true ∧
    runs eOwr .owr (ins eOwr (k 1) (q 3) NO NO 4) (team (fun t => { t with qset := true, queues := (List.replicate 16 []).set 3 [.data [7]] }) handler)
      (fun t => kIs 1 7 t && queueIs 3 [] t) = true := by decide +kernel

theorem test_oww :
    runs eOww .oww (ins eOww (c 3) (k 5) NO NO 4) handler (below fun r => kReg r 5 == 3) = true ∧
    runs eOww .oww (ins eOww (c 3) 6 NO NO 4) handler (below fun r => vLane r 6 7 == 3) = true ∧
    runs eOww .oww (ins eOww (c 0) (p 2) NO NO 4) handler (below fun r => pReg r 2 == 0) = true ∧
    runs eOww .oww (ins eOww (c 0) (sp 0) NO NO 4) handler (fun t => t.m.cursor == 0x1008) = true ∧
    runs eOww .oww (ins eOww (c 3) (q 3) NO NO 4) (team (fun t => { t with qset := true, queues := List.replicate 16 [] }) handler)
      (queueIs 3 [.data (List.replicate 32 3)]) = true ∧
    runs eOww .oww (ins eOww (c 3) (k 5) NO NO 4) P (trapped cBound bOwin) = true := by decide +kernel

theorem test_emuset :
    runs eEmuset .emuset (ins eEmuset (k 1) (k 2) NO NO) (ks [(2, 0x9000)] P) (fun t => kIs 1 0x2000 t && t.ctx.emuVec == 0x9000) = true ∧
    runs eEmuset .emuset (ins eEmuset (k 1) (k 2) NO NO 1) (ks [(2, 0x9000)] P) (fun t => kIs 1 0x3000 t && t.ctx.trapVec == 0x9000) = true ∧
    runs eEmuset .emuset (ins eEmuset (k 1) (k 2) NO NO) (ks [(2, 0x9002)] P) (trapped cAlign 0) = true ∧
    runs eEmuset .emuset (ins eEmuset (k 1) (k 2) NO NO) (ks [(2, 2 ^ 48)] P) (trapped cShape shVec) = true := by decide +kernel

/-- The example after R456: 32 registers, 3 stack entries and no context frame make an image of 5,760 bytes; 8 registers, of 2,560, here in
memory of system scope (SC = 2). -/
theorem test_images :
    let s := mem (fun m => { m with
      frames := m.frames.map fun fr => { fr with rf := { fr.rf with budget := 8 }, mark := 3 }
      stack := List.replicate 3 { kind := .c, addr := 0x1000, mask := 1 } }) (at_ 0 8 0x13F supHandler)
    imgSize 32 3 32 1 0 = 5760 ∧
    runs eCtxsave .ctxsave (ins eCtxsave (k 1) (k 2) NO NO) (ks [(2, 0x8000)] s) (kIs 1 2560) = true ∧
    runs eCtxsave .ctxsave (ins eCtxsave (k 1) (k 2) NO NO) handler (fun t => t.m.frames.length == 2) = true ∧
    runs eCtxsave .ctxsave (ins eCtxsave (k 1) (k 2) NO NO) P (trapped cEmu 10) = true ∧
    (let struck := (vr 2 id P).m.rf.vregs.map fun e => (e.1, { e.2 with bad := 8 })
     runs eCtxsave .ctxsave (ins eCtxsave (k 1) (k 2) NO NO) (ks [(2, 0x8000)]
       (mem (fun m => { m with frames := m.frames.map fun fr => { fr with rf := { fr.rf with budget := 8, vregs := struck } } }) s)) (trapped cRas 1)) = true ∧
    runs eCtxrest .ctxrest (ins eCtxrest (k 1) (k 2) NO NO) (ks [(2, 0x8000)] s) (trapped cShape shImg) = true ∧
    runs eCtxrest .ctxrest (ins eCtxrest (k 1) (k 2) NO NO) (ks [(2, 0x8000)] handler) (fun t => t.m.frames.length == 2) = true := by decide +kernel

/-- An image's header: version 1, 32 lanes, budget 8, UNIF 64, LIVE and EXEC all lanes, k5 = 9. -/
def imageHead : List (Nat × Nat) :=
  [(0, 1 + 8 * 2 ^ 32 + 64 * 2 ^ 48), (8, 0x1100), (16, 2 ^ 32 - 1), (32, 2 ^ 32 - 1), (112, 32), (296, 9)]
theorem test_ctxrest :
    let s := ks [(2, 0x8000)] (imageHead.foldl (fun s e => at_ (0x8000 + e.1) 8 e.2 s) supHandler)
    let s := mem (fun m => { m with frames := m.frames.map fun fr => { fr with rf := { fr.rf with budget := 8 } } }) s
    runs eCtxrest .ctxrest (ins eCtxrest (k 1) (k 2) NO NO) s (below fun r => kReg r 5 == 9) = true := by decide +kernel

theorem test_prdone :
    let at' (ph : PrePhase) (req : Bool) : State := team (fun t => { t with preReq := req }) (mem (fun m => { m with pre := { m.pre with phase := ph, pc := 0x1200, exec := 3 } }) P)
    runs ePrdone .prdone (ins ePrdone NO (k 1) NO NO) (ks [(1, 2)] P) (goes 0x1008 all32) = true ∧
    runs ePrdone .prdone (ins ePrdone NO (k 1) NO NO) (ks [(1, 2)] (at' .handling true)) (trapped cAlign 0) = true ∧
    runs ePrdone .prdone (ins ePrdone NO NO NO NO) P (fun t => t.m.cursor == 0x1008 && t.m.status == .running) = true ∧
    runs ePrdone .prdone (ins ePrdone NO NO NO NO) (at' .handling true) (fun t => t.m.status == .stopped && t.m.cursor == 0x1200 && t.m.exec == 3) = true ∧
    runs ePrdone .prdone (ins ePrdone NO (k 1) NO NO) (ks [(1, 0x1300)] (at' .handling false)) (fun t => t.m.status == .running && t.m.cursor == 0x1300 && t.m.exec == allLanes 32) = true := by
  decide +kernel

/-! ## Launches, binding and pre-emption -/

/-- A launch record: the descriptor at 0x2080, argument 77, a grid of one team, DONEDC 9 (R420). -/
def launchRec : Nat := 0x2080 + 77 * 2 ^ 64 + 2 ^ 128 + 2 ^ 160 + 2 ^ 192 + 9 * 2 ^ 256 + 2 ^ 272
/-- A descriptor of one role of one wave with 8 registers: ENTRY 0x1000, version 1, ISA 3, DRIFT 1, UNIF 16, scratchpad 256 (R485, R487). -/
def descriptor : Nat :=
  0x1000 + (2 ^ 8 + 8 * 2 ^ 21) * 2 ^ 128 + 2 ^ 576 + 3 * 2 ^ 592 + 2 ^ 596 + 2 ^ 604 + 16 * 2 ^ 612 + 256 * 2 ^ 619
def aLaunch (ph : LaunchPhase) : Launch :=
  { id := 50, record := BitVec.ofNat 512 launchRec, port := 1, device := false, prio := 0, cookie := 0xABC, ctx := 1, phase := ph, first := 3, last := 10 }
def launches (l : List Launch) (s : State) : State := part (fun x => { x with launches := l, dcs := [(9, 5)] }) (at_ 0x2080 128 descriptor s)
/-- A packet with one handle, 8 for writing (R422). -/
def packet : List Byte := leBytes 128 (launchRec + 2 ^ 512 + 0xABC * 2 ^ 544 + (8 + 2 * 2 ^ 62) * 2 ^ 576)

theorem test_launchPacket :
    after (.launchPacket 1 0 1 packet) P (fun t => t.part.launches.map (fun l => (l.phase, l.ctx, l.cookie, l.handles, l.port)) == [(.held, 1, 0xABC, [(8, 2)], 1)]) = true ∧
    after (.launchPacket 1 0 1 (leBytes 128 (launchRec + 2 ^ 520))) P (fun t => t.part.launches.map (·.phase) == [.failed 4]) = true ∧
    after (.launchPacket 1 0 2 packet) P (fun t => t.part.launches.map (·.phase) == [.failed 6] && (cmdRing t 1).taken == 1) = true := by decide +kernel

theorem test_launchReady :
    let phase (l : List Launch) (s : State) : List LaunchPhase := (next (.launchReady 50) (launches l s)).part.launches.map (·.phase)
    let record (x : Nat) : Launch := { aLaunch .held with record := BitVec.ofNat 512 x }
    phase [aLaunch .held] P = [.ready] ∧
    phase [record (launchRec + 2 ^ 300)] P = [.failed 4] ∧
    phase [record (launchRec - 2 ^ 128)] P = [.failed 2] ∧
    phase [record (launchRec + 2 ^ 12)] P = [.failed 3] ∧
    phase [{ aLaunch .held with released := false }] P = [.held] ∧
    phase [{ aLaunch .held with after := [51] }, { aLaunch .held with id := 51 }] P = [.held, .held] := by decide +kernel

def doneAt (t : State) : List (Nat × BitVec 128) := (t.part.dones.getD 1 {}).slots
theorem test_launchComplete :
    after (.launchComplete 50) (launches [{ aLaunch .running with started := 1, ended := 1 }] P) (fun t =>
      doneAt t == [(0, BitVec.ofNat 128 (7 * 2 ^ 64 + 0xABC))] && dcCount t 9 == 4 && t.part.launches.map (·.phase) == [.done]) = true ∧
    after (.launchComplete 50) (launches [aLaunch (.failed 4)] P) (fun t =>
      doneAt t == [(0, BitVec.ofNat 128 (7 * 2 ^ 64 + 4 * 2 ^ 32 + 0xABC))]) = true ∧
    still (.launchComplete 50) (launches [aLaunch .running] P) = true := by decide +kernel

/-- A bind record of the launch's one team: a wave slot, two lines, context 1 (R426). -/
def bindRec : Nat := 0x2080 * 2 ^ 192 + 2 ^ 136 + 2 * 2 ^ 76 + 2 ^ 32
def bind (x : Nat) (s : State) : State := next (.bindRecord 0 3 (BitVec.ofNat 256 x) [0x9000]) s
def refusedWith (code : Nat) (t : State) : Bool := (lookupKey 3 t.core.recs).map (fun r => (fld r 255 248, brValid r)) == some (code, false)

theorem test_bind :
    let s := launches [aLaunch .ready] P
    let t := bind bindRec s
    t.teams.map (fun x => (x.1.teamId, x.1.core, x.1.launch, x.1.width, x.1.share)) = [(0, 0, 50, 32, 256), (0, 0, 0, 32, 4096)] ∧
    (t.teams.head?.map fun x => x.2.map fun m => (m.cursor, m.exec, kReg m.rf 0, m.rf.budget)) = some [(0x1000, allLanes 32, 77, 8)] ∧
    (lookupKey 3 t.core.recs).map brValid = some true ∧
    refusedWith 1 (bind (bindRec + 2 ^ 23) s) = true ∧
    refusedWith 2 (bind bindRec { s with core := { s.core with recs := [(4, BitVec.ofNat 256 (bindRec + 1))] } }) = true ∧
    refusedWith 3 (bind bindRec (part (fun x => { x with coreMask := [] }) s)) = true ∧
    refusedWith 4 (bind (bindRec + 2 ^ 33) s) = true ∧ refusedWith 4 (bind (bindRec + 2 ^ 136) s) = true ∧
    refusedWith 6 (bind (bindRec + 2 ^ 192) s) = true ∧
    (next (.bindRecord 0 3 (BitVec.ofNat 256 bindRec) []) s).part.launches.map (·.phase) = [.failed 7] := by decide +kernel

theorem test_teamEnd :
    let s := team (fun t => { t with launch := 50 }) (launches [aLaunch .running] (mem (fun m => { m with status := .retired }) P))
    after .teamEnd { s with cycle := 99 } (fun t => !t.team.present && t.part.launches.map (fun l => (l.ended, l.last)) == [(1, 99)]) = true ∧
    still .teamEnd P = true := by decide +kernel

/-- A team bound with a quantum of 1 kilocycle and a handler. -/
def bound_ (handler : Nat) : State :=
  let r : BindRec := BitVec.ofNat 256 (bindRec + 2 ^ 112 + 1)
  let s := team (fun t => { t with bindrec := r, handler := BitVec.ofNat 64 handler, spad := [(1, 7)], full := [1], area := 2 ^ 40 }) P
  { s with core := { s.core with recs := [(3, r)] } }
def preIs (ph : PrePhase) (s : State) : State := team (fun t => { t with preReq := true }) (mem (fun m => { m with pre := { m.pre with phase := ph } }) s)
def savedSpad (t : State) : List (List (Nat × Word)) := t.part.saved.map fun e => e.2.1.spad

theorem test_quantum :
    after .quantumExpiry { bound_ 0 with cycle := 1025 } (fun t => t.part.notices == [.quantum 1]) = true ∧
    still .quantumExpiry { bound_ 0 with cycle := 1024 } = true := by decide +kernel

theorem test_preempt :
    after (.preemptRequest 0 { slot := 3 }) (bound_ 0x7000) (fun t => t.team.preReq && t.m.pre.phase == .pending) = true ∧
    after .preDelivery (preIs .pending (bound_ 0x7000)) (fun t => t.m.cursor == 0x7000 && t.m.pre.phase == .handling && t.m.pre.pc == 0x1000) = true ∧
    still .preDelivery (bound_ 0x7000) = true ∧
    still .preemptEnd (preIs .handling (bound_ 0x7000)) = true ∧
    still .preemptTimeout { preIs .handling (bound_ 0x7000) with cycle := 93999 } = true ∧
    after (.icacheFill 0x1000) P (fun t => (cachedBlock t.cl 0x1000).isSome) = true := by decide +kernel

/-- Saves whose area no page maps. -/
def unmapped : PreemptPlace := { slot := 3, area := BitVec.ofNat 48 (2 ^ 40) }
theorem test_preemptSave :
    after (.preemptRequest 0 unmapped) (bound_ 0) (fun t => !t.team.present && savedSpad t == [[(1, 7)]] &&
      t.part.saved.map (fun e => e.2.1.prestat) == [0x100000001#64]) = true := by decide +kernel

/-- A saved team of a wave with 8 registers, its image at 0x100000 with k5 = 9; a record that binds it again. -/
def savedState : State :=
  let m : Member := { P.m with rf := { P.m.rf with budget := 8 }, slots := [], status := .stopped }
  let s := part (fun q => { q with shMask := 1, saved := [(0x100000, { P.team with spad := [(1, 7)], full := [1] }, [m])] }) P
  let s := at_ (0x100000 + 2432) 8 1 (imageHead.foldl (fun s e => at_ (0x100000 + e.1) 8 e.2 s) s)
  { s with team := { s.team with present := false, id := 0 }, m := { s.m with id := 0 } }
def resumeRec : BindRec := BitVec.ofNat 256 (0x100000 * 2 ^ 192 + 2 ^ 136 + 32 * 2 ^ 76 + 2 ^ 32 + 2 ^ 22)
theorem test_savedTeam : (savedTeam savedState 0x100000 1).toOption.isSome = true := by decide +kernel

/-- The team is bound again from its images; a byte of them changed, and the record is refused with READ. -/
theorem test_resume :
    after (.bindRecord 0 5 resumeRec []) savedState (fun u => u.team.present && u.part.saved == [] && u.team.spad == [(1, 7)] && kIs 5 9 u) = true := by
  decide +kernel
theorem test_resumeRead :
    after (.bindRecord 0 5 resumeRec []) (at_ 0x100000 1 9 savedState)
      (fun u => !u.team.present && (lookupKey 5 u.core.recs).map (fld · 255 248) == some 6) = true := by decide +kernel

theorem test_preemptEnd :
    after .preemptEnd (preIs .done (bound_ 0x7000)) (fun t => !t.team.present && savedSpad t == [[]]) = true := by decide +kernel

theorem test_preemptTimeout :
    after .preemptTimeout { preIs .handling (bound_ 0x7000) with cycle := 94000 } (fun t =>
      savedSpad t == [[(1, 7)]] && t.part.notices == [.cut 1]) = true := by decide +kernel

/-! ## The host and the module -/

/-- The grants of the example after R16: partition 2 of cluster groups 4 and 5. -/
def grants : Grants :=
  { num := 2, groups := 0x30, hbm := 0xFFFF0000, links := 0xF, taps := 4, vsplit := 6, prbase := 0x300000000, prlim := 0x400000000, s2root := 0
    tapbase := 0x4000000, capPa := 0x300000000, routes := [], xgroups := [], devId := 0
    contexts := [{ id := 7, priv := true, capblk := 0, vwbase := 0, winbase := 0, s1root := 0, hwbase := 0, hwlimit := 0, hwoff := 0, svmbase := 0, svmlimit := 0 }] }
def fused (s : State) : State := { s with mod := { s.mod with badCores := [130], badShuttles := [17], tickets := [(0, 1)], next := 1 } }

theorem test_capabilities : capsOf (fused P) grants = 0x4660_C101_F871_0840#64 := by decide +kernel

theorem test_hsem :
    after (.hsemtkRead 1) P (fun t => ownerPort t.mod == some 1 && t.mod.next == 1) = true ∧
    after (.hsemtkRead 1) { P with mod := { P.mod with hostUp := [true, false] } } (fun t => t.mod.tickets == []) = true ∧
    after (.hsemstRelease 1) (fused P) (fun t => ownerPort t.mod == none && t.mod.serving == 1) = true ∧
    still (.hsemstRelease 0) (fused P) = true ∧
    after (.hostLinkDown 1) (fused P) (fun t => ownerPort t.mod == none) = true := by decide +kernel

theorem test_control :
    let image : FlashImage := { header := [], signature := [], stages := [] }
    let refusedCtl (p : Nat) (t : State) : Bool := t.mod.ctl == [(p, true)] && t.mod.flash == none && t.team.present && t.parts == []
    after (.firmwareUpdate 1 image) (fused P) (fun t => t.mod.flash == some image && t.mod.ctl == [(1, false)]) = true ∧
    after (.firmwareUpdate 0 image) (fused P) (refusedCtl 0) = true ∧
    after (.moduleReset 1) (fused P) (fun t => t.mod.boot == .pending && !t.team.present && t.mem == P.mem && t.mod.badCores == [130]) = true ∧
    after (.moduleReset 0) (fused P) (refusedCtl 0) = true ∧
    after (.partitionCreate 1 grants) (fused P)
      (fun t => t.parts.map (fun q => (q.num, q.clusters)) == [(2, [16, 17, 18, 19, 20, 21, 22, 23])] && t.ctxs.map (fun x => (x.id, x.priv)) == [(7, true)]) = true ∧
    after (.partitionCreate 1 { grants with num := 0 }) (fused P) (fun t => t.parts == []) = true ∧
    after (.partitionCreate 0 grants) (fused P) (refusedCtl 0) = true ∧
    after (.partitionDestroy 1 0) (fused P) (fun t => !t.part.present && t.ctxs == []) = true ∧
    after (.partitionDestroy 0 0) (fused P) (refusedCtl 0) = true ∧
    after (.flr 0 1) P (fun t => t.part.present && liveCtxs t == []) = true := by decide +kernel

theorem test_hostMemory :
    let s := ctx (fun x => { x with priOut := [4], ats := [(4, { pa := 0x800000, r := true, w := false })] }) P
    let h : HostPage := { pa := 0x900000, r := true, w := true }
    after (.atsInvalidation 0x100000 1) s (fun t => t.ctx.ats == []) = true ∧
    after (.priResponse 0x100000 (some h)) s (fun t => lookupKey 4 t.ctx.ats == some h && t.ctx.priOut == []) = true ∧
    after (.priResponse 0x100000 none) s (fun t => t.ctx.priFail == [4] && t.ctx.priOut == []) = true ∧
    still (.priResponse 0x140000 none) s = true ∧
    still (.hostBarAccess 0 0x2000 none) P = true ∧
    after (.hostBarAccess 0 0x2000 (some [7])) P (fun t => seen t 0x2000 1 == 7) = true ∧
    after .patrolScrub { P with mod := { P.mod with upsets := [(0, true), (32, false)] } } (fun t => t.mod.upsets == [(32, false)]) = true ∧
    after .powerClampWithhold P (fun t => t.core.clamp == 1) = true := by decide +kernel

/-! ## Further forms -/

/-- `NoActiveLane`: words of another role, one of them of no length; `CVT` of every role on an access processor, which skips it; and a guard
predicate with a parity error, on a member without and with an active lane. -/
theorem test_skips :
    let add (role len : Nat) : Instr := .iadd { ins eIadd (k 3) (k 1) (k 2) NO 0 0 len with role := BitVec.ofNat 3 role, preg := 1 }
    let struck (g : Nat) (s : State) : State := mem (fun m => { m with rf := { m.rf with pbad := (List.replicate 7 0).set g 1 } }) s
    after (add 3 0) P (fun t => goes 0x1008 all32 t && t.m.look == P.m.look) = true ∧
    after (add 3 3) P (goes 0x1020 all32) = true ∧
    after (.vote { ins eVote (k 3) (p 1) NO NO with role := 7 }) (oneLane .ap P) (goes 0x1008 1) = true ∧
    after (add 7 0) (struck 1 P) (trapped cRas 1) = true ∧ after (add 7 0) (struck 2 P) (goes 0x1008 all32) = true ∧
    after (add 7 0) (struck 1 (pr 1 3 P)) (trapped cRas 1) = true := by decide +kernel

/-- `TrapRoute`: a trap for the context, whose vector and the supervisor's are 0. -/
theorem test_noVector :
    let s := part (fun q => { q with svvec := 0 }) (ctx (fun x => { x with trapVec := 0 }) P)
    svDepth s.m = 0 ∧ forSupervisor (bound 1) = false ∧ emuDepth s.m = 0 ∧ routeTrap s (bound 1) = none ∧
    after (.join (plain 0x005)) s (fun t => !t.ctx.alive) = true := by decide +kernel

/-- `TrapReturn` from the fault of a copy, of a stream and of a shuttle context: resumed, and cancelled. -/
theorem test_engineReturn :
    let enter (t : Trap) (s : State) : State := enterTrap s noFields 0x1000 8 1#128 t
    let cp : Trap := { cls := cMem, engine := some (.copy 1), record := some 5 }
    let st : Trap := { cls := cMem, engine := some (.stream 1), record := some 3 }
    let sf : Trap := { cls := cShf, engine := some (.shuttle 1), record := some 0 }
    let cancel (g : Member → Member) (s : State) : State := mem g s
    let stopped := mem (fun m => { m with cursor := 0x1000 }) (next (.copySuspend { id := 1 }) (next (.tcopy (tcopy eTcopy 0x405)) (copying (lay 4) (2 ^ 40) P)))
    let streams := team (fun t => { t with
      qset := true, queues := (List.replicate 16 []).set 3 [.marker 1, .data [7]]
      streams := [{ id := 1, owner := 1, ap := 0, queue := 3, base := 0, stride := 0, count := 2, fault := some { walk := false, xl := {} } }] }) P
    let shuttles := team (fun t => { t with sh := { t.sh with phase := .faulted, cause := 1, fault := some { walk := false, xl := {} } } }) P
    runs eEret .eret (plain 0x1C1) (enter cp stopped) (fun t => t.team.copies.map (fun c => (c.id == stopped.nextId, c.fault.isNone, c.pos)) == [(true, true, 0)]) = true ∧
    runs eEret .eret (plain 0x1C1) (cancel (fun m => { m with cpfault := 1 <<< 63 }) (enter cp stopped)) (fun t => t.team.copies == [] && t.team.abort == 32) = true ∧
    runs eEret .eret (plain 0x1C1) (enter st streams) (fun t => t.team.streams.map (·.fault.isNone) == [true] && queueIs 3 [.marker 1, .data [7]] t) = true ∧
    runs eEret .eret (plain 0x1C1) (cancel (fun m => { m with qfault := 1 <<< 63 }) (enter st streams)) (fun t => t.team.streams == [] && queueIs 3 [.data [7]] t) = true ∧
    runs eEret .eret (plain 0x1C1) (enter sf shuttles) (fun t => t.team.sh.phase == .running) = true ∧
    runs eEret .eret (plain 0x1C1) (cancel (fun m => { m with shfault := 1 <<< 63 }) (enter sf shuttles)) (fun t => t.team.sh.phase == .ended && t.team.sh.cancelled) = true := by
  decide +kernel

/-- 17 entries, of which the oldest stands in the stack extension at 0x9000; lost there, or in the memory of a peer without a link at 2^33. -/
def deep (bsbase : Nat) (s : State) : State :=
  let s := at_ 8 8 (2 ^ 33 + 0x3F) (at_ 0x5008 8 (3 * 2 ^ 50 + 0x3F) s)
  let s := part (fun q => { q with s2root := 0x5000, routes := [(0, 0, 8)] }) s
  let s := stk (List.replicate 17 (ent .j all32 0x1040)) (mem (fun m => { m with bsbase := BitVec.ofNat 64 bsbase, rf := { m.rf with budget := 0 } }) s)
  { s with mod := { s.mod with upsets := [(0x9000, false)] } }

theorem test_stackExtension :
    refillLost (deep 0x9000 P) 1 = true ∧ refillLost (deep 0x8000 P) 1 = false ∧ moveLost (deep (2 ^ 33) P) 2 = true ∧
    moveLost (deep 0x9000 P) 2 = false ∧
    runs eJoin .join (plain 0x005) (deep 0x9000 P) (trapped cRas 5) = true ∧
    runs eJoin .join (plain 0x005) (deep 0x8000 P) (fun t => goes 0x1040 all32 t && t.m.stack.length == 16) = true ∧
    runs eBr .br (ins eBr NO (p 1) NO NO 0 0x40 1) (deep (2 ^ 33) (pr 1 0xF P)) (trapped cRas 5) = true ∧
    runs eBrd .brd (ins eBrd NO (p 1) NO NO 0 0x80_0000_0040 2) (deep (2 ^ 33) P) (trapped cRas 5) = true ∧
    runs eCall .call { plain 0x006 with dst := 0, s0 := 16 * 8, s1 := 0, s2 := 0 } (deep (2 ^ 33) P) (trapped cRas 5) = true ∧
    runs eCallx .callx (ins eCallx NO (k 2) NO NO) (deep (2 ^ 33) (ks [(2, 0x2000)] P)) (trapped cRas 5) = true ∧
    (let s := mem (fun m => { m with exec := 0 }) (deep 0x9000 P)
     trapped cRas 5 (complete s) = true ∧ (complete s).m.exec = allLanes 32) := by decide +kernel

/-- `RegroupOutcomes`: a register of the migrated range that does not refill traps, whichever wave is the host; a wave that waits for this one,
which names another, ends with status 4. -/
theorem test_regroupTraps :
    let f := ins eRegroup (k 9) 1 1 (c 5)
    let spill (m : Member) : Member := { m with bsbase := 2 ^ 41, rf := { m.rf with vregs := m.rf.vregs.map fun e => (e.1, { e.2 with spilled := true }) } }
    let s := lower (some (.regroup 1 1 3 [] 0xFFFF)) spill P
    runs eRegroup .regroup f s (fun t => t.m.frames.length == 1) = true ∧
    runs eRegroup .regroup f { s with m := { s.m with waveId := 5 }, peers := s.peers.map fun p => { p with waveId := 3, wait := some (.regroup 1 1 5 [] 0xFFFF) } }
      (fun t => t.m.frames == []) = true ∧
    runs eRegroup .regroup (ins eRegroup (k 9) 1 1 (c 3)) (let u := lower (some (.regroup 1 1 5 [] 0xFFFF)) id (vr 1 id P)
      { u with m := spill { u.m with waveId := 5 }, peers := u.peers.map fun p => { p with waveId := 3 } }) (fun t => t.m.frames.length == 1) = true ∧
    runs eRegroup .regroup (ins eRegroup (k 9) 1 1 (c 7)) s (fun t => kIs 9 3 t && t.peers.map (·.wait) == [some (.regrouped 4)]) = true := by
  decide +kernel

/-- The points of R162 at an infinity, at 0, at a negative number, at 1, at 1/2 and at 8, by their operands' values. -/
theorem test_points :
    fdecode fp32 false 0xFF800000 = .inf true ∧ fdecode fp32 false 0 = .fin false 0 (-149) ∧ fdecode fp32 false 0xBF800000 = .fin true (2 ^ 23) (-23) ∧
    fdecode fp32 false 0x3F000000 = .fin false (2 ^ 23) (-24) ∧ fdecode fp32 false 0x41000000 = .fin false (2 ^ 23) (-20) ∧
    specialElem 0 0x088 false 0xFF800000 = 0x80000000 ∧ specialElem 0 0x08B false 0 = 0x3F800000 ∧ specialElem 0 0x08A false 0xBF800000 = 0x7FC00000 ∧
    specialElem 0 0x08B false 0x3F800000 = 0x40000000 ∧ specialElem 0 0x08E false 0x3F800000 = 0xBF800000 ∧
    specialElem 0 0x08D false 0x3F000000 = 0x3F800000 ∧ specialElem 0 0x08C false 0x41000000 = 0x40400000 := by decide +kernel

/-- `TasksAndCounters`: a lease runs out while its holder's core has an operation of its team under way (R411). -/
theorem test_leaseReset :
    let op : MxOp := { id := 1, team := 1, issuer := 1, priv := false, tiles := 1, decode := false, work := .setAdmit 0 0 }
    let s := mx (leased P)
    let s := { s with cycle := 1024, core := { s.core with mxq := [op] } }
    holderCore s { num := 6, queue := 3, task := task true, holder := 1, core := 0, ends := 1024 } = s.core.num ∧ resetHolder s 1 [op] = some 1 ∧
    after (.leaseExpiry 6) s (fun t => queued 0 t && t.m.held.map (fun h => (h.cls, h.cause)) == [(cLease, 2), (cLease, 1)] &&
      (subQueue t 3 1).map (fun x => (tkAttempt x.record, x.ready)) == [(1, true)]) = true := by decide +kernel

/-- `AccessProcessors`: a node off its alignment, and a chain of nodes that is its own parent. -/
theorem test_overlayChain :
    let s := at_ 0x2100 16 (0x2100 + 100 * 2 ^ 64) AP
    let f := ins eAovl 5 8 9 NO 2
    runs eAovl .aovl f (ks [(8, 0x2104)] s) (trapped cAlign 0) = true ∧ runs eAovl .aovl f (ks [(8, 0x2100)] s) (trapped cOvl 0) = true := by
  decide +kernel

/-- `InterruptedContext`: what BOUND with cause OWIN refuses, in a frame of `TRAP`. -/
theorem test_owin :
    let owr (s0 off m : Nat) : Bool := runs eOwr .owr (ins eOwr (k 1) s0 (k 2) NO m) (ks [(2, off)] handler) (trapped cBound bOwin)
    let oww (dst off m : Nat) : Bool := runs eOww .oww (ins eOww (c 3) dst (k 2) NO m) (ks [(2, off)] handler) (trapped cBound bOwin)
    owr NO 0 0 = true ∧ owr 200 56 4 = true ∧ owr (k 5) 59 4 = true ∧ owr (q 3) 13 4 = true ∧ owr (p 2) 6 4 = true ∧ owr (c 1) 1 4 = true ∧
    oww NO 0 0 = true ∧ oww 200 56 4 = true ∧ oww (k 5) 59 4 = true ∧ oww (q 3) 13 4 = true ∧ oww (p 2) 6 4 = true ∧ oww (sp 0) 1 4 = true ∧
    (handler.m.frames.map fun fr => (fr.cls, fr.rf.budget, fr.rf.unif)) = [(cUser, 256, 64)] := by decide +kernel

/-- `ShuttleWords`: `HPREF` takes a line into the prefetch buffer; a context that does not run stays as it is. -/
theorem test_prefetch :
    let s := sh [(1, 0x2000), (2, 2 ^ 40)] 0 P
    after (.hpref 0 1 0) s (fun t => t.cl.pref == [0x80] && shAt 1 t) = true ∧ after (.hpref 0 2 0) s (fun t => t.cl.pref == [] && shAt 1 t) = true ∧
    (encodeShuttle (.hpref 0 1 0)).isSome = true ∧
    still (.hpref 0 1 0) (team (fun t => { t with sh := { t.sh with phase := .faulted } }) s) = true := by decide +kernel

/-- Lost granules (R18, R509): a launch's descriptor as it becomes ready and as it is bound, an image, and a peer's atomic; a peer's access past 2^40;
and records that no launch fits. -/
theorem test_lost :
    let lose (a : Nat) (s : State) : State := { s with mod := { s.mod with upsets := [(a, false)] } }
    let at' (poff : Nat) (op : PeerOp) : Instr := .fabricAccess { partNo := 0, poff := BitVec.ofNat 40 poff, op := op }
    after (.launchReady 50) (lose 0x2080 (launches [aLaunch .held] P)) (fun t => !t.ctx.alive) = true ∧
    (next (.bindRecord 0 3 (BitVec.ofNat 256 bindRec) [0x9000]) (lose 0x2080 (launches [aLaunch .ready] P))).ctx.alive = false ∧
    (next (.bindRecord 0 5 resumeRec []) (lose 0x100000 savedState)).ctx.alive = false ∧
    refusedWith 4 (bind bindRec (launches [aLaunch .held] P)) = true ∧
    still (at' 0x2000 (.atomic 0 0 5)) (lose 0x2000 (fabric P)) = true ∧ still (at' (2 ^ 40 - 1) (.store [1, 2])) (fabric P) = true := by decide +kernel

/-- A word of scratchpad with an error that can be corrected: the patrol and a read correct it (R178). -/
theorem test_scrub :
    let s := team (fun t => { t with spadUpset := [(0, true), (1, false)] }) (spad [(0, 9)] [] P)
    after .patrolScrub s (fun t => t.team.spadUpset == [(1, false)]) = true ∧
    runs eLds .lds (ins eLds 3 (k 4) NO NO) s (fun t => vIs 3 5 9 t && t.team.spadUpset == [(1, false)]) = true := by decide +kernel

/-- What waits for an engine operation that has yet to write tap memory or a table (R245). -/
theorem test_ownedTables :
    let own (a : Nat) (s : State) : State := { s with nextId := 9, core := { s.core with mxq :=
      [{ id := 8, team := 1, issuer := 1, priv := false, tiles := 1, decode := false, work := .setAdmit 0 0, own := [.pa a] }] } }
    let s := own 0x4000000 (tapped P)
    runs eTap .tap tap1 s (sleeps .tapRoom) = true ∧ runs eSteer .steer (ins eSteer (k 4) NO NO NO 0 0x8000 2) s (sleeps .owned) = true ∧
    runs eTapstat .tapstat (ins eTapstat (k 4) (c 0) (c 0) (c 0)) s (sleeps .owned) = true ∧
    runs eTapclr .tapclr (ins eTapclr NO (c 0) (c 0) NO 1) s (sleeps .owned) = true ∧
    runs ePgmap .pgmap (ins ePgmap (k 3) (k 2) (k 1) NO) (ks [(1, 0x2C), (2, 0x2_0004_0000)] (own 8 (pooled 2 P))) (sleeps .owned) = true := by
  decide +kernel
end Sys2Proof.Tests
end

section
/-!
The control instructions that push on the reconvergence stack: `BRD`, `CALL` and `CALLX` (R89, R91 to R93). Each has a body that first tests
its targets, then pushes its entries, all of them or none, and goes on in a state made of the pushed one; what a push can come to is said once,
and each statement follows from the entries that the instruction pushes.
-/
namespace Sys2Proof.Machine

/-! ## From a body to a statement -/

section
variable {e : Entry} {i : Fields → Instr} {body : Fields → Ic → State → Act} {ok : Ic → State → Prop}

/-- An instruction completes with the effect that its body makes. -/
theorem completes_of_body {eff : Ic → State → State} (hx : ∀ f s, exec (i f) s = issue e f s (body f))
    (hb : ∀ ic s, ok ic s → body ic.f ic s = .go (eff ic s)) : Completes e i ok eff := by
  intro f s ic s' h hok
  obtain ⟨hf, -⟩ := started_ic h
  rw [hx]
  exact started_go h (hf ▸ hb ic s' hok)

/-- An instruction takes the trap that its body raises. -/
theorem traps_of_body {t : Ic → Trap} (hx : ∀ f s, exec (i f) s = issue e f s (body f))
    (hb : ∀ ic s, ok ic s → body ic.f ic s = .trap (t ic)) : Traps e i ok t := by
  intro f s ic s' h hok
  obtain ⟨hf, -⟩ := started_ic h
  rw [hx]
  exact started_trap h (hf ▸ hb ic s' hok)

end

/-! ## Pushes -/

/-- No push moves no entry. -/
@[simp] theorem moveLost_zero (s : State) : moveLost s 0 = false := by simp [moveLost]

/-- Entries of which one would move another to a lost place are not pushed, and raise RAS (R18, R509). -/
theorem pushEntries_lost {s : State} {es : List StackEntry} (hl : s.m.stack.length + es.length ≤ stackLimit s.m.kind)
    (h : moveLost s es.length = true) : pushEntries s es = .error extTrap := by
  have hn : ¬ stackLimit s.m.kind < s.m.stack.length + es.length := Nat.not_lt.mpr hl
  simp [pushEntries, pushTrap, h, hn]

/-- Entries pushed, and then `k` in the pushed state; the trap of the push where they are not. -/
def pushThen (s : State) (es : List StackEntry) (k : State → Act) : Act :=
  match pushEntries s es with
  | .error e => .trap e
  | .ok t => k t

section
variable {s : State} {es : List StackEntry} (k : State → Act)

theorem pushThen_fits (h : fits s es.length) : pushThen s es k = k (pushed s es) := by
  simp [pushThen, pushEntries_ok h]

theorem pushThen_full (hn : es ≠ []) (h : stackLimit s.m.kind < s.m.stack.length + es.length) :
    pushThen s es k = .trap (bound bRstk) := by
  simp [pushThen, pushEntries_full hn h]

theorem pushThen_lost (hl : s.m.stack.length + es.length ≤ stackLimit s.m.kind) (h : moveLost s es.length = true) :
    pushThen s es k = .trap extTrap := by
  simp [pushThen, pushEntries_lost hl h]

end

/-- EXEC set to what it is leaves the cursor set alone. -/
theorem atMask_exec {s : State} {ex : Mask} (h : ex = s.m.exec) (pc : Dword) : atMask s ex pc = setCursor s pc := by
  subst h
  rfl

/-! ## BRD -/

/-- The J entry of `BRD` (R89). -/
def brdJoin (ic : Ic) (s : State) : StackEntry := { mask := s.m.exec, kind := .j, addr := (ic.pc + disp2 ic.f).setWidth 48 }

/-- The P entry of `BRD` (R89): the taken lanes at the target. -/
def brdTaken (ic : Ic) : StackEntry := { mask := takenLanes ic, kind := .p, addr := ic.target.setWidth 48 }

/-- The entries that `BRD` pushes: the P entry only where the lanes divide. -/
def brdEntries (ic : Ic) (s : State) : List StackEntry :=
  if takenLanes ic = 0#128 ∨ takenLanes ic = s.m.exec then [brdJoin ic s] else [brdTaken ic, brdJoin ic s]

/-- Where `BRD` goes on in a state that holds its entries. -/
def brdGoesOn (ic : Ic) (s t : State) : State :=
  if takenLanes ic = s.m.exec then setCursor t ic.target else atMask t (s.m.exec &&& ~~~takenLanes ic) ic.next

/-- Both addresses of `BRD` are multiples of 4 (R61). -/
def brdAligned (ic : Ic) : Prop := aligned4 ic.target = true ∧ aligned4 (ic.pc + disp2 ic.f) = true

/-- The effect of `BRD`: the body that `execBrd` issues. -/
def brdBody (f : Fields) (ic : Ic) (s : State) : Act :=
  if !aligned4 (ic.pc + disp1 f) || !aligned4 (ic.pc + disp2 f) then .trap alignTrap
  else
    pushThen s
      (if takenLanes ic == s.m.exec || takenLanes ic == 0#128 then
        [{ mask := s.m.exec, kind := .j, addr := (ic.pc + disp2 f).setWidth 48 }]
      else [{ mask := takenLanes ic, kind := .p, addr := (ic.pc + disp1 f).setWidth 48 },
        { mask := s.m.exec, kind := .j, addr := (ic.pc + disp2 f).setWidth 48 }])
      fun t =>
        if takenLanes ic == s.m.exec then .go (setCursor t (ic.pc + disp1 f))
        else .go (atMask t (s.m.exec &&& ~~~takenLanes ic) ic.next)

theorem exec_brd (f : Fields) (s : State) : exec (.brd f) s = issue eBrd f s (brdBody f) := by rfl

theorem brdBody_misaligned {ic : Ic} {s : State} (h : ¬ brdAligned ic) : brdBody ic.f ic s = .trap alignTrap := by
  unfold brdAligned at h
  rw [← Bool.and_eq_true, Bool.not_eq_true] at h
  refine if_pos ?_
  rw [← Bool.not_and, Bool.not_eq_true']
  exact h

theorem brdBody_aligned {ic : Ic} {s : State} (h : brdAligned ic) :
    brdBody ic.f ic s = pushThen s (brdEntries ic s) fun t => .go (brdGoesOn ic s t) := by
  obtain ⟨ht, hj⟩ := h
  unfold Ic.target at ht
  simp [brdBody, brdEntries, brdGoesOn, brdJoin, brdTaken, Ic.target, ht, hj, apply_ite Act.go, or_comm]

/-- `BRD` pushes one entry where its lanes do not divide, and two where they do. -/
theorem brdEntries_length (ic : Ic) (s : State) :
    (brdEntries ic s).length = if takenLanes ic = 0#128 ∨ takenLanes ic = s.m.exec then 1 else 2 := by
  unfold brdEntries
  split <;> rfl

theorem brdEntries_ne_nil (ic : Ic) (s : State) : brdEntries ic s ≠ [] := by
  unfold brdEntries
  split <;> simp

theorem brdEntries_whole {ic : Ic} {s : State} (h : takenLanes ic = 0#128 ∨ takenLanes ic = s.m.exec) :
    brdEntries ic s = [brdJoin ic s] := if_pos h

theorem brdEntries_divided {ic : Ic} {s : State} (h0 : takenLanes ic ≠ 0#128) (hx : takenLanes ic ≠ s.m.exec) :
    brdEntries ic s = [brdTaken ic, brdJoin ic s] := if_neg (not_or.mpr ⟨h0, hx⟩)

/-- With every lane taken `BRD` goes to its target. -/
theorem brdGoesOn_all {ic : Ic} {s : State} (h : takenLanes ic = s.m.exec) (t : State) :
    brdGoesOn ic s t = setCursor t ic.target := if_pos h

/-- With some lane not taken it goes on with those that are not. -/
theorem brdGoesOn_rest {ic : Ic} {s : State} (h : takenLanes ic ≠ s.m.exec) (t : State) :
    brdGoesOn ic s t = atMask t (s.m.exec &&& ~~~takenLanes ic) ic.next := if_neg h

/-- With no lane taken it goes on with EXEC as it is. -/
theorem brdGoesOn_none {ic : Ic} {s : State} (h0 : takenLanes ic = 0#128) (hx : s.m.exec ≠ 0#128) (es : List StackEntry) :
    brdGoesOn ic s (pushed s es) = ic.adv (pushed s es) := by
  rw [brdGoesOn_rest (by rw [h0]; exact hx.symm), Ic.adv_eq, atMask_exec]
  rw [h0, BitVec.not_zero, BitVec.and_allOnes, pushed_m]

/-- Settles O24: the entries of `BRD` by which lanes are taken, and what their push comes to. -/
theorem divergentRegion : Obligations.DivergentRegion := by
  unfold Obligations.DivergentRegion
  refine ⟨?all, ?none, ?some, ?misaligned, ?full, ?lost⟩
  case all =>
    refine completes_of_body exec_brd fun ic s ⟨hok, ht, hf⟩ => ?_
    rw [brdBody_aligned hok, brdEntries_whole (.inr ht), pushThen_fits _ hf, brdGoesOn_all ht]
    rfl
  case none =>
    refine completes_of_body exec_brd fun ic s ⟨hok, ht, hx, hf⟩ => ?_
    rw [brdBody_aligned hok, brdEntries_whole (.inl ht), pushThen_fits _ hf, brdGoesOn_none ht hx]
    rfl
  case some =>
    refine completes_of_body exec_brd fun ic s ⟨hok, h0, hx, hf⟩ => ?_
    rw [brdBody_aligned hok, brdEntries_divided h0 hx, pushThen_fits _ hf, brdGoesOn_rest hx]
    rfl
  case misaligned => exact traps_of_body exec_brd fun ic s h => brdBody_misaligned h
  case full =>
    refine traps_of_body exec_brd fun ic s ⟨hok, hl⟩ => ?_
    rw [brdBody_aligned hok, pushThen_full _ (brdEntries_ne_nil ic s) (by rwa [brdEntries_length])]
  case lost =>
    refine traps_of_body exec_brd fun ic s ⟨hok, hl, hm⟩ => ?_
    rw [brdBody_aligned hok, pushThen_lost] <;> rwa [brdEntries_length]

/-! ## CALL -/

/-- The C entry of a call (R91, R93): EXEC behind it. -/
def callFrame (ic : Ic) (s : State) : StackEntry := { mask := s.m.exec, kind := .c, addr := (ic.pc + 8#64).setWidth 48 }

/-- The effect of `CALL`: the body that `execCall` issues. -/
def callBody (f : Fields) (ic : Ic) (s : State) : Act :=
  pushThen s [callFrame ic s] fun t => .go (atMask t ic.act (ic.pc + (disp24 f).signExtend 64 * 4#64))

theorem exec_call (f : Fields) (s : State) : exec (.call f) s = issue eCall f s (callBody f) := by rfl

/-! ## CALLX -/

/-- The distinct targets of `CALLX`, ascending (R93). -/
def callxTargets (ic : Ic) : List Nat := ascending (ic.lanes.map (callTarget ic))

/-- The lanes of a target. -/
def callxGroup (ic : Ic) (g : Nat) : Mask := ic.act &&& maskOf ic.n fun l => callTarget ic l == g

/-- The entry under the groups (R93): the C entry of a call, or for a tail call a P entry of the lanes that it leaves behind, if any. -/
def callxBelow (f : Fields) (ic : Ic) (s : State) : List StackEntry :=
  if modBits f 0 0 = 0 then [callFrame ic s]
  else if s.m.exec &&& ~~~ic.act ≠ 0#128 then
    [{ mask := s.m.exec &&& ~~~ic.act, kind := .p, addr := (ic.pc + 8#64).setWidth 48 }]
  else []

/-- The same with the tests that `execCallx` makes. -/
theorem callxBelow_tests (f : Fields) (ic : Ic) (s : State) :
    callxBelow f ic s = if modBits f 0 0 == 0 then [callFrame ic s]
      else if s.m.exec &&& ~~~ic.act != 0#128 then
        [{ mask := s.m.exec &&& ~~~ic.act, kind := .p, addr := (ic.pc + 8#64).setWidth 48 }]
      else [] := by
  simp only [callxBelow, beq_iff_eq, bne_iff_ne]

/-- The entries that `CALLX` pushes: the groups of the targets but the lowest, the next of them on top. -/
def callxEntries (f : Fields) (ic : Ic) (s : State) : List StackEntry :=
  (callxTargets ic).tail.map (fun g => { mask := callxGroup ic g, kind := EntryKind.p, addr := BitVec.ofNat 48 g }) ++ callxBelow f ic s

/-- The targets of all active lanes are multiples of 4 (R93). -/
def callxAligned (ic : Ic) : Prop := ∀ l ∈ ic.lanes, callTarget ic l % 4 = 0

/-- `CALLX` in a state that holds its entries: the lanes of the lowest target go to it. -/
def callxGoesOn (ic : Ic) (t : State) : State :=
  atMask t (callxGroup ic ((callxTargets ic).headD 0)) (BitVec.ofNat 64 ((callxTargets ic).headD 0))

/-- The effect of `CALLX`: the body that `execCallx` issues. -/
def callxBody (f : Fields) (ic : Ic) (s : State) : Act :=
  if ic.lanes.any fun l => callTarget ic l % 4 != 0 then .trap alignTrap
  else pushThen s (callxEntries f ic s) fun t => .go (callxGoesOn ic t)

theorem exec_callx (f : Fields) (s : State) : exec (.callx f) s = issue eCallx f s (callxBody f) := by
  unfold callxBody callxEntries
  simp only [callxBelow_tests]
  rfl

theorem callxAligned_iff {ic : Ic} : (ic.lanes.any fun l => callTarget ic l % 4 != 0) = true ↔ ¬ callxAligned ic := by
  simp [callxAligned]

theorem callxBody_misaligned {ic : Ic} {s : State} (h : ¬ callxAligned ic) : callxBody ic.f ic s = .trap alignTrap :=
  if_pos (callxAligned_iff.mpr h)

theorem callxBody_aligned {ic : Ic} {s : State} (h : callxAligned ic) :
    callxBody ic.f ic s = pushThen s (callxEntries ic.f ic s) fun t => .go (callxGoesOn ic t) :=
  if_neg fun hb => callxAligned_iff.mp hb h

/-- Settles O26: what the push of each call's entries comes to. -/
theorem calls : Obligations.Calls := by
  unfold Obligations.Calls
  refine ⟨⟨?call, ?callFull, ?callLost⟩, ?callx, ?misaligned, ?callxFull, ?callxLost⟩
  case call => exact completes_of_body exec_call fun ic s hf => pushThen_fits _ hf
  case callFull => exact traps_of_body exec_call fun ic s hl => pushThen_full _ (by simp) (Nat.lt_succ_of_le hl)
  case callLost => exact traps_of_body exec_call fun ic s ⟨hl, hm⟩ => pushThen_lost _ hl hm
  case callx =>
    refine completes_of_body exec_callx fun ic s ⟨hok, hf⟩ => ?_
    rw [callxBody_aligned hok]
    exact pushThen_fits _ hf
  case misaligned => exact traps_of_body exec_callx fun ic s h => callxBody_misaligned h
  case callxFull =>
    refine traps_of_body exec_callx fun ic s ⟨hok, hn, hl⟩ => ?_
    rw [callxBody_aligned hok]
    exact pushThen_full _ hn hl
  case callxLost =>
    refine traps_of_body exec_callx fun ic s ⟨hok, hl, hm⟩ => ?_
    rw [callxBody_aligned hok]
    exact pushThen_lost _ hl hm

end Sys2Proof.Machine
end

section
/-!
Integers as bit vectors: an instruction's operands at the width of its type, and the exact integer of spec/06_arithmetic.md, taken modulo
2^w, as an operation on them (R137, R138, R141 to R155).
-/
namespace Sys2Proof.Machine

/-! ## The value of a bit vector by signedness -/

/-- A bit vector read as signed or as unsigned (R23). -/
def bvVal {w : Nat} (signed : Bool) (a : BitVec w) : Int := if signed then a.toInt else a.toNat

section
variable {w : Nat} (signed : Bool) (a b : BitVec w)

@[simp] theorem bvVal_false : bvVal false a = a.toNat := rfl
@[simp] theorem bvVal_true : bvVal true a = a.toInt := rfl

@[simp] theorem ofInt_bvVal : BitVec.ofInt w (bvVal signed a) = a := by
  cases signed <;> simp

theorem bvVal_inj : bvVal signed a = bvVal signed b ↔ a = b := by
  cases signed
  · exact Int.natCast_inj.trans BitVec.toNat_inj
  · exact BitVec.toInt_inj

theorem bvVal_eq_zero : bvVal signed b = 0 ↔ b = 0#w := by
  rw [← bvVal_inj signed]
  cases signed <;> simp

theorem bvVal_lt : bvVal signed a < bvVal signed b ↔ (if signed then a.slt b else a.ult b) = true := by
  cases signed
  · simp [BitVec.ult]
  · simp [BitVec.slt]

theorem bvVal_le : bvVal signed a ≤ bvVal signed b ↔ (if signed then a.sle b else a.ule b) = true := by
  cases signed
  · simp [BitVec.ule]
  · simp [BitVec.sle]

/-! ## Sums and products -/

theorem ofInt_add_bvVal : BitVec.ofInt w (bvVal signed a + bvVal signed b) = a + b := by simp [BitVec.ofInt_add]

theorem ofInt_sub (x y : Int) : BitVec.ofInt w (x - y) = BitVec.ofInt w x - BitVec.ofInt w y := by
  rw [Int.sub_eq_add_neg, BitVec.ofInt_add, BitVec.ofInt_neg, BitVec.sub_eq_add_neg]

theorem ofInt_sub_bvVal : BitVec.ofInt w (bvVal signed a - bvVal signed b) = a - b := by simp [ofInt_sub]

theorem ofInt_neg_bvVal : BitVec.ofInt w (-bvVal signed a) = -a := by simp [BitVec.ofInt_neg]

theorem ofInt_mul_bvVal : BitVec.ofInt w (bvVal signed a * bvVal signed b) = a * b := by simp [BitVec.ofInt_mul]

/-- The magnitude of a signed value; that of MIN is MIN (R147). -/
theorem ofInt_natAbs : BitVec.ofInt w a.toInt.natAbs = if a.msb then -a else a := by
  rw [BitVec.msb_eq_toInt]
  split
  · next h => rw [Int.ofNat_natAbs_of_nonpos (Int.le_of_lt (of_decide_eq_true h)), BitVec.ofInt_neg, BitVec.ofInt_toInt]
  · next h => rw [Int.natAbs_of_nonneg (by simpa using h), BitVec.ofInt_toInt]

/-- The double-width product is the exact one (R144). -/
theorem wideMul_eq : wideMul signed w a b = BitVec.ofInt (2 * w) (bvVal signed a * bvVal signed b) := by
  cases signed
  · simp only [wideMul, bvVal_false, BitVec.ofInt_mul, BitVec.ofInt_natCast, BitVec.ofNat_toNat]
    rfl
  · simp [wideMul, BitVec.ofInt_mul, BitVec.signExtend]

theorem emod_mul_self_ediv {m : Int} (x : Int) (hm : 0 < m) : x % (m * m) / m % m = x / m % m := by
  have h : x % (m * m) = x + m * (m * -(x / (m * m))) := by
    rw [Int.emod_def, Int.sub_eq_add_neg, Int.mul_assoc, Int.mul_neg, Int.mul_neg]
  rw [h, Int.add_mul_ediv_left _ _ (Int.ne_of_gt hm), Int.add_mul_emod_self_left]

/-- The high half of a double-width result is the floor of the exact one over 2^w (R144). -/
theorem ofInt_extract_high (x : Int) : (BitVec.ofInt (2 * w) x).extractLsb' w w = BitVec.ofInt w (x / 2 ^ w) := by
  have hw : (0 : Int) < 2 ^ w := Int.pow_pos (by decide)
  have h2 : (2 : Int) ^ (2 * w) = 2 ^ w * 2 ^ w := by rw [Nat.two_mul, Int.pow_add]
  have hx := Int.emod_nonneg x (Int.ne_of_gt (Int.mul_pos hw hw))
  apply BitVec.eq_of_toNat_eq
  rw [BitVec.extractLsb'_toNat, Nat.shiftRight_eq_div_pow, BitVec.toNat_ofInt, BitVec.toNat_ofInt, ← Int.natCast_inj,
    Int.natCast_emod, Int.natCast_ediv, Int.natCast_pow, Int.natCast_pow, Int.cast_ofNat_Int, h2, Int.toNat_of_nonneg hx,
    emod_mul_self_ediv x hw, Int.toNat_of_nonneg (Int.emod_nonneg _ (Int.ne_of_gt hw))]

theorem ofInt_mulHigh :
    BitVec.ofInt w (bvVal signed a * bvVal signed b / 2 ^ w) = (wideMul signed w a b).extractLsb' w w := by
  rw [wideMul_eq, ofInt_extract_high]

/-! ## Choices -/

theorem ofInt_min :
    BitVec.ofInt w (min (bvVal signed a) (bvVal signed b)) = if (if signed then a.sle b else a.ule b) then a else b := by
  rw [Int.min_def, apply_ite (BitVec.ofInt w), ofInt_bvVal, ofInt_bvVal]
  simp only [bvVal_le]

theorem ofInt_max :
    BitVec.ofInt w (max (bvVal signed a) (bvVal signed b)) = if (if signed then a.sle b else a.ule b) then b else a := by
  rw [Int.max_def, apply_ite (BitVec.ofInt w), ofInt_bvVal, ofInt_bvVal]
  simp only [bvVal_le]

/-- The conditions of R149 on the values and on the bit vectors agree. -/
theorem intCond_bvVal (c : Nat) : intCond c (bvVal signed a) (bvVal signed b) = bvCond signed c w a b := by
  have heq : (bvVal signed a == bvVal signed b) = (a == b) := by
    rw [Bool.eq_iff_iff, beq_iff_eq, beq_iff_eq, bvVal_inj]
  have hlt (a b : BitVec w) : decide (bvVal signed a < bvVal signed b) = if signed then a.slt b else a.ult b := by
    rw [Bool.eq_iff_iff, decide_eq_true_iff, bvVal_lt]
  have hle (a b : BitVec w) : decide (bvVal signed a ≤ bvVal signed b) = !(if signed then b.slt a else b.ult a) := by
    rw [← hlt, ← decide_not, decide_eq_decide, Int.not_lt]
  unfold intCond bvCond
  split
  · exact heq
  · exact congrArg not heq
  · exact hlt a b
  · exact hle a b
  · exact hlt b a
  · simp [hle]

/-! ## Division -/

theorem ofInt_tdiv :
    BitVec.ofInt w ((bvVal signed a).tdiv (bvVal signed b)) = if signed then a.sdiv b else a.udiv b := by
  cases signed
  · have h : (a.toNat : Int).tdiv b.toNat = (a.udiv b).toNat := by
      rw [BitVec.udiv_eq, BitVec.toNat_udiv]
      rfl
    rw [bvVal_false, bvVal_false, h, BitVec.ofInt_natCast, BitVec.ofNat_toNat, BitVec.setWidth_eq]
    rfl
  · apply BitVec.eq_of_toInt_eq
    simp [BitVec.toInt_sdiv]

theorem ofInt_tmod :
    BitVec.ofInt w ((bvVal signed a).tmod (bvVal signed b)) = if signed then a.srem b else a.umod b := by
  have h : (bvVal signed a).tmod (bvVal signed b) = bvVal signed (if signed then a.srem b else a.umod b) := by
    cases signed
    · rfl
    · simp [BitVec.toInt_srem]
  rw [h, ofInt_bvVal]

/-- The least signed value is its own negation. -/
theorem neg_eq_of_toInt_tyMin {a : BitVec w} (hw : 0 < w) (h : a.toInt = tyMin w true) : -a = a := by
  have ha : a = BitVec.intMin w := by
    rw [← BitVec.toInt_inj, BitVec.toInt_intMin_of_pos hw, h]
    rfl
  rw [ha, BitVec.neg_intMin]

/-- The quotient by zero is all ones under either signedness (R155). -/
theorem ofInt_quotient_zero : BitVec.ofInt w (if signed then -1 else tyMax w false) = BitVec.allOnes w := by
  cases signed
  · have h : tyMax w false = (2 ^ w - 1 : Nat) := by
      rw [Int.natCast_sub Nat.one_le_two_pow, Int.natCast_pow]
      rfl
    rw [if_neg Bool.false_ne_true, h, BitVec.ofInt_natCast, BitVec.allOnes, BitVec.ofNatLT_eq_ofNat]
  · rw [← BitVec.neg_one_eq_allOnes, if_pos rfl, BitVec.ofInt_neg]
    rfl

theorem ofInt_quotient (hw : 0 < w) :
    BitVec.ofInt w (divRem w signed (bvVal signed a) (bvVal signed b)).1 = bvDiv signed w a b := by
  unfold divRem bvDiv
  simp only [beq_iff_eq, bvVal_eq_zero]
  split
  · exact ofInt_quotient_zero signed
  rw [← ofInt_tdiv]
  split
  · next h =>
    simp only [Bool.and_eq_true, beq_iff_eq] at h
    obtain ⟨⟨rfl, hx⟩, hy⟩ := h
    dsimp only
    rw [← hx, hy, Int.tdiv_neg, Int.tdiv_one, ofInt_neg_bvVal, ofInt_bvVal]
    exact (neg_eq_of_toInt_tyMin hw hx).symm
  · rfl

theorem ofInt_remainder :
    BitVec.ofInt w (divRem w signed (bvVal signed a) (bvVal signed b)).2 = bvRem signed w a b := by
  unfold divRem bvRem
  simp only [beq_iff_eq, bvVal_eq_zero]
  split
  · exact ofInt_bvVal signed a
  rw [← ofInt_tmod]
  split
  · next h =>
    simp only [Bool.and_eq_true, beq_iff_eq] at h
    rw [h.2, Int.tmod_neg, Int.tmod_one]
  · rfl

end

/-! ## Counts -/

/-- The items before the first that satisfies `p`, counted. -/
theorem takeWhile_not_length (p : Nat → Bool) (w : Nat) :
    ((List.range w).takeWhile fun i => !p i).length = ((List.range w).find? p).getD w := by
  induction w with
  | zero => rfl
  | succ w ih =>
    rw [List.range_succ, List.takeWhile_append, List.find?_append]
    cases h : (List.range w).find? p with
    | none =>
      rw [h, Option.getD_none] at ih
      cases hp : p w <;> simp [ih, hp]
    | some i =>
      rw [h, Option.getD_some] at ih
      have hi : i < w := by simpa using (List.find?_range_eq_some.mp h).2.1
      simp [ih, Nat.ne_of_lt hi]

/-- The highest set bit of a number, looked for from bit `w - 1` down. -/
theorem bitsBelow_getLast (w x : Nat) :
    (bitsBelow w x).getLast? = ((List.range w).find? fun i => x.testBit (w - 1 - i)).map (w - 1 - ·) := by
  rw [← List.head?_reverse, bitsBelow, ← List.filter_reverse, List.head?_filter, List.range_eq_range', List.reverse_range',
    List.find?_map, ← List.range_eq_range', Nat.zero_add]
  rfl

section
variable {w : Nat} (a b : BitVec w)

theorem bitsBelow_length : (bitsBelow w a.toNat).length = ((List.range w).filter fun i => a.getLsbD i).length := rfl

theorem bitsBelow_headD : (bitsBelow w a.toNat).headD w = ((List.range w).takeWhile fun i => !a.getLsbD i).length := by
  rw [takeWhile_not_length, List.headD_eq_head?_getD, bitsBelow, List.head?_filter]
  rfl

theorem bitsBelow_leading :
    ((bitsBelow w a.toNat).getLast?.elim w (w - 1 - ·)) = ((List.range w).takeWhile fun i => !a.getMsbD i).length := by
  have h : ((List.range w).find? fun i => a.toNat.testBit (w - 1 - i)) = (List.range w).find? a.getMsbD := by
    rw [← List.head?_filter, ← List.head?_filter]
    refine congrArg _ (List.filter_congr fun i hi => ?_)
    simp [BitVec.getMsbD, BitVec.getLsbD, List.mem_range.mp hi]
  rw [takeWhile_not_length, bitsBelow_getLast, h]
  cases hf : (List.range w).find? a.getMsbD with
  | none => rfl
  | some i =>
    have hi : i < w := by simpa using (List.find?_range_eq_some.mp hf).2.1
    simp only [Option.map_some, Option.elim_some, Option.getD_some]
    omega

/-! ## Bits moved -/

theorem revBits_lt (w x : Nat) : revBits w x < 2 ^ w := by
  induction w generalizing x with
  | zero => simp [revBits]
  | succ w ih =>
    have hlow := ih (x / 2)
    have htop : x % 2 * 2 ^ w ≤ 1 * 2 ^ w := Nat.mul_le_mul_right _ (by omega)
    simp only [revBits, Nat.pow_succ]
    omega

theorem testBit_revBits (w x i : Nat) : (revBits w x).testBit i = (decide (i < w) && x.testBit (w - 1 - i)) := by
  induction w generalizing x i with
  | zero => simp [revBits]
  | succ w ih =>
    rw [revBits, Nat.mul_comm, Nat.testBit_two_pow_mul_add _ (revBits_lt w _), ih]
    rcases Nat.lt_trichotomy i w with h | rfl | h
    · have hi : w + 1 - 1 - i = (w - 1 - i) + 1 := by omega
      simp only [h, Nat.lt_succ_of_lt h, hi, if_true, Nat.testBit_succ]
    · simp [Nat.testBit_zero]
    · have hi : i - w = (i - w - 1) + 1 := by omega
      rw [if_neg (Nat.lt_asymm h), hi, Nat.testBit_succ, show x % 2 / 2 = 0 by omega]
      simp [Nat.not_lt.mpr (Nat.succ_le_of_lt h)]

theorem ofInt_revBits : BitVec.ofInt w (revBits w a.toNat) = a.reverse := by
  rw [BitVec.ofInt_natCast]
  refine BitVec.eq_of_getLsbD_eq fun i hi => ?_
  rw [BitVec.getLsbD_ofNat, BitVec.getLsbD_reverse, testBit_revBits]
  simp [hi, BitVec.getMsbD, BitVec.getLsbD]

theorem ofInt_shl (n : Nat) : BitVec.ofInt w (if n < w then (a.toNat : Int) * 2 ^ n else (0 : Nat)) = a <<< n := by
  split
  · have h : (a.toNat : Int) * 2 ^ n = (a.toNat <<< n : Nat) := by simp [Nat.shiftLeft_eq]
    rw [h, BitVec.ofInt_natCast]
    rfl
  · next h => rw [BitVec.shiftLeft_eq_zero (Nat.le_of_not_lt h), BitVec.ofInt_natCast]

theorem ofInt_shr (n : Nat) : BitVec.ofInt w (if n < w then (a.toNat : Int) / 2 ^ n else (0 : Nat)) = a >>> n := by
  split
  · have h : (a.toNat : Int) / 2 ^ n = (a >>> n).toNat := by
      rw [BitVec.toNat_ushiftRight, Nat.shiftRight_eq_div_pow]
      simp
    rw [h, BitVec.ofInt_natCast, BitVec.ofNat_toNat, BitVec.setWidth_eq]
  · next h => rw [BitVec.ushiftRight_eq_zero (Nat.le_of_not_lt h), BitVec.ofInt_natCast]

/-- The floor of a number over a power of two that exceeds its magnitude is its sign. -/
theorem ediv_two_pow_of_bounds {x : Int} {k m : Nat} (h : k ≤ m) (hl : -2 ^ k ≤ x) (hu : x < 2 ^ k) :
    x / 2 ^ m = if x < 0 then -1 else 0 := by
  have hm : (2 : Int) ^ k ≤ 2 ^ m := Int.ofNat_le.mpr (Nat.pow_le_pow_right (by decide) h)
  split
  · next hn => exact Int.ediv_eq_neg_one_of_neg_of_le hn (by omega)
  · next hn => exact Int.ediv_eq_zero_of_lt (by omega) (by omega)

theorem ofInt_sar (n : Nat) : BitVec.ofInt w (a.toInt / 2 ^ min n (w - 1)) = a.sshiftRight n := by
  rw [BitVec.sshiftRight, Int.shiftRight_eq_div_pow, Int.natCast_pow, Int.cast_ofNat_Int]
  rcases Nat.le_total n (w - 1) with h | h
  · rw [Nat.min_eq_left h]
  · have hb {m : Nat} (hm : w - 1 ≤ m) := ediv_two_pow_of_bounds hm (BitVec.le_toInt a) BitVec.toInt_lt
    rw [Nat.min_eq_right h, hb (Nat.le_refl _), hb h]

theorem ofInt_rotl (n : Nat) : BitVec.ofInt w (rotl w a.toNat n) = a.rotateLeft n := by
  obtain rfl | hw := Nat.eq_zero_or_pos w
  · exact Subsingleton.elim _ _
  have hn := Nat.mod_lt n hw
  have hpow : 2 ^ w = 2 ^ (w - n % w) * 2 ^ (n % w) := by
    rw [← Nat.pow_add, Nat.sub_add_cancel (Nat.le_of_lt hn)]
  have hlow : a.toNat >>> (w - n % w) < 2 ^ (n % w) := by
    rw [Nat.shiftRight_eq_div_pow, Nat.div_lt_iff_lt_mul (Nat.two_pow_pos _), Nat.mul_comm, ← hpow]
    exact a.isLt
  have hhigh : a.toNat <<< (n % w) % 2 ^ w = (a.toNat % 2 ^ (w - n % w)) <<< (n % w) := by
    rw [Nat.shiftLeft_eq, Nat.shiftLeft_eq, hpow, Nat.mul_mod_mul_right]
  have hr : rotl w a.toNat n = (a.rotateLeft n).toNat := by
    rw [BitVec.toNat_rotateLeft, hhigh, ← Nat.shiftLeft_add_eq_or_of_lt hlow, ← hhigh, rotl, Nat.shiftLeft_eq,
      Nat.shiftRight_eq_div_pow]
  rw [hr, BitVec.ofInt_natCast, BitVec.ofNat_toNat, BitVec.setWidth_eq]

/-! ## Bit fields -/

/-- The number that `BFX` makes of a field of `n` bits (R152). -/
def fieldVal (signed : Bool) (n x : Nat) : Int :=
  if n == 0 then 0 else if signed && x.testBit (n - 1) then (x : Int) - 2 ^ n else x

theorem fieldVal_eq (signed : Bool) (n x : Nat) : fieldVal signed n (x % 2 ^ n) = bvVal signed (BitVec.ofNat n x) := by
  unfold fieldVal
  obtain rfl | hn := Nat.eq_zero_or_pos n
  · rw [BitVec.eq_nil (BitVec.ofNat 0 x)]
    cases signed <;> simp
  · have hx : (x % 2 ^ n).testBit (n - 1) = (BitVec.ofNat n x).msb := by
      rw [BitVec.msb_eq_getLsbD_last]
      rfl
    cases signed <;> simp [hx, Nat.ne_of_gt hn, BitVec.toInt_eq_msb_cond]

theorem ofInt_fieldVal (signed : Bool) (off n : Nat) :
    BitVec.ofInt w (fieldVal signed n (a.toNat / 2 ^ off % 2 ^ n)) = bitField signed w off n a := by
  rw [fieldVal_eq, bvVal, apply_ite (BitVec.ofInt w), BitVec.ofInt_natCast, BitVec.ofNat_toNat, ← Nat.shiftRight_eq_div_pow]
  rfl

/-- The bits of a field are those of the second word from bit 0 on; the others stay (R152). -/
theorem getLsbD_insertField {off n i : Nat} (hi : i < w) :
    (insertField w off n a b).getLsbD i = if off ≤ i ∧ i - off < n then b.getLsbD (i - off) else a.getLsbD i := by
  have hm : (BitVec.ofNat w ((2 ^ n - 1) <<< off)).getLsbD i = decide (off ≤ i ∧ i - off < n) := by
    rw [BitVec.getLsbD_ofNat, Nat.testBit_shiftLeft, Nat.testBit_two_pow_sub_one]
    simp [hi]
  unfold insertField
  rw [BitVec.getLsbD_or, BitVec.getLsbD_and, BitVec.getLsbD_not, BitVec.getLsbD_and, BitVec.getLsbD_shiftLeft, hm]
  split
  · next h => simp [h, hi]
  · next h => simp [h, hi]

/-- The sum that `BFI` makes, as the parts of a word above, in and below the field (R152). -/
theorem insert_sum (x y off n : Nat) :
    (x : Int) - (x : Int) / 2 ^ off % 2 ^ n * 2 ^ off + (y : Int) % 2 ^ n * 2 ^ off =
      (2 ^ off * (2 ^ n * (x / 2 ^ off / 2 ^ n) + y % 2 ^ n) + x % 2 ^ off : Nat) := by
  have hx := Int.mul_ediv_add_emod x (2 ^ off)
  have hq := Int.mul_ediv_add_emod (x / 2 ^ off) (2 ^ n)
  simp only [Int.natCast_add, Int.natCast_mul, Int.natCast_emod, Int.natCast_ediv, Int.natCast_pow, Int.cast_ofNat_Int]
  generalize (2 : Int) ^ off = p, (2 : Int) ^ n = q at *
  grind

theorem ofInt_insert (off n : Nat) :
    BitVec.ofInt w (if n == 0 then (a.toNat : Int) else
      (a.toNat : Int) - (a.toNat : Int) / 2 ^ off % 2 ^ n * 2 ^ off + (b.toNat : Int) % 2 ^ n * 2 ^ off) =
      insertField w off n a b := by
  obtain rfl | hn := Nat.eq_zero_or_pos n
  · simp [insertField]
  rw [if_neg (by simpa using Nat.ne_of_gt hn), insert_sum, BitVec.ofInt_natCast]
  refine BitVec.eq_of_getLsbD_eq fun i hi => ?_
  rw [getLsbD_insertField _ _ hi, BitVec.getLsbD_ofNat, Nat.testBit_two_pow_mul_add _ (Nat.mod_lt _ (Nat.two_pow_pos _)),
    Nat.testBit_two_pow_mul_add _ (Nat.mod_lt _ (Nat.two_pow_pos _))]
  simp only [hi, decide_true, Bool.true_and, Nat.testBit_mod_two_pow, Nat.testBit_div_two_pow]
  rcases Nat.lt_or_ge i off with h1 | h1
  · simp only [h1, Nat.not_le.mpr h1, decide_true, Bool.true_and, if_true, false_and, if_false]
    rfl
  rcases Nat.lt_or_ge (i - off) n with h2 | h2
  · simp only [h1, Nat.not_lt.mpr h1, h2, if_false, if_true, and_self, decide_true, Bool.true_and]
    rfl
  · have hs : i - off - n + n + off = i := by omega
    simp only [Nat.not_lt.mpr h1, Nat.not_lt.mpr h2, if_false, and_false, hs]
    rfl

end

/-! ## Operands at a width -/

/-- The sources at width `w`: a pair is read where `w` is 64 (R137). -/
def Ic.in0 (ic : Ic) (w l : Nat) : BitVec w := (ic.src0 (w == 64) l).setWidth w
def Ic.in1 (ic : Ic) (w l : Nat) : BitVec w := (ic.src1 (w == 64) l).setWidth w
def Ic.in2 (ic : Ic) (w l : Nat) : BitVec w := (ic.src2 (w == 64) l).setWidth w

/-- A result at width `w` as the 64 bits that a k register takes (R138). -/
def extRes (signed : Bool) {w : Nat} (x : BitVec w) : Dword := if w = 64 then x.setWidth 64 else ext32 signed (x.setWidth 32)

@[simp] theorem extRes_64 (signed : Bool) (x : BitVec 64) : extRes signed x = x := by simp [extRes]
@[simp] theorem extRes_32 (signed : Bool) (x : BitVec 32) : extRes signed x = ext32 signed x := by simp [extRes]

theorem Ic.w_cases (ic : Ic) : ic.w = 32 ∨ ic.w = 64 := by
  unfold Ic.w wOfTy tyWidth
  split
  · exact .inr rfl
  · exact .inl rfl

theorem divWidth_cases (f : Fields) : divWidth f = 32 ∨ divWidth f = 64 := by
  unfold divWidth
  split
  · exact .inr rfl
  · exact .inl rfl

/-- The narrowed result of R138 is that of the result modulo 2^w. -/
theorem intRes_eq {w : Nat} (hw : w = 32 ∨ w = 64) (signed : Bool) (x : Int) :
    intRes w signed x = extRes signed (BitVec.ofInt w x) := by
  rcases hw with rfl | rfl <;> simp [intRes]

section
variable (ic : Ic) (l : Nat)

/-- What is computed from the operands at one of the two widths. -/
theorem Ic.atWidth {α : Type} {w : Nat} (hw : w = 32 ∨ w = 64) (k : (w : Nat) → BitVec w → BitVec w → BitVec w → α) :
    (if w = 64 then k 64 (ic.src0 true l) (ic.src1 true l) (ic.src2 true l)
      else k 32 (lo32 (ic.src0 false l)) (lo32 (ic.src1 false l)) (lo32 (ic.src2 false l))) =
      k w (ic.in0 w l) (ic.in1 w l) (ic.in2 w l) := by
  rcases hw with rfl | rfl <;> simp [Ic.in0, Ic.in1, Ic.in2, lo32]

/-- The same for a result of that width (R138). -/
theorem Ic.extAtWidth {w : Nat} (hw : w = 32 ∨ w = 64) (signed : Bool)
    (k : (w : Nat) → BitVec w → BitVec w → BitVec w → BitVec w) :
    (if w = 64 then k 64 (ic.src0 true l) (ic.src1 true l) (ic.src2 true l)
      else ext32 signed (k 32 (lo32 (ic.src0 false l)) (lo32 (ic.src1 false l)) (lo32 (ic.src2 false l)))) =
      extRes signed (k w (ic.in0 w l) (ic.in1 w l) (ic.in2 w l)) := by
  simpa using ic.atWidth l hw fun w a b c => extRes signed (k w a b c)

theorem Ic.wide_iff : ic.wide = true ↔ ic.w = 64 := beq_iff_eq

theorem Ic.bv1_eq (g : (w : Nat) → BitVec w → BitVec w) : ic.bv1 l g = extRes ic.signed (g ic.w (ic.in0 ic.w l)) := by
  simp only [Ic.bv1, ic.wide_iff]
  exact ic.extAtWidth l ic.w_cases ic.signed fun w a _ _ => g w a

theorem Ic.bv2_eq (g : (w : Nat) → BitVec w → BitVec w → BitVec w) :
    ic.bv2 l g = extRes ic.signed (g ic.w (ic.in0 ic.w l) (ic.in1 ic.w l)) := by
  simp only [Ic.bv2, ic.wide_iff]
  exact ic.extAtWidth l ic.w_cases ic.signed fun w a b _ => g w a b

theorem Ic.num1_eq (g : (w : Nat) → BitVec w → Nat) : ic.num1 l g = BitVec.ofNat 64 (g ic.w (ic.in0 ic.w l)) := by
  simp only [Ic.num1, ic.wide_iff]
  exact congrArg _ (ic.atWidth l ic.w_cases fun w a _ _ => g w a)

theorem Ic.num2_eq (g : (w : Nat) → BitVec w → BitVec w → Nat) :
    ic.num2 l g = BitVec.ofNat 64 (g ic.w (ic.in0 ic.w l) (ic.in1 ic.w l)) := by
  simp only [Ic.num2, ic.wide_iff]
  exact congrArg _ (ic.atWidth l ic.w_cases fun w a b _ => g w a b)

theorem Ic.divRes_eq (g : (w : Nat) → BitVec w → BitVec w → BitVec w) :
    ic.divRes l g = extRes ic.divSigned (g (divWidth ic.f) (ic.in0 (divWidth ic.f) l) (ic.in1 (divWidth ic.f) l)) :=
  ic.extAtWidth l (divWidth_cases ic.f) ic.divSigned fun w a b _ => g w a b

end

end Sys2Proof.Machine
end

section
/-!
The integer instructions (spec/06_arithmetic.md R142 to R155). Each writes a number made of its operands in each lane, and the statement about it
follows from what that number is modulo 2^w.
-/
namespace Sys2Proof.Machine

/-! ## From what is written to a statement -/

/-- An instruction that R63 step 4 lets through has a modifier that its entry accepts. -/
theorem fateOf_mod {e : Entry} {disabled : Bool} {read : Name → Operand} {roles : Nat} {f : Fields}
    (h : fateOf e disabled read roles f = none) : e.mod f = true := by
  refine Decidable.byContradiction fun hm => ?_
  rw [Bool.not_eq_true] at hm
  simp only [fateOf, hm, Bool.false_and, Bool.not_false, if_true] at h
  repeat' split at h
  all_goals cases h

/-- Without an early trap R63 step 4 lets the instruction through. -/
theorem earlyTrap_fateOf {e : Entry} {f : Fields} {s : State} {act : Mask} (h : earlyTrap e f s act = none) :
    fateOf e (s.part.emuOpc.contains e.opc) (nameReader s.m) s.team.roles.length f = none := by
  rw [Option.eq_none_iff_forall_ne_some]
  intro c hc
  simp only [earlyTrap, hc] at h
  split at h
  · cases h
  · split at h
    · cases h
    · split at h <;> cases h

theorem started_mod {e : Entry} {f : Fields} {s s' : State} {ic : Ic} (h : started e f s = some (ic, s')) :
    e.mod ic.f = true := by
  obtain ⟨-, -, -, -, hb⟩ := started_inv h
  obtain ⟨rfl, -⟩ := started_ic h
  exact fateOf_mod (earlyTrap_fateOf (beginIssue_early hb))

section
variable {e : Entry} {i : Fields → Instr}

/-- An instruction whose body always ends in a state goes on in it at the next instruction. -/
theorem completes_of_ok {body : Fields → Ic → State → Act} {eff : Ic → State → State}
    (hx : ∀ f s, exec (i f) s = issue e f s (body f))
    (hb : ∀ ic s, e.mod ic.f = true → body ic.f ic s = .ok (eff ic s)) :
    Completes e i (fun _ _ => True) fun ic s => ic.adv (eff ic s) := by
  intro f s ic s' h _
  obtain ⟨rfl, -⟩ := started_ic h
  rw [hx]
  exact started_ok h (hb ic s' (started_mod h))

/-- An instruction writes what its body writes, lane by lane. -/
theorem writes_of_lanes {wide : Fields → Ic → Bool} {x : Fields → Ic → Nat → Dword} {res : Ic → Nat → Dword}
    (hx : ∀ f s, exec (i f) s = issue e f s fun ic s => .ok (ic.write s (wide f ic) (x f ic)))
    (hr : ∀ ic l, e.mod ic.f = true → x ic.f ic l = res ic l) : Writes e i (fun ic => wide ic.f ic) res :=
  completes_of_ok hx fun ic s hm => by rw [funext fun l => hr ic l hm]

section
variable {x : Fields → Ic → Nat → Int} (hx : ∀ f s, exec (i f) s = issue e f s fun ic s => intAct ic s (x f ic))
include hx

/-- An instruction writes its exact result, narrowed to the type's width (R138). -/
theorem writes_of_intAct {res : Ic → Nat → Dword}
    (hr : ∀ ic l, e.mod ic.f = true → intRes ic.w ic.signed (x ic.f ic l) = res ic l) : Writes e i Ic.wide res :=
  writes_of_lanes (wide := fun _ => Ic.wide) (x := fun f ic l => intRes ic.w ic.signed (x f ic l)) hx hr

/-- It writes an operation on S0, where the exact result is that operation modulo 2^w. -/
theorem writes_bv1 {g : Ic → Nat → (w : Nat) → BitVec w → BitVec w}
    (hg : ∀ ic l, BitVec.ofInt ic.w (x ic.f ic l) = g ic l ic.w (ic.in0 ic.w l)) :
    Writes e i Ic.wide fun ic l => ic.bv1 l (g ic l) :=
  writes_of_intAct hx fun ic l _ => by rw [intRes_eq ic.w_cases, hg, Ic.bv1_eq]

/-- It writes an operation on S0 and S1. -/
theorem writes_bv2 {g : Ic → Nat → (w : Nat) → BitVec w → BitVec w → BitVec w}
    (hg : ∀ ic l, BitVec.ofInt ic.w (x ic.f ic l) = g ic l ic.w (ic.in0 ic.w l) (ic.in1 ic.w l)) :
    Writes e i Ic.wide fun ic l => ic.bv2 l (g ic l) :=
  writes_of_intAct hx fun ic l _ => by rw [intRes_eq ic.w_cases, hg, Ic.bv2_eq]

end

/-- With SAT the exact result is clamped to the type's range; without, what is written is its low bits (R142). -/
theorem writes_settled {x : Fields → Ic → Nat → Int} {wrapped : Ic → Nat → Dword}
    (hx : ∀ f s, exec (i f) s = issue e f s fun ic s => intAct ic s fun l => ic.settle (x f ic l))
    (hw : ∀ ic l, e.mod ic.f = true → extRes ic.signed (BitVec.ofInt ic.w (x ic.f ic l)) = wrapped ic l) :
    Writes e i Ic.wide fun ic l =>
      if ic.sat then intRes ic.w ic.signed (clampInt (tyMin ic.w ic.signed) (tyMax ic.w ic.signed) (x ic.f ic l))
      else wrapped ic l :=
  writes_of_intAct (x := fun f ic l => ic.settle (x f ic l)) hx fun ic l hm => by
    rw [← hw ic l hm, ← intRes_eq ic.w_cases, Ic.settle, apply_ite (intRes ic.w ic.signed)]

/-- A bitwise operation on 64 bits, narrowed, is the operation on the narrowed operands (R151). -/
theorem writes_bitAct {g : Dword → Dword → Dword} {h : (w : Nat) → BitVec w → BitVec w → BitVec w}
    (hx : ∀ f s, exec (i f) s = issue e f s fun ic s => bitAct ic s g)
    (hg : ∀ w, w ≤ 64 → ∀ a b : Dword, (g a b).setWidth w = h w (a.setWidth w) (b.setWidth w)) :
    Writes e i Ic.wide fun ic l => ic.bv2 l h :=
  writes_bv2 (x := fun _ ic l => (g (ic.src0 ic.wide l) (ic.src1 ic.wide l)).toInt) hx fun ic l => by
    have hw : ic.w ≤ 64 := by rcases ic.w_cases with h | h <;> omega
    exact (BitVec.signExtend_eq_setWidth_of_le _ hw).trans (hg ic.w hw _ _)

/-- A count or truth value is 32 bits wide at every width (R149, R153). -/
theorem writes_count {x : Fields → Ic → Nat → Nat} {res : Ic → Nat → Dword}
    (hx : ∀ f s, exec (i f) s = issue e f s fun ic s => countAct ic s (x f ic))
    (hr : ∀ ic l, BitVec.ofNat 64 (x ic.f ic l) = res ic l) : Writes e i (fun _ => false) res :=
  writes_of_lanes (wide := fun _ _ => false) (x := fun f ic l => BitVec.ofNat 64 (x f ic l)) hx fun ic l _ => hr ic l

/-- A division writes a part of the quotient and remainder, at its own width (R155). -/
theorem writes_division {part : Int × Int → Int} {g : Ic → (w : Nat) → BitVec w → BitVec w → BitVec w}
    (hx : ∀ f s, exec (i f) s = issue e f s fun ic s => divAct ic s part)
    (hg : ∀ ic w (a b : BitVec w), 0 < w →
      BitVec.ofInt w (part (divRem w ic.divSigned (bvVal ic.divSigned a) (bvVal ic.divSigned b))) = g ic w a b) :
    Writes e i (fun ic => divWidth ic.f == 64) fun ic l => ic.divRes l (g ic) :=
  completes_of_ok hx fun ic s _ => by
    have hw := divWidth_cases ic.f
    have hpos : 0 < divWidth ic.f := by omega
    refine congrArg (fun r => Act.ok (ic.write s (divWidth ic.f == 64) r)) (funext fun l => ?_)
    dsimp only
    rw [Ic.divRes_eq, ← hg ic _ _ _ hpos, ← intRes_eq hw]
    rfl

end

/-! ## Operands as numbers -/

section
variable (ic : Ic) (l : Nat)

/-- The sources as integers are the values of the operands at the type's width (R141). -/
theorem Ic.i0_eq : ic.i0 l = bvVal ic.signed (ic.in0 ic.w l) := rfl
theorem Ic.i1_eq : ic.i1 l = bvVal ic.signed (ic.in1 ic.w l) := rfl
theorem Ic.i2_eq : ic.i2 l = bvVal ic.signed (ic.in2 ic.w l) := rfl
theorem Ic.n0_eq : ic.n0 l = (ic.in0 ic.w l).toNat := rfl
theorem Ic.n1_eq : ic.n1 l = (ic.in1 ic.w l).toNat := rfl

/-- A lane and the lane that its sources are read from have the same sources (R59). -/
theorem Ic.at_at : ic.at (ic.at l) = ic.at l := by
  unfold Ic.at
  split <;> rfl

theorem Ic.n0_at : ic.n0 (ic.at l) = ic.n0 l := by simp only [Ic.n0, Ic.src0, Ic.at_at]
theorem Ic.n1_at : ic.n1 (ic.at l) = ic.n1 l := by simp only [Ic.n1, Ic.src1, Ic.at_at]
theorem Ic.cond2_at : ic.cond2 (ic.at l) = ic.cond2 l := by simp only [Ic.cond2, Ic.at_at]

end

/-! ## Sums, products and addresses -/

theorem ite_neg_eq_natAbs (x : Int) : (if x < 0 then -x else x) = x.natAbs := by
  split <;> omega

theorem exec_iabs (f : Fields) (s : State) :
    exec (.iabs f) s = issue eIabs f s fun ic s => intAct ic s fun l => ic.settle ((ic.i0 l).natAbs) := by
  simp only [← ite_neg_eq_natAbs]
  rfl

/-- `IABS` has signed types only (R141). -/
theorem signed_of_eIabs {ic : Ic} (h : eIabs.mod ic.f = true) : ic.signed = true := by
  have ht : tyCode ic.f = 4 ∨ tyCode ic.f = 5 := by
    simpa only [tS, List.contains_iff_mem, List.mem_cons, List.not_mem_nil, or_false] using (Bool.and_eq_true_iff.mp h).1
  unfold Ic.signed
  rcases ht with ht | ht <;> rw [ht] <;> rfl

/-- `IMADW` has 32-bit types only (R141). -/
theorem w_of_eImadw {ic : Ic} (h : eImadw.mod ic.f = true) : ic.w = 32 := by
  have ht : tyCode ic.f = 4 ∨ tyCode ic.f = 8 := by
    simpa only [List.contains_iff_mem, List.mem_cons, List.not_mem_nil, or_false] using (Bool.and_eq_true_iff.mp h).1
  unfold Ic.w wOfTy
  rcases ht with ht | ht <;> rw [ht] <;> rfl

/-- A 32-bit index or factor as 64 bits keeps its value (R145, R154). -/
theorem ext32_eq (signed : Bool) (x : Word) : ext32 signed x = BitVec.ofInt 64 (bvVal signed x) := by
  cases signed
  · rw [bvVal_false, BitVec.ofInt_natCast, BitVec.ofNat_toNat]
    rfl
  · rfl

theorem ofInt_two_pow (w n : Nat) : BitVec.ofInt w (2 ^ n) = BitVec.twoPow w n := by
  have h : (2 : Int) ^ n = (2 ^ n : Nat) := by simp
  rw [h, BitVec.ofInt_natCast, ← BitVec.toNat_inj, BitVec.toNat_ofNat, BitVec.toNat_twoPow]

/-- The address of `LEA` (R154). -/
theorem ofInt_address (signed : Bool) (base : Dword) (index off : Word) (sh : Nat) :
    BitVec.ofInt 64 (base.toNat + bvVal signed index * 2 ^ sh + off.toInt) =
      base + ext32 signed index <<< sh + off.signExtend 64 := by
  rw [BitVec.ofInt_add, BitVec.ofInt_add, BitVec.ofInt_mul, ofInt_two_pow, ext32_eq, BitVec.shiftLeft_eq_mul_twoPow,
    BitVec.ofInt_natCast, BitVec.ofNat_toNat, BitVec.setWidth_eq]
  rfl

/-- The sum of `IMADW`: a double-width product and a 64-bit addend (R145). -/
theorem ofInt_wideSum (signed : Bool) (a b : Word) (c : Dword) :
    BitVec.ofInt 64 (bvVal signed a * bvVal signed b + c.toNat) = (wideMul signed 32 a b).setWidth 64 + c := by
  rw [wideMul_eq, BitVec.ofInt_add, BitVec.ofInt_natCast, BitVec.ofNat_toNat, BitVec.setWidth_eq, BitVec.setWidth_eq]

theorem Ic.i0_of_w32 {ic : Ic} (h : ic.w = 32) (l : Nat) : ic.i0 l = bvVal ic.signed (lo32 (ic.src0 false l)) := by
  rw [ic.i0_eq, h]
  rfl

theorem Ic.i1_of_w32 {ic : Ic} (h : ic.w = 32) (l : Nat) : ic.i1 l = bvVal ic.signed (lo32 (ic.src1 false l)) := by
  rw [ic.i1_eq, h]
  rfl

/-- Settles O30, instruction by instruction: what the exact result is modulo 2^w, and with SAT its clamp. -/
theorem integerArithmetic : Obligations.IntegerArithmetic := by
  unfold Obligations.IntegerArithmetic
  refine ⟨?iadd, ?isub, ?iaddi, ?ineg, ?iabs, ?imul, ?imulh, ?imad, ?imadw, ?lea⟩
  case iadd =>
    refine writes_settled (x := fun _ ic l => ic.i0 l + ic.i1 l) (fun _ _ => rfl) fun ic l _ => ?_
    rw [ic.i0_eq, ic.i1_eq, ofInt_add_bvVal, Ic.bv2_eq]
  case isub =>
    refine writes_settled (x := fun _ ic l => ic.i0 l - ic.i1 l) (fun _ _ => rfl) fun ic l _ => ?_
    rw [ic.i0_eq, ic.i1_eq, ofInt_sub_bvVal, Ic.bv2_eq]
  case iaddi =>
    refine writes_settled (x := fun f ic l => ic.i0 l + (imm12 f).toInt) (fun _ _ => rfl) fun ic l _ => ?_
    rw [ic.i0_eq, BitVec.ofInt_add, ofInt_bvVal, Ic.bv1_eq]
    rfl
  case ineg =>
    refine writes_settled (x := fun _ ic l => -ic.i0 l) (fun _ _ => rfl) fun ic l _ => ?_
    rw [ic.i0_eq, ofInt_neg_bvVal, Ic.bv1_eq]
  case iabs =>
    refine writes_settled (x := fun _ ic l => (ic.i0 l).natAbs) exec_iabs fun ic l hm => ?_
    rw [ic.i0_eq, signed_of_eIabs hm, bvVal_true, ofInt_natAbs, Ic.bv1_eq, signed_of_eIabs hm]
  case imul =>
    exact writes_bv2 (x := fun _ ic l => ic.i0 l * ic.i1 l) (fun _ _ => rfl) fun ic l => ofInt_mul_bvVal ic.signed _ _
  case imulh =>
    exact writes_bv2 (x := fun _ ic l => ic.i0 l * ic.i1 l / 2 ^ ic.w) (fun _ _ => rfl) fun ic l => ofInt_mulHigh ic.signed _ _
  case imad =>
    refine writes_of_intAct (x := fun _ ic l => ic.i0 l * ic.i1 l + ic.i2 l) (fun _ _ => rfl) fun ic l _ => ?_
    rw [intRes_eq ic.w_cases, ic.i0_eq, ic.i1_eq, ic.i2_eq, BitVec.ofInt_add, ofInt_mul_bvVal, ofInt_bvVal]
    simp only [ic.wide_iff]
    exact (ic.extAtWidth l ic.w_cases ic.signed fun _ a b c => a * b + c).symm
  case imadw =>
    refine writes_of_lanes (wide := fun _ _ => true)
      (x := fun _ ic l => BitVec.ofInt 64 (ic.i0 l * ic.i1 l + asUnsigned 64 (ic.src2 true l))) (fun _ _ => rfl) fun ic l hm => ?_
    have hw := w_of_eImadw hm
    rw [Ic.i0_of_w32 hw, Ic.i1_of_w32 hw, ← ofInt_wideSum, asUnsigned, BitVec.setWidth_eq]
  case lea =>
    exact writes_of_lanes (wide := fun _ _ => true)
      (x := fun f ic l => BitVec.ofInt 64
        ((ic.src0 true l).toNat + byType 32 ic.signed (ic.src1 false l) * 2 ^ modBits f 6 4 + asSigned 32 (ic.src2 false l)))
      (fun _ _ => rfl) fun ic l _ => ofInt_address ic.signed _ (lo32 (ic.src1 false l)) (lo32 (ic.src2 false l)) _

/-! ## Carries -/

section
variable {w : Nat} (a b : BitVec w) (c : Nat)

theorem ofInt_add_carry : BitVec.ofInt w (a.toNat + b.toNat + c) = a + b + BitVec.ofNat w c := by
  simp only [BitVec.ofInt_add, BitVec.ofInt_natCast, BitVec.ofNat_toNat, BitVec.setWidth_eq]

theorem ofInt_sub_borrow : BitVec.ofInt w (a.toNat - b.toNat - c) = a - b - BitVec.ofNat w c := by
  simp only [ofInt_sub, BitVec.ofInt_natCast, BitVec.ofNat_toNat, BitVec.setWidth_eq]

end

/-- A result with a carry: the destination first, then the predicate that MOD names (R146). -/
theorem completes_carry {e : Entry} {i : Fields → Instr} {x : Ic → Nat → Int} {out : Ic → Int → Bool}
    {g : Ic → Nat → (w : Nat) → BitVec w → BitVec w → BitVec w} {c : Ic → Nat → Bool}
    (hx : ∀ f s, exec (i f) s = issue e f s fun ic s =>
      .ok (carryOut ic (ic.write s ic.wide fun l => intRes ic.w ic.signed (x ic l)) fun l => out ic (x ic l)))
    (hg : ∀ ic l, BitVec.ofInt ic.w (x ic l) = g ic l ic.w (ic.in0 ic.w l) (ic.in1 ic.w l))
    (hc : ∀ ic l, out ic (x ic (ic.at l)) = c ic l) :
    Completes e i (fun _ _ => True) fun ic s =>
      ic.adv (setP (ic.write s ic.wide fun l => ic.bv2 l (g ic l)) (modBits ic.f 6 4) ic.act (maskOf ic.n (c ic))) :=
  completes_of_ok hx fun ic s _ => by
    have hr : (fun l => intRes ic.w ic.signed (x ic l)) = fun l => ic.bv2 l (g ic l) :=
      funext fun l => by rw [intRes_eq ic.w_cases, hg, Ic.bv2_eq]
    simp only [carryOut, hr, hc]

/-- The highest set bit of `CLZ`, where there is one (R153). -/
theorem exec_clz (f : Fields) (s : State) :
    exec (.clz f) s = issue eClz f s fun ic s =>
      countAct ic s fun l => (bitsBelow ic.w (ic.n0 l)).getLast?.elim ic.w (ic.w - 1 - ·) := by
  refine congrArg (issue eClz f s) (funext fun ic => funext fun s => congrArg (countAct ic s) (funext fun l => ?_))
  cases (bitsBelow ic.w (ic.n0 l)).getLast? <;> rfl

/-- Settles O31, instruction by instruction: a carry through `completes_carry`, a count or comparison through `writes_count`, a quotient or
remainder through `writes_division`, and the others by what they write modulo 2^w. -/
theorem integerChoicesAndBits : Obligations.IntegerChoicesAndBits := by
  unfold Obligations.IntegerChoicesAndBits
  refine ⟨⟨?addc, ?subb, ?imin, ?imax, ?icmp, ?popc, ?clz, ?ctz, ?idiv, ?irem⟩,
    ?shl, ?shr, ?sar, ?rot, ?and, ?or, ?xor, ?andn, ?not, ?bfx, ?bfi, ?brev⟩
  case addc =>
    refine completes_carry (x := fun ic l => ic.n0 l + ic.n1 l + bnat (ic.cond2 l)) (out := fun ic x => 2 ^ ic.w ≤ x)
      (fun _ _ => rfl) (fun ic l => ofInt_add_carry _ _ _) fun ic l => ?_
    rw [ic.n0_at, ic.n1_at, ic.cond2_at]
    norm_cast
  case subb =>
    refine completes_carry (x := fun ic l => ic.n0 l - ic.n1 l - bnat (ic.cond2 l)) (out := fun ic x => x < 0)
      (fun _ _ => rfl) (fun ic l => ofInt_sub_borrow _ _ _) fun ic l => ?_
    rw [ic.n0_at, ic.n1_at, ic.cond2_at, decide_eq_decide]
    omega
  case imin =>
    exact writes_bv2 (x := fun _ ic l => min (ic.i0 l) (ic.i1 l)) (fun _ _ => rfl) fun ic l => ofInt_min ic.signed _ _
  case imax =>
    exact writes_bv2 (x := fun _ ic l => max (ic.i0 l) (ic.i1 l)) (fun _ _ => rfl) fun ic l => ofInt_max ic.signed _ _
  case icmp =>
    refine writes_count (x := fun f ic l => bnat (intCond (modBits f 6 4) (ic.i0 l) (ic.i1 l))) (fun _ _ => rfl) fun ic l => ?_
    rw [ic.i0_eq, ic.i1_eq, intCond_bvVal, Ic.num2_eq]
  case popc =>
    refine writes_count (x := fun _ ic l => (bitsBelow ic.w (ic.n0 l)).length) (fun _ _ => rfl) fun ic l => ?_
    rw [ic.n0_eq, bitsBelow_length, Ic.num1_eq]
  case clz =>
    refine writes_count exec_clz fun ic l => ?_
    rw [ic.n0_eq, bitsBelow_leading, Ic.num1_eq]
  case ctz =>
    refine writes_count (x := fun _ ic l => (bitsBelow ic.w (ic.n0 l)).headD ic.w) (fun _ _ => rfl) fun ic l => ?_
    rw [ic.n0_eq, bitsBelow_headD, Ic.num1_eq]
  case idiv => exact writes_division (part := Prod.fst) (fun _ _ => rfl) fun ic w a b hw => ofInt_quotient _ a b hw
  case irem => exact writes_division (part := Prod.snd) (fun _ _ => rfl) fun ic w a b _ => ofInt_remainder _ a b
  case shl =>
    exact writes_bv1 (x := fun _ ic l => if ic.amount l < ic.w then (ic.n0 l : Int) * 2 ^ ic.amount l else (0 : Nat))
      (fun _ _ => rfl) fun ic l => ofInt_shl _ _
  case shr =>
    exact writes_bv1 (x := fun _ ic l => if ic.amount l < ic.w then (ic.n0 l : Int) / 2 ^ ic.amount l else (0 : Nat))
      (fun _ _ => rfl) fun ic l => ofInt_shr _ _
  case sar =>
    exact writes_bv1 (x := fun _ ic l => asSigned ic.w (ic.src0 ic.wide l) / 2 ^ min (ic.amount l) (ic.w - 1))
      (fun _ _ => rfl) fun ic l => ofInt_sar _ _
  case rot =>
    exact writes_bv1 (x := fun _ ic l => rotl ic.w (ic.n0 l) (ic.amount l)) (fun _ _ => rfl) fun ic l => ofInt_rotl _ _
  case and => exact writes_bitAct (g := fun a b => a &&& b) (fun _ _ => rfl) fun w _ a b => BitVec.setWidth_and
  case or => exact writes_bitAct (g := fun a b => a ||| b) (fun _ _ => rfl) fun w _ a b => BitVec.setWidth_or
  case xor => exact writes_bitAct (g := fun a b => a ^^^ b) (fun _ _ => rfl) fun w _ a b => BitVec.setWidth_xor
  case andn =>
    refine writes_bitAct (g := fun a b => a &&& ~~~b) (fun _ _ => rfl) fun w hw a b => ?_
    rw [BitVec.setWidth_and, BitVec.setWidth_not hw]
  case not =>
    exact writes_bitAct (g := fun a _ => ~~~a) (h := fun _ a _ => ~~~a) (fun _ _ => rfl) fun w hw a _ => BitVec.setWidth_not hw
  case bfx =>
    exact writes_bv1 (x := fun _ ic l =>
        let off := ic.amount l % 256
        let n := clipField ic.w off ((ic.src2 false l).toNat % 256)
        fieldVal ic.signed n (ic.n0 l / 2 ^ off % 2 ^ n))
      (fun _ _ => rfl) fun ic l => ofInt_fieldVal _ _ _ _
  case bfi =>
    exact writes_bv2 (x := fun _ ic l =>
        let off := (ic.src2 false l).toNat % 256
        let n := clipField ic.w off ((ic.src2 false l).toNat / 256 % 256)
        let b := ic.n0 l
        if n == 0 then (b : Int) else (b : Int) - (b : Int) / 2 ^ off % 2 ^ n * 2 ^ off + (ic.n1 l : Int) % 2 ^ n * 2 ^ off)
      (fun _ _ => rfl) fun ic l => ofInt_insert _ _ _ _
  case brev => exact writes_bv1 (x := fun _ ic l => revBits ic.w (ic.n0 l)) (fun _ _ => rfl) fun ic l => ofInt_revBits _

end Sys2Proof.Machine
end

section
/-!
The trap instructions `TRAP` and `BKPT` (R459, R465): each raises USER wherever it is issued, and the class with BK decides where it goes. What an
instruction without an active lane does is said once, for every entry (R63).
-/
namespace Sys2Proof.Machine

/-! ## Where a trap is bound -/

/-- A trap with BK is bound for the supervisor, whatever its class (R442). -/
theorem forSupervisor_of_bk {t : Trap} (h : t.bk = true) : forSupervisor t = true := by simp [forSupervisor, h]

/-- A USER trap is bound for the supervisor by BK alone (R442). -/
theorem forSupervisor_user {t : Trap} (h : t.cls = cUser) : forSupervisor t = t.bk := by
  rw [forSupervisor, h]
  rfl

/-! ## An instruction whose effect is a trap -/

section
variable {e : Entry} {i : Fields → Instr}

/-- An instruction whose body is a trap takes it wherever it is issued. -/
theorem traps_always {t : Ic → Trap} (hx : ∀ f s, exec (i f) s = issue e f s fun ic _ => .trap (t ic)) :
    Traps e i (fun _ _ => True) t := traps_of_body (body := fun _ ic _ => .trap (t ic)) hx fun _ _ _ => rfl

end

theorem exec_trap (f : Fields) (s : State) :
    exec (.trap f) s = issue eTrap f s fun ic _ => .trap { cls := cUser, cause := fld (ic.u0 false) 15 0, after := true } := by rfl

theorem exec_bkpt (f : Fields) (s : State) : exec (.bkpt f) s = issue eBkpt f s fun _ _ => .trap { cls := cUser, bk := true } := by rfl

/-! ## An instruction without an active lane -/

/-- A state with the lookahead windows, and the free values, of another. -/
def withLook (s t : State) : State := { t with m := { t.m with look := s.m.look }, free := s.free }

section
variable {e : Entry} {f : Fields} {s : State}

theorem not_malformedAt (hlen : f.len ≠ 3#2) (hblk : s.m.cursor.toNat % 32 + lenBytes f ≤ 32) : malformedAt f s = false := by
  simp [malformedAt, hlen, hblk]

/-- Past a well-formed instruction stands the next one (R61). -/
theorem pastIt_of_not_malformed (h : malformedAt f s = false) : pastIt f s = s.m.cursor + BitVec.ofNat 64 (lenBytes f) := by
  simp [pastIt, h]

/-- Without an active lane an instruction is passed over, whether or not the member executes it; one of its own counts in its lookahead windows
(R47, R63). -/
theorem issueState_inactive (body : Ic → State → Act) (hact : activeLanes s f = 0#128)
    (hbad : unitBad s.m.rf (.p f.preg.toNat) = false) :
    issueState e f s body = passOver (if ownRole f s && !malformedAt f s then lookOn s else s) (pastIt f s) := by
  unfold issueState
  cases hx : executes e f s with
  | false => rfl
  | true => simp [hact, hbad]

/-- With no PRE due, a member that passes over an instruction ends its sleep and moves its cursor. -/
theorem passOver_eq (h : preDue s.m = false) (pc : Dword) :
    passOver s pc = { s with m := { s.m with wait := none, cursor := pc } } := by
  simp [passOver, h, setCursor]

/-- Passing over an instruction that counts in the lookahead windows differs in them alone. -/
theorem withLook_passOver_lookOn (h : preDue s.m = false) (pc : Dword) :
    withLook s (passOver (lookOn s) pc) = passOver s pc := by
  rw [passOver_eq h, passOver_eq (s := lookOn s) h]
  rfl

theorem withLook_passOver (h : preDue s.m = false) (pc : Dword) : withLook s (passOver s pc) = passOver s pc := by
  rw [passOver_eq h]
  rfl

/-- A well-formed instruction without an active lane has no effect but on the cursor, the member's sleep and its lookahead windows (R63). -/
theorem withLook_issueState_inactive (body : Ic → State → Act) (hmal : malformedAt f s = false) (hact : activeLanes s f = 0#128)
    (hpre : preDue s.m = false) (hbad : unitBad s.m.rf (.p f.preg.toNat) = false) :
    withLook s (issueState e f s body) =
      { s with m := { s.m with wait := none, cursor := s.m.cursor + BitVec.ofNat 64 (lenBytes f) } } := by
  rw [issueState_inactive body hact hbad, pastIt_of_not_malformed hmal, ← passOver_eq hpre]
  split
  · exact withLook_passOver_lookOn hpre _
  · exact withLook_passOver hpre _

end

/-! ## TRAP and BKPT -/

/-- Settles O19: the trap is the body of `TRAP`, and USER without BK is not bound for the supervisor. -/
theorem trapInstruction : Obligations.TrapInstruction := by
  unfold Obligations.TrapInstruction
  exact ⟨traps_always exec_trap, fun _ => forSupervisor_user rfl⟩

/-- Settles O20: the trap is the body of `BKPT`, BK binds it for the supervisor, and without an active lane it is passed over. -/
theorem breakpoint : Obligations.Breakpoint := by
  unfold Obligations.Breakpoint
  refine ⟨traps_always exec_bkpt, fun _ => forSupervisor_of_bk, fun f s hlen hblk hact hpre hbad => ?inactive⟩
  case inactive => exact ⟨_, exec_bkpt f s, withLook_issueState_inactive _ (not_malformedAt hlen hblk) hact hpre hbad⟩

end Sys2Proof.Machine
end
